-- ==== Sys2Proof/Word.lean ====
section
/-! DEFINITION. The word types of the core (00_scope.md R9): bytes, and the 32-bit words of CONFIG, STATUS and the
two bit-codec accumulators. Every other quantity of the rules is a natural number. -/

namespace Sys2Proof

/-- "A byte is a natural number in 0..255" (R9). -/
abbrev Byte := BitVec 8

/-- CONFIG and STATUS (R22, R32), and the accumulators, the one place where a value is truncated (R9, `trunc_32`). -/
abbrev Word32 := BitVec 32

end Sys2Proof
end

