-- ==== Sys2Proof/Config.lean ====
section
/-! DEFINITION. What an implementation fixes (00_scope.md R8): the build parameters, the opaque payload types, and
what a memory cell that nothing has written reads as. -/

namespace Sys2Proof

/-- `ACC_W`: width of each bit-codec accumulator (R8). -/
def Config.accW : Nat := 32

/-- `MAX_FIELD`: the widest field one bit-codec operation moves (R8, R136). -/
def Config.maxField : Nat := 24

/-- `CONFIG_MODE` (R8, R123): CONFIG written by the host, or hardwired to the build's value. -/
inductive ConfigMode where
  | runtime
  | fixed (config : Word32)
deriving DecidableEq, Repr

/-- The build parameters of R8. No rule changes them; the model holds them in State so that every claim ranges over
all of them (log 4). -/
structure Build where
  /-- `IDX_W`, width of the platform index type. -/
  idxW : Nat
  /-- `WBUF_BYTES`, number of cells of WIN. -/
  wbufBytes : Nat
  /-- `CONFIG_MODE`. -/
  mode : ConfigMode
deriving DecidableEq, Repr

/-- The defaults of R8: IDX_W = 32 (D4), WBUF_BYTES = 2^24 (D5); runtime mode (DESIGN CHOICE, log 4). -/
def Config.defaultBuild : Build := { idxW := 32, wbufBytes := 2 ^ 24, mode := .runtime }

/-- A value of the opaque type `OUT` (R8, D23): the core only passes it on (DESIGN CHOICE of carrier, log 3). -/
structure OutVal where
  tag : Nat
deriving DecidableEq, Repr

/-- A value of the opaque type `E_r` (R8, D24; log 3). -/
structure ErrR where
  tag : Nat
deriving DecidableEq, Repr

/-- A value of the opaque type `E_w` (R8, D24; log 3). -/
structure ErrW where
  tag : Nat
deriving DecidableEq, Repr

/-- What a WIN cell that no entry lists holds: no value (R40). -/
def Config.winUnlisted : Option Byte := none

/-- What an IO cell that no entry lists holds: the byte 0 (DESIGN CHOICE, unsafe, log 7: R249 says IO cells always
hold the caller's bytes, and no rule says which). -/
def Config.ioUnlisted : Option Byte := some 0

/-- How many named operations one turn of the core does beyond the first, at reset (DESIGN CHOICE, log 1: R38 and D20
leave the step granularity free). So large that a command runs until it ends or waits. -/
def Config.resetQuantum : Nat := 2 ^ 64

end Sys2Proof
end

