-- ==== Sys2Proof/Syntax.lean ====
section
/-! DEFINITION. The instructions of the core (00_scope.md R2): the two tokens of the wire format and the four host
commands, one constructor per row of spec/opcode_table.json. -/

namespace Sys2Proof

/-- A parameter set (R7, R23): offset bits EI, length bits EJ, fill byte C. -/
structure ParamSet where
  ei : Nat
  ej : Nat
  c : Byte
deriving DecidableEq, Repr

/-- One bit-codec field (R67, R130): a value and its width in bits. -/
structure Field where
  value : Nat
  width : Nat
deriving DecidableEq, Repr

/-- The instruction set (R2). Tokens are written with the decoded length, never the length code (R103); commands take
their operands from registers and channels (R102). -/
inductive Instr where
  /-- LIT b (R91, R186). -/
  | lit (b : Byte)
  /-- MATCH offset, length (R92, R187). -/
  | matchTok (offset len : Nat)
  /-- VALIDATE, CMD 0b00 (R221). -/
  | validate
  /-- COMPRESS, CMD 0b01 (R222). -/
  | compress
  /-- DECOMPRESS, CMD 0b10 (R223). -/
  | decompress
  /-- COMPRESS_IN_PLACE, CMD 0b11 (R224). -/
  | compressInPlace
deriving DecidableEq, Repr

end Sys2Proof
end

