-- ==== Sys2Proof/Machine/Params.lean ====
section
/-! DEFINITION. The derived constants (40_parameters.md R121, 10_state.md R24), the parameter checks of VALIDATE
(R120) and the fields of CONFIG (R22). -/

namespace Sys2Proof

/-- N = 2^EI (R121). -/
def ParamSet.n (p : ParamSet) : Nat := 2 ^ p.ei

/-- MASK = N - 1 (R121). -/
def ParamSet.mask (p : ParamSet) : Nat := p.n - 1

/-- P = (1 + EI + EJ) div 9 (R121). -/
def ParamSet.p (p : ParamSet) : Nat := (1 + p.ei + p.ej) / 9

/-- F = 2^EJ + P (R121). -/
def ParamSet.f (p : ParamSet) : Nat := 2 ^ p.ej + p.p

/-- DICT = N - F (R121); positive for every legal pair. -/
def ParamSet.dict (p : ParamSet) : Nat := p.n - p.f

/-- MIN_GAP_SIZE = P + 4 (R121). -/
def ParamSet.gap (p : ParamSet) : Nat := p.p + 4

/-- MIN_OFFSET = (N - F) + MIN_GAP_SIZE (R121). -/
def ParamSet.minOffset (p : ParamSet) : Nat := p.dict + p.gap

/-- The four parameter errors (R241). -/
inductive ParamError where
  | ejIsZero
  | eiNotGreaterThanEj
  | sumTooSmall
  | sumTooLarge
deriving DecidableEq, Repr

/-- The checks of VALIDATE in the source's priority order (R120); `none` is success. -/
def paramError (idxW ei ej : Nat) : Option ParamError :=
  if ej = 0 then some .ejIsZero
  else if ej ≥ ei then some .eiNotGreaterThanEj
  else if ei + ej < 8 then some .sumTooSmall
  else if ei + ej > 24 ∨ ei + 1 ≥ idxW then some .sumTooLarge
  else none

/-- A parameter set VALIDATE accepts under IDX_W (R7, R120). -/
abbrev ParamSet.Legal (idxW : Nat) (p : ParamSet) : Prop := paramError idxW p.ei p.ej = none

/-- CONFIG[7:0], the fill byte (R22). -/
def configC (w : Word32) : Byte := w.extractLsb' 0 8

/-- CONFIG[15:8], the offset bits (R22). -/
def configEI (w : Word32) : Nat := (w.extractLsb' 8 8).toNat

/-- CONFIG[23:16], the length bits (R22). -/
def configEJ (w : Word32) : Nat := (w.extractLsb' 16 8).toNat

/-- The candidate parameter set CONFIG holds (R22, R120). -/
def configParams (w : Word32) : ParamSet := { ei := configEI w, ej := configEJ w, c := configC w }

/-- CONFIG after a write of `w`: bits [31:24] are reserved, "writes ignored, reads 0" (R22). -/
def configWritten (w : Word32) : Word32 := w &&& 0x00FFFFFF#32

end Sys2Proof
end

