-- ==== Sys2Proof/WellFormed.lean ====
section
/-! DEFINITION. Which instructions the encoding admits under a parameter set: MATCH offsets lie in 0..N-1 and lengths
in P+1..F (30_encoding.md R92, R95, R103); every literal byte is legal (R98). -/

namespace Sys2Proof

/-- The offset fits the EI-bit field (R92: 0..N-1). -/
def offsetOk (p : ParamSet) (offset : Nat) : Bool := decide (offset < p.n)

/-- The length has an EJ-bit length code (R95: P+1..F). -/
def lengthOk (p : ParamSet) (len : Nat) : Bool := decide (p.p < len ∧ len ≤ p.f)

/-- An instruction every field of which the encoding admits. -/
def Instr.wf (p : ParamSet) : Instr → Bool
  | .lit _ => true
  | .matchTok offset len => offsetOk p offset && lengthOk p len
  | .validate => true
  | .compress => true
  | .decompress => true
  | .compressInPlace => true

/-- A bit-codec field within the limits of R136: 1 to 24 bits, and the value fits. -/
def Field.ok (f : Field) : Bool :=
  decide (1 ≤ f.width ∧ f.width ≤ Config.maxField ∧ f.value < 2 ^ f.width)

end Sys2Proof
end

