-- ==== Sys2Proof/Decode.lean ====
section
/-! DEFINITION. The wire format and the command codes (30_encoding.md): decoding tokens from a bit stream (R90 to
R98), decoding CMD (R102), and, after it, the encoder (R91, R92, R101). Total on any bits; a refusal has a name. -/

namespace Sys2Proof

/-- Why no instruction is read. -/
inductive DecodeError where
  /-- Fewer bits remain than the field needs: "no more tokens", not an error of the stream (R97). -/
  | endOfStream
deriving DecidableEq, Repr

/-- `bits(v, n)`: v[n-1], …, v[0], most significant first (R10). -/
def bitsOf (v : Nat) : Nat → List Bool
  | 0 => []
  | n + 1 => v.testBit n :: bitsOf v n

/-- The number whose bits, most significant first, these are (R10). -/
def bitsToNat (bs : List Bool) : Nat := bs.foldl (fun acc b => 2 * acc + b.toNat) 0

/-- The eight stream bits b[7] … b[0] of a byte (R10). -/
def byteBits (b : Byte) : List Bool := bitsOf b.toNat 8

/-- The byte whose bits 7..0 these are (R90). -/
def bitsToByte (bs : List Bool) : Byte := BitVec.ofNat 8 (bitsToNat bs)

/-- Width of the field that follows the flag: 8 for LIT, EI + EJ for MATCH (R93). -/
def payloadWidth (p : ParamSet) (flag : Nat) : Nat := if flag = 1 then 8 else p.ei + p.ej

/-- Field assembly (R93, R95): flag 1 is LIT with the byte; flag 0 is MATCH with offset `v >> EJ` and length
`(v & (2^EJ - 1)) + P + 1`. -/
def decodeFields (p : ParamSet) (flag v : Nat) : Instr :=
  if flag = 1 then .lit (BitVec.ofNat 8 v)
  else .matchTok (v >>> p.ej) ((v &&& (2 ^ p.ej - 1)) + p.p + 1)

/-- One token from the front of a stream (R96, R97): the instruction and the bits after it. -/
def decodeToken (p : ParamSet) : List Bool → Except DecodeError (Instr × List Bool)
  | [] => .error .endOfStream
  | flag :: rest =>
    let w := payloadWidth p flag.toNat
    if rest.length < w then .error .endOfStream
    else .ok (decodeFields p flag.toNat (bitsToNat (rest.take w)), rest.drop w)

/-- Tokens until the first incomplete one (R97), at most `fuel` of them. -/
def decodeTokens (p : ParamSet) : Nat → List Bool → List Instr
  | 0, _ => []
  | fuel + 1, bs =>
    match decodeToken p bs with
    | .ok (i, rest) => i :: decodeTokens p fuel rest
    | .error _ => []

/-- All the tokens of a byte stream (R90, R97); a token has at least one bit, so the bit count is fuel enough. -/
def decodeStream (p : ParamSet) (bytes : List Byte) : List Instr :=
  decodeTokens p (8 * bytes.length) (bytes.flatMap byteBits)

/-- CMD[1:0] (R102); all four codes are assigned. -/
def decodeCmd (code : BitVec 2) : Instr :=
  if code = 0b00#2 then .validate
  else if code = 0b01#2 then .compress
  else if code = 0b10#2 then .decompress
  else .compressInPlace

/-- The code the host writes to CMD (R102); tokens have none. -/
def cmdCode : Instr → Option (BitVec 2)
  | .lit _ => none
  | .matchTok _ _ => none
  | .validate => some 0b00#2
  | .compress => some 0b01#2
  | .decompress => some 0b10#2
  | .compressInPlace => some 0b11#2

/-- The bit-codec fields of a token (R101): LIT is one 9-bit field `0x100 | b`; MATCH is the flag 0, then the
(EI + EJ)-bit payload `(o << EJ) | (len - P - 1)` (R92). A command is no part of a stream. -/
def encodeFields (p : ParamSet) : Instr → List Field
  | .lit b => [{ value := 0x100 ||| b.toNat, width := 9 }]
  | .matchTok offset len =>
    [{ value := 0, width := 1 },
     { value := (offset <<< p.ej) ||| (len - p.p - 1), width := p.ei + p.ej }]
  | .validate => []
  | .compress => []
  | .decompress => []
  | .compressInPlace => []

/-- The stream bits of a list of fields, in call order (R133). -/
def fieldBits (fs : List Field) : List Bool := fs.flatMap fun f => bitsOf f.value f.width

/-- The encoder: `bits(T)` of a token (R91, R92); the two bits CMD[1:0] of a command (R102). -/
def encode (p : ParamSet) (i : Instr) : List Bool :=
  match cmdCode i with
  | some code => bitsOf code.toNat 2
  | none => fieldBits (encodeFields p i)

/-- A bit string cut into bytes, the last one padded with zeros (R90). -/
def packBytes : List Bool → List Byte
  | [] => []
  | b7 :: b6 :: b5 :: b4 :: b3 :: b2 :: b1 :: b0 :: rest =>
    bitsToByte [b7, b6, b5, b4, b3, b2, b1, b0] :: packBytes rest
  | short => [bitsToByte (short ++ List.replicate (8 - short.length) false)]

/-- The compressed stream of a token sequence (R90). -/
def encodeStream (p : ParamSet) (ts : List Instr) : List Byte := packBytes (ts.flatMap (encode p))

/-- The parameter set under which a token word of spec/opcode_table.json is read (log 13): EI = 5, EJ = 3 makes both
tokens 9 bits long, the width the table gives LIT and the least it gives MATCH. -/
def tableParams : ParamSet := { ei := 5, ej := 3, c := 0x20#8 }

/-- The bytes of a 9-bit token word, first stream bit most significant, padded at the end (R90). -/
def tableBytes (w : Nat) : List Byte := packBytes (bitsOf w 9)

/-- The instruction in a word of the opcode table: up to 8 bits a CMD write (its two bits), more bits a 9-bit token
(log 13). -/
def decodeTableWord (nbits w : Nat) : Option Instr :=
  if nbits ≤ 8 then
    if w < 4 then some (decodeCmd (BitVec.ofNat 2 w)) else none
  else if w < 512 then
    match decodeToken tableParams ((tableBytes w).flatMap byteBits) with
    | .ok (i, _) => some i
    | .error _ => none
  else none

end Sys2Proof
end

