-- ==== Sys2Proof/Machine/State.lean ====
section
/-! DEFINITION. The state of the core (10_state.md) as plain data, the ways a step can stop, and the state after
reset (10_state.md R45, 70_reset_and_hazards.md R270). -/

namespace Sys2Proof.Machine

/-- A byte memory: (address, byte) cells, addresses strictly rising, none equal to what an unlisted address holds
(`Config.winUnlisted`, `Config.ioUnlisted`; `Memory.wf` of Machine/Ops.lean). -/
abbrev Memory := List Host.Cell

/-- The faults of the model. The spec's own faults (R246, R249) are states, not these: a step to FAULT is a next
state. Both constructors are safe: no rule makes such an access (R61, R200), and the claims say so. -/
inductive Fault where
  /-- A WIN access at an index outside 0..WBUF_BYTES-1 (R60). Raised by the window operations; safe (log 12). -/
  | winIndexOutOfRange
  /-- An IO access by the core at an index outside 0..L-1 (R60, R62). Raised by the in-place operations; safe
  (log 12). -/
  | ioIndexOutOfRange
deriving DecidableEq, Repr

/-- The refusals: situations the spec gives no meaning (R248), all safe. -/
inductive Refusal where
  /-- An instruction without a meaning; raised by `exec` only; safe. -/
  | notModelled (mnemonic : String)
  /-- R248 CommandWhileBusy: CMD written while STATE = BUSY. Raised by the four commands; safe. -/
  | commandWhileBusy
  /-- R248 NoValidConfig: a data command, or a token, while PS has no value. Raised by COMPRESS, DECOMPRESS,
  COMPRESS_IN_PLACE, LIT, MATCH and the running phases; safe. -/
  | noValidConfig
  /-- R248 FieldOutOfRange: a bit-codec call outside R136. Raised by `readBits` and `writeBits`; safe. -/
  | fieldOutOfRange
  /-- A token outside a running DECOMPRESS, the only place the rules execute one (R185). Raised by LIT and MATCH; safe
  (log 18). -/
  | tokenOutsideDecompress
  /-- A host read of a RESULT register that holds no value (R34; 93 section 2). Raised by the host port; safe
  (log 20). -/
  | noResultValue
  /-- A host access to IO while COMPRESS_IN_PLACE is BUSY (R42; 93 section 2). Raised by the host port; safe (log 19). -/
  | hostIoWhileBusy
  /-- A host write of IP_L or IP_OFFSET that IDX_W bits do not hold (R30). Raised by the host port; safe (log 11). -/
  | operandTooWide
deriving DecidableEq, Repr

/-- The phases of a BUSY sequencer (R38); the constructor's prefix tells the command. -/
inductive Phase where
  /-- VALIDATE, holding the CONFIG value it was issued with (R120, R220). -/
  | vCheck (config : Word32)
  /-- C_INIT (R150). -/
  | cInit
  /-- C_FILL, the first fill (R151). -/
  | cFill
  /-- C_SEARCH with the loop test (R152). -/
  | cSearch
  /-- C_EMIT, the token decision (R180). -/
  | cEmit
  /-- C_EMIT, the fields of the token still to be written (R101, R130). -/
  | cWrite (fields : List Field)
  /-- C_COMPACT (R155). -/
  | cCompact
  /-- C_REFILL (R155). -/
  | cRefill
  /-- C_FLUSH (R132). -/
  | cFlush
  /-- C_FINISH (R222). -/
  | cFinish
  /-- D_INIT (R160). -/
  | dInit
  /-- D_FLAG (R185). -/
  | dFlag
  /-- D_LIT, reading the literal byte or executing it (R185, R186). -/
  | dLit
  /-- D_LIT, the byte waiting for the sink (R161). -/
  | dPut (b : Byte)
  /-- D_MATCH, reading the payload or executing it (R185, R187). -/
  | dMatch
  /-- D_COPY(k) of a match (R187), waiting for the sink. -/
  | dCopy (offset len k : Nat)
  /-- D_FINISH (R223). -/
  | dFinish
  /-- IP_CHECK (R201). -/
  | ipCheck
  /-- IP_SEED, the k-th of its writes (R202). -/
  | ipSeed (k : Nat)
  /-- IP_SEARCH with the loop test (R203). -/
  | ipSearch
  /-- IP_EMIT, the token decision (R180). -/
  | ipEmit
  /-- IP_EMIT, the fields of the token still to be written (R101, R130). -/
  | ipWrite (fields : List Field)
  /-- IP_GATE (R205). -/
  | ipGate
  /-- IP_FLUSH and the end: `gated` when the gate tripped (R205), else the normal end (R206). -/
  | ipFlush (gated : Bool)
deriving DecidableEq, Repr

/-- SEQ (R38). -/
inductive SeqState where
  | idle
  | done
  | error
  | fault
  | busy (phase : Phase)
deriving DecidableEq, Repr

/-- The registers the host writes (R22, R31). -/
structure CfgRegs where
  /-- CONFIG. -/
  config : Word32
  /-- CMD. -/
  cmd : BitVec 2
  /-- IP_L. -/
  ipL : Nat
  /-- IP_OFFSET. -/
  ipOffset : Nat
deriving DecidableEq, Repr

/-- What a command leaves for the host: STATUS.ERRCODE and STATUS.IP_REST_VALID (R32) and the RESULT registers, each
a value or no value (R34). -/
structure ResultRegs where
  errCode : BitVec 4
  ipRestValid : Bool
  output : Option OutVal
  errR : Option ErrR
  errW : Option ErrW
  ipLen : Option Nat
  ipRest : Option Nat
deriving DecidableEq, Repr

/-- A bit-codec accumulator and its count of valid bits: BW_ACC and BW_CNT (R25), or BR_ACC and BR_CNT (R26). -/
structure BitAcc where
  acc : Word32
  cnt : Nat
deriving DecidableEq, Repr

/-- The streaming-compression pointers C_R, C_S and C_BE (R27). -/
structure CompPtrs where
  r : Nat
  s : Nat
  be : Nat
deriving DecidableEq, Repr

/-- The match-search registers (R29). -/
structure SearchRegs where
  x : Nat
  y : Nat
  f1 : Nat
  i : Nat
  j : Nat
  c : Byte
deriving DecidableEq, Repr

/-- The in-place registers (R30): the working copies L and offset (R220, R224), IP_S, IP_R, IP_OUT, IP_OFFSET2. -/
structure InPlaceRegs where
  len : Nat
  off : Nat
  s : Nat
  r : Nat
  out : Nat
  offset2 : Nat
deriving DecidableEq, Repr

/-- An answer to SrcRead (R11). -/
inductive SrcAnswer where
  | byte (b : Byte)
  | endOfData
  | err (e : ErrR)
deriving DecidableEq, Repr

/-- An answer to SnkWrite (R12). -/
inductive WriteAnswer where
  | ok
  | err (e : ErrW)
deriving DecidableEq, Repr

/-- An answer to SnkFinish (R12). -/
inductive FinishAnswer where
  | ok (o : OutVal)
  | err (e : ErrW)
deriving DecidableEq, Repr

/-- The sink's answers still to be given (log 2): one for each SnkWrite; after them, `Ok` to every later SnkWrite if the
sink is `accepting`, else none yet; and the answer to SnkFinish, or none yet. -/
structure Sink where
  writes : List WriteAnswer
  accepting : Bool
  fin : Option FinishAnswer
deriving DecidableEq, Repr

/-- An external transaction (R226). -/
inductive Event where
  | srcRead (a : SrcAnswer)
  | snkWrite (b : Byte) (a : WriteAnswer)
  | snkFinish (a : FinishAnswer)
  | ioWrite (addr : Nat) (b : Byte)
deriving DecidableEq, Repr

/-- What the host may read (R35), and a cell of IO, which is the host's own (R42). -/
inductive HostReg where
  | config
  | cfgValid
  | status
  | resOutput
  | resErrR
  | resErrW
  | resIpLen
  | resIpRest
  | ioCell (addr : Nat)
deriving DecidableEq, Repr

/-- A value the host has read. -/
inductive HostValue where
  | word (w : Word32)
  | bit (b : Bool)
  | output (o : OutVal)
  | errR (e : ErrR)
  | errW (e : ErrW)
  | index (n : Nat)
  | byte (b : Byte)
deriving DecidableEq, Repr

/-- A move of the host (R35, R42, R220, R270, R271) or of a channel (R11, R12), in the order they happen (log 1). -/
inductive Act where
  /-- The host writes CMD (R220). -/
  | writeCmd (code : BitVec 2)
  /-- The host writes CONFIG (R22). -/
  | writeConfig (w : Word32)
  /-- The host writes IP_L (R31). -/
  | writeIpL (v : Nat)
  /-- The host writes IP_OFFSET (R31). -/
  | writeIpOffset (v : Nat)
  /-- The host reads a register or its own IO memory (R35, R42). -/
  | read (reg : HostReg)
  /-- The host writes a byte of its own IO memory (R42). -/
  | writeIo (addr : Nat) (b : Byte)
  /-- A source is connected (R271); during a command too (log 23). -/
  | connectSrc (answers : List SrcAnswer)
  /-- The source has more answers ready, connected or not (log 23). -/
  | srcGives (answers : List SrcAnswer)
  /-- A sink is connected (R271); during a command too (log 23). -/
  | connectSnk (sink : Sink)
  /-- The sink has more SnkWrite answers ready, closed or not (log 23). -/
  | snkGives (answers : List WriteAnswer)
  /-- The sink accepts every further SnkWrite, closed or not (log 23). -/
  | snkAccepts
  /-- The sink has its SnkFinish answer ready, closed or not (log 23). -/
  | snkFinishes (answer : FinishAnswer)
  /-- The host lets the core have a turn. -/
  | pass
  /-- Reset (R270). -/
  | reset
deriving DecidableEq, Repr

/-- The whole machine. Field by field: INVENTORY.md, '## State'. -/
structure State where
  /-- IDX_W, WBUF_BYTES, CONFIG_MODE (R8); never changed (log 4). -/
  build : Build
  /-- CONFIG, CMD, IP_L, IP_OFFSET. -/
  cfg : CfgRegs
  /-- PS, and with it CFG_VALID: 1 exactly when PS holds a value (R23, log 6). -/
  ps : Option ParamSet
  /-- SEQ, and with it STATUS.STATE (R33). -/
  seq : SeqState
  /-- ERRCODE, IP_REST_VALID and the RESULT registers. -/
  res : ResultRegs
  /-- BW_ACC, BW_CNT. -/
  bw : BitAcc
  /-- BR_ACC, BR_CNT. -/
  br : BitAcc
  /-- C_R, C_S, C_BE. -/
  cp : CompPtrs
  /-- D_R (R28). -/
  dR : Nat
  /-- x, y, f1, i, j, c. -/
  sr : SearchRegs
  /-- The in-place registers. -/
  ip : InPlaceRegs
  /-- WIN (R39). -/
  win : Memory
  /-- IO (R42). -/
  io : Memory
  /-- The source's answers still to be given (log 2): the last `endOfData` stands for every later one. -/
  src : List SrcAnswer
  /-- The sink's answers still to be given (log 2). -/
  snk : Sink
  /-- The moves still to come (log 1). -/
  script : List Act
  /-- What the host has read, newest first (log 14). -/
  reads : List (HostReg × HostValue)
  /-- The external transactions so far, newest first (R226, log 14). -/
  history : List Event
  /-- How many named operations the core does in one turn beyond the first (R38, log 1). -/
  quantum : Nat
deriving DecidableEq, Repr

/-- RESULT registers with no value, ERRCODE 0, IP_REST_VALID 0 (R34, R45, R220). -/
def ResultRegs.clear : ResultRegs :=
  { errCode := 0, ipRestValid := false, output := none, errR := none, errW := none, ipLen := none, ipRest := none }

/-- CONFIG after reset (R45): 0, or the build's value. -/
def resetConfig (b : Build) : Word32 :=
  match b.mode with
  | .runtime => 0
  | .fixed config => config

/-- PS after reset (R45): no value, or the build's values. -/
def resetPs (b : Build) : Option ParamSet :=
  match b.mode with
  | .runtime => none
  | .fixed config => some (configParams config)

/-- The machine of build `b` right after power-on reset (R45, R270). A register R45 gives no value holds 0
(DESIGN CHOICE, unsafe, log 5); no channel is connected and no move is pending (log 2, log 1). -/
def State.resetOf (b : Build) : State :=
  { build := b
    cfg := { config := resetConfig b, cmd := 0, ipL := 0, ipOffset := 0 }
    ps := resetPs b
    seq := .idle
    res := ResultRegs.clear
    bw := { acc := 0, cnt := 0 }
    br := { acc := 0, cnt := 0 }
    cp := { r := 0, s := 0, be := 0 }
    dR := 0
    sr := { x := 0, y := 0, f1 := 0, i := 0, j := 0, c := 0 }
    ip := { len := 0, off := 0, s := 0, r := 0, out := 0, offset2 := 0 }
    win := []
    io := []
    src := []
    snk := { writes := [], accepting := false, fin := none }
    script := []
    reads := []
    history := []
    quantum := Config.resetQuantum }

/-- The machine right after reset, under the default build parameters (R8, R45). -/
def State.reset : State := State.resetOf Config.defaultBuild

end Sys2Proof.Machine
end

