-- ==== Sys2Proof/Machine/Ops.lean ====
section
/-! DEFINITION. The named operations: byte memories (R13, R40, R60), the channels (R11, R12), and ending a command
(R225, R244), which every error, fault and normal ending goes through. -/

namespace Sys2Proof.Machine

/-! ## What an operation answers -/

/-- The answer of an operation of the core: it is done; it waits for a channel that has not answered, the state being
what it was; it has ended the command (STATUS and RESULT are written); or the model stops. -/
inductive Res (α : Type) where
  | ok (a : α) (s : State)
  | waits (s : State)
  | ended (s : State)
  | faulted (f : Fault)
  | refused (r : Refusal)
deriving DecidableEq, Repr

/-- The outcome of a step that is one operation. -/
def Res.outcome {α : Type} : Res α → Host.Outcome State Fault Refusal
  | .ok _ s => .next s
  | .waits s => .next s
  | .ended s => .next s
  | .faulted f => .fault f
  | .refused r => .refused r

/-- One operation after another: the second runs only if the first is done. -/
def Res.andThen {α β : Type} (r : Res α) (next : α → State → Res β) : Res β :=
  match r with
  | .ok a s => next a s
  | .waits s => .waits s
  | .ended s => .ended s
  | .faulted f => .faulted f
  | .refused x => .refused x

/-! ## Byte memories -/

/-- The listed byte at an address. -/
def memGet : Memory → Nat → Option Byte
  | [], _ => none
  | (k, v) :: m, a => if k = a then some v else memGet m a

/-- List the byte `v` at address `a`. -/
def memPut : Memory → Nat → Byte → Memory
  | [], a, v => [(a, v)]
  | (k, w) :: m, a, v =>
    if a < k then (a, v) :: (k, w) :: m
    else if a = k then (a, v) :: m
    else (k, w) :: memPut m a v

/-- List nothing at address `a`. -/
def memDel (m : Memory) (a : Nat) : Memory := m.filter fun cell => cell.1 != a

/-- What address `a` holds, `unlisted` being what an unlisted address holds. -/
def memRead (unlisted : Option Byte) (m : Memory) (a : Nat) : Option Byte :=
  (memGet m a).or unlisted

/-- Store `v` at address `a`, in the canonical form. -/
def memWrite (unlisted : Option Byte) (m : Memory) (a : Nat) (v : Byte) : Memory :=
  if unlisted = some v then memDel m a else memPut m a v

/-- The canonical form: addresses strictly rising, no entry equal to what an unlisted address holds. -/
abbrev Memory.wf (unlisted : Option Byte) (m : Memory) : Prop :=
  m.Pairwise (fun a b => a.1 < b.1) ∧ ∀ cell ∈ m, unlisted ≠ some cell.2

/-- Cells 0..n-1 hold `c`, every other cell no value: WIN at the start of a command (R46, R150, R160). -/
def memFill (n : Nat) (c : Byte) : Memory := (List.range n).map fun k => (k, c)

/-- Cells [n, 2n) copied to [0, n), every other cell as it was (R78, R155). A cell that holds no value is copied as
such (DEDUCED, log 9). -/
def memMoveDown (n : Nat) (m : Memory) : Memory :=
  ((m.filter fun cell => decide (n ≤ cell.1 ∧ cell.1 < 2 * n)).map fun cell => (cell.1 - n, cell.2))
    ++ m.filter fun cell => decide (n ≤ cell.1)

/-! ## Reads and writes of WIN and IO -/

/-- Why a memory access gives no byte. -/
inductive MemStop where
  /-- The index is outside the space. -/
  | outside (f : Fault)
  /-- The WIN cell holds no value (R40). -/
  | noValue
deriving DecidableEq, Repr

/-- `MemRead(WIN:a, 1)` (R13, R40). -/
def winRead (s : State) (a : Nat) : Except MemStop Byte :=
  if a < s.build.wbufBytes then
    match memRead Config.winUnlisted s.win a with
    | some b => .ok b
    | none => .error .noValue
  else .error (.outside .winIndexOutOfRange)

/-- `MemWrite(WIN:a, 1, b)` (R13). -/
def winWrite (a : Nat) (b : Byte) (s : State) : Except MemStop State :=
  if a < s.build.wbufBytes then .ok { s with win := memWrite Config.winUnlisted s.win a b }
  else .error (.outside .winIndexOutOfRange)

/-- `MemRead(IO:a, 1)` by the core, inside [0, L) (R62, R200). "IO reads never fault" inside it (R249). -/
def ioRead (s : State) (a : Nat) : Except MemStop Byte :=
  if a < s.ip.len then
    match memRead Config.ioUnlisted s.io a with
    | some b => .ok b
    | none => .error .noValue
  else .error (.outside .ioIndexOutOfRange)

/-- `MemWrite(IO:a, 1, b)` by the core, inside [0, L): a transaction of the trace (R62, R226). -/
def ioWrite (a : Nat) (b : Byte) (s : State) : Except MemStop State :=
  if a < s.ip.len then
    .ok { s with io := memWrite Config.ioUnlisted s.io a b, history := .ioWrite a b :: s.history }
  else .error (.outside .ioIndexOutOfRange)

/-! ## Ending a command -/

/-- How a command ends (R225). -/
inductive Ending where
  | validated
  | paramError (e : ParamError)
  | finished (o : OutVal)
  | readError (e : ErrR)
  | writeError (e : ErrW)
  | inPlace (n : Nat) (rest : Option Nat)
  | bufferTooSmall
  | readOfUnwrittenByte
deriving DecidableEq, Repr

/-- ERRCODE of a parameter error (R240). -/
def paramErrCode : ParamError → BitVec 4
  | .ejIsZero => 1
  | .eiNotGreaterThanEj => 2
  | .sumTooSmall => 3
  | .sumTooLarge => 4

/-- SEQ, and so STATUS.STATE, after an ending (R225). -/
def endSeq : Ending → SeqState
  | .validated => .done
  | .paramError _ => .error
  | .finished _ => .done
  | .readError _ => .error
  | .writeError _ => .error
  | .inPlace _ _ => .done
  | .bufferTooSmall => .fault
  | .readOfUnwrittenByte => .fault

/-- ERRCODE, IP_REST_VALID and the RESULT registers after an ending (R225): exactly the table's registers hold a
value. -/
def endRes : Ending → ResultRegs
  | .validated => ResultRegs.clear
  | .paramError e => { ResultRegs.clear with errCode := paramErrCode e }
  | .finished o => { ResultRegs.clear with output := some o }
  | .readError e => { ResultRegs.clear with errCode := 5, errR := some e }
  | .writeError e => { ResultRegs.clear with errCode := 6, errW := some e }
  | .inPlace n rest => { ResultRegs.clear with ipRestValid := rest.isSome, ipLen := some n, ipRest := rest }
  | .bufferTooSmall => { ResultRegs.clear with errCode := 7 }
  | .readOfUnwrittenByte => { ResultRegs.clear with errCode := 8 }

/-- THE shared ending of a command, error, fault or success (R225, R244, R253): "The ending writes only STATUS and
RESULT". Pending bits, pointers and WIN stay where they are; nothing reads them again (D13). -/
def endCommand (e : Ending) (s : State) : State := { s with seq := endSeq e, res := endRes e }

/-- What a memory access that gives no byte does: a read of a cell with no value ends the command in FAULT with code 8
(R249); an index outside the space stops the model (log 12). -/
def stopped {α : Type} (stop : MemStop) (s : State) : Res α :=
  match stop with
  | .outside f => .faulted f
  | .noValue => .ended (endCommand .readOfUnwrittenByte s)

/-- Go on with what a memory access gives, or stop as it says. -/
def onAccess {α β : Type} (access : Except MemStop α) (s : State) (next : α → Res β) : Res β :=
  match access with
  | .ok a => next a
  | .error stop => stopped stop s

/-! ## Transactions on the channels -/

/-- What a transaction gives: the channel has not answered, or its answer with the state after it. -/
inductive Answered (α : Type) where
  | waits
  | got (a : α) (s : State)
deriving DecidableEq, Repr

/-- `SrcRead()` (R11): the next answer, recorded in the trace. The last `endOfData` is given again and again
("idempotent EOF"); with no answer ready the core waits (log 2). The answers may be those an earlier command left, its
End included, if the host connects no source anew (DESIGN CHOICE, log 26). -/
def srcRead (s : State) : Answered SrcAnswer :=
  match s.src with
  | [] => .waits
  | [.endOfData] => .got .endOfData { s with history := .srcRead .endOfData :: s.history }
  | a :: rest => .got a { s with src := rest, history := .srcRead a :: s.history }

/-- `SnkWrite(b)` (R12): the sink's next answer, recorded in the trace; with no answer ready the core waits (log 2). The
sink may be the one an aborted earlier command left open, if the host connects none anew (DESIGN CHOICE, log 26). -/
def snkWrite (b : Byte) (s : State) : Answered WriteAnswer :=
  match s.snk.writes with
  | [] => if s.snk.accepting then .got .ok { s with history := .snkWrite b .ok :: s.history } else .waits
  | a :: rest => .got a { s with snk := { s.snk with writes := rest }, history := .snkWrite b a :: s.history }

/-- `SnkFinish()` (R12, R68): the sink's final answer, recorded in the trace; the sink is closed by it: no answer
is left (what comes after is log 23). -/
def snkFinish (s : State) : Answered FinishAnswer :=
  match s.snk.fin with
  | none => .waits
  | some a => .got a { s with snk := { writes := [], accepting := false, fin := none }, history := .snkFinish a :: s.history }

/-- EMIT(b) in COMPRESS (R131): SnkWrite, and a WriteError on `Err`. -/
def emitSink (b : Byte) (s : State) : Res Unit :=
  match snkWrite b s with
  | .waits => .waits s
  | .got .ok s' => .ok () s'
  | .got (.err e) s' => .ended (endCommand (.writeError e) s')

/-- EMIT(b) in COMPRESS_IN_PLACE (R131): `IO[IP_OUT] <- b; IP_OUT <- IP_OUT + 1`. -/
def emitIo (b : Byte) (s : State) : Res Unit :=
  onAccess (ioWrite s.ip.out b s) s fun s' => .ok () { s' with ip := { s'.ip with out := s'.ip.out + 1 } }

/-- The end of a streaming command (R222, R223): SnkFinish, and DONE with its value or a WriteError (R243). -/
def finishOp (s : State) : Res Unit :=
  match snkFinish s with
  | .waits => .waits s
  | .got (.ok o) s' => .ended (endCommand (.finished o) s')
  | .got (.err e) s' => .ended (endCommand (.writeError e) s')

/-- PUT(b) (R161): the sink first, then WIN[D_R], then the cursor, `(D_R + 1) & MASK` (R162). -/
def putByte (p : ParamSet) (b : Byte) (s : State) : Res Unit :=
  (emitSink b s).andThen fun _ s' =>
    onAccess (winWrite s'.dR b s') s' fun s'' => .ok () { s'' with dR := (s''.dR + 1) &&& p.mask }

end Sys2Proof.Machine
end

