-- ==== Sys2Proof/Machine/Operands.lean ====
section
/-! DEFINITION. The operand paths: the bit-stream codec (41_bitstream.md R130 to R136) that moves a token's fields,
and the fetch of one token from the source (44_token.md R185). -/

namespace Sys2Proof.Machine

/-! ## Writer -/

/-- "The top byte" of the pending bits (R130): the 8 most significant of the low `cnt` bits. -/
def topByte (a : BitAcc) : Byte := BitVec.ofNat 8 ((a.acc.toNat >>> (a.cnt - 8)) &&& 0xFF)

/-- The loop of WRITE_BITS (R130): emit the top byte while 8 or more bits are pending. A byte that waits for the sink
stays pending. `fuel` at least BW_CNT is enough, since each round takes 8 bits. -/
def drainBits (emit : Byte → State → Res Unit) : Nat → State → Res Unit
  | 0, s => .ok () s
  | fuel + 1, s =>
    if s.bw.cnt ≥ 8 then
      match emit (topByte s.bw) { s with bw := { s.bw with cnt := s.bw.cnt - 8 } } with
      | .ok () s' => drainBits emit fuel s'
      | .waits _ => .waits s
      | r => r
    else .ok () s

/-- Append a field to the accumulator (R130): `BW_ACC <- trunc_32((BW_ACC << len) | v)`, `BW_CNT <- BW_CNT + len`. -/
def pushBits (f : Field) (a : BitAcc) : BitAcc :=
  { acc := BitVec.ofNat 32 ((a.acc.toNat <<< f.width) ||| f.value), cnt := a.cnt + f.width }

/-- WRITE_BITS (R130), with the operand limits of R136. -/
def writeBits (emit : Byte → State → Res Unit) (f : Field) (s : State) : Res Unit :=
  if f.ok then drainBits emit (s.bw.cnt + f.width) { s with bw := pushBits f s.bw }
  else .refused .fieldOutOfRange

/-- FLUSH (R132): the pending bits left-justified and zero-padded, or nothing if none are pending. -/
def flushBits (emit : Byte → State → Res Unit) (s : State) : Res Unit :=
  if s.bw.cnt > 0 then
    match emit (BitVec.ofNat 8 ((s.bw.acc.toNat <<< (8 - s.bw.cnt)) &&& 0xFF)) { s with bw := { s.bw with cnt := 0 } } with
    | .waits _ => .waits s
    | r => r
  else .ok () s

/-- One turn at a token's remaining fields (R101, R133): first the bytes still pending, then one WRITE_BITS. `phase` is
the sequencer's phase while the fields after this one remain. It answers whether every field was already written. -/
def writeFields (emit : Byte → State → Res Unit) (phase : List Field → Phase) (fs : List Field) (s : State) :
    Res Bool :=
  (drainBits emit s.bw.cnt s).andThen fun _ s' =>
    match fs with
    | [] => .ok true s'
    | f :: rest =>
      (writeBits emit f { s' with seq := .busy (phase rest) }).andThen fun _ s'' => .ok false s''

/-! ## Reader -/

/-- The loop of READ_BITS (R134): SrcRead while fewer than `len` bits are buffered; ReadError on Err (R242). It answers
whether the bits are there: not at End (R135). `fuel` at least `len` is enough, since each byte adds 8 bits. -/
def fillBits (len : Nat) : Nat → State → Res Bool
  | 0, s => .ok true s
  | fuel + 1, s =>
    if s.br.cnt < len then
      match srcRead s with
      | .waits => .waits s
      | .got .endOfData s' => .ok false s'
      | .got (.err e) s' => .ended (endCommand (.readError e) s')
      | .got (.byte b) s' =>
        fillBits len fuel
          { s' with
            br := { acc := BitVec.ofNat 32 ((s'.br.acc.toNat <<< 8) ||| b.toNat), cnt := s'.br.cnt + 8 } }
    else .ok true s

/-- READ_BITS (R134, R136): the next `len` bits as a number, or `none` at the end of data. -/
def readBits (len : Nat) (s : State) : Res (Option Nat) :=
  if 1 ≤ len ∧ len ≤ Config.maxField then
    (fillBits len len s).andThen fun enough s' =>
      if enough then
        .ok (some ((s'.br.acc.toNat >>> (s'.br.cnt - len)) &&& (2 ^ len - 1)))
          { s' with br := { s'.br with cnt := s'.br.cnt - len } }
      else .ok none s'
  else .refused .fieldOutOfRange

/-- The payload of a token whose flag is `flag` (R93, R185). -/
def fetchPayload (p : ParamSet) (flag : Nat) (s : State) : Res (Option Instr) :=
  (readBits (payloadWidth p flag) s).andThen fun v s' => .ok (v.map (decodeFields p flag)) s'

/-- The fetch of DECODE_TOKEN (R185): the flag bit, unless the phase says it has been read, then the payload; `none` is
STOP (R188). -/
def fetchToken (p : ParamSet) (s : State) : Res (Option Instr) :=
  if s.seq = .busy .dLit then fetchPayload p 1 s
  else if s.seq = .busy .dMatch then fetchPayload p 0 s
  else
    (readBits 1 s).andThen fun flag s' =>
      match flag with
      | none => .ok none s'
      | some t => fetchPayload p t { s' with seq := .busy (if t = 1 then .dLit else .dMatch) }

end Sys2Proof.Machine
end

