-- ==== Sys2Proof/Machine/Search.lean ====
section
/-! DEFINITION. The longest-match search (43_match_search.md R170), over whichever byte memory the caller names. -/

namespace Sys2Proof.Machine

/-- The extension of a candidate (R170): `while j < f1 and B[i + j] = B[r + j]: j <- j + 1`, with `j < f1` tested
first (R174). `fuel` at least `f1 - j` is enough. -/
def extendMatch (B : Nat → Except MemStop Byte) (i r f1 : Nat) : Nat → Nat → Except MemStop Nat
  | 0, j => .ok j
  | fuel + 1, j =>
    if j < f1 then
      match B (i + j) with
      | .error e => .error e
      | .ok a =>
        match B (r + j) with
        | .error e => .error e
        | .ok b => if a = b then extendMatch B i r f1 fuel (j + 1) else .ok j
    else .ok j

/-- The scan of R170 over the candidates s + n - 1 down to s, most recent first: a strictly longer match replaces the
best (R172). -/
def scanMatches (B : Nat → Except MemStop Byte) (s r : Nat) : Nat → SearchRegs → Except MemStop SearchRegs
  | 0, q => .ok q
  | n + 1, q =>
    let i := s + n
    match B i with
    | .error e => .error e
    | .ok b =>
      if b = q.c then
        match extendMatch B i r q.f1 q.f1 1 with
        | .error e => .error e
        | .ok j =>
          if j > q.y then scanMatches B s r n { q with i := i, j := j, x := i, y := j }
          else scanMatches B s r n { q with i := i, j := j }
      else scanMatches B s r n { q with i := i }

/-- SEARCH(B, s, r, f1) (R170): `x <- 0; y <- 1; c <- B[r]`, then the scan. The registers i and j start as they were
(log 16). -/
def searchMatch (B : Nat → Except MemStop Byte) (s r f1 : Nat) (old : SearchRegs) : Except MemStop SearchRegs :=
  match B r with
  | .error e => .error e
  | .ok c => scanMatches B s r (r - s) { old with x := 0, y := 1, f1 := f1, c := c }

end Sys2Proof.Machine
end

