-- ==== Sys2Proof/Machine/Compress.lean ====
section
/-! DEFINITION. The phases of COMPRESS (46_commands.md R222): the sliding window (42_window.md R150 to R156) and the
token decision (44_token.md R180 to R182). Each definition is one named operation. -/

namespace Sys2Proof.Machine

/-- C_INIT (R222, R46, R150): the buffer check before any transaction, the writer emptied, WIN[0..N-F) <- C, the
pointers at their start. No cell holds a value from an earlier command (R39, R40). -/
def compressInit (p : ParamSet) (s : State) : Res Unit :=
  if s.build.wbufBytes < 2 * p.n then .ended (endCommand .bufferTooSmall s)
  else
    .ok ()
      { s with
        bw := { acc := 0, cnt := 0 }
        win := memFill p.dict p.c
        cp := { r := p.dict, s := 0, be := p.dict }
        seq := .busy .cFill }

/-- One round of FILL (R151): the loop test, then one SrcRead. The loop ends at a full window or at End. -/
def fillOp (p : ParamSet) (s : State) : Res Unit :=
  if s.cp.be < 2 * p.n then
    match srcRead s with
    | .waits => .waits s
    | .got .endOfData s' => .ok () { s' with seq := .busy .cSearch }
    | .got (.err e) s' => .ended (endCommand (.readError e) s')
    | .got (.byte b) s' =>
      onAccess (winWrite s'.cp.be b s') s' fun s'' =>
        .ok () { s'' with cp := { s''.cp with be := s''.cp.be + 1 } }
  else .ok () { s with seq := .busy .cSearch }

/-- C_SEARCH (R152): the loop test, `f1 = min(F, bufferEnd - r)` and SEARCH(WIN, s, r, f1); at the loop's exit,
FLUSH is next (R156). -/
def compressSearch (p : ParamSet) (s : State) : Res Unit :=
  if s.cp.r < s.cp.be then
    onAccess (searchMatch (winRead s) s.cp.s s.cp.r (min p.f (s.cp.be - s.cp.r)) s.sr) s fun q =>
      .ok () { s with sr := q, seq := .busy .cEmit }
  else .ok () { s with seq := .busy .cFlush }

/-- C_EMIT, ENCODE_TOKEN (R180): a literal when `y <= P` (and `y` becomes 1), else a match at offset `x & MASK`
(R182). The fields are written by the next phase. -/
def compressEmit (p : ParamSet) (s : State) : Res Unit :=
  if s.sr.y ≤ p.p then
    onAccess (winRead s s.cp.r) s fun b =>
      .ok () { s with sr := { s.sr with y := 1 }, seq := .busy (.cWrite (encodeFields p (.lit b))) }
  else
    .ok () { s with seq := .busy (.cWrite (encodeFields p (.matchTok (s.sr.x &&& p.mask) s.sr.y))) }

/-- The fields of the token, then the advance of r and s by the consumed length (R153) and the compaction test
`r >= 2N - F` (R152, C12). -/
def compressWrite (p : ParamSet) (fs : List Field) (s : State) : Res Unit :=
  (writeFields emitSink .cWrite fs s).andThen fun written s' =>
    if written then
      .ok ()
        { s' with
          cp := { s'.cp with r := s'.cp.r + s'.sr.y, s := s'.cp.s + s'.sr.y }
          seq := .busy (if s'.cp.r + s'.sr.y ≥ 2 * p.n - p.f then .cCompact else .cSearch) }
    else .ok () s'

/-- C_COMPACT (R155): WIN[N..2N) copied to WIN[0..N), then bufferEnd, r and s less N, then the refill. -/
def compactOp (p : ParamSet) (s : State) : Res Unit :=
  if s.build.wbufBytes < 2 * p.n then .faulted .winIndexOutOfRange
  else
    .ok ()
      { s with
        win := memMoveDown p.n s.win
        cp := { r := s.cp.r - p.n, s := s.cp.s - p.n, be := s.cp.be - p.n }
        seq := .busy .cRefill }

/-- C_FLUSH (R132, R222). -/
def compressFlush (s : State) : Res Unit :=
  (flushBits emitSink s).andThen fun _ s' => .ok () { s' with seq := .busy .cFinish }

end Sys2Proof.Machine
end

