-- ==== Sys2Proof/Machine/Flags.lean ====
section
/-! DEFINITION. STATUS and the other words the host reads. The core has no condition codes (10_state.md R36); its only
status bits are the fields of STATUS (R32), and they and SEQ are kept in one place each (R33). -/

namespace Sys2Proof.Machine

/-- STATUS.STATE (R32, R33). -/
def seqCode : SeqState → Nat
  | .idle => 0
  | .busy _ => 1
  | .done => 2
  | .error => 3
  | .fault => 4

/-- STATUS (R32): STATE in [2:0], ERRCODE in [7:4], IP_REST_VALID in [8], zeros elsewhere. -/
def State.status (s : State) : Word32 :=
  BitVec.ofNat 32 (seqCode s.seq + 16 * s.res.errCode.toNat + 256 * s.res.ipRestValid.toNat)

/-- CFG_VALID (R23): 1 exactly when PS holds a value (log 6). -/
def State.cfgValid (s : State) : Bool := s.ps.isSome

/-- Is a command running (STATE = BUSY)? -/
def State.isBusy (s : State) : Bool :=
  match s.seq with
  | .busy _ => true
  | _ => false

/-- Is the running command COMPRESS_IN_PLACE (R38)? -/
def inPlacePhase : Phase → Bool
  | .ipCheck => true
  | .ipSeed _ => true
  | .ipSearch => true
  | .ipEmit => true
  | .ipWrite _ => true
  | .ipGate => true
  | .ipFlush _ => true
  | _ => false

/-- Does the core have exclusive use of IO (R42)? -/
def State.ownsIo (s : State) : Bool :=
  match s.seq with
  | .busy phase => inPlacePhase phase
  | _ => false

/-- The ordered trace of external transactions (R226). -/
def State.trace (s : State) : List Event := s.history.reverse

/-- What a host read gives (R35): a RESULT register with no value, none (R34). -/
def hostReadValue (s : State) : HostReg → Option HostValue
  | .config => some (.word s.cfg.config)
  | .cfgValid => some (.bit s.cfgValid)
  | .status => some (.word s.status)
  | .resOutput => s.res.output.map .output
  | .resErrR => s.res.errR.map .errR
  | .resErrW => s.res.errW.map .errW
  | .resIpLen => s.res.ipLen.map .index
  | .resIpRest => s.res.ipRest.map .index
  | .ioCell a => (memRead Config.ioUnlisted s.io a).map .byte

end Sys2Proof.Machine
end

