-- ==== Sys2Proof/Machine/InPlace.lean ====
section
/-! DEFINITION. The phases of COMPRESS_IN_PLACE (45_in_place.md R200 to R209, 46_commands.md R224). Each definition is
one named operation. -/

namespace Sys2Proof.Machine

/-- IP_CHECK (R201), in its order; neither exit touches IO. -/
def inPlaceCheck (p : ParamSet) (s : State) : Res Unit :=
  if s.ip.off ≥ s.ip.len then .ended (endCommand (.inPlace 0 none) s)
  else if s.ip.off < p.minOffset then .ended (endCommand (.inPlace 0 (some s.ip.off)) s)
  else .ok () { s with seq := .busy (.ipSeed 0) }

/-- IP_OFFSET2 (R202, R204): `N * (1 + (offset + F) div N) - (offset + F)`. -/
def offsetCorrection (p : ParamSet) (off : Nat) : Nat := p.n * (1 + (off + p.f) / p.n) - (off + p.f)

/-- IP_SEED (R202), its `k`-th write IO[offset - (N - F) + k] <- C; after the last, the registers' start values. -/
def inPlaceSeed (p : ParamSet) (k : Nat) (s : State) : Res Unit :=
  if k < p.dict then
    onAccess (ioWrite (s.ip.off - p.dict + k) p.c s) s fun s' =>
      .ok () { s' with seq := .busy (.ipSeed (k + 1)) }
  else
    .ok ()
      { s with
        bw := { acc := 0, cnt := 0 }
        ip :=
          { s.ip with
            s := s.ip.off - p.dict
            r := s.ip.off
            out := 0
            offset2 := offsetCorrection p s.ip.off }
        seq := .busy .ipSearch }

/-- IP_SEARCH (R203): the loop test, `f1 = min(F, L - r)` and SEARCH(IO, s, r, f1); at r = L, FLUSH is next (R206). -/
def inPlaceSearch (p : ParamSet) (s : State) : Res Unit :=
  if s.ip.r < s.ip.len then
    onAccess (searchMatch (ioRead s) s.ip.s s.ip.r (min p.f (s.ip.len - s.ip.r)) s.sr) s fun q =>
      .ok () { s with sr := q, seq := .busy .ipEmit }
  else .ok () { s with seq := .busy (.ipFlush false) }

/-- IP_EMIT, ENCODE_TOKEN (R180): as in COMPRESS, with the corrected offset `(x + IP_OFFSET2) & MASK` (R183). -/
def inPlaceEmit (p : ParamSet) (s : State) : Res Unit :=
  if s.sr.y ≤ p.p then
    onAccess (ioRead s s.ip.r) s fun b =>
      .ok () { s with sr := { s.sr with y := 1 }, seq := .busy (.ipWrite (encodeFields p (.lit b))) }
  else
    .ok ()
      { s with
        seq := .busy (.ipWrite (encodeFields p (.matchTok ((s.sr.x + s.ip.offset2) &&& p.mask) s.sr.y))) }

/-- The fields of the token into IO, then the advance of r and s (R203); the gate is next. -/
def inPlaceWrite (fs : List Field) (s : State) : Res Unit :=
  (writeFields emitIo .ipWrite fs s).andThen fun written s' =>
    if written then
      .ok ()
        { s' with
          ip := { s'.ip with r := s'.ip.r + s'.sr.y, s := s'.ip.s + s'.sr.y }
          seq := .busy .ipGate }
    else .ok () s'

/-- IP_GATE (R203, R205): `out + MIN_GAP_SIZE > s` ends the run, tested before the loop test (D9). -/
def inPlaceGate (p : ParamSet) (s : State) : Res Unit :=
  if s.ip.out + p.gap > s.ip.s then .ok () { s with seq := .busy (.ipFlush true) }
  else .ok () { s with seq := .busy .ipSearch }

/-- FLUSH into IO and the end: (out, Some(r)) after the gate (R205), (out, None) at the end of input (R206).
IO outside the output and the rest keeps what the run left there (R62; DEDUCED, log 24: R206 calls it unspecified). -/
def inPlaceFlush (gated : Bool) (s : State) : Res Unit :=
  (flushBits emitIo s).andThen fun _ s' =>
    .ended (endCommand (.inPlace s'.ip.out (if gated then some s'.ip.r else none)) s')

end Sys2Proof.Machine
end

