-- ==== Sys2Proof/Machine/Tokens.lean ====
section
/-! DEFINITION. The meanings of LIT and MATCH (44_token.md R186, R187), and the phases of DECOMPRESS that fetch and
run tokens (R185, R188; 46_commands.md R223). -/

namespace Sys2Proof.Machine

/-- DEC_LIT(b) (R186): PUT(b), and on to the next token; a byte the sink has not answered stays in the phase. -/
def litOp (p : ParamSet) (b : Byte) (s : State) : Res Unit :=
  match putByte p b s with
  | .ok () s' => .ok () { s' with seq := .busy .dFlag }
  | .waits s' => .waits { s' with seq := .busy (.dPut b) }
  | r => r

/-- The steps of DEC_MATCH (R187) that are left, from step `k` on: read WIN[(o + k) & MASK] after the store of the step
before (R76), then PUT. -/
def copyLoop (p : ParamSet) (offset len : Nat) : Nat → Nat → State → Res Unit
  | 0, _, s => .ok () { s with seq := .busy .dFlag }
  | left + 1, k, s =>
    onAccess (winRead s ((offset + k) &&& p.mask)) s fun c =>
      match putByte p c s with
      | .ok () s' => copyLoop p offset len left (k + 1) s'
      | .waits s' => .waits { s' with seq := .busy (.dCopy offset len k) }
      | r => r

/-- DEC_MATCH(o, len) (R187). -/
def matchOp (p : ParamSet) (offset len : Nat) (s : State) : Res Unit := copyLoop p offset len len 0 s

/-- DECOMPRESS is at a token: the phases in which the rules execute one (R185). -/
def State.atToken (s : State) : Bool :=
  decide (s.seq = .busy .dFlag ∨ s.seq = .busy .dLit ∨ s.seq = .busy .dMatch)

/-- LIT b (R186). Outside a running DECOMPRESS there is no token to execute (log 18). -/
def execLit (b : Byte) (s : State) : Host.Outcome State Fault Refusal :=
  if s.atToken then
    match s.ps with
    | none => .refused .noValidConfig
    | some p => (litOp p b s).outcome
  else .refused .tokenOutsideDecompress

/-- MATCH offset, len (R187). Outside a running DECOMPRESS there is no token to execute (log 18). -/
def execMatch (offset len : Nat) (s : State) : Host.Outcome State Fault Refusal :=
  if s.atToken then
    match s.ps with
    | none => .refused .noValidConfig
    | some p => (matchOp p offset len s).outcome
  else .refused .tokenOutsideDecompress

/-- D_INIT (R223, R46, R160): the buffer check before any transaction, the reader emptied, WIN[0..N) <- C,
D_R <- N - F. -/
def decompressInit (p : ParamSet) (s : State) : Res Unit :=
  if s.build.wbufBytes < p.n then .ended (endCommand .bufferTooSmall s)
  else
    .ok ()
      { s with
        br := { acc := 0, cnt := 0 }
        win := memFill p.n p.c
        dR := p.dict
        seq := .busy .dFlag }

/-- A fetched token's operation. `decodeFields` gives tokens only; a command is no field of a stream. -/
def tokenOp (p : ParamSet) (i : Instr) (s : State) : Res Unit :=
  match i with
  | .lit b => litOp p b s
  | .matchTok offset len => matchOp p offset len s
  | _ => .refused .fieldOutOfRange

/-- One DECODE_TOKEN (R185): fetch, then execute; STOP goes on to SnkFinish (R188). -/
def decodeTokenOp (p : ParamSet) (s : State) : Res Unit :=
  (fetchToken p s).andThen fun i s' =>
    match i with
    | some i => tokenOp p i s'
    | none => .ok () { s' with seq := .busy .dFinish }

end Sys2Proof.Machine
end

