-- ==== Sys2Proof/Machine/Validate.lean ====
section
/-! DEFINITION. The operation of VALIDATE (40_parameters.md R120, 46_commands.md R221). -/

namespace Sys2Proof.Machine

/-- VALIDATE on the CONFIG value the command was issued with (R120): PS and CFG_VALID latched, or the first failing
check's error and PS without a value (D15). -/
def validateOp (config : Word32) (s : State) : State :=
  match paramError s.build.idxW (configEI config) (configEJ config) with
  | none => endCommand .validated { s with ps := some (configParams config) }
  | some e => endCommand (.paramError e) { s with ps := none }

end Sys2Proof.Machine
end

