-- ==== Sys2Proof/Machine/Sequencer.lean ====
section
/-! DEFINITION. The sequencer (10_state.md R38): the operation of each phase, and a turn of the core. -/

namespace Sys2Proof.Machine

/-- The operation of a phase under the parameter set PS. -/
def phaseOp (p : ParamSet) (phase : Phase) (s : State) : Res Unit :=
  match phase with
  | .vCheck config => .ended (validateOp config s)
  | .cInit => compressInit p s
  | .cFill => fillOp p s
  | .cSearch => compressSearch p s
  | .cEmit => compressEmit p s
  | .cWrite fs => compressWrite p fs s
  | .cCompact => compactOp p s
  | .cRefill => fillOp p s
  | .cFlush => compressFlush s
  | .cFinish => finishOp s
  | .dInit => decompressInit p s
  | .dFlag => decodeTokenOp p s
  | .dLit => decodeTokenOp p s
  | .dPut b => litOp p b s
  | .dMatch => decodeTokenOp p s
  | .dCopy offset len k => copyLoop p offset len (len - k) k s
  | .dFinish => finishOp s
  | .ipCheck => inPlaceCheck p s
  | .ipSeed k => inPlaceSeed p k s
  | .ipSearch => inPlaceSearch p s
  | .ipEmit => inPlaceEmit p s
  | .ipWrite fs => inPlaceWrite fs s
  | .ipGate => inPlaceGate p s
  | .ipFlush gated => inPlaceFlush gated s

/-- One named operation of the running command (R6, R38). Only VALIDATE runs without PS (R220). -/
def coreOp (phase : Phase) (s : State) : Res Unit :=
  match phase with
  | .vCheck config => .ended (validateOp config s)
  | _ =>
    match s.ps with
    | none => .refused .noValidConfig
    | some p => phaseOp p phase s

/-- At most `n` operations of the running command: until it ends or waits for a channel. -/
def runCore : Nat → State → Host.Outcome State Fault Refusal
  | 0, s => .next s
  | n + 1, s =>
    match s.seq with
    | .busy phase =>
      match coreOp phase s with
      | .ok () s' => runCore n s'
      | .waits s' => .next s'
      | .ended s' => .next s'
      | .faulted f => .fault f
      | .refused r => .refused r
    | _ => .next s

/-- A turn of the core: one operation and `quantum` more (log 1). With no command running, nothing happens: the core
waits for a CMD write (R270). -/
def coreTurn (s : State) : Host.Outcome State Fault Refusal := runCore (s.quantum + 1) s

end Sys2Proof.Machine
end

