-- ==== Sys2Proof/Machine/Commands.lean ====
section
/-! DEFINITION. The meanings of the four host commands (46_commands.md R220 to R224): acceptance, and then the command
itself, run by the sequencer until it ends, waits for a channel, or has had its turn. -/

namespace Sys2Proof.Machine

/-- What ISSUE says of a CMD write (R220). -/
inductive Acceptance where
  | ignored
  | refused (r : Refusal)
  | accepted (s : State)
deriving DecidableEq, Repr

/-- ISSUE(cmd) (R220), in its order: refused while BUSY, ignored in FAULT, refused without PS unless VALIDATE; else CMD
holds the code, STATUS is BUSY with ERRCODE 0 and IP_REST_VALID 0, no RESULT register holds a value, and SEQ is the
command's first phase. The channels stay as they are, connected anew or not (R271 step 5; DESIGN CHOICE, log 26). -/
def issue (code : BitVec 2) (needsPs : Bool) (first : Phase) (s : State) : Acceptance :=
  match s.seq with
  | .busy _ => .refused .commandWhileBusy
  | .fault => .ignored
  | _ =>
    if needsPs ∧ s.ps.isNone then .refused .noValidConfig
    else
      .accepted { s with cfg := { s.cfg with cmd := code }, res := ResultRegs.clear, seq := .busy first }

/-- An accepted command takes its operand copies and runs `quantum` operations (R220; log 1). -/
def launch (a : Acceptance) (copies : State → State) (s : State) : Host.Outcome State Fault Refusal :=
  match a with
  | .ignored => .next s
  | .refused r => .refused r
  | .accepted s' => runCore s'.quantum (copies s')

/-- VALIDATE (R221). CONFIG is taken as it stands at the CMD write: a later CONFIG write does not change the running
command (R22, R220). -/
def execValidate (s : State) : Host.Outcome State Fault Refusal :=
  launch (issue 0b00#2 false (.vCheck s.cfg.config) s) id s

/-- COMPRESS (R222). -/
def execCompress (s : State) : Host.Outcome State Fault Refusal :=
  launch (issue 0b01#2 true .cInit s) id s

/-- DECOMPRESS (R223). -/
def execDecompress (s : State) : Host.Outcome State Fault Refusal :=
  launch (issue 0b10#2 true .dInit s) id s

/-- COMPRESS_IN_PLACE (R224): `L <- IP_L; offset <- IP_OFFSET`, then the phases. -/
def execCompressInPlace (s : State) : Host.Outcome State Fault Refusal :=
  launch (issue 0b11#2 true .ipCheck s)
    (fun t => { t with ip := { t.ip with len := t.cfg.ipL, off := t.cfg.ipOffset } }) s

end Sys2Proof.Machine
end

