-- ==== Sys2Proof/Machine/Dispatch.lean ====
section
/-! DEFINITION. exec: one arm per constructor of Instr. -/

namespace Sys2Proof.Machine

def exec (i : Instr) (s : State) : Host.Outcome State Fault Refusal :=
  match i with
  | .lit b => Sys2Proof.Machine.execLit b s
  | .matchTok offset len => Sys2Proof.Machine.execMatch offset len s
  | .validate => Sys2Proof.Machine.execValidate s
  | .compress => Sys2Proof.Machine.execCompress s
  | .decompress => Sys2Proof.Machine.execDecompress s
  | .compressInPlace => Sys2Proof.Machine.execCompressInPlace s

end Sys2Proof.Machine
end

