-- ==== Sys2Proof/Machine/HostPort.lean ====
section
/-! DEFINITION. The moves of the host and of the channels (10_state.md R35, R42; 46_commands.md R220; 70_reset R270,
R271), all but the CMD write, and how an opcode-table word is placed to be run next (log 13). -/

namespace Sys2Proof.Machine

/-- A host write of CONFIG (R22): reserved bits ignored; with CONFIG_MODE fixed, ignored whole. No effect on a running
command or on PS. -/
def hostWriteConfig (w : Word32) (s : State) : State :=
  match s.build.mode with
  | .runtime => { s with cfg := { s.cfg with config := configWritten w } }
  | .fixed _ => s

/-- Does an index register of IDX_W bits hold the value (R30; log 11)? -/
def fitsIndex (s : State) (v : Nat) : Bool := decide (v < 2 ^ s.build.idxW)

/-- Reset (R270): the core's state at its reset values, whatever was running; IO, the channels and the host are outside
the core and stay (log 15). -/
def resetCore (s : State) : State :=
  { State.resetOf s.build with
    io := s.io
    src := s.src
    snk := s.snk
    script := s.script
    reads := s.reads
    history := s.history
    quantum := s.quantum }

/-- A host read (R34, R35, R42): the value goes to the host; nothing of the core changes. -/
def hostRead (reg : HostReg) (s : State) : Host.Outcome State Fault Refusal :=
  match reg, s.ownsIo with
  | .ioCell _, true => .refused .hostIoWhileBusy
  | _, _ =>
    match hostReadValue s reg with
    | some v => .next { s with reads := (reg, v) :: s.reads }
    | none => .refused .noResultValue

/-- A move other than a CMD write, in the state after it is taken from the script. A CMD write is `exec`'s (Step.lean)
and changes nothing here. The moves of the channels act in every state (DESIGN CHOICE, log 23): a connection while a
command is BUSY replaces the pending answers, and answers given to a closed or never connected channel become its
pending answers. -/
def hostMove (a : Act) (s : State) : Host.Outcome State Fault Refusal :=
  match a with
  | .writeCmd _ => .next s
  | .writeConfig w => .next (hostWriteConfig w s)
  | .writeIpL v =>
    if fitsIndex s v then .next { s with cfg := { s.cfg with ipL := v } } else .refused .operandTooWide
  | .writeIpOffset v =>
    if fitsIndex s v then .next { s with cfg := { s.cfg with ipOffset := v } } else .refused .operandTooWide
  | .read reg => hostRead reg s
  | .writeIo addr b =>
    if s.ownsIo then .refused .hostIoWhileBusy
    else .next { s with io := memWrite Config.ioUnlisted s.io addr b }
  | .connectSrc answers => .next { s with src := answers }
  | .srcGives answers => .next { s with src := s.src ++ answers }
  | .connectSnk sink => .next { s with snk := sink }
  | .snkGives answers => .next { s with snk := { s.snk with writes := s.snk.writes ++ answers } }
  | .snkAccepts => .next { s with snk := { s.snk with accepting := true } }
  | .snkFinishes answer => .next { s with snk := { s.snk with fin := some answer } }
  | .pass => coreTurn s
  | .reset => .next (resetCore s)

/-- PS for a table word: what the state holds, else the table's parameter set (log 13). -/
def loadPs (s : State) : ParamSet :=
  match s.ps with
  | some p => p
  | none => tableParams

/-- A command word as the very next instruction (log 13): the host's next move writes it to CMD; the sequencer is free
to accept it; a data command finds a validated PS. -/
def loadCommand (code : BitVec 2) (s : State) : State :=
  { s with
    seq := if s.isBusy ∨ s.seq = .fault then .idle else s.seq
    ps := if code = 0b00#2 then s.ps else some (loadPs s)
    script := .writeCmd code :: s.script }

/-- A 9-bit token word as the very next instruction (log 13): DECOMPRESS is at a token boundary under the table's
parameter set, its dictionary just initialised, the token's bytes are the source's answers, the sink accepts, no host
move is pending, and the core does one operation in its turn. -/
def loadToken (w : Nat) (s : State) : State :=
  { s with
    build := { s.build with wbufBytes := max s.build.wbufBytes tableParams.n }
    ps := some tableParams
    seq := .busy .dFlag
    br := { acc := 0, cnt := 0 }
    win := memFill tableParams.n tableParams.c
    dR := tableParams.dict
    src := (tableBytes w).map .byte
    snk := { writes := [], accepting := true, fin := s.snk.fin }
    script := []
    quantum := 0 }

/-- The word of the opcode table placed to be run by the very next step (log 13). -/
def loadWord (s : State) (nbits w : Nat) : State :=
  if nbits ≤ 8 then loadCommand (BitVec.ofNat 2 w) s else loadToken w s

end Sys2Proof.Machine
end

