-- ==== Sys2Proof/Machine/Step.lean ====
section
/-! DEFINITION. One step of the machine: the next pending move, a CMD write being the fetch of a command; with no move
pending, a turn of the core, which in DECOMPRESS fetches and runs tokens. -/

namespace Sys2Proof.Machine

/-- The step (log 1): moves happen in the order of the script, and the core runs between them. -/
def step (s : State) : Host.Outcome State Fault Refusal :=
  match s.script with
  | .writeCmd code :: rest => exec (decodeCmd code) { s with script := rest }
  | a :: rest => hostMove a { s with script := rest }
  | [] => coreTurn s

/-- The word of the opcode table stored where the very next step fetches it (log 13). -/
def State.withFetchWord (s : State) (nbits w : Nat) : State := loadWord s nbits w

end Sys2Proof.Machine
end

