-- ==== Sys2Proof/Safety.lean ====
section
/-! DEFINITION. The terms the claims are stated in: the invariant of the machine (10_state.md R47 to R49, R24 to R34),
the observations of a run (46_commands.md R226), and the reference semantics of token streams and of the compressor's
choices (44_token.md R190, 43_match_search.md R171, 45_in_place.md R207). -/

namespace Sys2Proof.Machine

/-! ## Observations -/

/-- The bytes the sink accepted, in order (R226). -/
def sinkBytes (es : List Event) : List Byte :=
  es.filterMap fun e =>
    match e with
    | .snkWrite b .ok => some b
    | _ => none

/-- The bytes the source gave, in order (R226). -/
def srcBytes (es : List Event) : List Byte :=
  es.filterMap fun e =>
    match e with
    | .srcRead (.byte b) => some b
    | _ => none

/-- A SnkWrite answered Ok, for each byte. -/
def writesOk (bs : List Byte) : List Event := bs.map fun b => .snkWrite b .ok

/-- A SrcRead answered with each byte. -/
def readsOf (bs : List Byte) : List Event := bs.map fun b => .srcRead (.byte b)

/-- The valid bits of an accumulator, first written or next returned first (R25, R26). -/
def BitAcc.bits (a : BitAcc) : List Bool := bitsOf a.acc.toNat a.cnt

/-- The byte of IO at an address, as the host sees it (R42). -/
def State.ioByte (s : State) (a : Nat) : Option Byte := memRead Config.ioUnlisted s.io a

/-- The byte of WIN at an index, or no value (R40). -/
def State.winByte (s : State) (a : Nat) : Option Byte := memRead Config.winUnlisted s.win a

/-- The bytes IO[lo], IO[lo+1], …, n of them; the byte an IO cell holds is never missing (R249). -/
def State.ioBytes (s : State) (lo n : Nat) : List Byte :=
  (List.range n).filterMap fun k => s.ioByte (lo + k)

/-- A source that gives these bytes and then End for ever: SrcFinite and SrcIdempotentEnd (R272). -/
def sourceOf (data : List Byte) : List SrcAnswer := data.map .byte ++ [.endOfData]

/-- A sink that accepts every byte and finishes with `o`. -/
def acceptingSink (o : OutVal) : Sink := { writes := [], accepting := true, fin := some (.ok o) }

/-- A command may be issued (R220): IDLE, DONE or ERROR. -/
abbrev State.ready (s : State) : Prop := s.seq = .idle ∨ s.seq = .done ∨ s.seq = .error

/-! ## The premises of R272, and fair runs (R283)

SameParams is a shared `p` of a statement; NoHostIoAccess is the refusal of log 19. The others: -/

/-- SrcIdempotentEnd (R272): once the source answers End, it answers nothing else. -/
abbrev srcIdempotentEnd (answers : List SrcAnswer) : Prop :=
  answers.Pairwise fun a b => a = .endOfData → b = .endOfData

/-- The source gives exactly these bytes before it first answers End. -/
def srcEndsAfter (data : List Byte) (answers : List SrcAnswer) : Prop :=
  ∃ after, answers = data.map .byte ++ .endOfData :: after

/-- IoLength (R272, R30) of a length: L + N + F < 2^IDX_W, past which the index registers are outside the spec and a claim
says nothing (log 10). -/
abbrev ioLengthOf (p : ParamSet) (b : Build) (len : Nat) : Prop := len + p.n + p.f < 2 ^ b.idxW

/-- IoLength of the operands of a COMPRESS_IN_PLACE issued in this state. -/
abbrev ioLength (p : ParamSet) (s : State) : Prop := ioLengthOf p s.build s.cfg.ipL

/-- IoLength of the COMPRESS_IN_PLACE that is running, if one is: of its copy of IP_L. -/
def ioLengthRunning (s : State) : Prop :=
  s.ownsIo = true → ∀ p, s.ps = some p → ioLengthOf p s.build s.ip.len

/-- IoLength as the host's duty at its next move: if that issues COMPRESS_IN_PLACE, its operands meet it. -/
def ioLengthIssued (s : State) : Prop :=
  (∃ rest, s.script = .writeCmd 0b11#2 :: rest) → s.ready → ∀ p, s.ps = some p → ioLength p s

/-- Does a move give the source a byte? -/
def givesByte : Act → Bool
  | .srcGives answers => answers.any fun a => match a with | .byte _ => true | _ => false
  | _ => false

/-- An infinite run, one move of the host or a channel at a time, weakly fair: the core has a turn again and again. No
channel is connected anew during it (R271, log 23). -/
structure FairRun (run : Nat → State) (act : Nat → Act) : Prop where
  steps : ∀ n, step { run n with script := [act n] } = .next (run (n + 1))
  turns : ∀ n, ∃ m, n ≤ m ∧ act m = .pass
  connected : ∀ n, (∀ answers, act n ≠ .connectSrc answers) ∧ ∀ sink, act n ≠ .connectSnk sink

/-- SrcFinite (R272): from some move on the source gives no byte; End and Err it may go on giving. -/
def srcFinite (act : Nat → Act) : Prop := ∃ m, ∀ n, m ≤ n → givesByte (act n) = false

/-- SrcAnswers (R272): while a command runs, the source has an answer ready sooner or later. -/
def srcAnswers (run : Nat → State) : Prop :=
  ∀ n, (run n).isBusy = true → ∃ m, n ≤ m ∧ ((run m).isBusy = true → (run m).src ≠ [])

/-- SnkAnswers (R272): while a command runs, the sink is ready for a SnkWrite, and for the SnkFinish, sooner or later. -/
def snkAnswers (run : Nat → State) : Prop :=
  ∀ n, (run n).isBusy = true →
    (∃ m, n ≤ m ∧ ((run m).isBusy = true → (run m).snk.writes ≠ [] ∨ (run m).snk.accepting = true)) ∧
      ∃ m, n ≤ m ∧ ((run m).isBusy = true → (run m).snk.fin ≠ none)

/-! ## The reference semantics of a token stream -/

/-- The decoder's dictionary, its cursor and what it has output (R160 to R162). -/
structure Decoded where
  cell : Nat → Byte
  cursor : Nat
  out : List Byte

/-- The decoder before its first token (R160). -/
def Decoded.start (p : ParamSet) : Decoded := { cell := fun _ => p.c, cursor := p.dict, out := [] }

/-- One output byte (R161). -/
def Decoded.put (p : ParamSet) (b : Byte) (d : Decoded) : Decoded :=
  { cell := fun a => if a = d.cursor then b else d.cell a
    cursor := (d.cursor + 1) % p.n
    out := d.out ++ [b] }

/-- The steps of a match from step `k` on (R187). -/
def Decoded.copy (p : ParamSet) (offset : Nat) : Nat → Nat → Decoded → Decoded
  | 0, _, d => d
  | left + 1, k, d => Decoded.copy p offset left (k + 1) (d.put p (d.cell ((offset + k) % p.n)))

/-- One token (R186, R187). -/
def Decoded.token (p : ParamSet) (d : Decoded) : Instr → Decoded
  | .lit b => d.put p b
  | .matchTok offset len => Decoded.copy p offset len 0 d
  | _ => d

/-- The bytes a token sequence stands for (R185 to R189). -/
def expand (p : ParamSet) (ts : List Instr) : List Byte :=
  (ts.foldl (fun d i => d.token p i) (Decoded.start p)).out

/-! ## The reference choice of tokens -/

/-- The unbounded window of an input: N - F fill bytes, then the input (R153, R207). -/
def flatByte (p : ParamSet) (data : List Byte) (i : Nat) : Except MemStop Byte :=
  if i < p.dict then .ok p.c
  else
    match data[i - p.dict]? with
    | some b => .ok b
    | none => .error .noValue

/-- The tokens from position `r` on (R152, R170, R180, R182), at most `fuel` of them. -/
def flatTokens (p : ParamSet) (data : List Byte) : Nat → Nat → List Instr
  | 0, _ => []
  | fuel + 1, r =>
    if r < p.dict + data.length then
      match searchMatch (flatByte p data) (r - p.dict) r (min p.f (p.dict + data.length - r)) State.reset.sr with
      | .error _ => []
      | .ok q =>
        if q.y ≤ p.p then
          match flatByte p data r with
          | .error _ => []
          | .ok b => .lit b :: flatTokens p data fuel (r + 1)
        else .matchTok (q.x % p.n) q.y :: flatTokens p data fuel (r + q.y)
    else []

/-- The token sequence of an input under a parameter set: at every position the longest match among the last N - F
bytes, the most recent of the longest, or a literal (R171, R180). -/
def compressTokens (p : ParamSet) (data : List Byte) : List Instr := flatTokens p data data.length p.dict

/-- The input bytes a token stands for (R153). -/
def tokenSpan : Instr → Nat
  | .lit _ => 1
  | .matchTok _ len => len
  | _ => 0

/-- The gate of COMPRESS_IN_PLACE after the tokens `ts` from offset `off` on (R205): the whole bytes they have put out,
and MIN_GAP_SIZE, pass the dictionary's start s. -/
abbrev gateTrips (p : ParamSet) (off : Nat) (ts : List Instr) : Prop :=
  (ts.flatMap (encode p)).length / 8 + p.gap > off - p.dict + (ts.map tokenSpan).sum

/-! ## The match length of a candidate -/

/-- `j` bytes from candidate `i` equal the `j` bytes from `r` (R171). -/
def agreeFor (g : Nat → Byte) (i r j : Nat) : Prop := ∀ m, m < j → g (i + m) = g (r + m)

/-- L(i) = `l` (R171): the largest length in 0..f1 at which candidate `i` agrees with the bytes from `r`. -/
def matchLength (g : Nat → Byte) (i r f1 l : Nat) : Prop :=
  l ≤ f1 ∧ agreeFor g i r l ∧ ∀ j, j ≤ f1 → agreeFor g i r j → j ≤ l

/-- The cell a token's k-th output byte is stored at, the cursor being `r` before the first (R161, R162). -/
def cursorAt (p : ParamSet) (r : Nat) : Nat → Nat
  | 0 => r
  | k + 1 => (cursorAt p r k + 1) &&& p.mask

/-- The decoder's dictionary as a state holds it (R70). -/
def State.decoded (s : State) (p : ParamSet) : Decoded :=
  { cell := fun a => (s.winByte a).getD p.c, cursor := s.dR, out := [] }

/-! ## The invariant -/

/-- Every cell of WIN in [lo, hi) holds a byte (R40, R69, R70). -/
abbrev winHolds (s : State) (lo hi : Nat) : Prop := ∀ a, a < hi → lo ≤ a → s.winByte a ≠ none

/-- COMPRESS between its tokens (R47, R69). -/
abbrev compressInv (p : ParamSet) (s : State) : Prop :=
  2 * p.n ≤ s.build.wbufBytes ∧ s.cp.r = s.cp.s + p.dict ∧ s.cp.r ≤ s.cp.be ∧ s.cp.be ≤ 2 * p.n ∧
    winHolds s s.cp.s s.cp.be

/-- DECOMPRESS at a token (R48, R70). -/
abbrev decompressInv (p : ParamSet) (s : State) : Prop :=
  p.n ≤ s.build.wbufBytes ∧ s.dR < p.n ∧ winHolds s 0 p.n

/-- COMPRESS_IN_PLACE past its seed (R49, R71): the dictionary lies below the unread input, inside IO. -/
abbrev inPlaceInv (p : ParamSet) (s : State) : Prop :=
  p.minOffset ≤ s.ip.off ∧ s.ip.off ≤ s.ip.r ∧ s.ip.r = s.ip.s + p.dict ∧ s.ip.r ≤ s.ip.len ∧
    s.ip.offset2 = offsetCorrection p s.ip.off

/-- Bits still to be written of a token (R205). -/
def fieldsWidth (fs : List Field) : Nat := (fs.map Field.width).sum

/-- Output, pending bits and `more` bits to come end a byte or more below the dictionary (R205). -/
abbrev outputBelow (s : State) (more : Nat) : Prop := 8 * s.ip.out + s.bw.cnt + more + 8 ≤ 8 * s.ip.s

/-- What holds in each phase of a running command. -/
def phaseInv (p : ParamSet) (s : State) : Phase → Prop
  | .vCheck _ => True
  | .cInit => True
  | .cFill => compressInv p s ∧ s.bw.cnt ≤ 7 ∧ s.cp.r < 2 * p.n - p.f
  | .cSearch => compressInv p s ∧ s.bw.cnt ≤ 7 ∧ s.cp.r < 2 * p.n - p.f
  | .cEmit =>
    compressInv p s ∧ s.bw.cnt ≤ 7 ∧ s.cp.r < 2 * p.n - p.f ∧ 1 ≤ s.sr.y ∧ s.sr.y ≤ p.f ∧
      s.cp.r + s.sr.y ≤ s.cp.be
  | .cWrite fs =>
    compressInv p s ∧ s.bw.cnt ≤ 31 ∧ s.cp.r < 2 * p.n - p.f ∧ 1 ≤ s.sr.y ∧ s.cp.r + s.sr.y ≤ s.cp.be ∧
      ∀ f ∈ fs, f.ok = true
  | .cCompact => compressInv p s ∧ s.bw.cnt ≤ 7 ∧ 2 * p.n - p.f ≤ s.cp.r
  | .cRefill => compressInv p s ∧ s.bw.cnt ≤ 7 ∧ s.cp.r < 2 * p.n - p.f
  | .cFlush => s.cp.r = s.cp.be ∧ s.bw.cnt ≤ 7
  | .cFinish => s.cp.r = s.cp.be ∧ s.bw.cnt = 0
  | .dInit => True
  | .dFlag => decompressInv p s ∧ s.br.cnt ≤ 7
  | .dLit => decompressInv p s ∧ s.br.cnt ≤ 7
  | .dPut _ => decompressInv p s ∧ s.br.cnt ≤ 7
  | .dMatch => decompressInv p s ∧ s.br.cnt < p.ei + p.ej
  | .dCopy offset len k => decompressInv p s ∧ s.br.cnt ≤ 7 ∧ offset < p.n ∧ p.p < len ∧ len ≤ p.f ∧ k < len
  | .dFinish => s.dR < p.n
  | .ipCheck => True
  | .ipSeed k => p.minOffset ≤ s.ip.off ∧ s.ip.off < s.ip.len ∧ k ≤ p.dict
  | .ipSearch => inPlaceInv p s ∧ s.bw.cnt ≤ 7 ∧ s.ip.out + p.gap ≤ s.ip.s
  | .ipEmit =>
    inPlaceInv p s ∧ s.bw.cnt ≤ 7 ∧ s.ip.out + p.gap ≤ s.ip.s ∧ 1 ≤ s.sr.y ∧ s.sr.y ≤ p.f ∧
      s.ip.r + s.sr.y ≤ s.ip.len
  | .ipWrite fs =>
    inPlaceInv p s ∧ s.bw.cnt ≤ 31 ∧ outputBelow s (fieldsWidth fs) ∧ 1 ≤ s.sr.y ∧ s.ip.r + s.sr.y ≤ s.ip.len ∧
      ∀ f ∈ fs, f.ok = true
  | .ipGate => inPlaceInv p s ∧ s.bw.cnt ≤ 7 ∧ outputBelow s 0
  | .ipFlush gated => inPlaceInv p s ∧ s.bw.cnt ≤ 7 ∧ outputBelow s 0 ∧ (gated = false → s.ip.r = s.ip.len)

/-- A build that exists (R123): fixed values are legal, and CONFIG's reserved bits read 0. -/
def buildOk (b : Build) : Prop :=
  match b.mode with
  | .runtime => True
  | .fixed config => (configParams config).Legal b.idxW ∧ configWritten config = config

/-- CONFIG, PS and CFG_VALID (R22, R23, R123). -/
def configInv (s : State) : Prop :=
  configWritten s.cfg.config = s.cfg.config ∧
    (∀ p, s.ps = some p → p.Legal s.build.idxW) ∧
    ∀ config, s.build.mode = .fixed config →
      s.cfg.config = config ∧ s.ps = some (configParams config) ∧ ∀ c, s.seq = .busy (.vCheck c) → c = config

/-- STATUS and RESULT agree with SEQ (R32, R34, R225), and no command has read an unwritten byte (R249). -/
def resultInv (s : State) : Prop :=
  ((s.seq = .idle ∨ s.isBusy = true) ∧ s.res = ResultRegs.clear) ∨
    ∃ e, e ≠ .readOfUnwrittenByte ∧ s.seq = endSeq e ∧ s.res = endRes e

/-- The two memories are in canonical form, and WIN has no cell outside it (R39). -/
def memoryInv (s : State) : Prop :=
  Memory.wf Config.winUnlisted s.win ∧ Memory.wf Config.ioUnlisted s.io ∧
    ∀ cell ∈ s.win, cell.1 < s.build.wbufBytes

/-- A running command is in a phase whose invariant holds; only VALIDATE runs without PS (R38, R220). -/
def sequencerInv (s : State) : Prop :=
  ∀ phase, s.seq = .busy phase →
    (∃ config, phase = .vCheck config) ∨ ∃ p, s.ps = some p ∧ phaseInv p s phase

/-- THE INVARIANT of the machine: it holds at reset, and every step keeps it in which the host keeps to IoLength
(`ioLengthIssued`). A running COMPRESS_IN_PLACE meets IoLength in it (R272). -/
def Inv (s : State) : Prop :=
  buildOk s.build ∧ configInv s ∧ resultInv s ∧ memoryInv s ∧ sequencerInv s ∧ s.bw.cnt ≤ 31 ∧ s.br.cnt ≤ 31 ∧
    s.cfg.ipL < 2 ^ s.build.idxW ∧ s.cfg.ipOffset < 2 ^ s.build.idxW ∧ ioLengthRunning s

end Sys2Proof.Machine
end

