-- ==== Sys2Proof/Certificates/Slice0/Obligations.lean ====
section
/-! DEFINITION. The statements for the provers, one for each rule or group of rules of the spec they formalise.

Three things in them are the model's framing, not the spec's: `quantum`, the operations in one turn of the core, with
`script`, the moves still to come (log 1); the channels' answers as lists (log 2); and `history`, the trace kept in the
state (log 14). No statement rests on a value of a free choice: `quantum` is universally quantified, or bounded below
where an operation must run at all. A clause that rests on another choice of the model names its log entry. -/

open Sys2Proof Sys2Proof.Machine

/-! ## Parameters (00_scope.md, 40_parameters.md) -/

/-- R120: the checks of VALIDATE, in the source's priority order. -/
def Obligations.ParameterChecksInPriorityOrder : Prop :=
  ∀ idxW ei ej : Nat,
    (ej = 0 → paramError idxW ei ej = some .ejIsZero) ∧
    (ej ≠ 0 → ej ≥ ei → paramError idxW ei ej = some .eiNotGreaterThanEj) ∧
    (ej ≠ 0 → ej < ei → ei + ej < 8 → paramError idxW ei ej = some .sumTooSmall) ∧
    (ej ≠ 0 → ej < ei → 8 ≤ ei + ej → (24 < ei + ej ∨ idxW ≤ ei + 1) →
      paramError idxW ei ej = some .sumTooLarge) ∧
    (ej ≠ 0 → ej < ei → 8 ≤ ei + ej → ei + ej ≤ 24 → ei + 1 < idxW → paramError idxW ei ej = none)

/-- R7, R24, R121: the legal range, its 123 pairs, and the derived constants with their ranges. -/
def Obligations.LegalParameterRangesAndConstants : Prop :=
  (∀ p : ParamSet, p.Legal 32 →
    (5 ≤ p.ei ∧ p.ei ≤ 23) ∧ (1 ≤ p.ej ∧ p.ej ≤ 11) ∧
    (p.n = 2 ^ p.ei ∧ 32 ≤ p.n ∧ p.n ≤ 2 ^ 23) ∧
    (p.mask = p.n - 1 ∧ 31 ≤ p.mask ∧ p.mask ≤ 2 ^ 23 - 1) ∧
    (p.p = (1 + p.ei + p.ej) / 9 ∧ 1 ≤ p.p ∧ p.p ≤ 2) ∧
    ((p.ei + p.ej ≤ 16 → p.p = 1) ∧ (17 ≤ p.ei + p.ej → p.p = 2)) ∧
    (p.f = 2 ^ p.ej + p.p ∧ 3 ≤ p.f ∧ p.f ≤ 2050) ∧
    (p.dict = p.n - p.f ∧ p.f < p.n ∧ 15 ≤ p.dict ∧ p.dict ≤ 8388604) ∧
    (p.gap = p.p + 4 ∧ 5 ≤ p.gap ∧ p.gap ≤ 6) ∧
    (p.minOffset = (p.n - p.f) + p.gap ∧ 20 ≤ p.minOffset ∧ p.minOffset ≤ 8388610)) ∧
  (((List.range 24).flatMap fun ei => (List.range 24).map fun ej => (ei, ej)).filter
      fun e => decide (paramError 32 e.1 e.2 = none)).length = 123

/-- R120: the whole of VALIDATE's pseudocode, with the state it leaves: the checks in their order, PS latched or left
without a value, STATUS and RESULT, and nothing else, so no transaction. -/
def Obligations.ValidateChecksAndLatches : Prop :=
  ∀ (s : State) (ei ej : Nat) (c : Byte), s.ready → 1 ≤ s.quantum →
    ei = configEI s.cfg.config → ej = configEJ s.cfg.config → c = configC s.cfg.config →
    let failed : BitVec 4 → State := fun code =>
      { s with
        cfg := { s.cfg with cmd := 0 }, ps := none, seq := .error, res := { ResultRegs.clear with errCode := code } }
    (ej = 0 → exec .validate s = .next (failed 1)) ∧
    (ej ≠ 0 → ej ≥ ei → exec .validate s = .next (failed 2)) ∧
    (ej ≠ 0 → ej < ei → ei + ej < 8 → exec .validate s = .next (failed 3)) ∧
    (ej ≠ 0 → ej < ei → 8 ≤ ei + ej → (24 < ei + ej ∨ s.build.idxW ≤ ei + 1) →
      exec .validate s = .next (failed 4)) ∧
    (ej ≠ 0 → ej < ei → 8 ≤ ei + ej → ei + ej ≤ 24 → ei + 1 < s.build.idxW →
      exec .validate s =
        .next
          { s with
            cfg := { s.cfg with cmd := 0 }
            ps := some { ei := ei, ej := ej, c := c }
            seq := .done
            res := ResultRegs.clear })

/-- R46: what each data command sets at its start, and that only an in-place command's seed is a
transaction. The in-place clause takes IoLength (R272). -/
def Obligations.CommandsInitialiseTheirState : Prop :=
  ∀ (s : State) (p : ParamSet), s.ready → s.ps = some p → p.Legal s.build.idxW →
    (2 * p.n ≤ s.build.wbufBytes →
      ∃ t, exec .compress { s with quantum := 1 } = .next t ∧
        t = { s with
              quantum := 1, cfg := { s.cfg with cmd := 0b01#2 }, res := ResultRegs.clear, seq := .busy .cFill
              bw := { acc := 0, cnt := 0 }, cp := { r := p.n - p.f, s := 0, be := p.n - p.f }, win := t.win } ∧
        ∀ a, t.winByte a = if a < p.n - p.f then some p.c else none) ∧
    (p.n ≤ s.build.wbufBytes →
      ∃ t, exec .decompress { s with quantum := 1 } = .next t ∧
        t = { s with
              quantum := 1, cfg := { s.cfg with cmd := 0b10#2 }, res := ResultRegs.clear, seq := .busy .dFlag
              br := { acc := 0, cnt := 0 }, dR := p.n - p.f, win := t.win } ∧
        ∀ a, t.winByte a = if a < p.n then some p.c else none) ∧
    (ioLength p s → p.minOffset ≤ s.cfg.ipOffset → s.cfg.ipOffset < s.cfg.ipL →
      ∃ t, exec .compressInPlace { s with quantum := (p.n - p.f) + 2 } = .next t ∧
        t = { s with
              quantum := (p.n - p.f) + 2, cfg := { s.cfg with cmd := 0b11#2 }, res := ResultRegs.clear
              seq := .busy .ipSearch, bw := { acc := 0, cnt := 0 }
              ip :=
                { len := s.cfg.ipL
                  off := s.cfg.ipOffset
                  s := s.cfg.ipOffset - (p.n - p.f)
                  r := s.cfg.ipOffset
                  out := 0
                  offset2 := p.n * (1 + (s.cfg.ipOffset + p.f) / p.n) - (s.cfg.ipOffset + p.f) }
              io := t.io, history := t.history } ∧
        t.trace =
          s.trace ++
            (List.range (p.n - p.f)).map (fun k => .ioWrite (s.cfg.ipOffset - (p.n - p.f) + k) p.c) ∧
        ∀ a, t.ioByte a =
          if s.cfg.ipOffset - (p.n - p.f) ≤ a ∧ a < s.cfg.ipOffset then some p.c else s.ioByte a)

/-- R22, R30, R31, R35, R42, R220: the host's writes. CONFIG: reserved bits read 0, the fields are bytes 0, 1 and 2; with
CONFIG_MODE fixed the write is ignored. IP_L and IP_OFFSET hold what IDX_W bits hold; a wider write is refused, the model's
choice (log 11). IO: the byte is stored and no other changes; while COMPRESS_IN_PLACE runs the write is refused, the
model's choice (log 19). No write changes anything else, a running command included. -/
def Obligations.HostWritesReachTheirRegisters : Prop :=
  ∀ (s : State) (rest : List Act),
    (∀ w : Word32, s.script = .writeConfig w :: rest →
      (s.build.mode = .runtime →
        ∃ v : Word32,
          step s = .next { s with script := rest, cfg := { s.cfg with config := v } } ∧
            v.toNat = w.toNat % 2 ^ 24 ∧ (configC v).toNat = w.toNat % 256 ∧
            configEI v = w.toNat / 256 % 256 ∧ configEJ v = w.toNat / 65536 % 256) ∧
      ∀ c, s.build.mode = .fixed c → step s = .next { s with script := rest }) ∧
    (∀ v, s.script = .writeIpL v :: rest →
      (v < 2 ^ s.build.idxW → step s = .next { s with script := rest, cfg := { s.cfg with ipL := v } }) ∧
      (2 ^ s.build.idxW ≤ v → step s = .refused .operandTooWide)) ∧
    (∀ v, s.script = .writeIpOffset v :: rest →
      (v < 2 ^ s.build.idxW → step s = .next { s with script := rest, cfg := { s.cfg with ipOffset := v } }) ∧
      (2 ^ s.build.idxW ≤ v → step s = .refused .operandTooWide)) ∧
    ∀ a b, s.script = .writeIo a b :: rest →
      (s.ownsIo = false →
        ∃ t, step s = .next t ∧ t = { s with script := rest, io := t.io } ∧ t.ioByte a = some b ∧
          ∀ c, c ≠ a → t.ioByte c = s.ioByte c) ∧
      (s.ownsIo = true → step s = .refused .hostIoWhileBusy)

/-! ## Encoding (30_encoding.md) -/

/-- R91 to R93: every well-formed token decodes from its encoding, whatever follows. -/
def Obligations.DecodeInvertsEncode : Prop :=
  ∀ (idxW : Nat) (p : ParamSet) (i : Instr) (rest : List Bool),
    p.Legal idxW → cmdCode i = none → i.wf p = true → decodeToken p (encode p i ++ rest) = .ok (i, rest)

/-- R98, R96, R97: whatever decodes is a well-formed token with exactly that encoding, and only an incomplete field is
refused. -/
def Obligations.EveryBitPatternIsATokenOrATail : Prop :=
  ∀ (idxW : Nat) (p : ParamSet) (bits : List Bool), p.Legal idxW →
    (∀ i rest, decodeToken p bits = .ok (i, rest) →
      cmdCode i = none ∧ i.wf p = true ∧ bits = encode p i ++ rest) ∧
    (decodeToken p bits = .error .endOfStream ↔
      bits = [] ∨ (bits.head? = some true ∧ bits.length < 9) ∨
        (bits.head? = some false ∧ bits.length < 1 + p.ei + p.ej))

/-- R90, R97: a token sequence is read back from its stream, and the padding never decodes to a token. -/
def Obligations.StreamRoundTrip : Prop :=
  ∀ (idxW : Nat) (p : ParamSet) (ts : List Instr), p.Legal idxW →
    (∀ i ∈ ts, cmdCode i = none ∧ i.wf p = true) → decodeStream p (encodeStream p ts) = ts

/-- R91, R92, R101: the bits of the two formats, their lengths, and the fields the encoder writes them as. -/
def Obligations.TokenBitLayout : Prop :=
  ∀ (idxW : Nat) (p : ParamSet), p.Legal idxW →
    (∀ b : Byte,
      encode p (.lit b) = true :: bitsOf b.toNat 8 ∧ (encode p (.lit b)).length = 9 ∧
      encodeFields p (.lit b) = [{ value := 0x100 ||| b.toNat, width := 9 }]) ∧
    ∀ offset len, (Instr.matchTok offset len).wf p = true →
      encode p (.matchTok offset len) = false :: (bitsOf offset p.ei ++ bitsOf (len - p.p - 1) p.ej) ∧
      (encode p (.matchTok offset len)).length = 1 + p.ei + p.ej ∧
      encodeFields p (.matchTok offset len) =
        [{ value := 0, width := 1 },
         { value := (offset <<< p.ej) ||| (len - p.p - 1), width := p.ei + p.ej }]

/-- R102: the four command codes, all assigned. -/
def Obligations.CommandCodesAreAssigned : Prop :=
  decodeCmd 0b00#2 = .validate ∧ decodeCmd 0b01#2 = .compress ∧ decodeCmd 0b10#2 = .decompress ∧
    decodeCmd 0b11#2 = .compressInPlace ∧
    (∀ code, cmdCode (decodeCmd code) = some code) ∧ ∀ i code, cmdCode i = some code → decodeCmd code = i

/-- R104 and the listings of 95_test_vectors.md: words written out from the encoding. -/
def Obligations.SpecWordsDecode : Prop :=
  decodeToken { ei := 10, ej := 4, c := 0x20#8 }
      [false, true, true, true, true, true, false, true, true, false, false, false, false, false, true] =
    .ok (.matchTok 1004 3, []) ∧
  decodeToken { ei := 10, ej := 4, c := 0x20#8 } [true, false, true, false, true, false, false, true, true] =
    .ok (.lit 0x53#8, []) ∧
  decodeToken { ei := 5, ej := 3, c := 0x20#8 } [false, true, false, true, true, true, true, true, true] =
    .ok (.matchTok 23 9, [])

/-! ## Bit-stream codec (41_bitstream.md) -/

/-- R130, with EMIT to the sink (R131): the bytes to emit and the pending bits left are the old pending bits and the
field, in order. A sink that accepts gets them all. One that answers Err at byte k ends the command there as a WriteError,
the k bytes before it staying emitted (R243). One that has no answer at byte k makes the writer wait with the bytes from k
on still pending. -/
def Obligations.WriteBitsAppendsTheField : Prop :=
  ∀ (s : State) (f : Field), s.bw.cnt ≤ 7 → f.ok = true →
    ∃ (bs : List Byte) (a : BitAcc),
      bs.flatMap byteBits ++ a.bits = s.bw.bits ++ bitsOf f.value f.width ∧
      bs.length = (s.bw.cnt + f.width) / 8 ∧ a.cnt = (s.bw.cnt + f.width) % 8 ∧
      (s.snk.writes = [] → s.snk.accepting = true →
        writeBits emitSink f s = .ok () { s with bw := a, history := (writesOk bs).reverse ++ s.history }) ∧
      (∀ k e rest, k < bs.length → s.snk.writes = List.replicate k .ok ++ .err e :: rest →
        ∃ (b : Byte) (a' : BitAcc), bs[k]? = some b ∧
          writeBits emitSink f s =
            .ended
              (endCommand (.writeError e)
                { s with
                  bw := a'
                  snk := { s.snk with writes := rest }
                  history := .snkWrite b (.err e) :: ((writesOk (bs.take k)).reverse ++ s.history) })) ∧
      ∀ k, k < bs.length → s.snk.writes = List.replicate k .ok → s.snk.accepting = false →
        ∃ a' : BitAcc, a'.bits = (bs.drop k).flatMap byteBits ++ a.bits ∧
          writeBits emitSink f s =
            .waits
              { s with
                bw := a'
                snk := { s.snk with writes := [] }
                history := (writesOk (bs.take k)).reverse ++ s.history }

/-- R130, with EMIT into IO (R131): the bytes land at IP_OUT onward, in order, and no other cell changes. A command that
runs meets IoLength (R272). -/
def Obligations.WriteBitsIntoIo : Prop :=
  ∀ (s : State) (f : Field), ioLengthRunning s → s.bw.cnt ≤ 7 → f.ok = true →
    s.ip.out + (s.bw.cnt + f.width) / 8 ≤ s.ip.len →
    ∃ (bs : List Byte) (t : State),
      writeBits emitIo f s = .ok () t ∧
      bs.flatMap byteBits ++ t.bw.bits = s.bw.bits ++ bitsOf f.value f.width ∧
      bs.length = (s.bw.cnt + f.width) / 8 ∧ t.bw.cnt = (s.bw.cnt + f.width) % 8 ∧
      t = { s with bw := t.bw, io := t.io, history := t.history, ip := { s.ip with out := s.ip.out + bs.length } } ∧
      (∀ k, k < bs.length → t.ioByte (s.ip.out + k) = bs[k]?) ∧
      ∀ a, (a < s.ip.out ∨ s.ip.out + bs.length ≤ a) → t.ioByte a = s.ioByte a

/-- R132, R131, R243: FLUSH does nothing when no bit is pending; else it emits one byte, the pending bits left-justified and
zero-padded: to the sink in COMPRESS, where an Err ends the command as a WriteError and a sink without an answer is waited
for, and to IO[IP_OUT] in COMPRESS_IN_PLACE, under IoLength (R272). -/
def Obligations.FlushPadsThePendingBits : Prop :=
  ∀ s : State, s.bw.cnt ≤ 7 →
    (s.bw.cnt = 0 → flushBits emitSink s = .ok () s ∧ flushBits emitIo s = .ok () s) ∧
    (0 < s.bw.cnt →
      ∃ b : Byte, byteBits b = s.bw.bits ++ List.replicate (8 - s.bw.cnt) false ∧
        (s.snk.writes = [] → s.snk.accepting = true →
          flushBits emitSink s =
            .ok () { s with bw := { s.bw with cnt := 0 }, history := .snkWrite b .ok :: s.history }) ∧
        (∀ e rest, s.snk.writes = .err e :: rest →
          flushBits emitSink s =
            .ended
              (endCommand (.writeError e)
                { s with
                  bw := { s.bw with cnt := 0 }
                  snk := { s.snk with writes := rest }
                  history := .snkWrite b (.err e) :: s.history })) ∧
        (s.snk.writes = [] → s.snk.accepting = false → flushBits emitSink s = .waits s) ∧
        (ioLengthRunning s → s.ip.out < s.ip.len →
          ∃ t, flushBits emitIo s = .ok () t ∧
            t =
              { s with
                bw := { s.bw with cnt := 0 }
                io := t.io
                history := .ioWrite s.ip.out b :: s.history
                ip := { s.ip with out := s.ip.out + 1 } } ∧
            t.ioByte s.ip.out = some b ∧ ∀ a, a ≠ s.ip.out → t.ioByte a = s.ioByte a))

/-- R133: two fields written in turn emit and leave the bits of both, in order, cut at byte boundaries; and, where the
joined field is allowed, exactly what it does. -/
def Obligations.WritingTwoFieldsIsWritingTheJoinedField : Prop :=
  ∀ (s : State) (a b : Field), s.bw.cnt ≤ 7 → a.ok = true → b.ok = true →
    s.snk.writes = [] → s.snk.accepting = true →
    ∃ (t u : State) (bs : List Byte),
      writeBits emitSink a s = .ok () t ∧ writeBits emitSink b t = .ok () u ∧
      u.history = (writesOk bs).reverse ++ s.history ∧ u.bw.cnt ≤ 7 ∧
      bs.flatMap byteBits ++ u.bw.bits = s.bw.bits ++ bitsOf a.value a.width ++ bitsOf b.value b.width ∧
      (a.width + b.width ≤ 24 →
        ∃ v : State,
          writeBits emitSink { value := (a.value <<< b.width) ||| b.value, width := a.width + b.width } s =
            .ok () v ∧
          v.history = u.history ∧ v.bw.cnt = u.bw.cnt ∧ v.bw.bits = u.bw.bits)

/-- R134: READ_BITS returns the next bits and reads exactly the bytes it needs. -/
def Obligations.ReadBitsReturnsTheNextBits : Prop :=
  ∀ (s : State) (len : Nat) (bs : List Byte) (rest : List SrcAnswer),
    1 ≤ len → len ≤ 24 → s.br.cnt ≤ 7 → s.src = bs.map .byte ++ rest → bs.length = (len - s.br.cnt + 7) / 8 →
    ∃ (v : Nat) (a : BitAcc),
      readBits len s = .ok (some v) { s with br := a, src := rest, history := (readsOf bs).reverse ++ s.history } ∧
      v < 2 ^ len ∧ s.br.bits ++ bs.flatMap byteBits = bitsOf v len ++ a.bits ∧ a.cnt ≤ 7

/-- R135: End before the request is satisfied is `none`, after the bytes there were. -/
def Obligations.ReadBitsMeetsTheEnd : Prop :=
  ∀ (s : State) (len : Nat) (bs : List Byte),
    1 ≤ len → len ≤ 24 → s.src = sourceOf bs → s.br.cnt + 8 * bs.length < len →
    ∃ a : BitAcc,
      readBits len s =
        .ok none
          { s with
            br := a
            src := [.endOfData]
            history := .srcRead .endOfData :: ((readsOf bs).reverse ++ s.history) }

/-- R136, R248: the operand limits. -/
def Obligations.CodecRefusesOutOfRangeFields : Prop :=
  (∀ (emit : Byte → State → Res Unit) (f : Field) (s : State),
    (f.width < 1 ∨ 24 < f.width ∨ 2 ^ f.width ≤ f.value) → writeBits emit f s = .refused .fieldOutOfRange) ∧
  ∀ (len : Nat) (s : State), (len < 1 ∨ 24 < len) → readBits len s = .refused .fieldOutOfRange

/-- R242, R244: a source error ends the command at once, in FILL and in READ_BITS. -/
def Obligations.SourceErrorEndsTheCommand : Prop :=
  (∀ (p : ParamSet) (s : State) (e : ErrR) (rest : List SrcAnswer),
    s.cp.be < 2 * p.n → s.src = .err e :: rest →
    fillOp p s =
      .ended (endCommand (.readError e) { s with src := rest, history := .srcRead (.err e) :: s.history })) ∧
  ∀ (s : State) (len : Nat) (bs : List Byte) (e : ErrR) (rest : List SrcAnswer),
    1 ≤ len → len ≤ 24 → s.src = bs.map .byte ++ .err e :: rest → s.br.cnt + 8 * bs.length < len →
    ∃ a : BitAcc,
      readBits len s =
        .ended
          (endCommand (.readError e)
            { s with
              br := a
              src := rest
              history := .srcRead (.err e) :: ((readsOf bs).reverse ++ s.history) })

/-! ## Channels (00_scope.md R11, R12) -/

/-- R11: a byte is consumed once; End is answered again and again; with no answer the core waits. Under SrcIdempotentEnd
(R272) an End is followed by Ends alone, for every source; a source that breaks it gives what it has (log 2). -/
def Obligations.SourceAnswersOnceAndEndStays : Prop :=
  ∀ s : State,
    (∀ b rest, s.src = .byte b :: rest →
      srcRead s = .got (.byte b) { s with src := rest, history := .srcRead (.byte b) :: s.history }) ∧
    (s.src = [.endOfData] →
      srcRead s = .got .endOfData { s with history := .srcRead .endOfData :: s.history }) ∧
    (∀ rest, rest ≠ [] → s.src = .endOfData :: rest →
      srcRead s = .got .endOfData { s with src := rest, history := .srcRead .endOfData :: s.history }) ∧
    (∀ t, srcIdempotentEnd s.src → srcRead s = .got .endOfData t →
      srcIdempotentEnd t.src ∧ ∃ u, srcRead t = .got .endOfData u) ∧
    (s.src = [] → srcRead s = .waits)

/-- R261: all state survives a wait: a command that waits for a channel is exactly where it was until the channel
answers. -/
def Obligations.WaitingKeepsEveryState : Prop :=
  ∀ (s t : State) (phase : Phase), s.seq = .busy phase → coreOp phase s = .waits t →
    ∃ phase', t.seq = .busy phase' ∧ coreOp phase' t = .waits t ∧ (t.script = [] → step t = .next t)

/-! ## Match search (43_match_search.md) -/

/-- R171, R172: the longest match, the most recent of the longest, or (0, 1). -/
def Obligations.SearchFindsTheMostRecentLongestMatch : Prop :=
  ∀ (B : Nat → Except MemStop Byte) (g : Nat → Byte) (s r f1 : Nat) (old : SearchRegs),
    s < r → 1 ≤ f1 → (∀ i, s ≤ i → i < r + f1 → B i = .ok (g i)) →
    ∃ q, searchMatch B s r f1 old = .ok q ∧ 1 ≤ q.y ∧ q.y ≤ f1 ∧
      ((∃ i l, s ≤ i ∧ i < r ∧ matchLength g i r f1 l ∧ 2 ≤ l) →
        s ≤ q.x ∧ q.x < r ∧ matchLength g q.x r f1 q.y ∧
        (∀ i l, s ≤ i → i < r → matchLength g i r f1 l → l ≤ q.y) ∧
        ∀ i l, q.x < i → i < r → matchLength g i r f1 l → l < q.y) ∧
      ((∀ i l, s ≤ i → i < r → matchLength g i r f1 l → l ≤ 1) → q.x = 0 ∧ q.y = 1)

/-- R174: SEARCH reads B only at indices in [s, r + f1). -/
def Obligations.SearchReadsOnlyTheWindow : Prop :=
  ∀ (B B' : Nat → Except MemStop Byte) (s r f1 : Nat) (old : SearchRegs),
    s ≤ r → 1 ≤ f1 → (∀ i, s ≤ i → i < r + f1 → B i = B' i) →
    searchMatch B s r f1 old = searchMatch B' s r f1 old

/-! ## Window (42_window.md) -/

/-- R151: one round of FILL, in each case of its pseudocode. -/
def Obligations.FillStoresTheNextByte : Prop :=
  ∀ (p : ParamSet) (s : State),
    (∀ b rest, s.cp.be < 2 * p.n → s.cp.be < s.build.wbufBytes → s.src = .byte b :: rest →
      ∃ t, fillOp p s = .ok () t ∧
        t =
          { s with
            src := rest
            history := .srcRead (.byte b) :: s.history
            win := t.win
            cp := { s.cp with be := s.cp.be + 1 } } ∧
        t.winByte s.cp.be = some b ∧ ∀ a, a ≠ s.cp.be → t.winByte a = s.winByte a) ∧
    (s.cp.be < 2 * p.n → s.src = [.endOfData] →
      fillOp p s = .ok () { s with history := .srcRead .endOfData :: s.history, seq := .busy .cSearch }) ∧
    (∀ e rest, s.cp.be < 2 * p.n → s.src = .err e :: rest →
      fillOp p s =
        .ended (endCommand (.readError e) { s with src := rest, history := .srcRead (.err e) :: s.history })) ∧
    (2 * p.n ≤ s.cp.be → fillOp p s = .ok () { s with seq := .busy .cSearch })

/-- R155, R78: COMPACT copies WIN[N..2N) to WIN[0..N) and takes N from bufferEnd, r and s; the refill is next. For cells
that hold a byte this is the rules' own; that a cell without a value is copied as such, and does not fault, is the model's
reading (log 9, DEDUCED, unsafe in form: against R249 read literally). -/
def Obligations.CompactionMovesTheWindowDown : Prop :=
  ∀ (p : ParamSet) (s : State), 2 * p.n ≤ s.build.wbufBytes →
    ∃ t, compactOp p s = .ok () t ∧
      t =
        { s with
          win := t.win
          cp := { r := s.cp.r - p.n, s := s.cp.s - p.n, be := s.cp.be - p.n }
          seq := .busy .cRefill } ∧
      (∀ a, a < p.n → t.winByte a = s.winByte (p.n + a)) ∧ ∀ a, p.n ≤ a → t.winByte a = s.winByte a

/-- R202, R204: IP_OFFSET2 lies in 1..N and turns an IO position into the decoder's cell. Under IoLength (R272) for some
length L past the offset. -/
def Obligations.OffsetCorrectionGivesTheDecoderCell : Prop :=
  ∀ (b : Build) (p : ParamSet) (off len : Nat), p.Legal b.idxW → p.minOffset ≤ off → off < len → ioLengthOf p b len →
    1 ≤ offsetCorrection p off ∧ offsetCorrection p off ≤ p.n ∧
    (offsetCorrection p off + (off + p.f)) % p.n = 0 ∧
    (∀ m, (off + m + offsetCorrection p off) &&& p.mask = (p.dict + m) &&& p.mask) ∧
    ∀ k, k < p.dict → (off - p.dict + k + offsetCorrection p off) &&& p.mask = k

/-! ## Tokens (44_token.md) -/

/-- R186, R161, R162: LIT b. With a sink that answers Ok: the whole state after it. With one that answers Err the command
ends without the window store (R243, R244); with no answer it waits in the phase that holds the byte. -/
def Obligations.LiteralPutsItsByte : Prop :=
  ∀ (s : State) (p : ParamSet) (b : Byte), s.atToken = true → s.ps = some p →
    (∀ s', s.dR < s.build.wbufBytes → snkWrite b s = .got .ok s' →
      exec (.lit b) s =
        .next
          { s' with
            win := memWrite Config.winUnlisted s.win s.dR b
            dR := (s.dR + 1) &&& p.mask
            seq := .busy .dFlag } ∧
      s' = { s with snk := s'.snk, history := .snkWrite b .ok :: s.history }) ∧
    (∀ e rest, s.snk.writes = .err e :: rest →
      exec (.lit b) s =
        .next
          (endCommand (.writeError e)
            { s with
              snk := { s.snk with writes := rest }
              history := .snkWrite b (.err e) :: s.history })) ∧
    (s.snk.writes = [] → s.snk.accepting = false → exec (.lit b) s = .next { s with seq := .busy (.dPut b) })

/-- R187: MATCH o, len outputs and stores what the step-by-step copy of the dictionary gives, for every o; with a sink
that fails at the k-th byte it ends the command there, the bytes before delivered. -/
def Obligations.MatchCopiesFromTheDictionary : Prop :=
  ∀ (s : State) (p : ParamSet) (offset len : Nat),
    s.atToken = true → s.ps = some p → p.Legal s.build.idxW → p.n ≤ s.build.wbufBytes → s.dR < p.n →
    winHolds s 0 p.n →
    let d := (s.decoded p).token p (.matchTok offset len)
    d.out.length = len ∧
    (s.snk.writes = [] → s.snk.accepting = true →
      ∃ t, exec (.matchTok offset len) s = .next t ∧
        t = { s with
              win := t.win
              dR := d.cursor
              seq := .busy .dFlag
              history := (writesOk d.out).reverse ++ s.history } ∧
        t.dR = (s.dR + len) % p.n ∧ ∀ a, a < p.n → t.winByte a = some (d.cell a)) ∧
    ∀ k e rest, k < len → s.snk.writes = List.replicate k .ok ++ .err e :: rest →
      ∃ (t : State) (b : Byte), exec (.matchTok offset len) s = .next t ∧ d.out[k]? = some b ∧
        t.seq = .error ∧ t.res = endRes (.writeError e) ∧ t.dR = (s.dR + k) % p.n ∧
        t.history = .snkWrite b (.err e) :: ((writesOk (d.out.take k)).reverse ++ s.history)

/-- R76, R274: a match longer than its distance outputs its own bytes again. -/
def Obligations.OverlappingMatchRepeatsItsOutput : Prop :=
  ∀ (s t : State) (p : ParamSet) (offset len d : Nat) (bs : List Byte),
    s.atToken = true → s.ps = some p → p.Legal s.build.idxW → p.n ≤ s.build.wbufBytes → s.dR < p.n →
    winHolds s 0 p.n → s.snk.writes = [] → s.snk.accepting = true →
    len ≤ p.f → 1 ≤ d → d < p.n → s.dR = (offset + d) % p.n →
    exec (.matchTok offset len) s = .next t → t.history = (writesOk bs).reverse ++ s.history →
    ∀ k, d ≤ k → k < len → bs[k]? = bs[k - d]?

/-- The frame of LIT and MATCH (R161, R186, R187): they change only SEQ, STATUS and RESULT, WIN, D_R, the sink and the
trace; and WIN only at the cells of the bytes the sink accepted, at most len of them, past which D_R then stands. -/
def Obligations.TokensChangeOnlyTheirOutput : Prop :=
  ∀ (s t : State) (p : ParamSet) (i : Instr) (len : Nat),
    ((∃ b, i = .lit b) ∧ len = 1 ∨ ∃ offset, i = .matchTok offset len) → s.ps = some p → exec i s = .next t →
    t = { s with
          seq := t.seq, res := t.res, win := t.win, dR := t.dR, snk := t.snk, history := t.history } ∧
    ∃ es, t.history = es ++ s.history ∧ (sinkBytes es).length ≤ len ∧
      t.dR = cursorAt p s.dR (sinkBytes es).length ∧
      ∀ a, (∀ k, k < (sinkBytes es).length → a ≠ cursorAt p s.dR k) → t.winByte a = s.winByte a

/-- R185, R248, and log 18: a token runs only in DECOMPRESS and under a parameter set. -/
def Obligations.TokensNeedARunningDecompress : Prop :=
  ∀ (s : State) (i : Instr), cmdCode i = none →
    (s.atToken = false → exec i s = .refused .tokenOutsideDecompress) ∧
    (s.atToken = true → s.ps = none → exec i s = .refused .noValidConfig)

/-! ## Commands (46_commands.md) -/

/-- R220, R248: a command is refused while one runs, ignored in FAULT, and a data command refused without PS. -/
def Obligations.IssueTurnsCommandsAway : Prop :=
  ∀ (s : State) (i : Instr) (code : BitVec 2), cmdCode i = some code →
    (∀ phase, s.seq = .busy phase → exec i s = .refused .commandWhileBusy) ∧
    (s.seq = .fault → exec i s = .next s) ∧
    (s.ready → s.ps = none → i ≠ .validate → exec i s = .refused .noValidConfig)

/-- R220, R46, R224: an accepted command, before its first operation; COMPRESS_IN_PLACE under IoLength (R272). That the
channels stay as an earlier command left them is the model's choice (log 26). -/
def Obligations.AcceptedCommandBecomesBusy : Prop :=
  ∀ s : State, s.ready → s.quantum = 0 →
    exec .validate s =
      .next
        { s with
          cfg := { s.cfg with cmd := 0b00#2 }, res := ResultRegs.clear, seq := .busy (.vCheck s.cfg.config) } ∧
    (∀ p, s.ps = some p →
      exec .compress s =
        .next { s with cfg := { s.cfg with cmd := 0b01#2 }, res := ResultRegs.clear, seq := .busy .cInit } ∧
      exec .decompress s =
        .next { s with cfg := { s.cfg with cmd := 0b10#2 }, res := ResultRegs.clear, seq := .busy .dInit } ∧
      (ioLength p s →
        exec .compressInPlace s =
          .next
            { s with
              cfg := { s.cfg with cmd := 0b11#2 }
              res := ResultRegs.clear
              seq := .busy .ipCheck
              ip := { s.ip with len := s.cfg.ipL, off := s.cfg.ipOffset } }))

/-- R246, R222, R223: a window RAM that is too small ends the command in FAULT before any transaction. -/
def Obligations.SmallWindowFaults : Prop :=
  ∀ (s : State) (p : ParamSet), s.ready → s.ps = some p → 1 ≤ s.quantum →
    (s.build.wbufBytes < 2 * p.n →
      ∃ t, exec .compress s = .next t ∧ t.seq = .fault ∧ t.history = s.history ∧ t.status = 0x074#32 ∧
        t.res = { ResultRegs.clear with errCode := 7 }) ∧
    (s.build.wbufBytes < p.n →
      ∃ t, exec .decompress s = .next t ∧ t.seq = .fault ∧ t.history = s.history ∧ t.status = 0x074#32 ∧
        t.res = { ResultRegs.clear with errCode := 7 })

/-- R222, R152 to R156, R171, R180, R182, R90: COMPRESS of any input ends in DONE, and what the sink got is the stream
of the reference tokens. Under SrcFinite and SrcIdempotentEnd (R272), however often the source answers End. -/
def Obligations.CompressEmitsTheReferenceStream : Prop :=
  ∀ (s : State) (p : ParamSet) (data : List Byte) (o : OutVal),
    s.ready → s.ps = some p → p.Legal s.build.idxW → 2 * p.n ≤ s.build.wbufBytes →
    srcEndsAfter data s.src → srcIdempotentEnd s.src → s.snk = acceptingSink o →
    ∃ q, ∀ quantum, q ≤ quantum →
      ∃ (t : State) (es : List Event),
        exec .compress { s with quantum := quantum } = .next t ∧
        t.seq = .done ∧ t.res = endRes (.finished o) ∧ t.trace = s.trace ++ es ∧
        srcBytes es = data ∧ sinkBytes es = encodeStream p (compressTokens p data) ∧
        es.getLast? = some (.snkFinish (.ok o)) ∧ t.cp.r = t.cp.be

/-- R223, R185 to R189, R250: DECOMPRESS of any bytes ends in DONE, and what the sink got is what their tokens stand
for. Under SrcFinite and SrcIdempotentEnd (R272). -/
def Obligations.DecompressEmitsTheExpansion : Prop :=
  ∀ (s : State) (p : ParamSet) (bytes : List Byte) (o : OutVal),
    s.ready → s.ps = some p → p.Legal s.build.idxW → p.n ≤ s.build.wbufBytes →
    srcEndsAfter bytes s.src → srcIdempotentEnd s.src → s.snk = acceptingSink o →
    ∃ q, ∀ quantum, q ≤ quantum →
      ∃ (t : State) (es : List Event),
        exec .decompress { s with quantum := quantum } = .next t ∧
        t.seq = .done ∧ t.res = endRes (.finished o) ∧ t.trace = s.trace ++ es ∧
        srcBytes es = bytes ∧ sinkBytes es = expand p (decodeStream p bytes) ∧
        es.getLast? = some (.snkFinish (.ok o))

/-- R190, without the machine: the reference tokens of an input stand for the input. -/
def Obligations.ReferenceTokensExpandToTheInput : Prop :=
  ∀ (idxW : Nat) (p : ParamSet) (data : List Byte), p.Legal idxW → expand p (compressTokens p data) = data

/-- R190: decompress(compress(d)) = d, on the machine; and two COMPRESS of the same input give the same bytes. Under
SrcFinite, SrcIdempotentEnd and SameParams (R272). -/
def Obligations.CompressThenDecompressIsIdentity : Prop :=
  ∀ (s s' u : State) (p : ParamSet) (data : List Byte) (o o' : OutVal), p.Legal s.build.idxW →
    s.ready → s.ps = some p → 2 * p.n ≤ s.build.wbufBytes →
    srcEndsAfter data s.src → srcIdempotentEnd s.src → s.snk = acceptingSink o →
    s'.ready → s'.ps = some p → s'.build = s.build →
    srcEndsAfter data s'.src → srcIdempotentEnd s'.src → s'.snk = acceptingSink o' →
    u.ready → u.ps = some p → u.build = s.build → u.snk = acceptingSink o →
    ∃ q, ∀ quantum, q ≤ quantum →
      ∃ (t t' : State) (es es' : List Event),
        exec .compress { s with quantum := quantum } = .next t ∧ t.trace = s.trace ++ es ∧ t.seq = .done ∧
        exec .compress { s' with quantum := quantum } = .next t' ∧ t'.trace = s'.trace ++ es' ∧ t'.seq = .done ∧
        sinkBytes es' = sinkBytes es ∧
        ∀ answers, srcEndsAfter (sinkBytes es) answers → srcIdempotentEnd answers →
          ∃ (v : State) (fs : List Event),
            exec .decompress { u with quantum := quantum, src := answers } = .next v ∧
            v.trace = u.trace ++ fs ∧ v.seq = .done ∧ sinkBytes fs = data

/-- R201: the precondition check: its two exits, in their order, with STATUS and RESULT written and IO and the trace
unchanged; and that it goes on to the seed in every other case. Under IoLength (R272). -/
def Obligations.InPlacePreconditionExits : Prop :=
  ∀ (s : State) (p : ParamSet), s.ready → s.ps = some p → ioLength p s → 1 ≤ s.quantum →
    (s.cfg.ipL ≤ s.cfg.ipOffset →
      ∃ t, exec .compressInPlace s = .next t ∧ t.status = 0x002#32 ∧
        t.res = { ResultRegs.clear with ipLen := some 0 } ∧ t.io = s.io ∧ t.history = s.history) ∧
    (s.cfg.ipOffset < s.cfg.ipL → s.cfg.ipOffset < p.minOffset →
      ∃ t, exec .compressInPlace s = .next t ∧ t.status = 0x102#32 ∧
        t.res =
          { ResultRegs.clear with ipRestValid := true, ipLen := some 0, ipRest := some s.cfg.ipOffset } ∧
        t.io = s.io ∧ t.history = s.history) ∧
    (s.cfg.ipOffset < s.cfg.ipL → p.minOffset ≤ s.cfg.ipOffset →
      ∃ t, exec .compressInPlace { s with quantum := 1 } = .next t ∧ t.seq = .busy (.ipSeed 0) ∧
        t.io = s.io ∧ t.history = s.history)

/-- R203 to R208: under the premise IoLength (R272, log 10) COMPRESS_IN_PLACE ends in DONE with (n, rest). It takes tokens
until the gate trips or the input ends: no token before the last trips the gate; the result is Some(stop) exactly where the
last one does, the one that takes the last byte included (R205, D9), and None, with the whole input taken, where it does
not. IO[0..n) is the stream of the tokens taken, the reference tokens of what was consumed; the rest of the input is as it
was, above the output. -/
def Obligations.InPlaceEmitsTheStreamOfWhatItConsumed : Prop :=
  ∀ (s : State) (p : ParamSet), s.ready → s.ps = some p → p.Legal s.build.idxW → ioLength p s →
    p.minOffset ≤ s.cfg.ipOffset → s.cfg.ipOffset < s.cfg.ipL →
    ∃ q, ∀ quantum, q ≤ quantum →
      ∃ (t : State) (n stop : Nat) (rest : Option Nat) (ts : List Instr),
        exec .compressInPlace { s with quantum := quantum } = .next t ∧
        t.seq = .done ∧ t.res = endRes (.inPlace n rest) ∧
        s.cfg.ipOffset < stop ∧ stop ≤ s.cfg.ipL ∧ n ≤ stop ∧
        ts = compressTokens p (s.ioBytes s.cfg.ipOffset (stop - s.cfg.ipOffset)) ∧
        (∀ k, 0 < k → k < ts.length → ¬ gateTrips p s.cfg.ipOffset (ts.take k)) ∧
        (gateTrips p s.cfg.ipOffset ts → rest = some stop) ∧
        (¬ gateTrips p s.cfg.ipOffset ts → rest = none ∧ stop = s.cfg.ipL) ∧
        t.ioBytes 0 n = encodeStream p ts ∧ ∀ a, stop ≤ a → t.ioByte a = s.ioByte a

/-- R205, R71, R277: while COMPRESS_IN_PLACE runs, input it has not read is never written. (IoLength of
the running command, R272, is part of the invariant.) -/
def Obligations.InPlaceNeverWritesUnreadInput : Prop :=
  ∀ (s t : State) (phase : Phase), Inv s → s.script = [] → s.seq = .busy phase → inPlacePhase phase = true →
    phase ≠ .ipCheck → (∀ k, phase ≠ .ipSeed k) → step s = .next t →
    s.ip.r ≤ t.ip.r ∧ ∀ a, t.ip.r ≤ a → t.ioByte a = s.ioByte a

/-- R184, R95, R99: every reference token is well-formed; no match of length P or less is chosen. -/
def Obligations.ReferenceTokensAreWellFormed : Prop :=
  ∀ (idxW : Nat) (p : ParamSet) (data : List Byte), p.Legal idxW →
    ∀ i ∈ compressTokens p data, cmdCode i = none ∧ i.wf p = true ∧ ∀ offset len, i = .matchTok offset len → p.p < len

/-- R284: the size of a compressed stream. -/
def Obligations.CompressedSizeBound : Prop :=
  ∀ (idxW : Nat) (p : ParamSet) (data : List Byte), p.Legal idxW →
    8 * (encodeStream p (compressTokens p data)).length ≤ 9 * data.length + 7

/-- The frames of the data commands (R222 to R224, R62): what each leaves unchanged, however far it has come;
COMPRESS_IN_PLACE under IoLength (R272). That IO
outside the output, the seed range and the rest keeps its bytes is the model's reading (log 24): R206 calls it
unspecified. -/
def Obligations.DataCommandsChangeOnlyTheirOwnState : Prop :=
  ∀ s t : State, s.ready →
    (exec .compress s = .next t →
      t = { s with
            cfg := { s.cfg with cmd := 0b01#2 }, seq := t.seq, res := t.res, bw := t.bw, cp := t.cp, sr := t.sr,
            win := t.win, src := t.src, snk := t.snk, history := t.history }) ∧
    (exec .decompress s = .next t →
      t = { s with
            cfg := { s.cfg with cmd := 0b10#2 }, seq := t.seq, res := t.res, br := t.br, dR := t.dR,
            win := t.win, src := t.src, snk := t.snk, history := t.history }) ∧
    ((∀ p, s.ps = some p → ioLength p s) → exec .compressInPlace s = .next t →
      t = { s with
            cfg := { s.cfg with cmd := 0b11#2 }, seq := t.seq, res := t.res, bw := t.bw, sr := t.sr,
            ip := t.ip, io := t.io, history := t.history } ∧
      ∀ p a, s.ps = some p → t.ip.out ≤ a → (a < s.cfg.ipOffset - p.dict ∨ s.cfg.ipOffset ≤ a) →
        t.ioByte a = s.ioByte a)

/-- R245: a streaming command finishes the sink at most once, last, and only after every transaction succeeded: in the turn
of its CMD write and in every turn that resumes it; a turn that leaves it running has neither finished nor failed, so that
this holds of the whole command. (COMPRESS_IN_PLACE, which has no sink, is covered under IoLength, R272.) And what
SnkFinish's answer does (R222, R223, R243). -/
def Obligations.FinishComesLastAndOnlyAfterSuccess : Prop :=
  let orderly : State → State → Prop := fun s t =>
    ∃ es, t.trace = s.trace ++ es ∧
      (∀ before a after, es = before ++ .snkFinish a :: after →
        after = [] ∧ (∀ b e, .snkWrite b (.err e) ∉ before) ∧ (∀ e, .srcRead (.err e) ∉ before) ∧
          ∀ x, .snkFinish x ∉ before) ∧
      (t.isBusy = true →
        (∀ x, .snkFinish x ∉ es) ∧ (∀ b e, .snkWrite b (.err e) ∉ es) ∧ ∀ e, .srcRead (.err e) ∉ es)
  (∀ (s t : State) (i : Instr), i = .compress ∨ i = .decompress → s.ready → exec i s = .next t → orderly s t) ∧
  (∀ (s t : State) (phase : Phase), ioLengthRunning s → s.seq = .busy phase → s.script = [] → step s = .next t →
    orderly s t) ∧
  ∀ s : State,
    let closed : FinishAnswer → State := fun a =>
      { s with
        snk := { writes := [], accepting := false, fin := none }, history := .snkFinish a :: s.history }
    (∀ o, s.snk.fin = some (.ok o) → finishOp s = .ended (endCommand (.finished o) (closed (.ok o)))) ∧
    (∀ e, s.snk.fin = some (.err e) → finishOp s = .ended (endCommand (.writeError e) (closed (.err e)))) ∧
    (s.snk.fin = none → finishOp s = .waits s)

/-- R227, R39, R226: a data command's trace and result depend on PS, the build, its operands and the channels alone,
not on what an earlier command left behind. COMPRESS_IN_PLACE under IoLength (R272). The channels are given at the issue,
connected anew or not (R271; log 26). -/
def Obligations.CommandsAreIndependentOfWhatWasLeft : Prop :=
  ∀ (s u t : State) (i : Instr),
    i = .compress ∨ i = .decompress ∨ (i = .compressInPlace ∧ ∀ p, s.ps = some p → ioLength p s) →
    s.ready → u.ready → u.build = s.build → u.ps = s.ps → u.src = s.src → u.snk = s.snk → u.io = s.io →
    u.cfg.ipL = s.cfg.ipL → u.cfg.ipOffset = s.cfg.ipOffset → u.quantum = s.quantum →
    exec i s = .next t →
    ∃ v es, exec i u = .next v ∧ t.trace = s.trace ++ es ∧ v.trace = u.trace ++ es ∧
      v.seq = t.seq ∧ v.res = t.res ∧ v.src = t.src ∧ v.snk = t.snk ∧ v.io = t.io

/-! ## The whole machine -/

/-- The invariant holds after reset, whatever the build (R45, R123). -/
def Obligations.InvariantHoldsAtReset : Prop := ∀ b : Build, buildOk b → Inv (State.resetOf b)

/-- R47 to R49, R24 to R26, R34, R39: every step keeps the invariant, the host keeping to IoLength when it issues
COMPRESS_IN_PLACE (R272). -/
def Obligations.EveryStepKeepsTheInvariant : Prop :=
  ∀ s t : State, Inv s → ioLengthIssued s → step s = .next t → Inv t

/-- R40, R61, R136, R200, R249: from a state that meets the invariant no step leaves WIN or IO, no bit-codec call is
out of range, and the core's own turn never stops; the host keeping to IoLength (R272). -/
def Obligations.NoStepGoesOutOfRange : Prop :=
  ∀ s : State, Inv s → ioLengthIssued s →
    (∀ f, step s ≠ .fault f) ∧ step s ≠ .refused .fieldOutOfRange ∧ step s ≠ .refused .tokenOutsideDecompress ∧
    (s.script = [] → ∃ t, step s = .next t)

/-- R64, R68, R244: no transaction is ever taken back: the trace only grows. COMPRESS_IN_PLACE under IoLength (R272). -/
def Obligations.TheTraceOnlyGrows : Prop :=
  ∀ s t : State, ioLengthRunning s → ioLengthIssued s → step s = .next t → ∃ es, t.trace = s.trace ++ es

/-- R23, R279: only VALIDATE (or a reset) changes PS. COMPRESS_IN_PLACE under IoLength (R272). -/
def Obligations.OnlyValidateChangesTheParameters : Prop :=
  ∀ s t : State, ioLengthRunning s → ioLengthIssued s → step s = .next t → t.ps ≠ s.ps →
    (∃ rest, s.script = .reset :: rest) ∨ (∃ rest, s.script = .writeCmd 0b00#2 :: rest) ∨
      ∃ c, s.seq = .busy (.vCheck c)

/-- R283, R281, R282, under the premises SrcFinite, SrcAnswers and SnkAnswers of R272: every weakly fair run ends its
command. IoLength of a COMPRESS_IN_PLACE that runs is part of the invariant. Without them it may not: the core has no timeout (log 25). -/
def Obligations.FairRunsEnd : Prop :=
  ∀ (run : Nat → State) (act : Nat → Act), FairRun run act → Inv (run 0) →
    srcFinite act → srcAnswers run → snkAnswers run → ∃ n, (run n).isBusy = false

/-- R246, R254: FAULT ends only at reset; until then nothing of the core changes but what the host writes. -/
def Obligations.FaultIsQuiescent : Prop :=
  ∀ s t : State, s.seq = .fault → step s = .next t → (∀ rest, s.script ≠ .reset :: rest) →
    t.seq = .fault ∧ t.res = s.res ∧ t.history = s.history ∧ t.ps = s.ps ∧ t.win = s.win ∧ t.cfg.cmd = s.cfg.cmd

/-- R270, R45: what reset leaves. A register R45 gives no value holds 0: the model's choice (log 5), not stated here. -/
def Obligations.ResetGivesTheResetValues : Prop :=
  ∀ (s : State) (rest : List Act), s.script = .reset :: rest →
    ∃ t, step s = .next t ∧
      t.seq = .idle ∧ t.status = 0 ∧ t.cfg.cmd = 0 ∧ t.cfg.ipL = 0 ∧ t.cfg.ipOffset = 0 ∧
      (s.build.mode = .runtime → t.cfg.config = 0 ∧ t.ps = none ∧ t.cfgValid = false) ∧
      (∀ c, s.build.mode = .fixed c → t.cfg.config = c ∧ t.ps = some (configParams c) ∧ t.cfgValid = true) ∧
      t.res = ResultRegs.clear ∧ (∀ a, t.winByte a = none) ∧
      t.io = s.io ∧ t.build = s.build ∧ t.history = s.history ∧ t.script = rest

/-- R32, R33: the fields of STATUS. -/
def Obligations.StatusWordLayout : Prop :=
  ∀ s : State,
    s.status.toNat % 8 = seqCode s.seq ∧ s.status.toNat / 8 % 2 = 0 ∧
    s.status.toNat / 16 % 16 = s.res.errCode.toNat ∧ s.status.toNat / 256 % 2 = s.res.ipRestValid.toNat ∧
    s.status.toNat / 512 = 0 ∧
    (s.seq = .idle → seqCode s.seq = 0) ∧ (∀ phase, s.seq = .busy phase → seqCode s.seq = 1) ∧
    (s.seq = .done → seqCode s.seq = 2) ∧ (s.seq = .error → seqCode s.seq = 3) ∧
    (s.seq = .fault → seqCode s.seq = 4)

/-- R225, R240: STATUS and RESULT after each way a command ends. -/
def Obligations.EndOfCommandStatus : Prop :=
  ∀ s : State,
    (endCommand .validated s).status = 0x002#32 ∧
    (∀ e, (endCommand (.paramError e) s).status = BitVec.ofNat 32 (3 + 16 * (paramErrCode e).toNat)) ∧
    (∀ o, (endCommand (.finished o) s).status = 0x002#32 ∧ (endCommand (.finished o) s).res.output = some o) ∧
    (∀ e, (endCommand (.readError e) s).status = 0x053#32 ∧ (endCommand (.readError e) s).res.errR = some e) ∧
    (∀ e, (endCommand (.writeError e) s).status = 0x063#32 ∧ (endCommand (.writeError e) s).res.errW = some e) ∧
    (∀ n, (endCommand (.inPlace n none) s).status = 0x002#32 ∧
      (endCommand (.inPlace n none) s).res.ipLen = some n ∧ (endCommand (.inPlace n none) s).res.ipRest = none) ∧
    (∀ n q, (endCommand (.inPlace n (some q)) s).status = 0x102#32 ∧
      (endCommand (.inPlace n (some q)) s).res.ipLen = some n ∧
      (endCommand (.inPlace n (some q)) s).res.ipRest = some q) ∧
    (endCommand .bufferTooSmall s).status = 0x074#32 ∧ (endCommand .readOfUnwrittenByte s).status = 0x084#32 ∧
    ∀ e, endCommand e s = { s with seq := endSeq e, res := endRes e }

/-- R34, R35, R42: what the host reads: CONFIG, CFG_VALID, STATUS, each RESULT register's value, and a byte of IO. A
RESULT register with no value is not read: the model refuses it (log 20), as it does an IO cell while COMPRESS_IN_PLACE
runs (log 19). -/
def Obligations.HostReadsStatusAndResults : Prop :=
  ∀ (s : State) (rest : List Act),
    (∀ reg, s.script = .read reg :: rest → (∀ a, reg ≠ .ioCell a) →
      (∀ v, hostReadValue s reg = some v →
        step s = .next { s with script := rest, reads := (reg, v) :: s.reads }) ∧
      (hostReadValue s reg = none → step s = .refused .noResultValue)) ∧
    hostReadValue s .config = some (.word s.cfg.config) ∧
    hostReadValue s .cfgValid = some (.bit s.ps.isSome) ∧
    hostReadValue s .status = some (.word s.status) ∧
    hostReadValue s .resOutput = s.res.output.map .output ∧
    hostReadValue s .resErrR = s.res.errR.map .errR ∧
    hostReadValue s .resErrW = s.res.errW.map .errW ∧
    hostReadValue s .resIpLen = s.res.ipLen.map .index ∧
    hostReadValue s .resIpRest = s.res.ipRest.map .index ∧
    ∀ a, s.script = .read (.ioCell a) :: rest →
      (s.ownsIo = false →
        ∃ b, s.ioByte a = some b ∧
          step s = .next { s with script := rest, reads := (.ioCell a, .byte b) :: s.reads }) ∧
      (s.ownsIo = true → step s = .refused .hostIoWhileBusy)

/-- R102, R220: a step at a CMD write is the decoded command's meaning, in the state with the move taken. -/
def Obligations.StepRunsTheWrittenCommand : Prop :=
  ∀ (s : State) (code : BitVec 2) (rest : List Act), s.script = .writeCmd code :: rest →
    step s = exec (decodeCmd code) { s with script := rest } ∧ cmdCode (decodeCmd code) = some code

/-- R185: where the source's next bits are a token, the core's operation is the token's meaning, after its bits are
taken. -/
def Obligations.StepRunsTheFetchedToken : Prop :=
  ∀ (s s' : State) (p : ParamSet) (i : Instr), s.atToken = true → s.ps = some p →
    fetchToken p s = .ok (some i) s' →
    (∀ phase, s.seq = .busy phase → (coreOp phase s).outcome = exec i s') ∧
    (s.script = [] → s.quantum = 0 → step s = exec i s')

/-- R185, R93, R96, R134: where the buffered bits and the source's next bytes begin with a token (R97), one turn at
D_FLAG takes exactly its bits and runs it. `left.length ≤ 7`: no byte more than the token needs is read. -/
def Obligations.StepRunsTheTokenOfTheNextBits : Prop :=
  ∀ (s : State) (p : ParamSet) (bs : List Byte) (rest : List SrcAnswer) (i : Instr) (left : List Bool),
    s.seq = .busy .dFlag → s.ps = some p → p.Legal s.build.idxW → s.br.cnt ≤ 7 →
    s.script = [] → s.quantum = 0 → s.src = bs.map .byte ++ rest →
    decodeToken p (s.br.bits ++ bs.flatMap byteBits) = .ok (i, left) → left.length ≤ 7 →
    ∃ (a : BitAcc) (phase : Phase),
      ((∃ b, i = .lit b ∧ phase = .dLit) ∨ ∃ offset len, i = .matchTok offset len ∧ phase = .dMatch) ∧
      a.bits = left ∧
      step s =
        exec i
          { s with
            br := a, src := rest, seq := .busy phase, history := (readsOf bs).reverse ++ s.history }
end

