-- ==== Sys2Proof/Laws/Bits.lean ====
section
/-! SUPPORT. Bit strings and numbers (00_scope.md R10): lengths, joining, and the two round trips. -/

namespace Sys2Proof

@[simp] theorem bitsOf_length (v n : Nat) : (bitsOf v n).length = n := by
  induction n with
  | zero => rfl
  | succ n ih => simp [bitsOf, ih]

/-- Only the low `n` bits count. -/
theorem bitsOf_congr {v w n : Nat} (h : ∀ i, i < n → v.testBit i = w.testBit i) : bitsOf v n = bitsOf w n := by
  induction n with
  | zero => rfl
  | succ n ih => rw [bitsOf, bitsOf, h n (by omega), ih fun i hi => h i (by omega)]

theorem bitsOf_mod (v n m : Nat) (h : n ≤ m) : bitsOf (v % 2 ^ m) n = bitsOf v n :=
  bitsOf_congr fun i hi => by simp [Nat.testBit_mod_two_pow]; omega

theorem bitsOf_and_mask (v n m : Nat) (h : n ≤ m) : bitsOf (v &&& (2 ^ m - 1)) n = bitsOf v n := by
  rw [Nat.and_two_pow_sub_one_eq_mod, bitsOf_mod v n m h]

/-- The high part of a number, then the low part. -/
theorem bitsOf_add (v m n : Nat) : bitsOf v (m + n) = bitsOf (v >>> n) m ++ bitsOf v n := by
  induction m with
  | zero => simp [bitsOf]
  | succ m ih => rw [Nat.succ_add, bitsOf, bitsOf, ih, Nat.testBit_shiftRight, Nat.add_comm n m, List.cons_append]

/-- A value written behind another (R133). -/
theorem bitsOf_shiftLeft_or (a b m n : Nat) (h : b < 2 ^ n) :
    bitsOf ((a <<< n) ||| b) (m + n) = bitsOf a m ++ bitsOf b n := by
  rw [bitsOf_add]
  congr 1
  · refine bitsOf_congr fun i _ => ?_
    simp [Nat.testBit_shiftRight, Nat.testBit_or, Nat.testBit_shiftLeft,
      Nat.testBit_lt_two_pow (Nat.lt_of_lt_of_le h (Nat.pow_le_pow_right (by omega) (Nat.le_add_right n i)))]
  · refine bitsOf_congr fun i hi => ?_
    simp [Nat.testBit_or, Nat.testBit_shiftLeft]
    omega

theorem bitsToNat_append (xs ys : List Bool) : bitsToNat (xs ++ ys) = bitsToNat xs * 2 ^ ys.length + bitsToNat ys := by
  have key : ∀ (ys : List Bool) (a : Nat),
      ys.foldl (fun acc b => 2 * acc + b.toNat) a =
        a * 2 ^ ys.length + ys.foldl (fun acc b => 2 * acc + b.toNat) 0 := by
    intro ys
    induction ys with
    | nil => simp
    | cons y ys ih =>
      intro a
      rw [List.foldl_cons, List.foldl_cons, ih (2 * a + y.toNat), ih (2 * 0 + y.toNat), List.length_cons, Nat.pow_succ]
      ring
  rw [bitsToNat, List.foldl_append, key ys]
  rfl

theorem bitsToNat_lt (bs : List Bool) : bitsToNat bs < 2 ^ bs.length := by
  induction bs with
  | nil => decide
  | cons b bs ih =>
    rw [← List.singleton_append, bitsToNat_append]
    have hb : bitsToNat [b] ≤ 1 := by cases b <;> decide
    have := Nat.mul_le_mul_right (2 ^ bs.length) hb
    rw [List.length_append, List.length_singleton, Nat.pow_add, Nat.pow_one]
    omega

theorem bitsToNat_bitsOf (v n : Nat) : bitsToNat (bitsOf v n) = v % 2 ^ n := by
  induction n with
  | zero => simp [bitsOf, bitsToNat, Nat.mod_one]
  | succ n ih =>
    rw [bitsOf, ← List.singleton_append, bitsToNat_append, bitsOf_length, ih]
    have hb : bitsToNat [v.testBit n] = (v.testBit n).toNat := by cases v.testBit n <;> rfl
    rw [hb, Nat.toNat_testBit, Nat.mod_pow_succ, Nat.add_comm, Nat.mul_comm]

theorem bitsOf_bitsToNat (bs : List Bool) : bitsOf (bitsToNat bs) bs.length = bs := by
  induction bs with
  | nil => rfl
  | cons b bs ih =>
    have hlt := bitsToNat_lt bs
    rw [← List.singleton_append, bitsToNat_append, List.length_append, List.length_singleton, Nat.add_comm 1,
      bitsOf]
    have hb : bitsToNat [b] = b.toNat := by cases b <;> rfl
    have htop : (bitsToNat [b] * 2 ^ bs.length + bitsToNat bs).testBit bs.length = b := by
      rw [hb, Nat.mul_comm, Nat.testBit_two_pow_mul_add _ hlt]
      cases b <;> simp
    have hlow : bitsOf (bitsToNat [b] * 2 ^ bs.length + bitsToNat bs) bs.length = bitsOf (bitsToNat bs) bs.length := by
      refine bitsOf_congr fun i hi => ?_
      rw [Nat.mul_comm, Nat.testBit_two_pow_mul_add _ hlt]
      simp [hi]
    rw [htop, hlow, ih]
    rfl

@[simp] theorem byteBits_length (b : Byte) : (byteBits b).length = 8 := bitsOf_length _ _

theorem byteBits_bitsToByte {bs : List Bool} (h : bs.length = 8) : byteBits (bitsToByte bs) = bs := by
  have hlt : bitsToNat bs < 2 ^ 8 := h ▸ bitsToNat_lt bs
  rw [byteBits, bitsToByte, BitVec.toNat_ofNat, Nat.mod_eq_of_lt hlt]
  exact h ▸ bitsOf_bitsToNat bs

theorem bitsToByte_byteBits (b : Byte) : bitsToByte (byteBits b) = b := by
  rw [bitsToByte, byteBits, bitsToNat_bitsOf, Nat.mod_eq_of_lt b.isLt, BitVec.ofNat_toNat]
  exact BitVec.setWidth_eq b

/-- A packed string reads back as itself and its padding, fewer than 8 zero bits (R90). -/
theorem packBytes_bits (bs : List Bool) :
    ∃ k, k < 8 ∧ (packBytes bs).flatMap byteBits = bs ++ List.replicate k false ∧
      8 * (packBytes bs).length = bs.length + k := by
  fun_induction packBytes bs with
  | case1 => exact ⟨0, by omega, rfl, rfl⟩
  | case2 b7 b6 b5 b4 b3 b2 b1 b0 rest ih =>
    obtain ⟨k, hk, hbits, hlen⟩ := ih
    refine ⟨k, hk, ?_, ?_⟩
    · rw [List.flatMap_cons, hbits, byteBits_bitsToByte rfl]
      rfl
    · simp only [List.length_cons]
      omega
  | case3 short h1 h2 =>
    have hlen : short.length < 8 := by
      match short with
      | [] | [_] | [_, _] | [_, _, _] | [_, _, _, _] | [_, _, _, _, _] | [_, _, _, _, _, _]
      | [_, _, _, _, _, _, _] => simp
      | b7 :: b6 :: b5 :: b4 :: b3 :: b2 :: b1 :: b0 :: rest => exact absurd rfl (h2 b7 b6 b5 b4 b3 b2 b1 b0 rest)
    have hpos : short.length ≠ 0 := fun h => h1 (List.eq_nil_of_length_eq_zero h)
    refine ⟨8 - short.length, by omega, ?_, ?_⟩
    · simp only [List.flatMap_cons, List.flatMap_nil, List.append_nil]
      exact byteBits_bitsToByte (by simp; omega)
    · simp only [List.length_cons, List.length_nil]
      omega

end Sys2Proof
end

