-- ==== Sys2Proof/Laws/Memory.lean ====
section
/-! SUPPORT. The byte memories: what a read gives after a write, and that every operation keeps the canonical form. -/

namespace Sys2Proof.Machine

/-! ## Reads after writes -/

@[simp] theorem memGet_nil (a : Nat) : memGet [] a = none := rfl

theorem memGet_memPut (m : Memory) (a b : Nat) (v : Byte) :
    memGet (memPut m a v) b = if a = b then some v else memGet m b := by
  induction m with
  | nil => simp [memPut, memGet]
  | cons cell m ih =>
    obtain ⟨k, w⟩ := cell
    unfold memPut
    split
    · simp [memGet]
    · split
      · rename_i h; subst h; by_cases hab : a = b <;> simp [memGet, hab]
      · rename_i h1 h2
        simp only [memGet, ih]
        by_cases hk : k = b
        · have : a ≠ b := fun h => h2 (h.trans hk.symm)
          simp [hk, this]
        · simp [hk]

theorem memGet_filter (P : Nat → Bool) (m : Memory) (a : Nat) :
    memGet (m.filter fun cell => P cell.1) a = if P a then memGet m a else none := by
  induction m with
  | nil => simp
  | cons cell m ih =>
    obtain ⟨k, w⟩ := cell
    by_cases hk : k = a
    · subst hk; by_cases hP : P k <;> simp [hP, memGet, ih]
    · by_cases hP : P k <;> simp [hP, memGet, ih, hk]

theorem memGet_memDel (m : Memory) (a b : Nat) :
    memGet (memDel m a) b = if a = b then none else memGet m b := by
  unfold memDel
  rw [memGet_filter (fun k => k != a)]
  by_cases h : a = b
  · simp [h]
  · have : b ≠ a := fun e => h e.symm
    simp [h, this]

/-- A read after a write to the same place gives the value written. -/
@[simp] theorem memRead_memWrite_same (u : Option Byte) (m : Memory) (a : Nat) (v : Byte) :
    memRead u (memWrite u m a v) a = some v := by
  by_cases h : u = some v <;> simp [memRead, memWrite, h, memGet_memDel, memGet_memPut]

/-- A write leaves every other place alone. -/
theorem memRead_memWrite_other (u : Option Byte) (m : Memory) {a b : Nat} (v : Byte) (h : b ≠ a) :
    memRead u (memWrite u m a v) b = memRead u m b := by
  have h' : a ≠ b := fun e => h e.symm
  by_cases hu : u = some v <;> simp [memRead, memWrite, hu, memGet_memDel, memGet_memPut, h']

theorem memRead_memWrite (u : Option Byte) (m : Memory) (a b : Nat) (v : Byte) :
    memRead u (memWrite u m a v) b = if b = a then some v else memRead u m b := by
  by_cases h : b = a
  · subst h; simp
  · simp [h, memRead_memWrite_other]

theorem memGet_append (m m' : Memory) (a : Nat) :
    memGet (m ++ m') a = (memGet m a).or (memGet m' a) := by
  induction m with
  | nil => simp
  | cons cell m ih =>
    obtain ⟨k, w⟩ := cell
    by_cases hk : k = a <;> simp [memGet, hk, ih]

theorem memGet_fill_aux (l : List Nat) (c : Byte) (a : Nat) :
    memGet (l.map fun k => (k, c)) a = if a ∈ l then some c else none := by
  induction l with
  | nil => simp
  | cons k l ih =>
    by_cases hk : k = a
    · simp [memGet, hk]
    · have : a ≠ k := fun e => hk e.symm
      simp [memGet, hk, ih, this]

/-- WIN at the start of a command (R150, R160). -/
@[simp] theorem memGet_memFill (n : Nat) (c : Byte) (a : Nat) :
    memGet (memFill n c) a = if a < n then some c else none := by
  simp [memFill, memGet_fill_aux]

theorem memGet_map_sub (n : Nat) (m : Memory) (a : Nat) (h : ∀ cell ∈ m, n ≤ cell.1) :
    memGet (m.map fun cell => (cell.1 - n, cell.2)) a = memGet m (n + a) := by
  induction m with
  | nil => simp
  | cons cell m ih =>
    obtain ⟨k, w⟩ := cell
    have hk : n ≤ k := h (k, w) (by simp)
    have ih' := ih fun c hc => h c (by simp [hc])
    by_cases hka : k = n + a
    · have : k - n = a := by omega
      simp [memGet, hka]
    · have : k - n ≠ a := by omega
      simp [memGet, hka, this, ih']

/-- The compaction copy, below N (R155). -/
theorem memGet_memMoveDown_low (n : Nat) (m : Memory) {a : Nat} (h : a < n) :
    memGet (memMoveDown n m) a = memGet m (n + a) := by
  unfold memMoveDown
  rw [memGet_append, memGet_map_sub]
  · rw [memGet_filter (fun k => decide (n ≤ k ∧ k < 2 * n)), memGet_filter (fun k => decide (n ≤ k))]
    have h1 : n ≤ n + a ∧ n + a < 2 * n := by omega
    have h2 : ¬ n ≤ a := by omega
    simp [h1.1, h1.2, h2]
  · intro cell hc
    simp at hc
    exact hc.2.1

/-- The compaction copy, from N on (R155). -/
theorem memGet_memMoveDown_high (n : Nat) (m : Memory) {a : Nat} (h : n ≤ a) :
    memGet (memMoveDown n m) a = memGet m a := by
  unfold memMoveDown
  rw [memGet_append, memGet_map_sub]
  · rw [memGet_filter (fun k => decide (n ≤ k ∧ k < 2 * n)), memGet_filter (fun k => decide (n ≤ k))]
    have h1 : ¬ (n + a < 2 * n) := by omega
    simp [h1, h]
  · intro cell hc
    simp at hc
    exact hc.2.1

/-! ## The canonical form is kept -/

theorem mem_memPut {m : Memory} {a : Nat} {v : Byte} {cell : Host.Cell} (h : cell ∈ memPut m a v) :
    cell = (a, v) ∨ cell ∈ m := by
  induction m with
  | nil => simp [memPut] at h; exact .inl h
  | cons c m ih =>
    obtain ⟨k, w⟩ := c
    unfold memPut at h
    split at h
    · simpa using h
    · split at h
      · simp at h; rcases h with h | h
        · exact .inl h
        · exact .inr (by simp [h])
      · rcases List.mem_cons.mp h with h | h
        · exact .inr (by simp [h])
        · rcases ih h with h | h
          · exact .inl h
          · exact .inr (by simp [h])

theorem memPut_rising {m : Memory} (a : Nat) (v : Byte) (h : m.Pairwise (fun x y => x.1 < y.1)) :
    (memPut m a v).Pairwise (fun x y => x.1 < y.1) := by
  induction m with
  | nil => simp [memPut]
  | cons c m ih =>
    obtain ⟨k, w⟩ := c
    rw [List.pairwise_cons] at h
    unfold memPut
    split
    · rename_i hak
      refine List.pairwise_cons.mpr ⟨?_, List.pairwise_cons.mpr h⟩
      intro x hx
      rcases List.mem_cons.mp hx with rfl | hx
      · exact hak
      · exact lt_trans hak (h.1 x hx)
    · split
      · rename_i hak
        exact List.pairwise_cons.mpr ⟨fun x hx => by simpa [hak] using h.1 x hx, h.2⟩
      · rename_i h1 h2
        refine List.pairwise_cons.mpr ⟨?_, ih h.2⟩
        intro x hx
        rcases mem_memPut hx with rfl | hx
        · show k < a; omega
        · exact h.1 x hx

/-- Every write keeps the canonical form. -/
theorem memWrite_wf {u : Option Byte} {m : Memory} (a : Nat) (v : Byte) (h : Memory.wf u m) :
    Memory.wf u (memWrite u m a v) := by
  unfold memWrite
  split
  · refine ⟨h.1.filter _, fun cell hc => h.2 cell (List.mem_of_mem_filter hc)⟩
  · rename_i hv
    refine ⟨memPut_rising a v h.1, fun cell hc => ?_⟩
    rcases mem_memPut hc with rfl | hc
    · exact hv
    · exact h.2 cell hc

/-- A write inside a bound keeps every listed address inside it. -/
theorem memWrite_below {u : Option Byte} {m : Memory} {a n : Nat} (v : Byte) (ha : a < n)
    (h : ∀ cell ∈ m, cell.1 < n) : ∀ cell ∈ memWrite u m a v, cell.1 < n := by
  intro cell hc
  unfold memWrite at hc
  split at hc
  · exact h cell (List.mem_of_mem_filter hc)
  · rcases mem_memPut hc with rfl | hc
    · exact ha
    · exact h cell hc

/-- The start of a command gives a canonical WIN. -/
theorem memFill_wf (n : Nat) (c : Byte) : Memory.wf Config.winUnlisted (memFill n c) := by
  refine ⟨?_, fun cell _ => by simp [Config.winUnlisted]⟩
  unfold memFill
  rw [List.pairwise_map]
  exact List.pairwise_lt_range

theorem memFill_below (n : Nat) (c : Byte) : ∀ cell ∈ memFill n c, cell.1 < n := by
  intro cell hc
  simp [memFill] at hc
  obtain ⟨k, hk, rfl⟩ := hc
  exact hk

/-- The compaction copy keeps the canonical form. -/
theorem memMoveDown_wf {u : Option Byte} {m : Memory} (n : Nat) (h : Memory.wf u m) :
    Memory.wf u (memMoveDown n m) := by
  constructor
  · unfold memMoveDown
    rw [List.pairwise_append]
    refine ⟨?_, h.1.filter _, ?_⟩
    · rw [List.pairwise_map]
      refine (h.1.filter _).imp_of_mem ?_
      intro x y hx hy hxy
      simp at hx
      show x.1 - n < y.1 - n
      omega
    · intro x hx y hy
      simp at hx hy
      obtain ⟨a, b, hab, rfl⟩ := hx
      show a - n < y.1
      omega
  · intro cell hc
    unfold memMoveDown at hc
    rcases List.mem_append.mp hc with hc | hc
    · simp at hc
      obtain ⟨a, b, hab, rfl⟩ := hc
      exact h.2 (a, b) hab.1
    · exact h.2 cell (List.mem_of_mem_filter hc)

theorem memMoveDown_below {m : Memory} {n k : Nat} (h : ∀ cell ∈ m, cell.1 < k) :
    ∀ cell ∈ memMoveDown n m, cell.1 < k := by
  intro cell hc
  unfold memMoveDown at hc
  rcases List.mem_append.mp hc with hc | hc
  · simp at hc
    obtain ⟨a, b, hab, rfl⟩ := hc
    have := h (a, b) hab.1
    show a - n < k
    simp only at this
    omega
  · exact h cell (List.mem_of_mem_filter hc)

/-- The memories after reset are canonical. -/
theorem reset_memories_wf (b : Build) :
    Memory.wf Config.winUnlisted (State.resetOf b).win ∧ Memory.wf Config.ioUnlisted (State.resetOf b).io := by
  simp [State.resetOf, Memory.wf]

/-! ## The two memories of a state -/

theorem winByte_eq (s : State) (a : Nat) : s.winByte a = memGet s.win a := by
  simp [State.winByte, memRead, Config.winUnlisted]

/-- IO cells always hold a byte (R249). -/
theorem ioByte_isSome (s : State) (a : Nat) : (s.ioByte a).isSome := by
  simp [State.ioByte, memRead, Config.ioUnlisted]

end Sys2Proof.Machine
end

