-- ==== Sys2Proof/Laws/State.lean ====
section
/-! SUPPORT. One lemma per field of State per named update of the state, so that no later proof unfolds a record
update: `endCommand`, `resetCore` and `hostWriteConfig`. -/

namespace Sys2Proof.Machine

/-! ## `endCommand` (R225): SEQ and the result registers only -/

@[simp] theorem endCommand_build (e : Ending) (s : State) : (endCommand e s).build = s.build := rfl

@[simp] theorem endCommand_cfg (e : Ending) (s : State) : (endCommand e s).cfg = s.cfg := rfl

@[simp] theorem endCommand_ps (e : Ending) (s : State) : (endCommand e s).ps = s.ps := rfl

@[simp] theorem endCommand_seq (e : Ending) (s : State) : (endCommand e s).seq = endSeq e := rfl

@[simp] theorem endCommand_res (e : Ending) (s : State) : (endCommand e s).res = endRes e := rfl

@[simp] theorem endCommand_bw (e : Ending) (s : State) : (endCommand e s).bw = s.bw := rfl

@[simp] theorem endCommand_br (e : Ending) (s : State) : (endCommand e s).br = s.br := rfl

@[simp] theorem endCommand_cp (e : Ending) (s : State) : (endCommand e s).cp = s.cp := rfl

@[simp] theorem endCommand_dR (e : Ending) (s : State) : (endCommand e s).dR = s.dR := rfl

@[simp] theorem endCommand_sr (e : Ending) (s : State) : (endCommand e s).sr = s.sr := rfl

@[simp] theorem endCommand_ip (e : Ending) (s : State) : (endCommand e s).ip = s.ip := rfl

@[simp] theorem endCommand_win (e : Ending) (s : State) : (endCommand e s).win = s.win := rfl

@[simp] theorem endCommand_io (e : Ending) (s : State) : (endCommand e s).io = s.io := rfl

@[simp] theorem endCommand_src (e : Ending) (s : State) : (endCommand e s).src = s.src := rfl

@[simp] theorem endCommand_snk (e : Ending) (s : State) : (endCommand e s).snk = s.snk := rfl

@[simp] theorem endCommand_script (e : Ending) (s : State) : (endCommand e s).script = s.script := rfl

@[simp] theorem endCommand_reads (e : Ending) (s : State) : (endCommand e s).reads = s.reads := rfl

@[simp] theorem endCommand_history (e : Ending) (s : State) : (endCommand e s).history = s.history := rfl

@[simp] theorem endCommand_quantum (e : Ending) (s : State) : (endCommand e s).quantum = s.quantum := rfl

/-! ## `resetCore` (R270): the reset values, but for what is outside the core -/

@[simp] theorem resetCore_build (s : State) : (resetCore s).build = s.build := rfl

@[simp] theorem resetCore_cfg (s : State) : (resetCore s).cfg = (State.resetOf s.build).cfg := rfl

@[simp] theorem resetCore_ps (s : State) : (resetCore s).ps = (State.resetOf s.build).ps := rfl

@[simp] theorem resetCore_seq (s : State) : (resetCore s).seq = (State.resetOf s.build).seq := rfl

@[simp] theorem resetCore_res (s : State) : (resetCore s).res = (State.resetOf s.build).res := rfl

@[simp] theorem resetCore_bw (s : State) : (resetCore s).bw = (State.resetOf s.build).bw := rfl

@[simp] theorem resetCore_br (s : State) : (resetCore s).br = (State.resetOf s.build).br := rfl

@[simp] theorem resetCore_cp (s : State) : (resetCore s).cp = (State.resetOf s.build).cp := rfl

@[simp] theorem resetCore_dR (s : State) : (resetCore s).dR = (State.resetOf s.build).dR := rfl

@[simp] theorem resetCore_sr (s : State) : (resetCore s).sr = (State.resetOf s.build).sr := rfl

@[simp] theorem resetCore_ip (s : State) : (resetCore s).ip = (State.resetOf s.build).ip := rfl

@[simp] theorem resetCore_win (s : State) : (resetCore s).win = (State.resetOf s.build).win := rfl

@[simp] theorem resetCore_io (s : State) : (resetCore s).io = s.io := rfl

@[simp] theorem resetCore_src (s : State) : (resetCore s).src = s.src := rfl

@[simp] theorem resetCore_snk (s : State) : (resetCore s).snk = s.snk := rfl

@[simp] theorem resetCore_script (s : State) : (resetCore s).script = s.script := rfl

@[simp] theorem resetCore_reads (s : State) : (resetCore s).reads = s.reads := rfl

@[simp] theorem resetCore_history (s : State) : (resetCore s).history = s.history := rfl

@[simp] theorem resetCore_quantum (s : State) : (resetCore s).quantum = s.quantum := rfl

/-! ## `hostWriteConfig` (R22): CONFIG only -/

@[simp] theorem hostWriteConfig_build (w : Word32) (s : State) : (hostWriteConfig w s).build = s.build := by
  unfold hostWriteConfig; split <;> rfl

@[simp] theorem hostWriteConfig_ps (w : Word32) (s : State) : (hostWriteConfig w s).ps = s.ps := by
  unfold hostWriteConfig; split <;> rfl

@[simp] theorem hostWriteConfig_seq (w : Word32) (s : State) : (hostWriteConfig w s).seq = s.seq := by
  unfold hostWriteConfig; split <;> rfl

@[simp] theorem hostWriteConfig_res (w : Word32) (s : State) : (hostWriteConfig w s).res = s.res := by
  unfold hostWriteConfig; split <;> rfl

@[simp] theorem hostWriteConfig_bw (w : Word32) (s : State) : (hostWriteConfig w s).bw = s.bw := by
  unfold hostWriteConfig; split <;> rfl

@[simp] theorem hostWriteConfig_br (w : Word32) (s : State) : (hostWriteConfig w s).br = s.br := by
  unfold hostWriteConfig; split <;> rfl

@[simp] theorem hostWriteConfig_cp (w : Word32) (s : State) : (hostWriteConfig w s).cp = s.cp := by
  unfold hostWriteConfig; split <;> rfl

@[simp] theorem hostWriteConfig_dR (w : Word32) (s : State) : (hostWriteConfig w s).dR = s.dR := by
  unfold hostWriteConfig; split <;> rfl

@[simp] theorem hostWriteConfig_sr (w : Word32) (s : State) : (hostWriteConfig w s).sr = s.sr := by
  unfold hostWriteConfig; split <;> rfl

@[simp] theorem hostWriteConfig_ip (w : Word32) (s : State) : (hostWriteConfig w s).ip = s.ip := by
  unfold hostWriteConfig; split <;> rfl

@[simp] theorem hostWriteConfig_win (w : Word32) (s : State) : (hostWriteConfig w s).win = s.win := by
  unfold hostWriteConfig; split <;> rfl

@[simp] theorem hostWriteConfig_io (w : Word32) (s : State) : (hostWriteConfig w s).io = s.io := by
  unfold hostWriteConfig; split <;> rfl

@[simp] theorem hostWriteConfig_src (w : Word32) (s : State) : (hostWriteConfig w s).src = s.src := by
  unfold hostWriteConfig; split <;> rfl

@[simp] theorem hostWriteConfig_snk (w : Word32) (s : State) : (hostWriteConfig w s).snk = s.snk := by
  unfold hostWriteConfig; split <;> rfl

@[simp] theorem hostWriteConfig_script (w : Word32) (s : State) : (hostWriteConfig w s).script = s.script := by
  unfold hostWriteConfig; split <;> rfl

@[simp] theorem hostWriteConfig_reads (w : Word32) (s : State) : (hostWriteConfig w s).reads = s.reads := by
  unfold hostWriteConfig; split <;> rfl

@[simp] theorem hostWriteConfig_history (w : Word32) (s : State) : (hostWriteConfig w s).history = s.history := by
  unfold hostWriteConfig; split <;> rfl

@[simp] theorem hostWriteConfig_quantum (w : Word32) (s : State) : (hostWriteConfig w s).quantum = s.quantum := by
  unfold hostWriteConfig; split <;> rfl

@[simp] theorem hostWriteConfig_cmd (w : Word32) (s : State) : (hostWriteConfig w s).cfg.cmd = s.cfg.cmd := by
  unfold hostWriteConfig; split <;> rfl

@[simp] theorem hostWriteConfig_ipL (w : Word32) (s : State) : (hostWriteConfig w s).cfg.ipL = s.cfg.ipL := by
  unfold hostWriteConfig; split <;> rfl

@[simp] theorem hostWriteConfig_ipOffset (w : Word32) (s : State) :
    (hostWriteConfig w s).cfg.ipOffset = s.cfg.ipOffset := by
  unfold hostWriteConfig; split <;> rfl

/-! ## The two statuses of `SEQ` that claims ask for -/

@[simp] theorem isBusy_busy (s : State) (phase : Phase) (h : s.seq = .busy phase) : s.isBusy = true := by
  simp [State.isBusy, h]

theorem isBusy_iff (s : State) : s.isBusy = true ↔ ∃ phase, s.seq = .busy phase := by
  unfold State.isBusy
  split <;> simp_all

theorem endSeq_not_busy (e : Ending) (phase : Phase) : endSeq e ≠ .busy phase := by
  cases e <;> simp [endSeq]

end Sys2Proof.Machine
end

