-- ==== Sys2Proof/Laws/Ops.lean ====
section
/-! SUPPORT. One lemma for each shared operation of Machine/Ops.lean and Machine/Operands.lean that says what it can
do; provers cite these instead of unfolding the operation. -/

namespace Sys2Proof.Machine

/-! ## `Res` -/

/-- `P` holds of the state an operation leaves, if it leaves one. -/
def Res.All {α : Type} (P : State → Prop) : Res α → Prop
  | .ok _ s => P s
  | .waits s => P s
  | .ended s => P s
  | .faulted _ => True
  | .refused _ => True

@[simp] theorem Res.all_ok {α : Type} (P : State → Prop) (a : α) (s : State) : (Res.ok a s).All P = P s := rfl
@[simp] theorem Res.all_waits {α : Type} (P : State → Prop) (s : State) : (Res.waits s : Res α).All P = P s := rfl
@[simp] theorem Res.all_ended {α : Type} (P : State → Prop) (s : State) : (Res.ended s : Res α).All P = P s := rfl
@[simp] theorem Res.all_faulted {α : Type} (P : State → Prop) (f : Fault) : (Res.faulted f : Res α).All P = True := rfl
@[simp] theorem Res.all_refused {α : Type} (P : State → Prop) (r : Refusal) :
    (Res.refused r : Res α).All P = True := rfl

@[simp] theorem Res.andThen_ok {α β : Type} (a : α) (s : State) (next : α → State → Res β) :
    (Res.ok a s).andThen next = next a s := rfl
@[simp] theorem Res.andThen_waits {α β : Type} (s : State) (next : α → State → Res β) :
    (Res.waits s).andThen next = .waits s := rfl
@[simp] theorem Res.andThen_ended {α β : Type} (s : State) (next : α → State → Res β) :
    (Res.ended s).andThen next = .ended s := rfl
@[simp] theorem Res.andThen_faulted {α β : Type} (f : Fault) (next : α → State → Res β) :
    (Res.faulted f).andThen next = .faulted f := rfl
@[simp] theorem Res.andThen_refused {α β : Type} (r : Refusal) (next : α → State → Res β) :
    (Res.refused r).andThen next = .refused r := rfl

@[simp] theorem Res.outcome_ok {α : Type} (a : α) (s : State) : (Res.ok a s).outcome = .next s := rfl
@[simp] theorem Res.outcome_waits {α : Type} (s : State) : (Res.waits s : Res α).outcome = .next s := rfl
@[simp] theorem Res.outcome_ended {α : Type} (s : State) : (Res.ended s : Res α).outcome = .next s := rfl
@[simp] theorem Res.outcome_faulted {α : Type} (f : Fault) : (Res.faulted f : Res α).outcome = .fault f := rfl
@[simp] theorem Res.outcome_refused {α : Type} (r : Refusal) : (Res.refused r : Res α).outcome = .refused r := rfl

theorem Res.All.imp {α : Type} {P Q : State → Prop} {r : Res α} (h : r.All P) (hPQ : ∀ s, P s → Q s) : r.All Q := by
  cases r <;> first | exact hPQ _ h | trivial

/-- The rule for a sequence: what holds after the first operation and is carried on by the second. -/
theorem Res.All.andThen {α β : Type} {P Q : State → Prop} {r : Res α} {next : α → State → Res β} (h : r.All P)
    (hPQ : ∀ s, P s → Q s) (hnext : ∀ a s, r = .ok a s → P s → (next a s).All Q) : (r.andThen next).All Q := by
  cases r with
  | ok a s => exact hnext a s rfl h
  | waits s => exact hPQ s h
  | ended s => exact hPQ s h
  | faulted f => trivial
  | refused x => trivial

theorem Res.outcome_next {α : Type} {P : State → Prop} {r : Res α} {t : State} (h : r.All P)
    (ht : r.outcome = .next t) : P t := by
  cases r <;> simp at ht <;> subst ht <;> exact h

/-! ## Memory accesses -/

theorem winRead_ok {s : State} {a : Nat} {b : Byte} :
    winRead s a = .ok b ↔ a < s.build.wbufBytes ∧ s.winByte a = some b := by
  unfold winRead State.winByte
  split
  · rename_i h
    cases hm : memRead Config.winUnlisted s.win a <;> simp [h]
  · simp; omega

theorem winWrite_ok {s t : State} {a : Nat} {b : Byte} :
    winWrite a b s = .ok t ↔ a < s.build.wbufBytes ∧ t = { s with win := memWrite Config.winUnlisted s.win a b } := by
  unfold winWrite
  split <;> simp [*, eq_comm]

theorem ioRead_ok {s : State} {a : Nat} {b : Byte} :
    ioRead s a = .ok b ↔ a < s.ip.len ∧ s.ioByte a = some b := by
  unfold ioRead State.ioByte
  split
  · rename_i h
    cases hm : memRead Config.ioUnlisted s.io a <;> simp [h]
  · simp; omega

theorem ioWrite_ok {s t : State} {a : Nat} {b : Byte} :
    ioWrite a b s = .ok t ↔
      a < s.ip.len ∧
        t = { s with io := memWrite Config.ioUnlisted s.io a b, history := .ioWrite a b :: s.history } := by
  unfold ioWrite
  split <;> simp [*, eq_comm]

/-- A stored WIN byte is read back; every other cell is as it was. -/
theorem winByte_write (s : State) (a b : Nat) (v : Byte) :
    State.winByte { s with win := memWrite Config.winUnlisted s.win a v } b = if b = a then some v else s.winByte b :=
  memRead_memWrite _ _ _ _ _

/-- A stored IO byte is read back; every other cell is as it was. -/
theorem ioByte_write (s : State) (a b : Nat) (v : Byte) (h : List Event) :
    State.ioByte { s with io := memWrite Config.ioUnlisted s.io a v, history := h } b =
      if b = a then some v else s.ioByte b :=
  memRead_memWrite _ _ _ _ _

theorem onAccess_ok {α β : Type} (a : α) (s : State) (next : α → Res β) : onAccess (.ok a) s next = next a := rfl

/-- An access that gives nothing ends the command in FAULT or stops the model. -/
theorem onAccess_all {α β : Type} {P : State → Prop} {access : Except MemStop α} {s : State} {next : α → Res β}
    (hstop : P (endCommand .readOfUnwrittenByte s)) (hnext : ∀ a, access = .ok a → (next a).All P) :
    (onAccess access s next).All P := by
  cases access with
  | ok a => exact hnext a rfl
  | error stop => cases stop <;> simp [onAccess, stopped, hstop]

/-! ## Channels -/

/-- What a SrcRead that is answered does: it takes the answer, or leaves the last End, and records it. -/
theorem srcRead_got {s t : State} {a : SrcAnswer} (h : srcRead s = .got a t) :
    t = { s with src := t.src, history := .srcRead a :: s.history } ∧
      (s.src = a :: t.src ∨ a = .endOfData ∧ s.src = [.endOfData] ∧ t.src = s.src) := by
  unfold srcRead at h
  split at h
  · cases h
  · rename_i hs
    cases h
    exact ⟨rfl, .inr ⟨rfl, hs, rfl⟩⟩
  · rename_i hs
    cases h
    exact ⟨rfl, .inl (by simpa using hs)⟩

theorem srcRead_waits {s : State} : srcRead s = .waits ↔ s.src = [] := by
  unfold srcRead
  split <;> simp [*]

theorem srcRead_byte {s : State} {b : Byte} {rest : List SrcAnswer} (h : s.src = .byte b :: rest) :
    srcRead s = .got (.byte b) { s with src := rest, history := .srcRead (.byte b) :: s.history } := by
  simp [srcRead, h]

theorem srcRead_end {s : State} (h : s.src = [.endOfData]) :
    srcRead s = .got .endOfData { s with history := .srcRead .endOfData :: s.history } := by
  simp [srcRead, h]

/-- What a SnkWrite that is answered does: it takes the answer, if it was a listed one, and records it. -/
theorem snkWrite_got {s t : State} {b : Byte} {a : WriteAnswer} (h : snkWrite b s = .got a t) :
    t = { s with snk := t.snk, history := .snkWrite b a :: s.history } ∧
      (s.snk.writes = a :: t.snk.writes ∨
        a = .ok ∧ s.snk.writes = [] ∧ s.snk.accepting = true ∧ t.snk = s.snk) := by
  unfold snkWrite at h
  split at h
  · rename_i hs
    split at h
    · rename_i hacc
      cases h
      exact ⟨rfl, .inr ⟨rfl, hs, hacc, rfl⟩⟩
    · cases h
  · rename_i hs
    cases h
    exact ⟨rfl, .inl (by simpa using hs)⟩

theorem snkWrite_waits {s : State} {b : Byte} :
    snkWrite b s = .waits ↔ s.snk.writes = [] ∧ s.snk.accepting = false := by
  unfold snkWrite
  split
  · split <;> simp [*]
  · simp [*]

theorem snkWrite_accepting {s : State} (b : Byte) (h : s.snk.writes = []) (h' : s.snk.accepting = true) :
    snkWrite b s = .got .ok { s with history := .snkWrite b .ok :: s.history } := by
  simp [snkWrite, h, h']

/-- What an answered SnkFinish does: the sink is closed and the answer recorded. -/
theorem snkFinish_got {s t : State} {a : FinishAnswer} (h : snkFinish s = .got a t) :
    s.snk.fin = some a ∧
      t =
        { s with
          snk := { writes := [], accepting := false, fin := none }, history := .snkFinish a :: s.history } := by
  unfold snkFinish at h
  split at h
  · cases h
  · rename_i hs
    cases h
    exact ⟨hs, rfl⟩

/-- The three things EMIT to the sink can do. -/
theorem emitSink_cases (b : Byte) (s : State) :
    (∃ t, emitSink b s = .ok () t ∧ snkWrite b s = .got .ok t) ∨
      (emitSink b s = .waits s ∧ snkWrite b s = .waits) ∨
        ∃ e t, emitSink b s = .ended (endCommand (.writeError e) t) ∧ snkWrite b s = .got (.err e) t := by
  unfold emitSink
  cases h : snkWrite b s with
  | waits => exact .inr (.inl ⟨rfl, rfl⟩)
  | got a t =>
    cases a with
    | ok => exact .inl ⟨t, rfl, rfl⟩
    | err e => exact .inr (.inr ⟨e, t, rfl, rfl⟩)

theorem emitSink_accepting {s : State} (b : Byte) (h : s.snk.writes = []) (h' : s.snk.accepting = true) :
    emitSink b s = .ok () { s with history := .snkWrite b .ok :: s.history } := by
  simp [emitSink, snkWrite_accepting b h h']

/-- EMIT into IO never waits and, inside [0, L), never stops (R131). -/
theorem emitIo_ok {s : State} (b : Byte) (h : s.ip.out < s.ip.len) :
    emitIo b s =
      .ok ()
        { s with
          io := memWrite Config.ioUnlisted s.io s.ip.out b
          history := .ioWrite s.ip.out b :: s.history
          ip := { s.ip with out := s.ip.out + 1 } } := by
  simp [emitIo, onAccess, ioWrite, h]

theorem emitIo_outside {s : State} (b : Byte) (h : s.ip.len ≤ s.ip.out) :
    emitIo b s = .faulted .ioIndexOutOfRange := by
  have : ¬ s.ip.out < s.ip.len := by omega
  simp [emitIo, onAccess, ioWrite, this, stopped]

/-! ## What operations share: the trace only grows, and the host's registers, PS and the build stay -/

/-- What every operation of a command but VALIDATE's keeps. -/
structure Carried (s t : State) : Prop where
  trace : ∃ es, t.history = es ++ s.history
  build : t.build = s.build
  cfg : t.cfg = s.cfg
  ps : t.ps = s.ps
  script : t.script = s.script
  reads : t.reads = s.reads
  quantum : t.quantum = s.quantum

theorem Carried.refl (s : State) : Carried s s := ⟨⟨[], rfl⟩, rfl, rfl, rfl, rfl, rfl, rfl⟩

theorem Carried.trans {s t u : State} (h : Carried s t) (h' : Carried t u) : Carried s u := by
  obtain ⟨es, hes⟩ := h.trace
  obtain ⟨fs, hfs⟩ := h'.trace
  exact
    ⟨⟨fs ++ es, by rw [hfs, hes, List.append_assoc]⟩, h'.build.trans h.build, h'.cfg.trans h.cfg, h'.ps.trans h.ps,
      h'.script.trans h.script, h'.reads.trans h.reads, h'.quantum.trans h.quantum⟩

/-- A state that differs only in the core's own fields is carried. -/
theorem Carried.of_same {s t : State} (hh : t.history = s.history) (hb : t.build = s.build) (hc : t.cfg = s.cfg)
    (hp : t.ps = s.ps) (hs : t.script = s.script) (hr : t.reads = s.reads) (hq : t.quantum = s.quantum) :
    Carried s t := ⟨⟨[], hh⟩, hb, hc, hp, hs, hr, hq⟩

theorem carried_endCommand {s t : State} (e : Ending) (h : Carried s t) : Carried s (endCommand e t) :=
  ⟨h.trace, h.build, h.cfg, h.ps, h.script, h.reads, h.quantum⟩

theorem carried_srcRead {s t : State} {a : SrcAnswer} (h : srcRead s = .got a t) : Carried s t := by
  rw [(srcRead_got h).1]
  exact ⟨⟨[.srcRead a], rfl⟩, rfl, rfl, rfl, rfl, rfl, rfl⟩

theorem carried_snkWrite {s t : State} {b : Byte} {a : WriteAnswer} (h : snkWrite b s = .got a t) : Carried s t := by
  rw [(snkWrite_got h).1]
  exact ⟨⟨[.snkWrite b a], rfl⟩, rfl, rfl, rfl, rfl, rfl, rfl⟩

theorem carried_emitSink (b : Byte) (s : State) : (emitSink b s).All (Carried s) := by
  rcases emitSink_cases b s with ⟨t, h, hw⟩ | ⟨h, _⟩ | ⟨e, t, h, hw⟩ <;> rw [h]
  · exact carried_snkWrite hw
  · exact Carried.refl s
  · exact carried_endCommand _ (carried_snkWrite hw)

theorem carried_emitIo (b : Byte) (s : State) : (emitIo b s).All (Carried s) := by
  by_cases h : s.ip.out < s.ip.len
  · rw [emitIo_ok b h]
    exact ⟨⟨[_], rfl⟩, rfl, rfl, rfl, rfl, rfl, rfl⟩
  · rw [emitIo_outside b (by omega)]
    trivial

theorem carried_finishOp (s : State) : (finishOp s).All (Carried s) := by
  unfold finishOp
  cases h : snkFinish s with
  | waits => exact Carried.refl s
  | got a t =>
    have ht : Carried s t := by
      rw [(snkFinish_got h).2]
      exact ⟨⟨[_], rfl⟩, rfl, rfl, rfl, rfl, rfl, rfl⟩
    cases a <;> exact carried_endCommand _ ht

theorem carried_putByte (p : ParamSet) (b : Byte) (s : State) : (putByte p b s).All (Carried s) := by
  unfold putByte
  refine (carried_emitSink b s).andThen (fun _ h => h) fun _ t _ ht => ?_
  refine onAccess_all (carried_endCommand _ ht) fun u hu => ?_
  rw [(winWrite_ok.mp hu).2]
  exact ht.trans (Carried.of_same rfl rfl rfl rfl rfl rfl rfl)

/-! ## The bit-stream codec -/

/-- An EMIT that carries what every operation carries. -/
abbrev CarriesOn (emit : Byte → State → Res Unit) : Prop := ∀ b s, (emit b s).All (Carried s)

theorem carried_drainBits {emit : Byte → State → Res Unit} (he : CarriesOn emit) (fuel : Nat) (s : State) :
    (drainBits emit fuel s).All (Carried s) := by
  induction fuel generalizing s with
  | zero => exact Carried.refl s
  | succ fuel ih =>
    unfold drainBits
    split
    · have h := he (topByte s.bw) { s with bw := { s.bw with cnt := s.bw.cnt - 8 } }
      have h0 : Carried s { s with bw := { s.bw with cnt := s.bw.cnt - 8 } } :=
        Carried.of_same rfl rfl rfl rfl rfl rfl rfl
      split
      · rename_i t ht
        rw [ht] at h
        exact (ih t).imp fun u hu => (h0.trans h).trans hu
      · exact Carried.refl s
      · exact h.imp fun u hu => h0.trans hu
    · exact Carried.refl s

theorem carried_writeBits {emit : Byte → State → Res Unit} (he : CarriesOn emit) (f : Field) (s : State) :
    (writeBits emit f s).All (Carried s) := by
  unfold writeBits
  split
  · refine (carried_drainBits he _ _).imp fun t ht => ?_
    exact (Carried.of_same (s := s) (t := { s with bw := pushBits f s.bw }) rfl rfl rfl rfl rfl rfl rfl).trans ht
  · trivial

theorem carried_flushBits {emit : Byte → State → Res Unit} (he : CarriesOn emit) (s : State) :
    (flushBits emit s).All (Carried s) := by
  unfold flushBits
  split
  · split
    · exact Carried.refl s
    · refine (he _ _).imp fun t ht => ?_
      exact (Carried.of_same (s := s) (t := { s with bw := { s.bw with cnt := 0 } }) rfl rfl rfl rfl rfl rfl rfl).trans ht
  · exact Carried.refl s

theorem carried_writeFields {emit : Byte → State → Res Unit} (he : CarriesOn emit) (phase : List Field → Phase)
    (fs : List Field) (s : State) : (writeFields emit phase fs s).All (Carried s) := by
  unfold writeFields
  refine (carried_drainBits he _ s).andThen (fun _ h => h) fun _ t _ ht => ?_
  cases fs with
  | nil => exact ht
  | cons f rest =>
    have h0 : Carried s { t with seq := .busy (phase rest) } :=
      ht.trans (Carried.of_same rfl rfl rfl rfl rfl rfl rfl)
    exact (carried_writeBits he f _).andThen (fun u hu => h0.trans hu) fun _ u _ hu => h0.trans hu

theorem carried_fillBits (len fuel : Nat) (s : State) : (fillBits len fuel s).All (Carried s) := by
  induction fuel generalizing s with
  | zero => exact Carried.refl s
  | succ fuel ih =>
    unfold fillBits
    split
    · cases h : srcRead s with
      | waits => exact Carried.refl s
      | got a t =>
        have ht := carried_srcRead h
        cases a with
        | byte b =>
          refine (ih _).imp fun u hu => Carried.trans ?_ hu
          exact ht.trans (Carried.of_same rfl rfl rfl rfl rfl rfl rfl)
        | endOfData => exact ht
        | err e => exact carried_endCommand _ ht
    · exact Carried.refl s

theorem carried_readBits (len : Nat) (s : State) : (readBits len s).All (Carried s) := by
  unfold readBits
  split
  · refine (carried_fillBits len len s).andThen (fun _ h => h) fun enough t _ ht => ?_
    cases enough
    · exact ht
    · exact ht.trans (Carried.of_same rfl rfl rfl rfl rfl rfl rfl)
  · trivial

theorem carried_fetchPayload (p : ParamSet) (flag : Nat) (s : State) : (fetchPayload p flag s).All (Carried s) := by
  unfold fetchPayload
  exact (carried_readBits _ s).andThen (fun _ h => h) fun _ _ _ ht => ht

theorem carried_fetchToken (p : ParamSet) (s : State) : (fetchToken p s).All (Carried s) := by
  unfold fetchToken
  split
  · exact carried_fetchPayload p 1 s
  · split
    · exact carried_fetchPayload p 0 s
    · refine (carried_readBits 1 s).andThen (fun _ h => h) fun flag t _ ht => ?_
      cases flag with
      | none => exact ht
      | some v =>
        refine (carried_fetchPayload p v _).imp fun u hu => Carried.trans ?_ hu
        exact ht.trans (Carried.of_same rfl rfl rfl rfl rfl rfl rfl)

/-- What is fetched is a token (R93), never a command. -/
theorem decodeFields_token (p : ParamSet) (flag v : Nat) : cmdCode (decodeFields p flag v) = none := by
  unfold decodeFields
  split <;> rfl

/-! ## Sources that meet the premises of R272 -/

theorem srcEndsAfter_sourceOf (data : List Byte) : srcEndsAfter data (sourceOf data) := ⟨[], rfl⟩

theorem srcIdempotentEnd_sourceOf (data : List Byte) : srcIdempotentEnd (sourceOf data) := by
  simpa [srcIdempotentEnd, sourceOf, List.pairwise_append, List.pairwise_map] using List.pairwise_of_forall fun _ _ => trivial

theorem srcIdempotentEnd_tail {a : SrcAnswer} {rest : List SrcAnswer} (h : srcIdempotentEnd (a :: rest)) :
    srcIdempotentEnd rest := (List.pairwise_cons.mp h).2

/-- After an End only Ends come. -/
theorem srcIdempotentEnd_end {rest : List SrcAnswer} (h : srcIdempotentEnd (.endOfData :: rest)) :
    ∀ a ∈ rest, a = .endOfData := fun a ha => (List.pairwise_cons.mp h).1 a ha rfl

/-! ## IoLength (R272) -/

theorem ioLengthRunning_of_free {s : State} (h : s.ownsIo = false) : ioLengthRunning s :=
  fun hs => absurd (h.symm.trans hs) (by decide)

theorem ioLengthRunning_iff {s : State} {p : ParamSet} (hp : s.ps = some p) (hs : s.ownsIo = true) :
    ioLengthRunning s ↔ ioLengthOf p s.build s.ip.len :=
  ⟨fun h => h hs p hp, fun h _ _ hq => Option.some.inj (hp.symm.trans hq) ▸ h⟩

/-- A move that is no CMD write of COMPRESS_IN_PLACE puts no duty on the host. -/
theorem ioLengthIssued_of_ne {s : State} (h : ∀ rest, s.script ≠ .writeCmd 0b11#2 :: rest) : ioLengthIssued s :=
  fun ⟨rest, hr⟩ => absurd hr (h rest)

end Sys2Proof.Machine
end

