-- ==== Sys2Proof/Laws/Params.lean ====
section
/-! SUPPORT. What a legal parameter set gives: its bounds, and the mask as a remainder (40_parameters.md R120, R121). -/

namespace Sys2Proof

/-- A legal set is one that passes the four checks. -/
theorem ParamSet.legal_iff (idxW : Nat) (p : ParamSet) :
    p.Legal idxW ↔ p.ej ≠ 0 ∧ p.ej < p.ei ∧ 8 ≤ p.ei + p.ej ∧ p.ei + p.ej ≤ 24 ∧ p.ei + 1 < idxW := by
  unfold ParamSet.Legal paramError
  split
  · simp [*]
  · split
    · simp; omega
    · split
      · simp; omega
      · split
        · simp; omega
        · simp; omega

theorem ParamSet.n_pos (p : ParamSet) : 0 < p.n := Nat.two_pow_pos _

theorem ParamSet.f_pos (p : ParamSet) : 0 < p.f := by
  have := Nat.two_pow_pos p.ej
  unfold ParamSet.f
  omega

/-- F < N for every legal set (R121). -/
theorem ParamSet.f_lt_n {idxW : Nat} {p : ParamSet} (h : p.Legal idxW) : p.f < p.n := by
  obtain ⟨h1, h2, h3, h4, _⟩ := (ParamSet.legal_iff idxW p).mp h
  have h5 : 2 ^ (p.ej + 1) ≤ 2 ^ p.ei := Nat.pow_le_pow_right (by omega) (by omega)
  have h6 : 2 ^ 2 ≤ 2 ^ p.ej ∨ p.ej < 2 := by
    rcases Nat.lt_or_ge p.ej 2 with h | h
    · exact .inr h
    · exact .inl (Nat.pow_le_pow_right (by omega) h)
  have h7 : p.p ≤ 2 := by unfold ParamSet.p; omega
  have h8 : 2 ^ 7 ≤ 2 ^ p.ei ∨ 2 ≤ p.ej := by
    rcases Nat.lt_or_ge p.ej 2 with h | h
    · exact .inl (Nat.pow_le_pow_right (by omega) (by omega))
    · exact .inr h
  unfold ParamSet.f ParamSet.n
  rcases h6 with h6 | h6
  · rw [Nat.pow_succ] at h5
    omega
  · have : p.ej = 1 := by omega
    rw [this]
    omega

theorem ParamSet.dict_add_f {idxW : Nat} {p : ParamSet} (h : p.Legal idxW) : p.dict + p.f = p.n := by
  have := ParamSet.f_lt_n h
  unfold ParamSet.dict
  omega

/-- `x & MASK` is the remainder modulo N (R121). -/
theorem ParamSet.and_mask (p : ParamSet) (x : Nat) : x &&& p.mask = x % p.n :=
  Nat.and_two_pow_sub_one_eq_mod x p.ei

theorem ParamSet.and_mask_lt (p : ParamSet) (x : Nat) : x &&& p.mask < p.n := by
  rw [p.and_mask]
  exact Nat.mod_lt _ p.n_pos

/-- P is 1 or 2 for every legal set (R121). -/
theorem ParamSet.p_range {idxW : Nat} {p : ParamSet} (h : p.Legal idxW) : 1 ≤ p.p ∧ p.p ≤ 2 := by
  obtain ⟨h1, h2, h3, h4, _⟩ := (ParamSet.legal_iff idxW p).mp h
  unfold ParamSet.p
  omega

end Sys2Proof
end

