-- ==== Sys2Proof/Laws/PerInstr.lean ====
section
/-! SUPPORT. What holds of every instruction, one lemma per constructor. -/

namespace Sys2Proof.Laws.FieldsFit

open Sys2Proof

/-- The codec fields of a well-formed instruction under a legal parameter set meet the limits of R136, and together
they have the bits of its encoding; a command has no fields (R101, R102). -/
def Statement (i : Instr) : Prop :=
  ∀ (idxW : Nat) (p : ParamSet), p.Legal idxW → i.wf p = true →
    (∀ f ∈ encodeFields p i, f.ok = true) ∧
      (cmdCode i = none → (encode p i).length = ((encodeFields p i).map Field.width).sum) ∧
      ∀ code, cmdCode i = some code → encodeFields p i = []

theorem lit (b : Byte) : Statement (.lit b) := by
  intro idxW p _ _
  refine ⟨?_, fun _ => by simp [encode, cmdCode, encodeFields, fieldBits], by simp [cmdCode]⟩
  intro f hf
  simp only [encodeFields, List.mem_singleton] at hf
  subst hf
  have h : 0x100 ||| b.toNat < 2 ^ 9 := Nat.or_lt_two_pow (by decide) (by have := b.isLt; omega)
  exact decide_eq_true ⟨(by decide : 1 ≤ 9), (by decide : 9 ≤ 24), h⟩

theorem matchTok (offset len : Nat) : Statement (.matchTok offset len) := by
  intro idxW p hp hwf
  obtain ⟨h1, h2, h3, h4, _⟩ := (ParamSet.legal_iff idxW p).mp hp
  obtain ⟨ho, hl⟩ := (Bool.and_eq_true_iff).mp hwf
  replace ho : offset < 2 ^ p.ei := of_decide_eq_true ho
  obtain ⟨hl1, hl2⟩ : p.p < len ∧ len ≤ 2 ^ p.ej + p.p := of_decide_eq_true hl
  refine ⟨?_, fun _ => by simp [encode, cmdCode, encodeFields, fieldBits], by simp [cmdCode]⟩
  intro f hf
  simp only [encodeFields, List.mem_cons, List.not_mem_nil, or_false] at hf
  rcases hf with rfl | rfl
  · decide
  · have hshift : offset <<< p.ej < 2 ^ (p.ei + p.ej) := by
      rw [Nat.shiftLeft_eq, Nat.pow_add]
      exact Nat.mul_lt_mul_of_pos_right ho (Nat.two_pow_pos _)
    have hlen : len - p.p - 1 < 2 ^ (p.ei + p.ej) :=
      Nat.lt_of_lt_of_le (by omega : len - p.p - 1 < 2 ^ p.ej) (Nat.pow_le_pow_right (by omega) (by omega))
    exact decide_eq_true ⟨by dsimp only; omega, h4, Nat.or_lt_two_pow hshift hlen⟩

theorem validate : Statement .validate := fun _ _ _ _ => ⟨by simp [encodeFields], by simp [cmdCode], fun _ _ => rfl⟩

theorem compress : Statement .compress := fun _ _ _ _ => ⟨by simp [encodeFields], by simp [cmdCode], fun _ _ => rfl⟩

theorem decompress : Statement .decompress :=
  fun _ _ _ _ => ⟨by simp [encodeFields], by simp [cmdCode], fun _ _ => rfl⟩

theorem compressInPlace : Statement .compressInPlace :=
  fun _ _ _ _ => ⟨by simp [encodeFields], by simp [cmdCode], fun _ _ => rfl⟩

end Sys2Proof.Laws.FieldsFit
end

