-- ==== Sys2Proof/Laws/Run.lean ====
section
/-! SUPPORT. What a turn of the core, a command and a step can do: the induction over a turn, packaged once, and the
inversions of `issue`, `launch` and `step`, the frame of a host move, and the moves of a fair run. -/

namespace Sys2Proof.Machine

/-! ## A turn of the core -/

@[simp] theorem runCore_zero (s : State) : runCore 0 s = .next s := rfl

/-- A turn with a command running is its phase's operation and the rest of the turn. -/
theorem runCore_busy {s : State} {phase : Phase} (n : Nat) (h : s.seq = .busy phase) :
    runCore (n + 1) s =
      match coreOp phase s with
      | .ok () t => runCore n t
      | .waits t => .next t
      | .ended t => .next t
      | .faulted f => .fault f
      | .refused r => .refused r := by
  cases hc : coreOp phase s <;> simp [runCore, h, hc]

/-- A turn with no command running does nothing (R270). -/
theorem runCore_free {s : State} (n : Nat) (h : ∀ phase, s.seq ≠ .busy phase) : runCore n s = .next s := by
  cases n with
  | zero => rfl
  | succ n =>
    rw [runCore]
    split
    · rename_i phase hs
      exact absurd hs (h phase)
    · rfl

/-- THE INDUCTION over a turn: what every operation keeps, the turn keeps. -/
theorem runCore_keeps {P : State → Prop}
    (hop : ∀ s phase, s.seq = .busy phase → P s → (coreOp phase s).All P) :
    ∀ (n : Nat) (s t : State), P s → runCore n s = .next t → P t := by
  intro n
  induction n with
  | zero =>
    intro s t hs h
    cases h
    exact hs
  | succ n ih =>
    intro s t hs h
    cases hq : s.seq with
    | busy phase =>
      have hall := hop s phase hq hs
      rw [runCore_busy n hq] at h
      cases hc : coreOp phase s with
      | ok a u =>
        rw [hc] at h hall
        exact ih u t hall h
      | waits u =>
        rw [hc] at h hall
        cases h
        exact hall
      | ended u =>
        rw [hc] at h hall
        cases h
        exact hall
      | faulted f =>
        rw [hc] at h
        cases h
      | refused r =>
        rw [hc] at h
        cases h
    | _ =>
      rw [runCore_free (n + 1) (by simp [hq])] at h
      cases h
      exact hs

/-- The induction over a turn that never stops: if every operation goes on, so does the turn. -/
theorem runCore_next {P : State → Prop}
    (hop : ∀ s phase, s.seq = .busy phase → P s →
      (coreOp phase s).All P ∧ (∀ f, coreOp phase s ≠ .faulted f) ∧ ∀ r, coreOp phase s ≠ .refused r) :
    ∀ (n : Nat) (s : State), P s → ∃ t, runCore n s = .next t ∧ P t := by
  intro n
  induction n with
  | zero => exact fun s hs => ⟨s, rfl, hs⟩
  | succ n ih =>
    intro s hs
    cases hq : s.seq with
    | busy phase =>
      obtain ⟨hall, hf, hr⟩ := hop s phase hq hs
      rw [runCore_busy n hq]
      cases hc : coreOp phase s with
      | ok a u =>
        rw [hc] at hall
        exact ih u hall
      | waits u =>
        rw [hc] at hall
        exact ⟨u, rfl, hall⟩
      | ended u =>
        rw [hc] at hall
        exact ⟨u, rfl, hall⟩
      | faulted f => exact absurd hc (hf f)
      | refused r => exact absurd hc (hr r)
    | _ => exact ⟨s, runCore_free (n + 1) (by simp [hq]), hs⟩

/-- Operations that go on, in a row: `n` of them from `s` lead to `t`. -/
inductive Runs : Nat → State → State → Prop where
  | refl (s : State) : Runs 0 s s
  | step {n : Nat} {s t u : State} (phase : Phase) (hs : s.seq = .busy phase) (ht : coreOp phase s = .ok () t)
      (h : Runs n t u) : Runs (n + 1) s u

theorem Runs.trans {m n : Nat} {s t u : State} (h : Runs m s t) (h' : Runs n t u) : Runs (m + n) s u := by
  induction h with
  | refl => simpa using h'
  | step phase hs ht _ ih =>
    rw [Nat.add_right_comm]
    exact .step phase hs ht (ih h')

theorem Runs.one {s t : State} {phase : Phase} (hs : s.seq = .busy phase) (ht : coreOp phase s = .ok () t) :
    Runs 1 s t := .step phase hs ht (.refl t)

/-- A turn long enough follows a row of operations to its end and goes on from there. -/
theorem Runs.runCore {n : Nat} {s t : State} (h : Runs n s t) (m : Nat) : runCore (n + m) s = runCore m t := by
  induction h with
  | refl => rw [Nat.zero_add]
  | step phase hs ht _ ih =>
    rw [Nat.add_right_comm, runCore_busy _ hs, ht]
    exact ih

/-- A turn that reaches an operation that ends the command. -/
theorem Runs.ends {n : Nat} {s t u : State} {phase : Phase} (h : Runs n s t) (ht : t.seq = .busy phase)
    (hu : coreOp phase t = .ended u) {q : Nat} (hq : n < q) : Machine.runCore q s = .next u := by
  obtain ⟨m, rfl⟩ : ∃ m, q = n + (m + 1) := ⟨q - n - 1, by omega⟩
  rw [h.runCore, runCore_busy m ht, hu]

/-! ## The operation of a phase -/

/-- Only VALIDATE runs without PS (R220). -/
theorem coreOp_some {p : ParamSet} {phase : Phase} {s : State} (h : s.ps = some p) :
    coreOp phase s = phaseOp p phase s := by
  cases phase <;> simp [coreOp, phaseOp, h]

theorem coreOp_none {phase : Phase} {s : State} (h : s.ps = none) (hv : ∀ c, phase ≠ .vCheck c) :
    coreOp phase s = .refused .noValidConfig := by
  cases phase <;> simp_all [coreOp]

theorem carried_litOp (p : ParamSet) (b : Byte) (s : State) : (litOp p b s).All (Carried s) := by
  have h := carried_putByte p b s
  unfold litOp
  split
  · rename_i t ht
    rw [ht] at h
    exact Carried.trans h (Carried.of_same rfl rfl rfl rfl rfl rfl rfl)
  · rename_i t ht
    rw [ht] at h
    exact Carried.trans h (Carried.of_same rfl rfl rfl rfl rfl rfl rfl)
  · exact h

theorem carried_copyLoop (p : ParamSet) (offset len left k : Nat) (s : State) :
    (copyLoop p offset len left k s).All (Carried s) := by
  induction left generalizing k s with
  | zero => exact Carried.of_same rfl rfl rfl rfl rfl rfl rfl
  | succ left ih =>
    unfold copyLoop
    refine onAccess_all (carried_endCommand _ (Carried.refl s)) fun c _ => ?_
    have h := carried_putByte p c s
    split
    · rename_i t ht
      rw [ht] at h
      exact (ih (k + 1) t).imp fun u hu => Carried.trans h hu
    · rename_i t ht
      rw [ht] at h
      exact Carried.trans h (Carried.of_same rfl rfl rfl rfl rfl rfl rfl)
    · exact h

theorem carried_decodeTokenOp (p : ParamSet) (s : State) : (decodeTokenOp p s).All (Carried s) := by
  unfold decodeTokenOp
  refine (carried_fetchToken p s).andThen (fun _ h => h) fun i t _ ht => ?_
  cases i with
  | none => exact Carried.trans ht (Carried.of_same rfl rfl rfl rfl rfl rfl rfl)
  | some i =>
    cases i with
    | lit b => exact (carried_litOp p b t).imp fun u hu => ht.trans hu
    | matchTok offset len => exact (carried_copyLoop p offset len len 0 t).imp fun u hu => ht.trans hu
    | _ => trivial

theorem carried_fillOp (p : ParamSet) (s : State) : (fillOp p s).All (Carried s) := by
  unfold fillOp
  split
  · cases h : srcRead s with
    | waits => exact Carried.refl s
    | got a t =>
      have ht := carried_srcRead h
      cases a with
      | byte b =>
        refine onAccess_all (carried_endCommand _ ht) fun u hu => ?_
        rw [(winWrite_ok.mp hu).2]
        exact Carried.trans ht (Carried.of_same rfl rfl rfl rfl rfl rfl rfl)
      | endOfData => exact Carried.trans ht (Carried.of_same rfl rfl rfl rfl rfl rfl rfl)
      | err e => exact carried_endCommand _ ht
  · exact Carried.of_same rfl rfl rfl rfl rfl rfl rfl

/-- Every operation but VALIDATE's carries on the trace, and keeps the build, the host's registers, PS, the script, the
host's reads and the quantum. -/
theorem carried_coreOp {phase : Phase} (s : State) (hv : ∀ c, phase ≠ .vCheck c) :
    (coreOp phase s).All (Carried s) := by
  have same : ∀ {t : State}, t.history = s.history → t.build = s.build → t.cfg = s.cfg → t.ps = s.ps →
      t.script = s.script → t.reads = s.reads → t.quantum = s.quantum → Carried s t := Carried.of_same
  have ended := fun e => carried_endCommand e (Carried.refl s)
  cases hp : s.ps with
  | none =>
    rw [coreOp_none hp hv]
    trivial
  | some p =>
    rw [coreOp_some hp]
    cases phase with
    | vCheck c => exact absurd rfl (hv c)
    | cInit =>
      simp only [phaseOp, compressInit]
      split
      · exact ended _
      · exact same rfl rfl rfl rfl rfl rfl rfl
    | cFill => exact carried_fillOp p s
    | cSearch =>
      simp only [phaseOp, compressSearch]
      split
      · exact onAccess_all (ended _) fun q _ => same rfl rfl rfl rfl rfl rfl rfl
      · exact same rfl rfl rfl rfl rfl rfl rfl
    | cEmit =>
      simp only [phaseOp, compressEmit]
      split
      · exact onAccess_all (ended _) fun b _ => same rfl rfl rfl rfl rfl rfl rfl
      · exact same rfl rfl rfl rfl rfl rfl rfl
    | cWrite fs =>
      simp only [phaseOp, compressWrite]
      refine (carried_writeFields carried_emitSink _ fs s).andThen (fun _ h => h) fun written t _ ht => ?_
      cases written
      · exact ht
      · exact Carried.trans ht (Carried.of_same rfl rfl rfl rfl rfl rfl rfl)
    | cCompact =>
      simp only [phaseOp, compactOp]
      split
      · trivial
      · exact same rfl rfl rfl rfl rfl rfl rfl
    | cRefill => exact carried_fillOp p s
    | cFlush =>
      refine (carried_flushBits carried_emitSink s).andThen (fun _ h => h) fun _ t _ ht => ?_
      exact Carried.trans ht (Carried.of_same rfl rfl rfl rfl rfl rfl rfl)
    | cFinish => exact carried_finishOp s
    | dInit =>
      simp only [phaseOp, decompressInit]
      split
      · exact ended _
      · exact same rfl rfl rfl rfl rfl rfl rfl
    | dFlag => exact carried_decodeTokenOp p s
    | dLit => exact carried_decodeTokenOp p s
    | dPut b => exact carried_litOp p b s
    | dMatch => exact carried_decodeTokenOp p s
    | dCopy offset len k => exact carried_copyLoop p offset len (len - k) k s
    | dFinish => exact carried_finishOp s
    | ipCheck =>
      simp only [phaseOp, inPlaceCheck]
      split
      · exact ended _
      · split
        · exact ended _
        · exact same rfl rfl rfl rfl rfl rfl rfl
    | ipSeed k =>
      simp only [phaseOp, inPlaceSeed]
      split
      · refine onAccess_all (ended _) fun t ht => ?_
        rw [(ioWrite_ok.mp ht).2]
        exact ⟨⟨[_], rfl⟩, rfl, rfl, rfl, rfl, rfl, rfl⟩
      · exact same rfl rfl rfl rfl rfl rfl rfl
    | ipSearch =>
      simp only [phaseOp, inPlaceSearch]
      split
      · exact onAccess_all (ended _) fun q _ => same rfl rfl rfl rfl rfl rfl rfl
      · exact same rfl rfl rfl rfl rfl rfl rfl
    | ipEmit =>
      simp only [phaseOp, inPlaceEmit]
      split
      · exact onAccess_all (ended _) fun b _ => same rfl rfl rfl rfl rfl rfl rfl
      · exact same rfl rfl rfl rfl rfl rfl rfl
    | ipWrite fs =>
      refine (carried_writeFields carried_emitIo _ fs s).andThen (fun _ h => h) fun written t _ ht => ?_
      cases written
      · exact ht
      · exact Carried.trans ht (Carried.of_same rfl rfl rfl rfl rfl rfl rfl)
    | ipGate =>
      simp only [phaseOp, inPlaceGate]
      split <;> exact same rfl rfl rfl rfl rfl rfl rfl
    | ipFlush gated =>
      refine (carried_flushBits carried_emitIo s).andThen (fun _ h => h) fun _ t _ ht => ?_
      exact carried_endCommand _ ht

/-! ## Commands and steps -/

/-- The four codes of CMD (R102). -/
theorem code_cases (code : BitVec 2) : code = 0b00#2 ∨ code = 0b01#2 ∨ code = 0b10#2 ∨ code = 0b11#2 := by
  revert code
  decide

/-- The four things ISSUE says (R220). -/
theorem issue_cases (code : BitVec 2) (needsPs : Bool) (first : Phase) (s : State) :
    ((∃ phase, s.seq = .busy phase) ∧ issue code needsPs first s = .refused .commandWhileBusy) ∨
      (s.seq = .fault ∧ issue code needsPs first s = .ignored) ∨
        (s.ready ∧ needsPs = true ∧ s.ps = none ∧ issue code needsPs first s = .refused .noValidConfig) ∨
          (s.ready ∧ (needsPs = true → s.ps ≠ none) ∧
            issue code needsPs first s =
              .accepted { s with cfg := { s.cfg with cmd := code }, res := ResultRegs.clear, seq := .busy first }) := by
  cases hq : s.seq <;> cases needsPs <;> cases hp : s.ps <;> simp [issue, State.ready, hq, hp]

/-- An accepted command (R220). -/
theorem issue_ready {s : State} (code : BitVec 2) {needsPs : Bool} (first : Phase) (h : s.ready)
    (hp : needsPs = true → s.ps ≠ none) :
    issue code needsPs first s =
      .accepted { s with cfg := { s.cfg with cmd := code }, res := ResultRegs.clear, seq := .busy first } := by
  rcases h with h | h | h <;> cases needsPs <;> cases hps : s.ps <;> simp_all [issue]

@[simp] theorem launch_ignored (copies : State → State) (s : State) : launch .ignored copies s = .next s := rfl
@[simp] theorem launch_refused (r : Refusal) (copies : State → State) (s : State) :
    launch (.refused r) copies s = .refused r := rfl
@[simp] theorem launch_accepted (t : State) (copies : State → State) (s : State) :
    launch (.accepted t) copies s = runCore t.quantum (copies t) := rfl

/-- The three kinds of step: a CMD write, another move, a turn of the core. -/
theorem step_cases (s : State) :
    (∃ code rest, s.script = .writeCmd code :: rest ∧ step s = exec (decodeCmd code) { s with script := rest }) ∨
      (∃ a rest, s.script = a :: rest ∧ (∀ code, a ≠ .writeCmd code) ∧ step s = hostMove a { s with script := rest }) ∨
        (s.script = [] ∧ step s = coreTurn s) := by
  cases hs : s.script with
  | nil => exact .inr (.inr ⟨rfl, by rw [step, hs]⟩)
  | cons a rest =>
    cases a with
    | writeCmd code => exact .inl ⟨code, rest, rfl, by rw [step, hs]⟩
    | _ => exact .inr (.inl ⟨_, rest, rfl, by simp, by rw [step, hs]⟩)

/-- THE FRAME of a move, but for a turn of the core and a reset: the host's registers other than CMD, IO, the channels
and the host's reads are all it reaches, and IO only while COMPRESS_IN_PLACE does not run (R22, R35, R42). -/
theorem hostMove_frame {a : Act} {s t : State} (hp : a ≠ .pass) (hr : a ≠ .reset) (h : hostMove a s = .next t) :
    t = { s with cfg := t.cfg, io := t.io, src := t.src, snk := t.snk, reads := t.reads } ∧
      t.cfg.cmd = s.cfg.cmd ∧ (s.ownsIo = true → t.io = s.io) := by
  cases a with
  | pass => exact absurd rfl hp
  | reset => exact absurd rfl hr
  | writeConfig w =>
    cases h
    unfold hostWriteConfig
    split <;> exact ⟨rfl, rfl, fun _ => rfl⟩
  | read reg =>
    simp only [hostMove, hostRead] at h
    repeat' split at h
    all_goals cases h
    all_goals exact ⟨rfl, rfl, fun _ => rfl⟩
  | writeIo addr b =>
    simp only [hostMove] at h
    split at h
    · cases h
    · rename_i ho
      cases h
      exact ⟨rfl, rfl, fun hb => absurd hb ho⟩
  | _ =>
    simp only [hostMove] at h
    try split at h
    all_goals cases h
    all_goals exact ⟨rfl, rfl, fun _ => rfl⟩

/-- A turn of the core in a fair run (R283). -/
theorem FairRun.turn {run : Nat → State} {act : Nat → Act} (h : FairRun run act) {n : Nat} (ha : act n = .pass) :
    coreTurn { run n with script := [] } = .next (run (n + 1)) := by
  have hs := h.steps n
  rw [ha] at hs
  exact hs

/-- Any other move in a fair run that leaves the core running: a move of the host or a channel, with its frame. -/
theorem FairRun.move {run : Nat → State} {act : Nat → Act} (h : FairRun run act) {n : Nat} (hp : act n ≠ .pass)
    (hr : act n ≠ .reset) (hb : (run n).isBusy = true) :
    hostMove (act n) { run n with script := [] } = .next (run (n + 1)) := by
  have hs := h.steps n
  cases ha : act n with
  | writeCmd code =>
    obtain ⟨phase, hq⟩ := (isBusy_iff _).mp hb
    rw [ha] at hs
    have : step { run n with script := [.writeCmd code] } = .refused .commandWhileBusy := by
      rcases code_cases code with rfl | rfl | rfl | rfl <;>
        simp [step, exec, decodeCmd, execValidate, execCompress, execDecompress, execCompressInPlace, issue, hq]
    rw [this] at hs
    cases hs
  | pass => exact absurd ha hp
  | reset => exact absurd ha hr
  | _ => rw [ha] at hs; exact hs

/-- A data command runs its phases from the state its acceptance leaves. -/
theorem execCompress_ready {s : State} (h : s.ready) (hp : s.ps ≠ none) :
    execCompress s =
      runCore s.quantum { s with cfg := { s.cfg with cmd := 0b01#2 }, res := ResultRegs.clear, seq := .busy .cInit } := by
  rw [execCompress, issue_ready _ _ h fun _ => hp]
  rfl

theorem execDecompress_ready {s : State} (h : s.ready) (hp : s.ps ≠ none) :
    execDecompress s =
      runCore s.quantum { s with cfg := { s.cfg with cmd := 0b10#2 }, res := ResultRegs.clear, seq := .busy .dInit } := by
  rw [execDecompress, issue_ready _ _ h fun _ => hp]
  rfl

theorem execCompressInPlace_ready {s : State} (h : s.ready) (hp : s.ps ≠ none) :
    execCompressInPlace s =
      runCore s.quantum
        { s with
          cfg := { s.cfg with cmd := 0b11#2 }
          res := ResultRegs.clear
          seq := .busy .ipCheck
          ip := { s.ip with len := s.cfg.ipL, off := s.cfg.ipOffset } } := by
  rw [execCompressInPlace, issue_ready _ _ h fun _ => hp]
  rfl

theorem execValidate_ready {s : State} (h : s.ready) :
    execValidate s =
      runCore s.quantum
        { s with
          cfg := { s.cfg with cmd := 0b00#2 }, res := ResultRegs.clear, seq := .busy (.vCheck s.cfg.config) } := by
  rw [execValidate, issue_ready _ _ h fun hf => absurd hf (by decide)]
  rfl

end Sys2Proof.Machine
end

