-- ==== Sys2Proof/Laws/Search.lean ====
section
/-! SUPPORT. The two loops of the match search (43_match_search.md R170): what each can do. -/

namespace Sys2Proof.Machine

/-- The extension of a candidate ends at its match length L(i) (R171). -/
theorem extendMatch_ok {B : Nat → Except MemStop Byte} {g : Nat → Byte} {i r f1 : Nat}
    (hB : ∀ m, m < f1 → B (i + m) = .ok (g (i + m)) ∧ B (r + m) = .ok (g (r + m))) :
    ∀ fuel j, j ≤ f1 → f1 - j ≤ fuel → agreeFor g i r j →
      ∃ l, extendMatch B i r f1 fuel j = .ok l ∧ j ≤ l ∧ matchLength g i r f1 l := by
  intro fuel
  induction fuel with
  | zero =>
    intro j hj hfuel hag
    have : j = f1 := by omega
    exact ⟨j, rfl, Nat.le_refl j, hj, hag, fun m hm _ => this ▸ hm⟩
  | succ fuel ih =>
    intro j hj hfuel hag
    unfold extendMatch
    split
    · rename_i hlt
      rw [(hB j hlt).1, (hB j hlt).2]
      dsimp only
      split
      · rename_i heq
        obtain ⟨l, hl, hjl, hm⟩ := ih (j + 1) (by omega) (by omega) fun m hm => by
          rcases Nat.lt_or_ge m j with h | h
          · exact hag m h
          · have : m = j := by omega
            exact this ▸ heq
        exact ⟨l, hl, by omega, hm⟩
      · rename_i hne
        refine ⟨j, rfl, Nat.le_refl j, hj, hag, fun m _ hm => ?_⟩
        rcases Nat.lt_or_ge j m with h | h
        · exact absurd (hm j h) hne
        · exact h
    · have : j = f1 := by omega
      exact ⟨j, rfl, Nat.le_refl j, hj, hag, fun m hm _ => this ▸ hm⟩

/-- A candidate has one match length. -/
theorem matchLength_unique {g : Nat → Byte} {i r f1 l m : Nat} (h : matchLength g i r f1 l)
    (h' : matchLength g i r f1 m) : l = m :=
  Nat.le_antisymm (h'.2.2 l h.1 h.2.1) (h.2.2 m h'.1 h'.2.1)

/-- A candidate whose first byte differs has match length 0, if any byte is asked for. -/
theorem matchLength_zero {g : Nat → Byte} {i r f1 : Nat} (h : g i ≠ g r) : matchLength g i r f1 0 := by
  refine ⟨Nat.zero_le _, fun m hm => absurd hm (Nat.not_lt_zero m), fun j _ hj => ?_⟩
  rcases Nat.eq_zero_or_pos j with h0 | h0
  · omega
  · exact absurd (hj 0 h0) h

/-- The scan keeps f1 and c, never loses length, and moves the best match only to a candidate it has looked at. -/
theorem scanMatches_keeps {B : Nat → Except MemStop Byte} {s r : Nat} :
    ∀ (n : Nat) (q t : SearchRegs), scanMatches B s r n q = .ok t →
      t.f1 = q.f1 ∧ t.c = q.c ∧ q.y ≤ t.y ∧ (t.x = q.x ∧ t.y = q.y ∨ s ≤ t.x ∧ t.x < s + n ∧ q.y < t.y) := by
  intro n
  induction n with
  | zero =>
    intro q t h
    cases h
    exact ⟨rfl, rfl, Nat.le_refl _, .inl ⟨rfl, rfl⟩⟩
  | succ n ih =>
    intro q t h
    simp only [scanMatches] at h
    split at h
    · cases h
    · split at h
      · split at h
        · cases h
        · split at h
          · rename_i hj
            obtain ⟨h1, h2, h3, h4⟩ := ih _ _ h
            dsimp only at h1 h2 h3 h4
            refine ⟨h1, h2, by omega, ?_⟩
            omega
          · obtain ⟨h1, h2, h3, h4⟩ := ih _ _ h
            dsimp only at h1 h2 h3 h4
            exact ⟨h1, h2, h3, by omega⟩
      · obtain ⟨h1, h2, h3, h4⟩ := ih _ _ h
        dsimp only at h1 h2 h3 h4
        exact ⟨h1, h2, h3, by omega⟩

/-! ## The input a token stands for -/

@[simp] theorem tokenSpan_lit (b : Byte) : tokenSpan (.lit b) = 1 := rfl

@[simp] theorem tokenSpan_matchTok (offset len : Nat) : tokenSpan (.matchTok offset len) = len := rfl

end Sys2Proof.Machine
end

