-- ==== Sys2Proof/Tests/Slice0.lean ====
section
/-! SUPPORT. Tests: the WellFormed smoke, decoding of words written out from 30_encoding.md, single steps against
95_test_vectors.md, and a witness for the hypotheses of every statement of Certificates/Slice0/Obligations.lean. -/

namespace Sys2Proof.Tests

open Sys2Proof Sys2Proof.Machine

/-! ## Helpers -/

/-- PS = (5, 3, 0x20): N 32, P 1, F 9, N - F 23 (V-P3). -/
def p53 : ParamSet := { ei := 5, ej := 3, c := 0x20#8 }

/-- PS = (10, 4, 0x20) (V-G1). -/
def p104 : ParamSet := { ei := 10, ej := 4, c := 0x20#8 }

/-- The sink's output value in these tests. -/
def out7 : OutVal := { tag := 7 }

/-- After reset and a VALIDATE of (5, 3, 0x20), with a source of `bytes` and a sink that accepts. -/
def ready (bytes : List Byte) : State :=
  { State.reset with ps := some p53, src := sourceOf bytes, snk := acceptingSink out7 }

/-- The same with a quantum of `q`. -/
def slow (q : Nat) : State := { ready [] with quantum := q }

/-- DECOMPRESS at a token, its dictionary as D_INIT leaves it, cursor at 23 (R160). -/
def atToken : State := { slow 0 with seq := .busy .dFlag, win := memFill 32 0x20#8, dR := 23 }

/-- IO holding `bytes` from address `a` on. -/
def ioFrom (a : Nat) (bytes : List Byte) : Memory :=
  (bytes.zipIdx a).foldl (fun m e => memWrite Config.ioUnlisted m e.2 e.1) []

/-- COMPRESS_IN_PLACE's operands set: IO from `off` holds `bytes`, L is its end. -/
def inPlaceReady (off : Nat) (bytes : List Byte) : State :=
  { ready [] with
    io := ioFrom off bytes
    cfg := { State.reset.cfg with ipL := off + bytes.length, ipOffset := off } }

/-- The next state, if there is one. -/
def after (o : Host.Outcome State Fault Refusal) : Option State :=
  match o with
  | .next t => some t
  | .fault _ => none
  | .refused _ => none

/-- The refusal, if there is one. -/
def refusal (o : Host.Outcome State Fault Refusal) : Option Refusal :=
  match o with
  | .next _ => none
  | .fault _ => none
  | .refused r => some r

theorem next_of_after {o : Host.Outcome State Fault Refusal} (h : (after o).isSome = true) : ∃ t, o = .next t := by
  cases o with
  | next t => exact ⟨t, rfl⟩
  | fault f => cases h
  | refused r => cases h

theorem eq_next_of_after {o : Host.Outcome State Fault Refusal} {t : State} (h : after o = some t) : o = .next t := by
  cases o with
  | next u => exact congrArg _ (Option.some.inj h)
  | fault f => cases h
  | refused r => cases h

/-- "abc" and "ABAB" (95_test_vectors.md V-I4, V-T5). -/
def abc : List Byte := [0x61#8, 0x62#8, 0x63#8]

def abab : List Byte := [0x41#8, 0x42#8, 0x41#8, 0x42#8]

/-! ## WellFormed smoke: each check refuses an ill-formed term -/

/-- Offsets are 0..N-1 (R92): 31 is, 32 is not. -/
theorem test_wf_offset : (Instr.matchTok 31 2).wf p53 = true ∧ (Instr.matchTok 32 2).wf p53 = false := by decide

/-- Lengths are P+1..F (R95): 2 and 9 are, 1 and 10 are not. -/
theorem test_wf_length :
    (Instr.matchTok 0 2).wf p53 = true ∧ (Instr.matchTok 0 9).wf p53 = true ∧
      (Instr.matchTok 0 1).wf p53 = false ∧ (Instr.matchTok 0 10).wf p53 = false := by decide

/-- Fields are 1 to 24 bits wide and hold their value (R136). -/
theorem test_wf_field :
    Field.ok { value := 2 ^ 24 - 1, width := 24 } = true ∧ Field.ok { value := 0, width := 0 } = false ∧
      Field.ok { value := 0, width := 25 } = false ∧ Field.ok { value := 2, width := 1 } = false := by decide

/-- The four parameter checks (V-P1). -/
theorem test_params_refused :
    paramError 32 10 0 = some .ejIsZero ∧ paramError 32 4 10 = some .eiNotGreaterThanEj ∧
      paramError 32 3 2 = some .sumTooSmall ∧ paramError 32 20 10 = some .sumTooLarge ∧
      paramError 32 10 4 = none := by decide

/-! ## Decoding words written out from the encoding -/

/-- LIT 0x53 is `1 01010011` (R91, R104). -/
theorem test_decode_lit :
    decodeToken p104 [true, false, true, false, true, false, false, true, true] = .ok (.lit 0x53#8, []) := by
  rfl

/-- MATCH 1004, 3 is `0 1111101100 0001` (R92, R104). -/
theorem test_decode_match :
    decodeToken p104
        [false, true, true, true, true, true, false, true, true, false, false, false, false, false, true] =
      .ok (.matchTok 1004 3, []) := by
  rfl

/-- CMD 0b00 (R102). -/
theorem test_decode_validate : decodeCmd 0b00#2 = .validate := by decide

/-- CMD 0b01 (R102). -/
theorem test_decode_compress : decodeCmd 0b01#2 = .compress := by decide

/-- CMD 0b10 (R102). -/
theorem test_decode_decompress : decodeCmd 0b10#2 = .decompress := by decide

/-- CMD 0b11 (R102). -/
theorem test_decode_compressInPlace : decodeCmd 0b11#2 = .compressInPlace := by decide

/-- The words of spec/opcode_table.json: LIT matches 0x100 in 9 bits, MATCH 0, CMD its two bits. -/
theorem test_table_words :
    decodeTableWord 9 0x153 = some (.lit 0x53#8) ∧ decodeTableWord 9 0x0BF = some (.matchTok 23 9) ∧
      decodeTableWord 8 0 = some .validate ∧ decodeTableWord 8 3 = some .compressInPlace ∧
      decodeTableWord 8 4 = none := by decide +kernel

/-- A stream is read back, padding and all (V-T4). -/
theorem test_stream :
    encodeStream p53 [.lit 0x61#8, .lit 0x62#8, .lit 0x63#8, .matchTok 23 9] =
        [0xB0#8, 0xD8#8, 0xAC#8, 0x6B#8, 0xF0#8] ∧
      decodeStream p53 [0xB0#8, 0xD8#8, 0xAC#8, 0x6B#8, 0xF0#8] =
        [.lit 0x61#8, .lit 0x62#8, .lit 0x63#8, .matchTok 23 9] := by decide +kernel

/-- A placed word is what the very next step runs (log 13). -/
theorem test_fetch :
    (after (step (State.reset.withFetchWord 9 0x153))).map (fun t => (t.dR, sinkBytes t.trace)) =
        some (24, [0x53#8]) ∧
      (after (step (State.reset.withFetchWord 9 0x0BF))).map (fun t => t.dR) = some 0 ∧
      (after (step (State.reset.withFetchWord 8 0))).map (fun t => t.status) = some 0x013#32 ∧
      (after (step (State.reset.withFetchWord 8 3))).map (fun t => t.status) = some 0x002#32 := by decide +kernel

/-! ## Reset (R45) -/

theorem test_reset :
    State.reset.status = 0 ∧ State.reset.cfgValid = false ∧ State.reset.cfg.config = 0 ∧ State.reset.win = [] ∧
      Memory.wf Config.winUnlisted State.reset.win ∧ Memory.wf Config.ioUnlisted State.reset.io := by
  decide +kernel

/-! ## Single steps -/

/-- LIT 0x5A at D_R = 31: the byte goes out, cell 31 holds it, and the cursor wraps to 0 (R161, R162). -/
theorem test_lit_wraps :
    (after (exec (.lit 0x5A#8) { atToken with dR := 31 })).map
        (fun t => (t.dR, t.winByte 31, t.winByte 30, sinkBytes t.trace)) =
      some (0, some 0x5A#8, some 0x20#8, [0x5A#8]) := by decide +kernel

/-- LIT with a failing sink: ERROR 6 and no store (R161, R243). -/
theorem test_lit_write_error :
    (after (exec (.lit 0x5A#8)
        { atToken with snk := { writes := [.err { tag := 2 }], accepting := false, fin := none } })).map
        (fun t => (t.status, t.res.errW, t.dR, t.winByte 23)) =
      some (0x063#32, some { tag := 2 }, 23, some 0x20#8) := by decide +kernel

/-- MATCH 23, 9 behind one literal 'a' at cell 23: nine times 'a' (V-T3, R274). -/
theorem test_match_overlaps :
    (after (exec (.matchTok 23 9)
        { atToken with dR := 24, win := memWrite Config.winUnlisted (memFill 32 0x20#8) 23 0x61#8 })).map
        (fun t => (t.dR, sinkBytes t.trace)) =
      some (1, List.replicate 9 0x61#8) := by decide +kernel

/-- MATCH 22, 5 behind 'Z' at cell 23: the offset is an index, not a distance (V-D6). -/
theorem test_match_offset_is_an_index :
    (after (exec (.matchTok 22 5)
        { atToken with dR := 24, win := memWrite Config.winUnlisted (memFill 32 0x20#8) 23 0x5A#8 })).map
        (fun t => sinkBytes t.trace) =
      some [0x20#8, 0x5A#8, 0x20#8, 0x5A#8, 0x20#8] := by decide +kernel

/-- VALIDATE of CONFIG 0x00040A20: DONE, PS latched (V-P1). -/
theorem test_validate_passes :
    (after (exec .validate { State.reset with cfg := { State.reset.cfg with config := 0x00040A20#32 } })).map
        (fun t => (t.status, t.ps)) =
      some (0x002#32, some p104) := by decide +kernel

/-- VALIDATE of CONFIG 0x000A0420: ERROR 2, PS without a value (V-P1). -/
theorem test_validate_fails :
    (after (exec .validate { ready [] with cfg := { State.reset.cfg with config := 0x000A0420#32 } })).map
        (fun t => (t.status, t.ps)) =
      some (0x023#32, none) := by decide +kernel

/-- COMPRESS of "ABAB": the bytes and the trace's length of V-T5. -/
theorem test_compress :
    (after (exec .compress (ready abab))).map (fun t => (t.status, sinkBytes t.trace, t.trace.length)) =
      some (0x002#32, [0xA0#8, 0xD0#8, 0x97#8, 0x00#8], 10) := by decide +kernel

/-- COMPRESS of nothing: one SrcRead, one SnkFinish (V-E1). -/
theorem test_compress_empty :
    (after (exec .compress (ready []))).map (fun t => (t.trace, t.res.output)) =
      some ([.srcRead .endOfData, .snkFinish (.ok out7)], some out7) := by decide +kernel

/-- DECOMPRESS of V-D4: A0 AE 40 gives "AAAA", cursor 27, 5 bits left. -/
theorem test_decompress :
    (after (exec .decompress (ready [0xA0#8, 0xAE#8, 0x40#8]))).map
        (fun t => (t.status, sinkBytes t.trace, t.dR, t.br.cnt)) =
      some (0x002#32, List.replicate 4 0x41#8, 27, 5) := by decide +kernel

/-- DECOMPRESS reads lazily: the first reads and write of V-D1. -/
theorem test_decompress_lazy :
    (after (exec .decompress (ready [0xB0#8, 0xD8#8, 0xAC#8]))).map (fun t => t.trace.take 4) =
      some [.srcRead (.byte 0xB0#8), .srcRead (.byte 0xD8#8), .snkWrite 0x61#8 .ok, .srcRead (.byte 0xAC#8)] := by
  decide +kernel

/-- COMPRESS_IN_PLACE of V-I7: the gate trips on the last token. -/
theorem test_inPlace_gate :
    (after (exec .compressInPlace
        (inPlaceReady 28 [0x41#8, 0x42#8, 0x43#8, 0x44#8, 0x45#8, 0x46#8, 0x47#8, 0x48#8]))).map
        (fun t => (t.status, t.res.ipLen, t.res.ipRest, t.ioBytes 0 9)) =
      some (0x102#32, some 9, some 36,
        [0xA0#8, 0xD0#8, 0xA8#8, 0x74#8, 0x4A#8, 0x2D#8, 0x1A#8, 0x8F#8, 0x48#8]) := by decide +kernel

/-- COMPRESS_IN_PLACE of V-I4: too little room before the input. -/
theorem test_inPlace_no_room :
    (after (exec .compressInPlace (inPlaceReady 27 abc))).map (fun t => (t.status, t.res.ipLen, t.res.ipRest, t.trace)) =
      some (0x102#32, some 0, some 27, []) := by decide +kernel

/-- A data command after reset is refused by name (V-C7). -/
theorem test_no_config : refusal (exec .compress State.reset) = some .noValidConfig := by decide +kernel

/-! ## Witnesses: for each statement a state and operands that meet its hypotheses, clause by clause -/

theorem witness_ParameterChecksInPriorityOrder :
    (0 = 0) ∧ (4 ≠ 0 ∧ 4 ≥ 4) ∧ (2 ≠ 0 ∧ 2 < 5 ∧ 5 + 2 < 8) ∧
      (1 ≠ 0 ∧ 1 < 24 ∧ 8 ≤ 24 + 1 ∧ (24 < 24 + 1 ∨ 32 ≤ 24 + 1)) ∧
      (1 ≠ 0 ∧ 1 < 23 ∧ 8 ≤ 23 + 1 ∧ (24 < 23 + 1 ∨ 24 ≤ 23 + 1)) ∧
      (1 ≠ 0 ∧ 1 < 23 ∧ 8 ≤ 23 + 1 ∧ 23 + 1 ≤ 24 ∧ 23 + 1 < 25) := by decide

theorem witness_LegalParameterRangesAndConstants :
    p53.Legal 32 ∧ ParamSet.Legal 32 { ei := 5, ej := 4, c := 0 } ∧ ParamSet.Legal 32 { ei := 23, ej := 1, c := 0 } ∧
      ParamSet.Legal 32 { ei := 12, ej := 11, c := 0 } := by decide

/-- A state with CONFIG set. -/
def withConfig (w : Word32) : State := { State.reset with cfg := { State.reset.cfg with config := w }, quantum := 1 }

theorem witness_ValidateChecksAndLatches :
    ((withConfig 0x00000A20#32).ready ∧ 1 ≤ (withConfig 0x00000A20#32).quantum ∧ 10 = configEI (withConfig 0x00000A20#32).cfg.config ∧ 0 = configEJ (withConfig 0x00000A20#32).cfg.config ∧
      0 = 0) ∧
    ((withConfig 0x00040420#32).ready ∧ 1 ≤ (withConfig 0x00040420#32).quantum ∧ 4 = configEI (withConfig 0x00040420#32).cfg.config ∧ 4 = configEJ (withConfig 0x00040420#32).cfg.config ∧
      4 ≠ 0 ∧ 4 ≥ 4) ∧
    ((withConfig 0x00020520#32).ready ∧ 1 ≤ (withConfig 0x00020520#32).quantum ∧ 5 = configEI (withConfig 0x00020520#32).cfg.config ∧ 2 = configEJ (withConfig 0x00020520#32).cfg.config ∧
      2 ≠ 0 ∧ 2 < 5 ∧ 5 + 2 < 8) ∧
    ((withConfig 0x00011820#32).ready ∧ 1 ≤ (withConfig 0x00011820#32).quantum ∧ 24 = configEI (withConfig 0x00011820#32).cfg.config ∧ 1 = configEJ (withConfig 0x00011820#32).cfg.config ∧
      1 ≠ 0 ∧ 1 < 24 ∧ 8 ≤ 24 + 1 ∧ (24 < 24 + 1 ∨ (withConfig 0#32).build.idxW ≤ 24 + 1)) ∧
    ((withConfig 0x00011720#32).ready ∧ 1 ≤ (withConfig 0x00011720#32).quantum ∧ 23 = configEI (withConfig 0x00011720#32).cfg.config ∧ 1 = configEJ (withConfig 0x00011720#32).cfg.config ∧
      1 ≠ 0 ∧ 1 < 23 ∧ 8 ≤ 23 + 1 ∧ 23 + 1 ≤ 24 ∧ 23 + 1 < (withConfig 0#32).build.idxW) := by decide

theorem witness_CommandsInitialiseTheirState :
    (inPlaceReady 28 abc).ready ∧ (inPlaceReady 28 abc).ps = some p53 ∧ p53.Legal (inPlaceReady 28 abc).build.idxW ∧
      2 * p53.n ≤ (inPlaceReady 28 abc).build.wbufBytes ∧ p53.n ≤ (inPlaceReady 28 abc).build.wbufBytes ∧
      ioLength p53 (inPlaceReady 28 abc) ∧ p53.minOffset ≤ (inPlaceReady 28 abc).cfg.ipOffset ∧
      (inPlaceReady 28 abc).cfg.ipOffset < (inPlaceReady 28 abc).cfg.ipL := by decide +kernel

/-- A build with fixed configuration (10, 4, 0x20). -/
def fixedBuild : Build := { Config.defaultBuild with mode := .fixed 0x00040A20#32 }

/-- COMPRESS_IN_PLACE at its first search: offset 28, L 31. -/
def searching : State :=
  { inPlaceReady 28 abc with
    seq := .busy .ipSearch
    ip := { len := 31, off := 28, s := 5, r := 28, out := 0, offset2 := 27 }
    quantum := 0 }

theorem ioLengthRunning_searching : ioLengthRunning searching := by
  intro _ p hp
  cases hp
  decide

theorem witness_HostWritesReachTheirRegisters :
    ({ State.reset with script := [.writeConfig 0xFF040A20#32] }.script = [.writeConfig 0xFF040A20#32] ∧
      State.reset.build.mode = .runtime) ∧
    ({ State.resetOf fixedBuild with script := [.writeConfig 0#32] }.script = [.writeConfig 0#32] ∧
      (State.resetOf fixedBuild).build.mode = .fixed 0x00040A20#32) ∧
    ({ State.reset with script := [.writeIpL (2 ^ 32 - 1)] }.script = [.writeIpL (2 ^ 32 - 1)] ∧
      2 ^ 32 - 1 < 2 ^ State.reset.build.idxW ∧
      { State.reset with script := [.writeIpL (2 ^ 32)] }.script = [.writeIpL (2 ^ 32)] ∧
      2 ^ State.reset.build.idxW ≤ 2 ^ 32) ∧
    ({ State.reset with script := [.writeIpOffset (2 ^ 32 - 1)] }.script = [.writeIpOffset (2 ^ 32 - 1)] ∧
      { State.reset with script := [.writeIpOffset (2 ^ 32)] }.script = [.writeIpOffset (2 ^ 32)]) ∧
    ({ State.reset with script := [.writeIo 0 5#8] }.script = [.writeIo 0 5#8] ∧ State.reset.ownsIo = false ∧
      { searching with script := [.writeIo 0 5#8] }.script = [.writeIo 0 5#8] ∧ searching.ownsIo = true) := by
  decide

theorem witness_DecodeInvertsEncode :
    p53.Legal 32 ∧ cmdCode (.matchTok 31 9) = none ∧ (Instr.matchTok 31 9).wf p53 = true ∧
      cmdCode (.matchTok 0 2) = none ∧ (Instr.matchTok 0 2).wf p53 = true ∧
      cmdCode (.lit 0xFF#8) = none ∧ (Instr.lit 0xFF#8).wf p53 = true := by decide

theorem witness_EveryBitPatternIsATokenOrATail :
    p53.Legal 32 ∧
      decodeToken p53 [false, false, false, false, false, false, false, false, false, true] =
        .ok (.matchTok 0 2, [true]) ∧
      decodeToken p53 [true, false, false, false, false, false, false, false] = .error .endOfStream :=
  ⟨by decide, rfl, rfl⟩

theorem witness_StreamRoundTrip :
    p53.Legal 32 ∧ ∀ i ∈ [Instr.lit 0x61#8, .matchTok 31 9, .matchTok 0 2], cmdCode i = none ∧ i.wf p53 = true := by
  decide

theorem witness_TokenBitLayout : p53.Legal 32 ∧ (Instr.matchTok 31 9).wf p53 = true := by decide

theorem witness_CommandCodesAreAssigned : cmdCode .validate = some 0b00#2 ∧ cmdCode .compressInPlace = some 0b11#2 := by
  decide

/-- A writer with `n` pending ones. -/
def pending (n : Nat) : State := { ready [] with bw := { acc := 0xFFFFFFFF#32, cnt := n } }

/-- A sink that answers Ok `k` times and then Err. -/
def failing (k : Nat) (s : State) : State :=
  { s with snk := { writes := List.replicate k .ok ++ [.err { tag := 2 }], accepting := false, fin := none } }

/-- A sink that answers Ok `k` times and then not yet. -/
def silent (k : Nat) (s : State) : State :=
  { s with snk := { writes := List.replicate k .ok, accepting := false, fin := none } }

theorem witness_WriteBitsAppendsTheField :
    ((pending 7).bw.cnt ≤ 7 ∧ Field.ok { value := 2 ^ 24 - 1, width := 24 } = true ∧ (7 + 24) / 8 = 3 ∧
      (pending 7).snk.writes = [] ∧ (pending 7).snk.accepting = true) ∧
    ((failing 2 (pending 7)).bw.cnt ≤ 7 ∧ 2 < 3 ∧
      (failing 2 (pending 7)).snk.writes = List.replicate 2 .ok ++ .err { tag := 2 } :: []) ∧
    (silent 2 (pending 7)).bw.cnt ≤ 7 ∧ (silent 2 (pending 7)).snk.writes = List.replicate 2 .ok ∧
      (silent 2 (pending 7)).snk.accepting = false := by decide

theorem witness_WriteBitsIntoIo :
    ioLengthRunning { searching with bw := { acc := 0xFFFFFFFF#32, cnt := 7 } } ∧
      { searching with bw := { acc := 0xFFFFFFFF#32, cnt := 7 } }.bw.cnt ≤ 7 ∧
      Field.ok { value := 1, width := 24 } = true ∧ searching.ip.out + (7 + 24) / 8 ≤ searching.ip.len :=
  ⟨ioLengthRunning_searching, by decide⟩

theorem witness_FlushPadsThePendingBits :
    ((pending 0).bw.cnt ≤ 7 ∧ (pending 0).bw.cnt = 0) ∧
    ((pending 7).bw.cnt ≤ 7 ∧ 0 < (pending 7).bw.cnt ∧ (pending 7).snk.writes = [] ∧
      (pending 7).snk.accepting = true) ∧
    (0 < (failing 0 (pending 1)).bw.cnt ∧ (failing 0 (pending 1)).snk.writes = [.err { tag := 2 }]) ∧
    (0 < (silent 0 (pending 1)).bw.cnt ∧ (silent 0 (pending 1)).snk.writes = [] ∧
      (silent 0 (pending 1)).snk.accepting = false) ∧
    ioLengthRunning { searching with bw := { acc := 1#32, cnt := 7 }, ip := { searching.ip with out := 30 } } ∧
      { searching.ip with out := 30 }.out < searching.ip.len :=
  ⟨by decide, by decide, by decide, by decide, ioLengthRunning_searching, by decide⟩

theorem witness_WritingTwoFieldsIsWritingTheJoinedField :
    (pending 7).bw.cnt ≤ 7 ∧ Field.ok { value := 1, width := 1 } = true ∧
      Field.ok { value := 5, width := 23 } = true ∧ 1 + 23 ≤ 24 ∧ Field.ok { value := 5, width := 24 } = true ∧ (pending 7).snk.writes = [] ∧
      (pending 7).snk.accepting = true := by decide

/-- A reader with `n` buffered bits and a source of these answers. -/
def buffered (n : Nat) (src : List SrcAnswer) : State := { ready [] with br := { acc := 0x7F#32, cnt := n }, src := src }

theorem witness_ReadBitsReturnsTheNextBits :
    (1 ≤ 24 ∧ 24 ≤ 24 ∧ (buffered 0 (abc.map .byte)).br.cnt ≤ 7 ∧
      (buffered 0 (abc.map .byte)).src = abc.map .byte ++ [] ∧ abc.length = (24 - 0 + 7) / 8) ∧
    (1 ≤ 7 ∧ 7 ≤ 24 ∧ (buffered 7 []).br.cnt ≤ 7 ∧ (buffered 7 []).src = ([] : List Byte).map .byte ++ [] ∧
      ([] : List Byte).length = (7 - 7 + 7) / 8) := by decide

theorem witness_ReadBitsMeetsTheEnd :
    1 ≤ 24 ∧ 24 ≤ 24 ∧ (buffered 7 (sourceOf [1#8, 2#8])).src = sourceOf [1#8, 2#8] ∧
      (buffered 7 (sourceOf [1#8, 2#8])).br.cnt + 8 * [1#8, 2#8].length < 24 := by decide

theorem witness_CodecRefusesOutOfRangeFields :
    (0 < 1 ∧ 24 < 25 ∧ 2 ^ 24 ≤ 2 ^ 24) ∧ { value := 2, width := 1 : Field }.value ≥ 2 ^ 1 := by decide

/-- The window one cell short of full, and full. -/
def filledTo (n : Nat) (src : List SrcAnswer) : State := { ready [] with cp := { r := 23, s := 0, be := n }, src := src }

theorem witness_SourceErrorEndsTheCommand :
    ((filledTo 63 [.err { tag := 1 }]).cp.be < 2 * p53.n ∧ (filledTo 63 [.err { tag := 1 }]).src = [.err { tag := 1 }]) ∧
    ((buffered 7 [.byte 1#8, .err { tag := 1 }]).src = [1#8].map .byte ++ .err { tag := 1 } :: [] ∧
      (buffered 7 [.byte 1#8, .err { tag := 1 }]).br.cnt + 8 * [1#8].length < 16) := by decide

theorem witness_SourceAnswersOnceAndEndStays :
    (buffered 0 [.byte 1#8]).src = [.byte 1#8] ∧ (buffered 0 [.endOfData]).src = [.endOfData] ∧
      (buffered 0 [.endOfData, .byte 1#8]).src = .endOfData :: [.byte 1#8] ∧
      ¬ srcIdempotentEnd [.endOfData, .byte 1#8, .endOfData] ∧
      srcIdempotentEnd (buffered 0 [.endOfData, .endOfData]).src ∧
      srcRead (buffered 0 [.endOfData, .endOfData]) =
        .got .endOfData { buffered 0 [.endOfData] with history := [.srcRead .endOfData] } ∧
      (buffered 0 []).src = [] := by decide

theorem witness_WaitingKeepsEveryState :
    { atToken with src := [] }.seq = .busy .dFlag ∧
      coreOp .dFlag { atToken with src := [] } = .waits { atToken with src := [] } := by decide +kernel

theorem witness_SearchFindsTheMostRecentLongestMatch :
    (0 < 1 ∧ 1 ≤ 2 ∧ ∀ i, 0 ≤ i → i < 1 + 2 → (fun _ => .ok 0x61#8 : Nat → Except MemStop Byte) i = .ok 0x61#8) ∧
    (∃ i l, 0 ≤ i ∧ i < 1 ∧ matchLength (fun _ => 0x61#8) i 1 2 l ∧ 2 ≤ l) ∧
    ∀ i l, 0 ≤ i → i < 1 → matchLength (fun _ => 0x61#8) i 1 1 l → l ≤ 1 :=
  ⟨⟨by decide, by decide, fun _ _ _ => rfl⟩, ⟨0, 2, by decide, by decide, ⟨by decide, fun _ _ => rfl, fun _ h _ => h⟩,
    by decide⟩, fun _ _ _ _ h => h.1⟩

theorem witness_SearchReadsOnlyTheWindow :
    0 ≤ 1 ∧ 1 ≤ 1 ∧
      ∀ i, 0 ≤ i → i < 1 + 1 →
        (fun _ => .ok 0x61#8 : Nat → Except MemStop Byte) i = if i < 2 then .ok 0x61#8 else .error .noValue :=
  ⟨by decide, by decide, fun i _ h => by simp [show i < 2 from h]⟩

theorem witness_FillStoresTheNextByte :
    ((filledTo 63 [.byte 1#8]).cp.be < 2 * p53.n ∧ (filledTo 63 [.byte 1#8]).cp.be < (filledTo 63 []).build.wbufBytes ∧
      (filledTo 63 [.byte 1#8]).src = [.byte 1#8]) ∧
    ((filledTo 63 [.endOfData]).cp.be < 2 * p53.n ∧ (filledTo 63 [.endOfData]).src = [.endOfData]) ∧
    ((filledTo 63 [.err { tag := 1 }]).cp.be < 2 * p53.n ∧ (filledTo 63 [.err { tag := 1 }]).src = [.err { tag := 1 }]) ∧
    2 * p53.n ≤ (filledTo 64 []).cp.be := by decide

theorem witness_CompactionMovesTheWindowDown :
    2 * p53.n ≤ { ready [] with build := { State.reset.build with wbufBytes := 64 } }.build.wbufBytes := by decide

theorem witness_OffsetCorrectionGivesTheDecoderCell :
    p53.Legal Config.defaultBuild.idxW ∧ p53.minOffset ≤ 28 ∧ 28 < 29 ∧ ioLengthOf p53 Config.defaultBuild 29 ∧
      p53.minOffset ≤ 2 ^ 32 - 43 ∧ 2 ^ 32 - 43 < 2 ^ 32 - 42 ∧ ioLengthOf p53 Config.defaultBuild (2 ^ 32 - 42) := by
  decide

theorem witness_LiteralPutsItsByte :
    (atToken.atToken = true ∧ atToken.ps = some p53 ∧ atToken.dR < atToken.build.wbufBytes ∧
      snkWrite 1#8 atToken = .got .ok { atToken with history := .snkWrite 1#8 .ok :: atToken.history }) ∧
    ({ atToken with dR := 31 }.atToken = true ∧ { atToken with dR := 31 }.dR < atToken.build.wbufBytes) ∧
    ((failing 0 atToken).atToken = true ∧ (failing 0 atToken).ps = some p53 ∧
      (failing 0 atToken).snk.writes = [.err { tag := 2 }]) ∧
    (silent 0 atToken).atToken = true ∧ (silent 0 atToken).ps = some p53 ∧ (silent 0 atToken).snk.writes = [] ∧
      (silent 0 atToken).snk.accepting = false := by
  decide +kernel

theorem witness_MatchCopiesFromTheDictionary :
    atToken.atToken = true ∧ atToken.ps = some p53 ∧ p53.Legal atToken.build.idxW ∧ p53.n ≤ atToken.build.wbufBytes ∧
      atToken.dR < p53.n ∧ (∀ a, a < p53.n → 0 ≤ a → atToken.winByte a ≠ none) ∧ atToken.snk.writes = [] ∧
      atToken.snk.accepting = true := by decide +kernel

theorem witness_OverlappingMatchRepeatsItsOutput :
    9 ≤ p53.f ∧ 1 ≤ 1 ∧ 1 < p53.n ∧ { atToken with dR := 24 }.dR = (23 + 1) % p53.n ∧
      (after (exec (.matchTok 23 9) { atToken with dR := 24 })).map (fun t => t.history) =
        some ((writesOk (List.replicate 9 0x20#8)).reverse ++ { atToken with dR := 24 }.history) := by decide +kernel

theorem witness_TokensChangeOnlyTheirOutput :
    atToken.ps = some p53 ∧ (∃ t, exec (.lit 1#8) atToken = .next t) ∧
      (∃ t, exec (.matchTok 31 9) atToken = .next t) ∧
      (after (exec (.matchTok 31 9) (failing 4 atToken))).map (fun t => (t.dR, (sinkBytes t.history).length)) =
        some (27, 4) :=
  ⟨rfl, next_of_after (by decide +kernel), next_of_after (by decide +kernel), by decide +kernel⟩

theorem witness_TokensNeedARunningDecompress :
    cmdCode (.lit 1#8) = none ∧ (ready []).atToken = false ∧ { atToken with ps := none }.atToken = true ∧
      { atToken with ps := none }.ps = none := by decide +kernel

theorem witness_IssueTurnsCommandsAway :
    cmdCode .compress = some 0b01#2 ∧ atToken.seq = .busy .dFlag ∧ { ready [] with seq := .fault }.seq = .fault ∧
      State.reset.ready ∧ State.reset.ps = none ∧ Instr.compress ≠ .validate := by decide +kernel

theorem witness_AcceptedCommandBecomesBusy :
    (slow 0).ready ∧ (slow 0).quantum = 0 ∧ (slow 0).ps = some p53 ∧ ioLength p53 (slow 0) := by decide

/-- A window RAM of `n` cells. -/
def smallWindow (n : Nat) : State := { ready [] with build := { State.reset.build with wbufBytes := n } }

theorem witness_SmallWindowFaults :
    (smallWindow 63).ready ∧ (smallWindow 63).ps = some p53 ∧ 1 ≤ (smallWindow 63).quantum ∧
      (smallWindow 63).build.wbufBytes < 2 * p53.n ∧ (smallWindow 31).build.wbufBytes < p53.n := by decide

/-- A source that answers End twice. -/
def twoEnds (bytes : List Byte) : State := { ready bytes with src := sourceOf bytes ++ [.endOfData] }

theorem witness_CompressEmitsTheReferenceStream :
    (twoEnds abab).ready ∧ (twoEnds abab).ps = some p53 ∧ p53.Legal (twoEnds abab).build.idxW ∧
      2 * p53.n ≤ (twoEnds abab).build.wbufBytes ∧ srcEndsAfter abab (twoEnds abab).src ∧
      srcIdempotentEnd (twoEnds abab).src ∧ (twoEnds abab).snk = acceptingSink out7 :=
  ⟨by decide, by decide, by decide, by decide, ⟨[.endOfData], rfl⟩, by decide, rfl⟩

theorem witness_DecompressEmitsTheExpansion :
    (twoEnds abc).ready ∧ (twoEnds abc).ps = some p53 ∧ p53.Legal (twoEnds abc).build.idxW ∧
      p53.n ≤ (twoEnds abc).build.wbufBytes ∧ srcEndsAfter abc (twoEnds abc).src ∧
      srcIdempotentEnd (twoEnds abc).src ∧ (twoEnds abc).snk = acceptingSink out7 :=
  ⟨by decide, by decide, by decide, by decide, ⟨[.endOfData], rfl⟩, by decide, rfl⟩

theorem witness_ReferenceTokensExpandToTheInput : p53.Legal 32 ∧ expand p53 (compressTokens p53 abab) = abab := by
  decide +kernel

theorem witness_CompressThenDecompressIsIdentity :
    (p53.Legal (ready abab).build.idxW ∧ (ready abab).ready ∧ (ready abab).ps = some p53 ∧
      2 * p53.n ≤ (ready abab).build.wbufBytes ∧ srcEndsAfter abab (ready abab).src ∧
      srcIdempotentEnd (ready abab).src ∧ (ready abab).snk = acceptingSink out7) ∧
    ({ twoEnds abab with seq := .done }.ready ∧ { twoEnds abab with seq := .done }.build = (ready abab).build ∧
      srcEndsAfter abab { twoEnds abab with seq := .done }.src ∧ srcIdempotentEnd (twoEnds abab).src) ∧
    ((slow 3).ready ∧ (slow 3).ps = some p53 ∧ (slow 3).build = (ready abab).build ∧
      (slow 3).snk = acceptingSink out7) ∧
    srcEndsAfter abc (sourceOf abc) ∧ srcIdempotentEnd (sourceOf abc) :=
  ⟨⟨by decide, by decide, rfl, by decide, ⟨[], rfl⟩, by decide, rfl⟩,
    ⟨by decide, rfl, ⟨[.endOfData], rfl⟩, by decide⟩, by decide, ⟨[], rfl⟩, by decide⟩

theorem witness_InPlacePreconditionExits :
    (ioLength p53 (inPlaceReady 40 []) ∧ ioLength p53 (inPlaceReady 27 abc) ∧ ioLength p53 (inPlaceReady 28 abc)) ∧
    ((inPlaceReady 40 []).ready ∧ (inPlaceReady 40 []).cfg.ipL ≤ (inPlaceReady 40 []).cfg.ipOffset) ∧
    ((inPlaceReady 27 abc).ready ∧ (inPlaceReady 27 abc).cfg.ipOffset < (inPlaceReady 27 abc).cfg.ipL ∧
      (inPlaceReady 27 abc).cfg.ipOffset < p53.minOffset) ∧ (inPlaceReady 27 abc).ps = some p53 ∧
    ((inPlaceReady 28 abc).ready ∧ (inPlaceReady 28 abc).cfg.ipOffset < (inPlaceReady 28 abc).cfg.ipL ∧
      p53.minOffset ≤ (inPlaceReady 28 abc).cfg.ipOffset ∧ 1 ≤ (inPlaceReady 28 abc).quantum) := by decide +kernel

theorem witness_InPlaceEmitsTheStreamOfWhatItConsumed :
    (inPlaceReady 28 abc).ready ∧ (inPlaceReady 28 abc).ps = some p53 ∧ p53.Legal (inPlaceReady 28 abc).build.idxW ∧
      ioLength p53 (inPlaceReady 28 abc) ∧
      p53.minOffset ≤ (inPlaceReady 28 abc).cfg.ipOffset ∧
      (inPlaceReady 28 abc).cfg.ipOffset < (inPlaceReady 28 abc).cfg.ipL := by decide +kernel

/-- The gate of V-I7 (R205): at offset 28, after the eighth literal and not after the seventh. -/
theorem witness_gateTrips :
    gateTrips p53 28
        [.lit 0x41#8, .lit 0x42#8, .lit 0x43#8, .lit 0x44#8, .lit 0x45#8, .lit 0x46#8, .lit 0x47#8, .lit 0x48#8] ∧
      ¬ gateTrips p53 28
        [.lit 0x41#8, .lit 0x42#8, .lit 0x43#8, .lit 0x44#8, .lit 0x45#8, .lit 0x46#8, .lit 0x47#8] := by decide

theorem witness_Inv_searching : Inv searching := by
  refine ⟨trivial, ⟨by decide, fun p h => ?_, fun config h => ?_⟩, .inl ⟨.inr rfl, rfl⟩,
    ⟨by decide +kernel, by decide +kernel, by decide +kernel⟩, fun phase h => ?_, by decide,
    by decide, by decide, by decide, ioLengthRunning_searching⟩
  · cases h
    decide
  · cases h
  · cases h
    exact .inr ⟨p53, rfl, by decide, by decide, by decide⟩

theorem witness_InPlaceNeverWritesUnreadInput :
    Inv searching ∧ searching.script = [] ∧ searching.seq = .busy .ipSearch ∧ inPlacePhase .ipSearch = true ∧
      Phase.ipSearch ≠ .ipCheck ∧ (∀ k, Phase.ipSearch ≠ .ipSeed k) ∧ ∃ t, step searching = .next t :=
  ⟨witness_Inv_searching, rfl, rfl, rfl, by decide, fun _ => nofun, next_of_after (by decide +kernel)⟩

theorem witness_ReferenceTokensAreWellFormed :
    p53.Legal 32 ∧ Instr.lit 0x41#8 ∈ compressTokens p53 abab ∧ Instr.matchTok 23 2 ∈ compressTokens p53 abab := by
  decide +kernel

theorem witness_CompressedSizeBound : p53.Legal 32 := by decide

theorem witness_DataCommandsChangeOnlyTheirOwnState :
    (slow 2).ready ∧ (∃ t, exec .compress (slow 2) = .next t) ∧ (∃ t, exec .decompress (slow 2) = .next t) ∧
      (∀ p, (inPlaceReady 28 abc).ps = some p → ioLength p (inPlaceReady 28 abc)) ∧
      (∃ t, exec .compressInPlace (inPlaceReady 28 abc) = .next t) ∧
      (after (exec .compressInPlace (inPlaceReady 28 abc))).map (fun t => decide (t.ip.out ≤ 28)) = some true :=
  ⟨by decide, next_of_after (by decide +kernel), next_of_after (by decide +kernel),
    fun p hp => by cases hp; decide +kernel, next_of_after (by decide +kernel),
    by decide +kernel⟩

/-- DECOMPRESS at a token, the source at its end, with a turn of two operations. -/
def resumed : State := { atToken with quantum := 1 }

/-- A sink whose SnkFinish fails. -/
def finishFails (s : State) : State := { s with snk := { s.snk with fin := some (.err { tag := 4 }) } }

theorem witness_FinishComesLastAndOnlyAfterSuccess :
    ((ready []).ready ∧ (∃ t, exec .compress (ready []) = .next t) ∧
      (after (exec .compress (ready []))).map (fun t => t.trace) =
        some ((ready []).trace ++ ([.srcRead .endOfData] ++ .snkFinish (.ok out7) :: []))) ∧
    (ioLengthRunning resumed ∧ resumed.seq = .busy .dFlag ∧ resumed.script = [] ∧ (∃ t, step resumed = .next t) ∧
      (after (step resumed)).map (fun t => t.trace) =
        some (resumed.trace ++ ([.srcRead .endOfData] ++ .snkFinish (.ok out7) :: []))) ∧
    ((after (step atToken)).map (fun t => (t.isBusy, t.trace)) = some (true, [.srcRead .endOfData])) ∧
    (ready []).snk.fin = some (.ok out7) ∧ (finishFails (ready [])).snk.fin = some (.err { tag := 4 }) ∧
      (silent 0 (ready [])).snk.fin = none :=
  ⟨⟨by decide, next_of_after (by decide +kernel), by decide +kernel⟩,
    ⟨nofun, rfl, rfl, next_of_after (by decide +kernel), by decide +kernel⟩, by decide +kernel, rfl, rfl, rfl⟩

/-- Left by an earlier command: other accumulators, pointers and window, and an ERROR. -/
def leftover : State :=
  { ready abab with
    seq := .error, bw := { acc := 5#32, cnt := 3 }, br := { acc := 9#32, cnt := 4 }, dR := 17
    win := memFill 9 0x55#8, history := [.ioWrite 0 0#8] }

theorem witness_CommandsAreIndependentOfWhatWasLeft :
    (ready abab).ready ∧ leftover.ready ∧ leftover.build = (ready abab).build ∧ leftover.ps = (ready abab).ps ∧
      leftover.src = (ready abab).src ∧ leftover.snk = (ready abab).snk ∧ leftover.io = (ready abab).io ∧
      leftover.cfg.ipL = (ready abab).cfg.ipL ∧ leftover.cfg.ipOffset = (ready abab).cfg.ipOffset ∧
      leftover.quantum = (ready abab).quantum ∧ (∃ t, exec .compress (ready abab) = .next t) ∧
      ∀ p, (ready abab).ps = some p → ioLength p (ready abab) :=
  ⟨by decide, by decide, rfl, rfl, rfl, rfl, rfl, rfl, rfl, rfl, next_of_after (by decide +kernel),
    fun p hp => by cases hp; decide⟩

theorem witness_InvariantHoldsAtReset : buildOk Config.defaultBuild ∧ buildOk fixedBuild :=
  ⟨trivial, by unfold buildOk fixedBuild; decide⟩

/-- With no move pending the host issues nothing. -/
theorem ioLengthIssued_searching : ioLengthIssued searching := by
  rintro ⟨rest, h⟩
  cases h

theorem witness_EveryStepKeepsTheInvariant :
    Inv searching ∧ ioLengthIssued searching ∧ (∃ t, step searching = .next t) ∧
      ioLengthIssued { inPlaceReady 28 abc with script := [.writeCmd 0b11#2] } :=
  ⟨witness_Inv_searching, ioLengthIssued_searching, next_of_after (by decide +kernel), fun _ _ p hp => by
    cases hp
    decide +kernel⟩

theorem witness_NoStepGoesOutOfRange : Inv searching ∧ ioLengthIssued searching ∧ searching.script = [] :=
  ⟨witness_Inv_searching, ioLengthIssued_searching, rfl⟩

theorem witness_TheTraceOnlyGrows :
    ioLengthRunning searching ∧ ioLengthIssued searching ∧ ∃ t, step searching = .next t :=
  ⟨ioLengthRunning_searching, ioLengthIssued_searching, next_of_after (by decide +kernel)⟩

theorem witness_OnlyValidateChangesTheParameters :
    (after (step { withConfig 0x00040A20#32 with script := [.writeCmd 0b00#2] })).map (fun t => t.ps) =
        some (some p104) ∧
      (withConfig 0x00040A20#32).ps = none ∧ ioLengthRunning (withConfig 0x00040A20#32) ∧
      ioLengthIssued { withConfig 0x00040A20#32 with script := [.writeCmd 0b00#2] } :=
  ⟨by decide +kernel, rfl, nofun, fun ⟨_, h⟩ => by cases h⟩

/-- What a turn from `resumed` leaves: DONE. -/
def finished : State :=
  { resumed with
    seq := .done
    res := endRes (.finished out7)
    snk := { writes := [], accepting := false, fin := none }
    history := [.snkFinish (.ok out7), .srcRead .endOfData] }

/-- A run of the core alone: one turn ends the command, every later one changes nothing. -/
def shortRun : Nat → State
  | 0 => resumed
  | _ + 1 => finished

theorem shortRun_steps (n : Nat) : step { shortRun n with script := [.pass] } = .next (shortRun (n + 1)) := by
  cases n with
  | zero => exact eq_next_of_after (by decide +kernel)
  | succ n => rfl

theorem witness_Inv_resumed : Inv resumed := by
  refine ⟨trivial, ⟨by decide, fun p h => ?_, fun config h => ?_⟩, .inl ⟨.inr rfl, rfl⟩,
    ⟨by decide +kernel, by decide +kernel, by decide +kernel⟩, fun phase h => ?_, by decide,
    by decide, by decide, by decide, nofun⟩
  · cases h
    decide
  · cases h
  · cases h
    exact .inr ⟨p53, rfl, by
      unfold phaseInv
      decide +kernel⟩

theorem witness_FairRunsEnd :
    FairRun shortRun (fun _ => .pass) ∧ Inv (shortRun 0) ∧ srcFinite (fun _ => .pass) ∧ srcAnswers shortRun ∧
      snkAnswers shortRun ∧ (shortRun 0).isBusy = true := by
  refine ⟨⟨shortRun_steps, fun n => ⟨n, Nat.le_refl n, rfl⟩, fun _ => ⟨fun _ => nofun, fun _ => nofun⟩⟩,
    witness_Inv_resumed, ⟨0, fun _ _ => rfl⟩, fun n _ => ⟨n + 1, Nat.le_succ n, nofun⟩,
    fun n _ => ⟨⟨n + 1, Nat.le_succ n, nofun⟩, ⟨n + 1, Nat.le_succ n, nofun⟩⟩, rfl⟩

theorem witness_FaultIsQuiescent :
    { ready [] with seq := .fault, script := [.writeCmd 0b01#2] }.seq = .fault ∧
      (∃ t, step { ready [] with seq := .fault, script := [.writeCmd 0b01#2] } = .next t) ∧
      ∀ rest, { ready [] with seq := .fault, script := [.writeCmd 0b01#2] }.script ≠ .reset :: rest :=
  ⟨rfl, next_of_after (by decide +kernel), fun _ => nofun⟩

theorem witness_ResetGivesTheResetValues :
    { atToken with script := [.reset] }.script = [.reset] ∧ atToken.build.mode = .runtime ∧
      { State.resetOf fixedBuild with script := [.reset] }.script = [.reset] ∧
      (State.resetOf fixedBuild).build.mode = .fixed 0x00040A20#32 := by decide

theorem witness_HostReadsStatusAndResults :
    ({ ready [] with script := [.read .status] }.script = [.read .status] ∧ (∀ a, HostReg.status ≠ .ioCell a) ∧
      hostReadValue (ready []) .status = some (.word 0#32) ∧ hostReadValue (ready []) .resOutput = none ∧
      hostReadValue { ready [] with res := endRes (.inPlace 9 (some 36)) } .resIpRest = some (.index 36)) ∧
    ({ ready [] with script := [.read (.ioCell 5)] }.script = [.read (.ioCell 5)] ∧ (ready []).ownsIo = false) ∧
    { searching with script := [.read (.ioCell 5)] }.script = [.read (.ioCell 5)] ∧ searching.ownsIo = true :=
  ⟨⟨rfl, fun _ => nofun, by decide +kernel, by decide +kernel, by decide +kernel⟩, ⟨rfl, rfl⟩, rfl, rfl⟩

theorem witness_StepRunsTheWrittenCommand :
    { ready [] with script := [.writeCmd 0b10#2, .pass] }.script = .writeCmd 0b10#2 :: [.pass] := by decide

/-- DECOMPRESS at its first token, LIT 0x61, from B0 D8 (V-D1). -/
def atFirst : State := { atToken with src := [.byte 0xB0#8, .byte 0xD8#8] }

theorem witness_StepRunsTheFetchedToken :
    atFirst.atToken = true ∧ atFirst.ps = some p53 ∧
      (∃ s', fetchToken p53 atFirst = .ok (some (.lit 0x61#8)) s') ∧ atFirst.script = [] ∧ atFirst.quantum = 0 :=
  ⟨rfl, rfl, ⟨_, rfl⟩, rfl, rfl⟩

theorem witness_StepRunsTheTokenOfTheNextBits :
    atFirst.seq = .busy .dFlag ∧ atFirst.ps = some p53 ∧ p53.Legal atFirst.build.idxW ∧ atFirst.br.cnt ≤ 7 ∧
      atFirst.script = [] ∧ atFirst.quantum = 0 ∧ atFirst.src = [0xB0#8, 0xD8#8].map .byte ++ [] ∧
      decodeToken p53 (atFirst.br.bits ++ [0xB0#8, 0xD8#8].flatMap byteBits) =
        .ok (.lit 0x61#8, [true, false, true, true, false, false, false]) :=
  ⟨rfl, rfl, by decide, by decide, rfl, rfl, rfl, rfl⟩

end Sys2Proof.Tests
end

/-! The source channel between one SrcRead and the next (R11, R272). -/

namespace Sys2Proof.Proofs

open Sys2Proof Sys2Proof.Machine

/-- With further answers behind it, every answer is taken off the source, `endOfData` too. -/
theorem srcRead_of_cons {s : State} {a : SrcAnswer} {rest : List SrcAnswer} (hrest : rest ≠ [])
    (h : s.src = a :: rest) :
    srcRead s = .got a { s with src := rest, history := .srcRead a :: s.history } := by
  cases rest with
  | nil => exact absurd rfl hrest
  | cons b bs => simp [srcRead, h]

/-- A source with nothing but `endOfData` left, and that at least once, answers `endOfData`. -/
theorem srcRead_of_forall_end {s : State} (hne : s.src ≠ []) (hall : ∀ a ∈ s.src, a = .endOfData) :
    ∃ t, srcRead s = .got .endOfData t := by
  cases hread : srcRead s with
  | waits => exact absurd (srcRead_waits.mp hread) hne
  | got a t =>
    have ha : a = .endOfData := by
      obtain hs | ⟨ha, -, -⟩ := (srcRead_got hread).2
      · exact hall a (by simp [hs])
      · exact ha
    exact ⟨t, ha ▸ rfl⟩

/-- An `endOfData` is never taken without an answer behind it: it was the last and stayed, or more answers remain. -/
theorem src_of_srcRead_end {s t : State} (h : srcRead s = .got .endOfData t) :
    (s.src = [.endOfData] ∧ t.src = [.endOfData]) ∨ (s.src = .endOfData :: t.src ∧ t.src ≠ []) := by
  obtain hs | ⟨-, hs, ht⟩ := (srcRead_got h).2
  · refine .inr ⟨hs, fun hnil => ?_⟩
    rw [hnil] at hs
    rw [srcRead_end hs] at h
    cases h
    exact absurd (hs.symm.trans hnil) (by simp)
  · exact .inl ⟨hs, ht.trans hs⟩

/-- SrcIdempotentEnd (R272) outlives an answered `endOfData`, and the next SrcRead answers `endOfData` again. -/
theorem srcRead_end_again {s t : State} (hidem : srcIdempotentEnd s.src) (h : srcRead s = .got .endOfData t) :
    srcIdempotentEnd t.src ∧ ∃ u, srcRead t = .got .endOfData u := by
  obtain ⟨-, ht⟩ | ⟨hs, hne⟩ := src_of_srcRead_end h
  · exact ⟨ht ▸ List.pairwise_singleton _ _, _, srcRead_end ht⟩
  · rw [hs] at hidem
    obtain ⟨hhead, htail⟩ := List.pairwise_cons.mp hidem
    exact ⟨htail, srcRead_of_forall_end hne fun a ha => hhead a ha rfl⟩

/-- Settles O20, clause by clause: the rules of SrcRead for each form of the source, and `srcRead_end_again`. -/
theorem sourceAnswersOnceAndEndStays : Obligations.SourceAnswersOnceAndEndStays := fun _ =>
  ⟨fun _ _ hsrc => srcRead_byte hsrc, srcRead_end, fun _ hrest hsrc => srcRead_of_cons hrest hsrc,
    fun _ hidem hread => srcRead_end_again hidem hread, srcRead_waits.mpr⟩

end Sys2Proof.Proofs

/-! The rules of the core's operations: what each shared operation of Machine/Ops.lean and Machine/Operands.lean leaves,
for whatever predicates its caller names. -/

namespace Sys2Proof.Proofs

open Sys2Proof Sys2Proof.Machine

variable {α β : Type} {stop : State → Prop} {halt : Prop}

/-! ## The three ways an operation comes out -/

/-- The operation leaves `done` when it is done and `stop` when it waits or has ended the command; the model itself
stops only if `halt`. -/
def Meets (done : α → State → Prop) (stop : State → Prop) (halt : Prop) : Res α → Prop
  | .ok a s => done a s
  | .waits s => stop s
  | .ended s => stop s
  | .faulted _ => halt
  | .refused _ => halt

/-- An operation that may halt meets what it leaves in every state. -/
theorem meets_iff_all {P : State → Prop} {r : Res α} : Meets (fun _ => P) P True r ↔ r.All P := by
  cases r <;> exact Iff.rfl

/-- An operation that never halts the model leaves `P` in every state. -/
theorem meets_never_iff {P : State → Prop} {r : Res α} :
    Meets (fun _ => P) P False r ↔ r.All P ∧ (∀ f, r ≠ .faulted f) ∧ ∀ x, r ≠ .refused x := by
  cases r <;> simp [Meets]

theorem Meets.mono {done done' : α → State → Prop} {stop' : State → Prop} {r : Res α} (h : Meets done stop halt r)
    (hdone : ∀ a s, done a s → done' a s) (hstop : ∀ s, stop s → stop' s) : Meets done' stop' halt r := by
  cases r with
  | ok a s => exact hdone a s h
  | waits s => exact hstop s h
  | ended s => exact hstop s h
  | faulted f => exact h
  | refused x => exact h

/-- The rule for a sequence. -/
theorem Meets.andThen {done : α → State → Prop} {done' : β → State → Prop} {r : Res α} {next : α → State → Res β}
    (h : Meets done stop halt r) (hnext : ∀ a s, done a s → Meets done' stop halt (next a s)) :
    Meets done' stop halt (r.andThen next) := by
  cases r with
  | ok a s => exact hnext a s h
  | waits s => exact h
  | ended s => exact h
  | faulted f => exact h
  | refused x => exact h

/-- A memory access gives a byte and the operation goes on, or it ends the command in FAULT, or the index is outside. -/
theorem onAccess_meets {done : β → State → Prop} {access : Except MemStop α} {s : State} {next : α → Res β}
    (hgives : ∀ a, access = .ok a → Meets done stop halt (next a))
    (hnoValue : access = .error .noValue → stop (endCommand .readOfUnwrittenByte s))
    (houtside : ∀ f, access = .error (.outside f) → halt) : Meets done stop halt (onAccess access s next) := by
  cases access with
  | ok a => exact hgives a rfl
  | error e =>
    cases e with
    | outside f => exact houtside f rfl
    | noValue => exact hnoValue rfl

/-! ## EMIT (R131) -/

/-- EMIT to the sink moves nothing but the sink and the trace, and ends the command on `Err`. -/
theorem emitSink_meets {done : Unit → State → Prop} (b : Byte) (s : State)
    (hok : ∀ snk history, done () { s with snk := snk, history := history }) (hwaits : stop s)
    (herr : ∀ e snk history, stop (endCommand (.writeError e) { s with snk := snk, history := history })) :
    Meets done stop halt (emitSink b s) := by
  obtain ⟨t, hr, hw⟩ | ⟨hr, -⟩ | ⟨e, t, hr, hw⟩ := emitSink_cases b s <;> rw [hr]
  · have ht := (snkWrite_got hw).1
    show done () t
    rw [ht]
    exact hok t.snk _
  · exact hwaits
  · have ht := (snkWrite_got hw).1
    show stop (endCommand (.writeError e) t)
    rw [ht]
    exact herr e t.snk _

/-- EMIT into IO stores at IP_OUT and advances it, or IP_OUT is outside [0, L). -/
theorem emitIo_meets {done : Unit → State → Prop} (b : Byte) (s : State)
    (hok : s.ip.out < s.ip.len →
      done ()
        { s with
          io := memWrite Config.ioUnlisted s.io s.ip.out b
          history := .ioWrite s.ip.out b :: s.history
          ip := { s.ip with out := s.ip.out + 1 } })
    (houtside : s.ip.len ≤ s.ip.out → halt) : Meets done stop halt (emitIo b s) := by
  rcases Nat.lt_or_ge s.ip.out s.ip.len with h | h
  · rw [emitIo_ok b h]
    exact hok h
  · rw [emitIo_outside b h]
    exact houtside h

/-! ## The writer (R130, R132) -/

/-- EMIT takes the top 8 pending bits and keeps `I`. -/
def EmitKeeps (emit : Byte → State → Res Unit) (I stop : State → Prop) (halt : Prop) : Prop :=
  ∀ b s, I s → 8 ≤ s.bw.cnt →
    Meets (fun _ t => I t ∧ t.bw.cnt = s.bw.cnt - 8) stop halt
      (emit b { s with bw := { s.bw with cnt := s.bw.cnt - 8 } })

/-- The loop of WRITE_BITS keeps what EMIT keeps, and leaves fewer than 8 bits pending. -/
theorem drainBits_meets {emit : Byte → State → Res Unit} {I : State → Prop} (hemit : EmitKeeps emit I stop halt)
    (hstop : ∀ s, I s → stop s) (fuel : Nat) (s : State) (hI : I s) (hfuel : s.bw.cnt ≤ fuel) :
    Meets (fun _ t => I t ∧ t.bw.cnt ≤ 7) stop halt (drainBits emit fuel s) := by
  induction fuel generalizing s with
  | zero => exact ⟨hI, by omega⟩
  | succ fuel ih =>
    rw [drainBits]
    split
    · rename_i hcnt
      have h := hemit (topByte s.bw) s hI hcnt
      generalize emit _ _ = r at h ⊢
      cases r with
      | ok a t =>
        obtain ⟨hIt, hcntt⟩ := h
        exact ih t hIt (by omega)
      | waits t => exact hstop s hI
      | ended t => exact h
      | faulted f => exact h
      | refused x => exact h
    · exact ⟨hI, by omega⟩

/-- FLUSH: nothing with no bit pending, else one EMIT of the last byte. -/
theorem flushBits_meets {emit : Byte → State → Res Unit} {done : Unit → State → Prop} {s : State}
    (hnone : s.bw.cnt = 0 → done () s) (hwaits : stop s)
    (hemit : ∀ b, 0 < s.bw.cnt → Meets done stop halt (emit b { s with bw := { s.bw with cnt := 0 } })) :
    Meets done stop halt (flushBits emit s) := by
  rw [flushBits]
  split
  · rename_i hcnt
    have h := hemit (BitVec.ofNat 8 ((s.bw.acc.toNat <<< (8 - s.bw.cnt)) &&& 0xFF)) hcnt
    split
    · exact hwaits
    · exact h
  · exact hnone (by omega)

/-- What a turn at a token's fields leaves: all are written and fewer than 8 bits pend, or some are still to come. -/
def FieldsLeft (I : List Field → State → Prop) (written : Bool) (t : State) : Prop :=
  if written then I [] t ∧ t.bw.cnt ≤ 7 else ∃ rest, I rest t

/-- A turn at a token's fields keeps `I` of the fields that remain. -/
theorem writeFields_meets {emit : Byte → State → Res Unit} {phase : List Field → Phase}
    {I : List Field → State → Prop} (hemit : ∀ fs, EmitKeeps emit (I fs) stop halt) (hstop : ∀ fs s, I fs s → stop s)
    (hfield : ∀ f rest s, I (f :: rest) s → f.ok = true ∨ halt)
    (hpush : ∀ f rest s, I (f :: rest) s → s.bw.cnt ≤ 7 → f.ok = true →
      I rest { s with seq := .busy (phase rest), bw := pushBits f s.bw })
    (fs : List Field) (s : State) (hI : I fs s) :
    Meets (FieldsLeft I) stop halt (writeFields emit phase fs s) := by
  refine (drainBits_meets (hemit fs) (hstop fs) s.bw.cnt s hI le_rfl).andThen fun _ t ⟨hIt, hcnt⟩ => ?_
  cases fs with
  | nil => exact ⟨hIt, hcnt⟩
  | cons f rest =>
    have hwrite : Meets (fun _ u => I rest u) stop halt (writeBits emit f { t with seq := .busy (phase rest) }) := by
      rw [writeBits]
      split
      · rename_i hok
        exact (drainBits_meets (hemit rest) (hstop rest) _ _ (hpush f rest t hIt hcnt hok) le_rfl).mono
          (fun _ _ hu => hu.1) fun _ hu => hu
      · rename_i hbad
        exact (hfield f rest t hIt).resolve_left hbad
    exact hwrite.andThen fun _ u hu => ⟨rest, hu⟩

/-! ## The reader (R134, R185) -/

/-- The loop of READ_BITS moves the reader, the source and the trace; it stops short of `len` bits at End, without an
answer, and on `Err`. -/
theorem fillBits_meets {done : Bool → State → Prop} (len fuel : Nat) (s : State)
    (henough : ∀ a src history, (s.br.cnt < len + 8 → a.cnt < len + 8) →
      done true { s with br := a, src := src, history := history })
    (hend : ∀ a src history, a.cnt < len → done false { s with br := a, src := src, history := history })
    (hwaits : ∀ a src history, a.cnt < len → stop { s with br := a, src := src, history := history })
    (herr : ∀ e a src history, a.cnt < len →
      stop (endCommand (.readError e) { s with br := a, src := src, history := history })) :
    Meets done stop halt (fillBits len fuel s) := by
  induction fuel generalizing s with
  | zero => exact henough s.br s.src s.history id
  | succ fuel ih =>
    rw [fillBits]
    split
    · rename_i hcnt
      cases hread : srcRead s with
      | waits => exact hwaits s.br s.src s.history hcnt
      | got a t =>
        rw [(srcRead_got hread).1]
        cases a with
        | byte b =>
          refine ih _ (fun a src history ha => henough a src history fun _ => ha ?_) hend hwaits herr
          show s.br.cnt + 8 < len + 8
          omega
        | endOfData => exact hend s.br t.src _ hcnt
        | err e => exact herr e s.br t.src _ hcnt
    · exact henough s.br s.src s.history id

/-- READ_BITS gives a number of `len` bits, or `none` at End; at most 7 bits stay buffered behind the number. -/
theorem readBits_meets {done : Option Nat → State → Prop} {len : Nat} (s : State)
    (hlen : (1 ≤ len ∧ len ≤ 24) ∨ halt)
    (hsome : ∀ v a src history, v < 2 ^ len → (s.br.cnt < len + 8 → a.cnt ≤ 7) →
      done (some v) { s with br := a, src := src, history := history })
    (hnone : ∀ a src history, a.cnt < len → done none { s with br := a, src := src, history := history })
    (hwaits : ∀ a src history, a.cnt < len → stop { s with br := a, src := src, history := history })
    (herr : ∀ e a src history, a.cnt < len →
      stop (endCommand (.readError e) { s with br := a, src := src, history := history })) :
    Meets done stop halt (readBits len s) := by
  rw [readBits]
  split
  · refine Meets.andThen (done := fun enough t => ∃ a src history,
        t = { s with br := a, src := src, history := history } ∧
          if enough then s.br.cnt < len + 8 → a.cnt < len + 8 else a.cnt < len)
      (fillBits_meets len len s (fun a src history ha => ⟨a, src, history, rfl, ha⟩)
        (fun a src history ha => ⟨a, src, history, rfl, ha⟩) hwaits herr) ?_
    rintro (_ | _) _ ⟨a, src, history, rfl, ha⟩
    · exact hnone a src history ha
    · refine hsome _ _ src history ?_ fun h => ?_
      · exact Nat.and_lt_two_pow _ (Nat.sub_lt (Nat.two_pow_pos len) Nat.one_pos)
      · have := ha h
        show a.cnt - len ≤ 7
        omega
  · rename_i hbad
    exact hlen.resolve_left hbad

/-- The three things PUT can do: the byte goes out and into WIN[D_R], it waits for the sink, or the command ends. -/
theorem putByte_cases (p : ParamSet) (b : Byte) (s : State) (hin : s.dR < s.build.wbufBytes) :
    (∃ snk history,
        putByte p b s =
          .ok ()
            { s with
              snk := snk
              history := history
              win := memWrite Config.winUnlisted s.win s.dR b
              dR := (s.dR + 1) &&& p.mask }) ∨
      putByte p b s = .waits s ∨
        ∃ e snk history,
          putByte p b s = .ended (endCommand (.writeError e) { s with snk := snk, history := history }) := by
  obtain ⟨t, hr, hw⟩ | ⟨hr, -⟩ | ⟨e, t, hr, hw⟩ := emitSink_cases b s
  · have ht := (snkWrite_got hw).1
    refine .inl ⟨t.snk, .snkWrite b .ok :: s.history, ?_⟩
    rw [putByte, hr, ht]
    simp [onAccess, winWrite, hin]
  · exact .inr (.inl (by rw [putByte, hr]; rfl))
  · have ht := (snkWrite_got hw).1
    refine .inr (.inr ⟨e, t.snk, .snkWrite b (.err e) :: s.history, ?_⟩)
    rw [putByte, hr, ← ht]
    rfl

end Sys2Proof.Proofs

/-! SEARCH over bytes that are there (R170). -/

namespace Sys2Proof.Proofs

open Sys2Proof Sys2Proof.Machine

/-- The scan reads candidates and their extensions only, and its best match is no longer than asked for. -/
theorem scanMatches_ok {B : Nat → Except MemStop Byte} {g : Nat → Byte} {s r f1 : Nat} (hf1 : 1 ≤ f1)
    (hB : ∀ i, s ≤ i → i < r + f1 → B i = .ok (g i)) (n : Nat) (q : SearchRegs) (hn : s + n ≤ r) (hqf : q.f1 = f1)
    (hqc : q.c = g r) (hqy : q.y ≤ f1) : ∃ t, scanMatches B s r n q = .ok t ∧ q.y ≤ t.y ∧ t.y ≤ f1 := by
  induction n generalizing q with
  | zero => exact ⟨q, rfl, le_rfl, hqy⟩
  | succ n ih =>
    rw [scanMatches, hB (s + n) (by omega) (by omega)]
    dsimp only
    split
    · rename_i hfirst
      have hagree : agreeFor g (s + n) r 1 := fun m hm => by
        obtain rfl : m = 0 := by omega
        exact hfirst.trans hqc
      obtain ⟨l, hext, -, hl, -⟩ := extendMatch_ok (B := B) (g := g) (i := s + n) (r := r) (f1 := f1)
        (fun m hm => ⟨hB _ (by omega) (by omega), hB _ (by omega) (by omega)⟩) f1 1 hf1 (by omega) hagree
      rw [hqf, hext]
      dsimp only
      split
      · obtain ⟨t, ht, hlo, hhi⟩ := ih { q with i := s + n, j := l, x := s + n, y := l } (by omega) hqf hqc hl
        dsimp only at hlo
        exact ⟨t, hqf ▸ ht, by omega, hhi⟩
      · exact hqf ▸ ih { q with i := s + n, j := l } (by omega) hqf hqc hqy
    · exact ih { q with i := s + n } (by omega) hqf hqc hqy

/-- SEARCH over bytes that are all there gives a length in 1..f1. -/
theorem searchMatch_ok {B : Nat → Except MemStop Byte} {s r f1 : Nat} (old : SearchRegs) (hsr : s ≤ r) (hf1 : 1 ≤ f1)
    (hB : ∀ i, s ≤ i → i < r + f1 → ∃ b, B i = .ok b) :
    ∃ q, searchMatch B s r f1 old = .ok q ∧ 1 ≤ q.y ∧ q.y ≤ f1 := by
  choose! g hg using hB
  rw [searchMatch, hg r hsr (by omega)]
  exact scanMatches_ok hf1 hg (r - s) _ (by omega) rfl rfl hf1

end Sys2Proof.Proofs

/-! The invariant along the operations of a running command (R38, R47 to R49). -/

namespace Sys2Proof.Proofs

open Sys2Proof Sys2Proof.Machine

variable {p : ParamSet} {phase : Phase} {s : State}

/-! ## What an operation of a data command leaves -/

/-- The part of the invariant that no phase changes: PS legal, both memories canonical, the bit counts. -/
def Fits (p : ParamSet) (s : State) : Prop :=
  p.Legal s.build.idxW ∧ memoryInv s ∧ s.bw.cnt ≤ 31 ∧ s.br.cnt ≤ 31

/-- A data command in a phase whose invariant holds, in place under IoLength. -/
def Running (p : ParamSet) (phase : Phase) (s : State) : Prop :=
  s.seq = .busy phase ∧ s.res = ResultRegs.clear ∧ Fits p s ∧ phaseInv p s phase ∧
    (inPlacePhase phase = true → ioLengthOf p s.build s.ip.len)

/-- A command that has ended, and not by reading an unwritten byte. -/
def Ended (p : ParamSet) (s : State) : Prop :=
  Fits p s ∧ ∃ e, e ≠ .readOfUnwrittenByte ∧ s.seq = endSeq e ∧ s.res = endRes e

/-- What an operation of a data command leaves: the command runs on, or it has ended. -/
def Left (p : ParamSet) (s : State) : Prop := (∃ phase, Running p phase s) ∨ Ended p s

/-- The operation leaves the command running or ended, and never halts the model. -/
abbrev Sound (p : ParamSet) (r : Res Unit) : Prop := Meets (fun _ => Left p) (Left p) False r

theorem Running.left (h : Running p phase s) : Left p s := .inl ⟨phase, h⟩

theorem left_endCommand {e : Ending} (he : e ≠ .readOfUnwrittenByte) (h : Fits p s) : Left p (endCommand e s) :=
  .inr ⟨h, e, he, rfl, rfl⟩

/-! ## The two memories -/

theorem memoryInv_writeWin {a : Nat} (b : Byte) (h : memoryInv s) (ha : a < s.build.wbufBytes) :
    memoryInv { s with win := memWrite Config.winUnlisted s.win a b } := by
  obtain ⟨hwin, hio, hbelow⟩ := h
  exact ⟨memWrite_wf a b hwin, hio, memWrite_below (u := Config.winUnlisted) b ha hbelow⟩

theorem memoryInv_writeIo (a : Nat) (b : Byte) (h : memoryInv s) :
    memoryInv { s with io := memWrite Config.ioUnlisted s.io a b } := by
  obtain ⟨hwin, hio, hbelow⟩ := h
  exact ⟨hwin, memWrite_wf a b hio, hbelow⟩

theorem winHolds_write {lo hi : Nat} (a : Nat) (b : Byte) (h : ∀ i, i < hi → lo ≤ i → i ≠ a → s.winByte i ≠ none) :
    winHolds { s with win := memWrite Config.winUnlisted s.win a b } lo hi := by
  intro i hhi hlo
  rw [winByte_write]
  split
  · exact Option.some_ne_none b
  · exact h i hhi hlo (by assumption)

theorem winHolds_memFill (n : Nat) (c : Byte) : winHolds { s with win := memFill n c } 0 n := by
  intro a ha _
  simp [winByte_eq, ha]

theorem winRead_of_holds {lo hi a : Nat} (h : winHolds s lo hi) (hlo : lo ≤ a) (hhi : a < hi)
    (hin : hi ≤ s.build.wbufBytes) : ∃ b, winRead s a = .ok b := by
  obtain ⟨b, hb⟩ := Option.ne_none_iff_exists'.mp (h a hhi hlo)
  exact ⟨b, winRead_ok.mpr ⟨by omega, hb⟩⟩

theorem ioRead_of_lt {a : Nat} (h : a < s.ip.len) : ∃ b, ioRead s a = .ok b := by
  obtain ⟨b, hb⟩ := Option.isSome_iff_exists.mp (ioByte_isSome s a)
  exact ⟨b, ioRead_ok.mpr ⟨h, hb⟩⟩

/-! ## The fields of a token -/

theorem width_le_of_ok {f : Field} (h : f.ok = true) : f.width ≤ 24 := (of_decide_eq_true h).2.1

/-- A match whose offset is a remainder modulo N and whose length passed the threshold is well-formed (R95, R180). -/
theorem matchTok_wf (x : Nat) {len : Nat} (hlo : p.p < len) (hhi : len ≤ p.f) :
    (Instr.matchTok (x &&& p.mask) len).wf p = true := by
  simp [Instr.wf, offsetOk, lengthOk, p.and_mask_lt, hlo, hhi]

theorem matchFields_ok {idxW : Nat} (hlegal : p.Legal idxW) (x : Nat) {len : Nat} (hlo : p.p < len) (hhi : len ≤ p.f) :
    ∀ f ∈ encodeFields p (.matchTok (x &&& p.mask) len), f.ok = true :=
  (Laws.FieldsFit.matchTok _ _ idxW p hlegal (matchTok_wf x hlo hhi)).1

theorem litFields_ok {idxW : Nat} (hlegal : p.Legal idxW) (b : Byte) :
    ∀ f ∈ encodeFields p (.lit b), f.ok = true :=
  (Laws.FieldsFit.lit b idxW p hlegal rfl).1

/-- MIN_GAP_SIZE leaves room for a token behind 7 pending bits, with a byte to spare (R121, R205). -/
theorem token_fits_gap {idxW : Nat} (hlegal : p.Legal idxW) {i : Instr}
    (hi : (∃ b, i = .lit b) ∨ ∃ offset len, i = .matchTok offset len) :
    7 + fieldsWidth (encodeFields p i) + 8 ≤ 8 * p.gap := by
  obtain ⟨-, -, -, hsum, -⟩ := (ParamSet.legal_iff idxW p).mp hlegal
  have hgap : p.gap = (1 + p.ei + p.ej) / 9 + 4 := rfl
  obtain ⟨b, rfl⟩ | ⟨offset, len, rfl⟩ := hi <;> simp [fieldsWidth, encodeFields] <;> omega

/-! ## COMPRESS (R222, R47) -/

theorem compressInit_sound (h : Running p .cInit s) : Sound p (compressInit p s) := by
  obtain ⟨-, hres, hfits, -, -⟩ := h
  have hfits' := hfits
  obtain ⟨hlegal, ⟨-, hio, -⟩, -, hbr⟩ := hfits
  have hdict := ParamSet.dict_add_f hlegal
  have hpos := p.f_pos
  have hlt := ParamSet.f_lt_n hlegal
  rw [compressInit]
  split
  · exact left_endCommand (by decide) hfits'
  · rename_i hroom
    refine Running.left (phase := .cFill) ⟨rfl, hres, ⟨hlegal, ⟨memFill_wf _ _, hio, fun cell hc => ?_⟩, by simp, hbr⟩,
      ⟨⟨by simpa using hroom, ?_, le_rfl, ?_, winHolds_memFill (s := s) _ _⟩, by simp, ?_⟩, nofun⟩
    · have := memFill_below _ _ cell hc
      show cell.1 < s.build.wbufBytes
      omega
    all_goals dsimp only; omega

/-- One round of FILL, in either of its two phases (R151, R155). -/
theorem fillOp_sound (hfill : ∀ t, phaseInv p t phase ↔ phaseInv p t .cFill) (hip : inPlacePhase phase = false)
    (h : Running p phase s) : Sound p (fillOp p s) := by
  have h' := h
  obtain ⟨hseq, hres, ⟨hlegal, hmem, hbw, hbr⟩, hinv, -⟩ := h
  obtain ⟨⟨hroom, hrs, hrbe, hbe, hholds⟩, hcnt, hr⟩ := (hfill s).mp hinv
  rw [fillOp]
  split
  · rename_i hlt
    cases hread : srcRead s with
    | waits => exact h'.left
    | got a t =>
      rw [(srcRead_got hread).1]
      cases a with
      | byte b =>
        have hin : s.cp.be < s.build.wbufBytes := by omega
        refine onAccess_meets (fun u hu => ?_) (fun hu => ?_) fun f hu => ?_
        · rw [(winWrite_ok.mp hu).2]
          refine Running.left (phase := phase) ⟨hseq, hres, ⟨hlegal, memoryInv_writeWin b hmem hin, hbw, hbr⟩,
            (hfill _).mpr ⟨⟨hroom, hrs, ?_, ?_, ?_⟩, hcnt, hr⟩, by simp [hip]⟩
          · dsimp only; omega
          · dsimp only; omega
          · exact winHolds_write (s := s) s.cp.be b fun i hi hlo hne => hholds i (by dsimp only at hi; omega) hlo
        · simp [winWrite, hin] at hu
        · simp [winWrite, hin] at hu
      | endOfData =>
        exact Running.left (phase := .cSearch)
          ⟨rfl, hres, ⟨hlegal, hmem, hbw, hbr⟩, ⟨⟨hroom, hrs, hrbe, hbe, hholds⟩, hcnt, hr⟩, nofun⟩
      | err e => exact left_endCommand (by simp) ⟨hlegal, hmem, hbw, hbr⟩
  · exact Running.left (phase := .cSearch)
      ⟨rfl, hres, ⟨hlegal, hmem, hbw, hbr⟩, ⟨⟨hroom, hrs, hrbe, hbe, hholds⟩, hcnt, hr⟩, nofun⟩

theorem compressSearch_sound (h : Running p .cSearch s) : Sound p (compressSearch p s) := by
  obtain ⟨-, hres, hfits, ⟨hcomp, hcnt, hr⟩, -⟩ := h
  have hcomp' := hcomp
  obtain ⟨hroom, hrs, hrbe, hbe, hholds⟩ := hcomp
  rw [compressSearch]
  split
  · rename_i hlt
    have hpos := p.f_pos
    obtain ⟨q, hq, hlo, hhi⟩ :=
      searchMatch_ok (B := winRead s) (s := s.cp.s) (r := s.cp.r) (f1 := min p.f (s.cp.be - s.cp.r)) s.sr (by omega)
        (by omega) fun i hlo hhi => winRead_of_holds hholds hlo (by omega) (by omega)
    rw [hq]
    exact Running.left (phase := .cEmit)
      ⟨rfl, hres, hfits, ⟨hcomp', hcnt, hr, hlo, by dsimp only; omega, by dsimp only; omega⟩, nofun⟩
  · exact Running.left (phase := .cFlush) ⟨rfl, hres, hfits, ⟨by dsimp only; omega, hcnt⟩, nofun⟩

theorem compressEmit_sound (h : Running p .cEmit s) : Sound p (compressEmit p s) := by
  obtain ⟨-, hres, hfits, ⟨hcomp, hcnt, hr, hlo, hhi, hlen⟩, -⟩ := h
  have hlegal := hfits.1
  rw [compressEmit]
  split
  · have hcomp' := hcomp
    obtain ⟨hroom, hrs, hrbe, hbe, hholds⟩ := hcomp
    obtain ⟨b, hb⟩ := winRead_of_holds (a := s.cp.r) hholds (by omega) (by omega) (by omega)
    rw [hb]
    exact Running.left (phase := .cWrite (encodeFields p (.lit b)))
      ⟨rfl, hres, hfits, ⟨hcomp', by dsimp only; omega, hr, le_rfl, by dsimp only; omega, litFields_ok hlegal b⟩, nofun⟩
  · exact Running.left (phase := .cWrite (encodeFields p (.matchTok (s.sr.x &&& p.mask) s.sr.y)))
      ⟨rfl, hres, hfits, ⟨hcomp, by dsimp only; omega, hr, hlo, hlen, matchFields_ok hlegal _ (by omega) hhi⟩, nofun⟩

/-- EMIT to the sink keeps COMPRESS where it is in a token's fields, the command's end on `Err` apart. -/
theorem emitSink_keeps_cWrite (fs : List Field) :
    EmitKeeps emitSink (Running p (.cWrite fs)) (Left p) False := by
  rintro b s ⟨hseq, hres, ⟨hlegal, hmem, hbw, hbr⟩, ⟨hcomp, hcnt, hrest⟩, -⟩ hge
  have hfits : Fits p { s with bw := { s.bw with cnt := s.bw.cnt - 8 } } :=
    ⟨hlegal, hmem, by dsimp only; omega, hbr⟩
  have hrun : Running p (.cWrite fs) { s with bw := { s.bw with cnt := s.bw.cnt - 8 } } :=
    ⟨hseq, hres, hfits, ⟨hcomp, by dsimp only; omega, hrest⟩, nofun⟩
  exact emitSink_meets b _ (fun _ _ => ⟨hrun, rfl⟩) hrun.left fun e _ _ => left_endCommand (by simp) hfits

theorem compressWrite_sound {fs : List Field} (h : Running p (.cWrite fs) s) : Sound p (compressWrite p fs s) := by
  rw [compressWrite]
  refine (writeFields_meets (I := fun fs => Running p (.cWrite fs)) emitSink_keeps_cWrite (fun _ _ hI => hI.left)
    ?_ ?_ fs s h).andThen ?_
  · rintro f rest t ⟨-, -, -, ⟨-, -, -, -, -, hok⟩, -⟩
    exact .inl (hok f List.mem_cons_self)
  · rintro f rest t ⟨-, hres, ⟨hlegal, hmem, -, hbr⟩, ⟨hcomp, -, hr, hlo, hlen, hok⟩, -⟩ hcnt hf
    have hwidth := width_le_of_ok hf
    have hpush : (pushBits f t.bw).cnt ≤ 31 := by dsimp only [pushBits]; omega
    exact ⟨rfl, hres, ⟨hlegal, hmem, hpush, hbr⟩,
      ⟨hcomp, hpush, hr, hlo, hlen, fun g hg => hok g (List.mem_cons_of_mem f hg)⟩, nofun⟩
  · rintro written t hleft
    cases written with
    | false =>
      obtain ⟨rest, hrun⟩ := hleft
      exact hrun.left
    | true =>
      obtain ⟨⟨-, hres, hfits, ⟨⟨hroom, hrs, hrbe, hbe, hholds⟩, -, hr, hlo, hlen, -⟩, -⟩, hcnt⟩ := hleft
      have hcomp : compressInv p { t with cp := { t.cp with r := t.cp.r + t.sr.y, s := t.cp.s + t.sr.y } } :=
        ⟨hroom, by dsimp only; omega, hlen, hbe, fun a hhi hlo => hholds a hhi (by dsimp only at hlo; omega)⟩
      by_cases hfull : t.cp.r + t.sr.y ≥ 2 * p.n - p.f
      · exact Running.left (phase := .cCompact) ⟨by simp [hfull], hres, hfits, ⟨hcomp, hcnt, hfull⟩, nofun⟩
      · exact Running.left (phase := .cSearch)
          ⟨by simp [hfull], hres, hfits, ⟨hcomp, hcnt, by dsimp only; omega⟩, nofun⟩

theorem compactOp_sound (h : Running p .cCompact s) : Sound p (compactOp p s) := by
  obtain ⟨-, hres, ⟨hlegal, ⟨hwin, hio, hbelow⟩, hbw, hbr⟩, ⟨⟨hroom, hrs, hrbe, hbe, hholds⟩, hcnt, hfull⟩, -⟩ := h
  have hdict := ParamSet.dict_add_f hlegal
  have hlt := ParamSet.f_lt_n hlegal
  rw [compactOp, if_neg (by omega)]
  refine Running.left (phase := .cRefill)
    ⟨rfl, hres, ⟨hlegal, ⟨memMoveDown_wf _ hwin, hio, memMoveDown_below hbelow⟩, hbw, hbr⟩,
      ⟨⟨hroom, ?_, ?_, ?_, fun a hhi hlo => ?_⟩, hcnt, ?_⟩, nofun⟩
  case refine_4 =>
    dsimp only at hhi hlo
    rw [winByte_eq, memGet_memMoveDown_low _ _ (by omega), ← winByte_eq]
    exact hholds _ (by omega) (by omega)
  all_goals dsimp only; omega

theorem compressFlush_sound (h : Running p .cFlush s) : Sound p (compressFlush s) := by
  have h' := h
  obtain ⟨-, hres, ⟨hlegal, hmem, -, hbr⟩, ⟨hrbe, -⟩, -⟩ := h
  have hfits : Fits p { s with bw := { s.bw with cnt := 0 } } := ⟨hlegal, hmem, by simp, hbr⟩
  rw [compressFlush]
  refine Meets.andThen (done := fun _ t => Running p .cFinish { t with seq := .busy .cFinish })
    (flushBits_meets (fun hzero => ?_) h'.left fun b _ => ?_) fun _ t ht => ht.left
  · exact ⟨rfl, hres, ⟨hlegal, hmem, by dsimp only; omega, hbr⟩, ⟨hrbe, hzero⟩, nofun⟩
  · refine emitSink_meets b _ (fun snk history => ⟨rfl, hres, hfits, ⟨hrbe, rfl⟩, nofun⟩) ?_ fun e _ _ =>
      left_endCommand (by simp) hfits
    exact Running.left (phase := .cFlush) ⟨h'.1, hres, hfits, ⟨hrbe, by simp⟩, nofun⟩

/-- The end of a streaming command, in either of its phases (R222, R223). -/
theorem finishOp_sound (h : Running p phase s) : Sound p (finishOp s) := by
  have hleft := h.left
  obtain ⟨-, -, hfits, -, -⟩ := h
  rw [finishOp]
  cases hfin : snkFinish s with
  | waits => exact hleft
  | got a t =>
    rw [(snkFinish_got hfin).2]
    cases a <;> exact left_endCommand (by simp) hfits

/-! ## DECOMPRESS (R223, R48) -/

/-- DECOMPRESS at a token whose bits are taken: what LIT and MATCH run from. -/
def Decoding (p : ParamSet) (s : State) : Prop :=
  s.res = ResultRegs.clear ∧ Fits p s ∧ decompressInv p s ∧ s.br.cnt ≤ 7

/-- What the fetch of a token leaves (R185, R188). -/
def Fetched (p : ParamSet) (i : Option Instr) (s : State) : Prop :=
  match i with
  | some i => Decoding p s ∧ cmdCode i = none ∧ i.wf p = true
  | none => s.res = ResultRegs.clear ∧ Fits p s ∧ s.dR < p.n

theorem decompressInit_sound (h : Running p .dInit s) : Sound p (decompressInit p s) := by
  obtain ⟨-, hres, hfits, -, -⟩ := h
  have hfits' := hfits
  obtain ⟨hlegal, ⟨-, hio, -⟩, hbw, -⟩ := hfits
  have hdict := ParamSet.dict_add_f hlegal
  have hpos := p.f_pos
  rw [decompressInit]
  split
  · exact left_endCommand (by decide) hfits'
  · rename_i hroom
    refine Running.left (phase := .dFlag) ⟨rfl, hres, ⟨hlegal, ⟨memFill_wf _ _, hio, fun cell hc => ?_⟩, hbw, by simp⟩,
      ⟨⟨by simpa using hroom, ?_, winHolds_memFill (s := s) _ _⟩, by simp⟩, nofun⟩
    · have := memFill_below _ _ cell hc
      show cell.1 < s.build.wbufBytes
      omega
    · dsimp only; omega

/-- The store of PUT keeps the dictionary full and the cursor in it (R161, R162). -/
theorem Decoding.put (h : Decoding p s) (b : Byte) :
    Decoding p { s with win := memWrite Config.winUnlisted s.win s.dR b, dR := (s.dR + 1) &&& p.mask } := by
  obtain ⟨hres, ⟨hlegal, hmem, hcnts⟩, ⟨hroom, hdR, hholds⟩, hcnt⟩ := h
  exact ⟨hres, ⟨hlegal, memoryInv_writeWin b hmem (by omega), hcnts⟩,
    ⟨hroom, p.and_mask_lt _, winHolds_write (s := s) s.dR b fun i hhi hlo _ => hholds i hhi hlo⟩, hcnt⟩

theorem Decoding.cursor_lt (h : Decoding p s) : s.dR < s.build.wbufBytes := by
  obtain ⟨-, -, ⟨hroom, hdR, -⟩, -⟩ := h
  omega

theorem Decoding.dFlag (h : Decoding p s) : Left p { s with seq := .busy .dFlag } := by
  obtain ⟨hres, hfits, hinv, hcnt⟩ := h
  exact Running.left (phase := .dFlag) ⟨rfl, hres, hfits, ⟨hinv, hcnt⟩, nofun⟩

theorem litOp_sound (b : Byte) (h : Decoding p s) : Sound p (litOp p b s) := by
  obtain ⟨snk, history, hput⟩ | hput | ⟨e, snk, history, hput⟩ := putByte_cases p b s h.cursor_lt <;> rw [litOp, hput]
  · exact Decoding.dFlag (s := { s with snk := snk, history := history, win := _, dR := _ }) (h.put b)
  · obtain ⟨hres, hfits, hinv, hcnt⟩ := h
    exact Running.left (phase := .dPut b) ⟨rfl, hres, hfits, ⟨hinv, hcnt⟩, nofun⟩
  · exact left_endCommand (by simp) h.2.1

theorem copyLoop_sound {offset len : Nat} (hoff : offset < p.n) (hlo : p.p < len) (hhi : len ≤ p.f) (left k : Nat)
    (s : State) (hk : k + left = len) (h : Decoding p s) : Sound p (copyLoop p offset len left k s) := by
  induction left generalizing k s with
  | zero => exact h.dFlag
  | succ left ih =>
    have hinv := h.2.2.1
    obtain ⟨hroom, -, hholds⟩ := hinv
    obtain ⟨c, hc⟩ := winRead_of_holds hholds (Nat.zero_le _) (p.and_mask_lt (offset + k)) hroom
    rw [copyLoop, hc, onAccess_ok]
    obtain ⟨snk, history, hput⟩ | hput | ⟨e, snk, history, hput⟩ := putByte_cases p c s h.cursor_lt <;> rw [hput]
    · exact ih (k + 1) _ (by omega) (h.put c)
    · obtain ⟨hres, hfits, hinv, hcnt⟩ := h
      exact Running.left (phase := .dCopy offset len k)
        ⟨rfl, hres, hfits, ⟨hinv, hcnt, hoff, hlo, hhi, by omega⟩, nofun⟩
    · exact left_endCommand (by simp) h.2.1

/-- The payload's field assembly gives a well-formed token (R93, R95). -/
theorem decodeFields_wf (flag : Nat) {v : Nat} (hv : v < 2 ^ payloadWidth p flag) :
    (decodeFields p flag v).wf p = true := by
  unfold decodeFields payloadWidth at *
  split
  · rfl
  · rename_i hflag
    rw [if_neg hflag, Nat.pow_add] at hv
    have hoff : v >>> p.ej < p.n := by
      rw [Nat.shiftRight_eq_div_pow]
      exact Nat.div_lt_of_lt_mul (by rwa [Nat.mul_comm] at hv)
    have hlen : v &&& (2 ^ p.ej - 1) < 2 ^ p.ej := Nat.and_lt_two_pow _ (Nat.sub_lt (Nat.two_pow_pos _) Nat.one_pos)
    simp only [Instr.wf, offsetOk, lengthOk, Bool.and_eq_true, decide_eq_true_eq]
    exact ⟨hoff, by omega, by unfold ParamSet.f; omega⟩

theorem payloadWidth_range {idxW : Nat} (hlegal : p.Legal idxW) (flag : Nat) :
    8 ≤ payloadWidth p flag ∧ payloadWidth p flag ≤ 24 := by
  obtain ⟨-, -, hlo, hhi, -⟩ := (ParamSet.legal_iff idxW p).mp hlegal
  unfold payloadWidth
  split <;> omega

/-- The phase in which the payload behind a flag is read (R185). -/
abbrev payloadPhase (flag : Nat) : Phase := if flag = 1 then .dLit else .dMatch

/-- At the payload: the reader holds fewer bits than the payload has. -/
theorem running_payload {flag : Nat} (hseq : s.seq = .busy (payloadPhase flag)) (hres : s.res = ResultRegs.clear)
    (hfits : Fits p s) (hinv : decompressInv p s) (hcnt : s.br.cnt < payloadWidth p flag) :
    Running p (payloadPhase flag) s := by
  unfold payloadPhase payloadWidth at *
  split at hcnt
  · rename_i hflag
    rw [if_pos hflag] at hseq ⊢
    exact ⟨hseq, hres, hfits, ⟨hinv, by omega⟩, nofun⟩
  · rename_i hflag
    rw [if_neg hflag] at hseq ⊢
    exact ⟨hseq, hres, hfits, ⟨hinv, hcnt⟩, nofun⟩

theorem fetchPayload_meets {flag : Nat} (hseq : s.seq = .busy (payloadPhase flag)) (hres : s.res = ResultRegs.clear)
    (hfits : Fits p s) (hinv : decompressInv p s) (hcnt : s.br.cnt < payloadWidth p flag) :
    Meets (Fetched p) (Left p) False (fetchPayload p flag s) := by
  obtain ⟨hlegal, hmem, hbw, -⟩ := hfits
  have hwidth := payloadWidth_range hlegal flag
  have hreader : ∀ (a : BitAcc) src history, a.cnt < payloadWidth p flag →
      Fits p { s with br := a, src := src, history := history } :=
    fun a _ _ ha => ⟨hlegal, hmem, hbw, by show a.cnt ≤ 31; omega⟩
  refine Meets.andThen (done := fun (v : Option Nat) t => Fetched p (v.map (decodeFields p flag)) t)
    (readBits_meets s (.inl ⟨by omega, hwidth.2⟩) ?_ ?_ ?_ ?_) fun _ _ ht => ht
  · intro v a src history hv ha
    have ha' : a.cnt ≤ 7 := ha (by omega)
    exact ⟨⟨hres, hreader a src history (by omega), hinv, ha'⟩, decodeFields_token p flag v, decodeFields_wf flag hv⟩
  · intro a src history ha
    exact ⟨hres, hreader a src history ha, hinv.2.1⟩
  · intro a src history ha
    exact (running_payload (s := { s with br := a, src := src, history := history }) hseq hres
      (hreader a src history ha) hinv ha).left
  · intro e a src history ha
    exact left_endCommand (by simp) (hreader a src history ha)

/-- The three phases in which a token is fetched (R185). -/
theorem fetchToken_meets (hphase : phase = .dFlag ∨ phase = .dLit ∨ phase = .dMatch) (h : Running p phase s) :
    Meets (Fetched p) (Left p) False (fetchToken p s) := by
  obtain ⟨hseq, hres, hfits, hinv, -⟩ := h
  obtain rfl | rfl | rfl := hphase <;> rw [fetchToken]
  · rw [if_neg (by simp [hseq]), if_neg (by simp [hseq])]
    obtain ⟨hinv, hcnt⟩ := hinv
    obtain ⟨hlegal, hmem, hbw, -⟩ := hfits
    have hreader : ∀ (a : BitAcc) src history, a.cnt ≤ 7 →
        Fits p { s with br := a, src := src, history := history } :=
      fun a _ _ ha => ⟨hlegal, hmem, hbw, by show a.cnt ≤ 31; omega⟩
    refine Meets.andThen (done := fun flag t => t.res = ResultRegs.clear ∧ Fits p t ∧ decompressInv p t ∧ t.br.cnt ≤ 7)
      (readBits_meets s (.inl (by decide)) ?_ ?_ ?_ ?_) fun flag t ⟨hres, hfits, hinv, hcnt⟩ => ?_
    · intro v a src history _ ha
      have ha' : a.cnt ≤ 7 := ha (by omega)
      exact ⟨hres, hreader a src history ha', hinv, ha'⟩
    · intro a src history ha
      exact ⟨hres, hreader a src history (by omega), hinv, show a.cnt ≤ 7 by omega⟩
    · intro a src history ha
      exact Running.left (phase := .dFlag)
        ⟨hseq, hres, hreader a src history (by omega), ⟨hinv, show a.cnt ≤ 7 by omega⟩, nofun⟩
    · intro e a src history ha
      exact left_endCommand (by simp) (hreader a src history (by omega))
    · cases flag with
      | none => exact ⟨hres, hfits, hinv.2.1⟩
      | some v =>
        have hwidth := payloadWidth_range hfits.1 v
        exact fetchPayload_meets rfl hres hfits hinv (by show t.br.cnt < _; omega)
  · rw [if_pos hseq]
    exact fetchPayload_meets (flag := 1) hseq hres hfits hinv.1 (Nat.lt_succ_of_le hinv.2)
  · rw [if_neg (by simp [hseq]), if_pos hseq]
    exact fetchPayload_meets (flag := 0) hseq hres hfits hinv.1 hinv.2

theorem decodeTokenOp_sound (hphase : phase = .dFlag ∨ phase = .dLit ∨ phase = .dMatch) (h : Running p phase s) :
    Sound p (decodeTokenOp p s) := by
  refine (fetchToken_meets hphase h).andThen fun i t ht => ?_
  cases i with
  | none =>
    obtain ⟨hres, hfits, hdR⟩ := ht
    exact Running.left (phase := .dFinish) ⟨rfl, hres, hfits, hdR, nofun⟩
  | some i =>
    obtain ⟨hdec, hcode, hwf⟩ := ht
    cases i with
    | lit b => exact litOp_sound b hdec
    | matchTok offset len =>
      obtain ⟨hoff, hlen⟩ := Bool.and_eq_true_iff.mp hwf
      obtain ⟨hlo, hhi⟩ := of_decide_eq_true hlen
      exact copyLoop_sound (of_decide_eq_true hoff) hlo hhi len 0 t (Nat.zero_add len) hdec
    | _ => simp [cmdCode] at hcode

/-! ## COMPRESS_IN_PLACE (R224, R49) -/

theorem inPlaceCheck_sound (h : Running p .ipCheck s) : Sound p (inPlaceCheck p s) := by
  obtain ⟨-, hres, hfits, -, hlen⟩ := h
  rw [inPlaceCheck]
  split
  · exact left_endCommand (by simp) hfits
  · split
    · exact left_endCommand (by simp) hfits
    · exact Running.left (phase := .ipSeed 0)
        ⟨rfl, hres, hfits, ⟨by dsimp only; omega, by dsimp only; omega, Nat.zero_le _⟩, hlen⟩

theorem inPlaceSeed_sound {k : Nat} (h : Running p (.ipSeed k) s) : Sound p (inPlaceSeed p k s) := by
  obtain ⟨-, hres, ⟨hlegal, hmem, hbw, hbr⟩, ⟨hmin, hoff, hk⟩, hlen⟩ := h
  have hgap : p.minOffset = p.dict + p.gap := rfl
  rw [inPlaceSeed]
  split
  · have hin : s.ip.off - p.dict + k < s.ip.len := by omega
    rw [ioWrite, if_pos hin, onAccess_ok]
    exact Running.left (phase := .ipSeed (k + 1))
      ⟨rfl, hres, ⟨hlegal, memoryInv_writeIo _ _ hmem, hbw, hbr⟩, ⟨hmin, hoff, by omega⟩, hlen⟩
  · exact Running.left (phase := .ipSearch)
      ⟨rfl, hres, ⟨hlegal, hmem, by simp, hbr⟩,
        ⟨⟨hmin, le_rfl, by dsimp only; omega, le_of_lt hoff, rfl⟩, by simp, by dsimp only; omega⟩, hlen⟩

theorem inPlaceSearch_sound (h : Running p .ipSearch s) : Sound p (inPlaceSearch p s) := by
  obtain ⟨-, hres, hfits, ⟨hinv, hcnt, hgate⟩, hlen⟩ := h
  have hinv' := hinv
  obtain ⟨-, -, hrs, hr, -⟩ := hinv
  have hgap : p.gap = p.p + 4 := rfl
  rw [inPlaceSearch]
  split
  · rename_i hlt
    have hpos := p.f_pos
    obtain ⟨q, hq, hlo, hhi⟩ :=
      searchMatch_ok (B := ioRead s) (s := s.ip.s) (r := s.ip.r) (f1 := min p.f (s.ip.len - s.ip.r)) s.sr (by omega)
        (by omega) fun i _ hhi => ioRead_of_lt (by omega)
    rw [hq]
    exact Running.left (phase := .ipEmit)
      ⟨rfl, hres, hfits, ⟨hinv', hcnt, hgate, hlo, by dsimp only; omega, by dsimp only; omega⟩, hlen⟩
  · have hp := (ParamSet.p_range hfits.1).1
    exact Running.left (phase := .ipFlush false)
      ⟨rfl, hres, hfits, ⟨hinv', hcnt, by dsimp only [outputBelow]; omega, fun _ => by dsimp only; omega⟩, hlen⟩

theorem inPlaceEmit_sound (h : Running p .ipEmit s) : Sound p (inPlaceEmit p s) := by
  obtain ⟨-, hres, hfits, ⟨hinv, hcnt, hgate, hlo, hhi, hend⟩, hlen⟩ := h
  have hlegal := hfits.1
  rw [inPlaceEmit]
  split
  · obtain ⟨b, hb⟩ := ioRead_of_lt (s := s) (a := s.ip.r) (by omega)
    have hroom := token_fits_gap hlegal (.inl ⟨b, rfl⟩)
    rw [hb]
    exact Running.left (phase := .ipWrite (encodeFields p (.lit b)))
      ⟨rfl, hres, hfits,
        ⟨hinv, by dsimp only; omega, by dsimp only [outputBelow]; omega, le_rfl, by dsimp only; omega,
          litFields_ok hlegal b⟩, hlen⟩
  · have hroom := token_fits_gap hlegal (.inr ⟨(s.sr.x + s.ip.offset2) &&& p.mask, s.sr.y, rfl⟩)
    exact Running.left (phase := .ipWrite (encodeFields p (.matchTok ((s.sr.x + s.ip.offset2) &&& p.mask) s.sr.y)))
      ⟨rfl, hres, hfits,
        ⟨hinv, by dsimp only; omega, by dsimp only [outputBelow]; omega, hlo, hend,
          matchFields_ok hlegal _ (by omega) hhi⟩, hlen⟩

/-- EMIT into IO keeps COMPRESS_IN_PLACE where it is in a token's fields: the byte lands below the dictionary. -/
theorem emitIo_keeps_ipWrite (fs : List Field) : EmitKeeps emitIo (Running p (.ipWrite fs)) (Left p) False := by
  rintro b s ⟨hseq, hres, ⟨hlegal, hmem, hbw, hbr⟩, ⟨hinv, hcnt, hbelow, hlo, hend, hok⟩, hlen⟩ hge
  have hinv' := hinv
  obtain ⟨-, -, hrs, hr, -⟩ := hinv
  refine emitIo_meets b _ (fun _ => ⟨⟨hseq, hres, ⟨hlegal, memoryInv_writeIo _ _ hmem, ?_, hbr⟩,
    ⟨hinv', ?_, ?_, hlo, hend, hok⟩, hlen⟩, rfl⟩) fun hout => ?_
  case refine_4 =>
    dsimp only at hout
    omega
  all_goals dsimp only [outputBelow]; omega

theorem inPlaceWrite_sound {fs : List Field} (h : Running p (.ipWrite fs) s) : Sound p (inPlaceWrite fs s) := by
  refine (writeFields_meets (I := fun fs => Running p (.ipWrite fs)) emitIo_keeps_ipWrite (fun _ _ hI => hI.left)
    ?_ ?_ fs s h).andThen ?_
  · rintro f rest t ⟨-, -, -, ⟨-, -, -, -, -, hok⟩, -⟩
    exact .inl (hok f List.mem_cons_self)
  · rintro f rest t ⟨-, hres, ⟨hlegal, hmem, -, hbr⟩, ⟨hinv, -, hbelow, hlo, hend, hok⟩, hlen⟩ hcnt hf
    have hwidth := width_le_of_ok hf
    have hpush : (pushBits f t.bw).cnt ≤ 31 := by dsimp only [pushBits]; omega
    have hmore : fieldsWidth (f :: rest) = f.width + fieldsWidth rest := by simp [fieldsWidth]
    exact ⟨rfl, hres, ⟨hlegal, hmem, hpush, hbr⟩,
      ⟨hinv, hpush, by dsimp only [outputBelow, pushBits]; omega, hlo, hend,
        fun g hg => hok g (List.mem_cons_of_mem f hg)⟩, hlen⟩
  · rintro written t hleft
    cases written with
    | false =>
      obtain ⟨rest, hrun⟩ := hleft
      exact hrun.left
    | true =>
      obtain ⟨⟨-, hres, hfits, ⟨⟨hmin, hoff, hrs, hr, hoff2⟩, -, hbelow, hlo, hend, -⟩, hlen⟩, hcnt⟩ := hleft
      have hzero : fieldsWidth [] = 0 := rfl
      exact Running.left (phase := .ipGate)
        ⟨rfl, hres, hfits,
          ⟨⟨hmin, by dsimp only; omega, by dsimp only; omega, hend, hoff2⟩, hcnt,
            by dsimp only [outputBelow]; omega⟩, hlen⟩

theorem inPlaceGate_sound (h : Running p .ipGate s) : Sound p (inPlaceGate p s) := by
  obtain ⟨-, hres, hfits, ⟨hinv, hcnt, hbelow⟩, hlen⟩ := h
  rw [inPlaceGate]
  split
  · exact Running.left (phase := .ipFlush true) ⟨rfl, hres, hfits, ⟨hinv, hcnt, hbelow, nofun⟩, hlen⟩
  · exact Running.left (phase := .ipSearch) ⟨rfl, hres, hfits, ⟨hinv, hcnt, by dsimp only; omega⟩, hlen⟩

theorem inPlaceFlush_sound {gated : Bool} (h : Running p (.ipFlush gated) s) : Sound p (inPlaceFlush gated s) := by
  have hleft := h.left
  obtain ⟨-, -, hfits, ⟨⟨-, -, hrs, hr, -⟩, hcnt, hbelow, -⟩, -⟩ := h
  refine Meets.andThen (done := fun _ t => Fits p t) (flushBits_meets (fun _ => hfits) hleft fun b _ => ?_)
    fun _ t ht => left_endCommand (by simp) ht
  obtain ⟨hlegal, hmem, -, hbr⟩ := hfits
  refine emitIo_meets b _ (fun _ => ⟨hlegal, memoryInv_writeIo _ _ hmem, by simp, hbr⟩) fun hout => ?_
  dsimp only at hout
  omega

/-! ## Every phase -/

/-- Every operation of a data command, from a state that meets its phase's invariant. -/
theorem phaseOp_sound (h : Running p phase s) (hv : ∀ c, phase ≠ .vCheck c) : Sound p (phaseOp p phase s) := by
  cases phase with
  | vCheck c => exact absurd rfl (hv c)
  | cInit => exact compressInit_sound h
  | cFill => exact fillOp_sound (fun _ => Iff.rfl) rfl h
  | cSearch => exact compressSearch_sound h
  | cEmit => exact compressEmit_sound h
  | cWrite fs => exact compressWrite_sound h
  | cCompact => exact compactOp_sound h
  | cRefill => exact fillOp_sound (phase := .cRefill) (fun _ => Iff.rfl) rfl h
  | cFlush => exact compressFlush_sound h
  | cFinish => exact finishOp_sound h
  | dInit => exact decompressInit_sound h
  | dFlag => exact decodeTokenOp_sound (.inl rfl) h
  | dLit => exact decodeTokenOp_sound (.inr (.inl rfl)) h
  | dPut b =>
    obtain ⟨-, hres, hfits, ⟨hinv, hcnt⟩, -⟩ := h
    exact litOp_sound b ⟨hres, hfits, hinv, hcnt⟩
  | dMatch => exact decodeTokenOp_sound (.inr (.inr rfl)) h
  | dCopy offset len k =>
    obtain ⟨-, hres, hfits, ⟨hinv, hcnt, hoff, hlo, hhi, hk⟩, -⟩ := h
    exact copyLoop_sound hoff hlo hhi (len - k) k s (by omega) ⟨hres, hfits, hinv, hcnt⟩
  | dFinish => exact finishOp_sound h
  | ipCheck => exact inPlaceCheck_sound h
  | ipSeed k => exact inPlaceSeed_sound h
  | ipSearch => exact inPlaceSearch_sound h
  | ipEmit => exact inPlaceEmit_sound h
  | ipWrite fs => exact inPlaceWrite_sound h
  | ipGate => exact inPlaceGate_sound h
  | ipFlush gated => exact inPlaceFlush_sound h

end Sys2Proof.Proofs

/-! Which command runs: no operation of a command turns it into another (R38). -/

namespace Sys2Proof.Proofs

open Sys2Proof Sys2Proof.Machine

variable {α : Type} {code : BitVec 2} {p : ParamSet} {s : State}

/-- The CMD code of the command a phase belongs to (R38, R102). -/
def phaseCode : Phase → BitVec 2
  | .vCheck _ => 0b00#2
  | .cInit | .cFill | .cSearch | .cEmit | .cWrite _ | .cCompact | .cRefill | .cFlush | .cFinish => 0b01#2
  | .dInit | .dFlag | .dLit | .dPut _ | .dMatch | .dCopy .. | .dFinish => 0b10#2
  | .ipCheck | .ipSeed _ | .ipSearch | .ipEmit | .ipWrite _ | .ipGate | .ipFlush _ => 0b11#2

theorem phaseCode_eq_zero_iff {phase : Phase} : phaseCode phase = 0b00#2 ↔ ∃ c, phase = .vCheck c := by
  cases phase <;> simp [phaseCode]

/-- No command runs but that of this CMD code. -/
def RunsOnly (code : BitVec 2) (s : State) : Prop := ∀ phase, s.seq = .busy phase → phaseCode phase = code

theorem runsOnly_of_busy {phase : Phase} (hseq : s.seq = .busy phase) (h : phaseCode phase = code) :
    RunsOnly code s := fun phase' hseq' => by
  obtain rfl : phase = phase' := by simpa using hseq.symm.trans hseq'
  exact h

theorem runsOnly_endCommand (e : Ending) (s : State) : RunsOnly code (endCommand e s) :=
  fun phase h => absurd h (endSeq_not_busy e phase)

/-- Whatever the operation leaves, no other command runs. -/
abbrev KeepsCommand (code : BitVec 2) (r : Res α) : Prop := Meets (fun _ => RunsOnly code) (RunsOnly code) True r

/-- A memory access between two states of a command. -/
theorem onAccess_keepsCommand {β : Type} {access : Except MemStop α} {next : α → Res β}
    (h : ∀ a, access = .ok a → KeepsCommand code (next a)) : KeepsCommand code (onAccess access s next) :=
  onAccess_meets h (fun _ => runsOnly_endCommand _ _) fun _ _ => trivial

/-! ## The shared operations -/

theorem emitSink_keepsCommand (b : Byte) (h : RunsOnly code s) : KeepsCommand code (emitSink b s) :=
  emitSink_meets b s (fun _ _ => h) h fun _ _ _ => runsOnly_endCommand _ _

theorem emitIo_keepsCommand (b : Byte) (h : RunsOnly code s) : KeepsCommand code (emitIo b s) :=
  emitIo_meets b s (fun _ => h) fun _ => trivial

theorem emitSink_keeps_runsOnly : EmitKeeps emitSink (RunsOnly code) (RunsOnly code) True := fun b _ h _ =>
  emitSink_meets b _ (fun _ _ => ⟨h, rfl⟩) h fun _ _ _ => runsOnly_endCommand _ _

theorem emitIo_keeps_runsOnly : EmitKeeps emitIo (RunsOnly code) (RunsOnly code) True := fun b _ h _ =>
  emitIo_meets b _ (fun _ => ⟨h, rfl⟩) fun _ => trivial

theorem finishOp_keepsCommand (h : RunsOnly code s) : KeepsCommand code (finishOp s) := by
  rw [finishOp]
  cases snkFinish s with
  | waits => exact h
  | got a t => cases a <;> exact runsOnly_endCommand _ _

theorem putByte_keepsCommand (b : Byte) (h : RunsOnly code s) : KeepsCommand code (putByte p b s) := by
  refine (emitSink_keepsCommand b h).andThen fun _ t ht => onAccess_keepsCommand fun u hu => ?_
  rw [(winWrite_ok.mp hu).2]
  exact ht

/-- What EMIT keeps, FLUSH keeps. -/
theorem flushBits_keepsCommand {emit : Byte → State → Res Unit}
    (hemit : ∀ b s, RunsOnly code s → KeepsCommand code (emit b s)) (h : RunsOnly code s) :
    KeepsCommand code (flushBits emit s) :=
  flushBits_meets (fun _ => h) h fun b _ => hemit b _ h

/-- What EMIT keeps, a turn at a token's fields keeps, if every phase of the fields is the command's. -/
theorem writeFields_keepsCommand {emit : Byte → State → Res Unit} {phase : List Field → Phase} (fs : List Field)
    (hemit : EmitKeeps emit (RunsOnly code) (RunsOnly code) True) (hphase : ∀ fs, phaseCode (phase fs) = code)
    (h : RunsOnly code s) : KeepsCommand code (writeFields emit phase fs s) := by
  refine (writeFields_meets (I := fun _ => RunsOnly code) (fun _ => hemit) (fun _ _ hI => hI)
    (fun _ _ _ _ => .inr trivial) (fun _ rest _ _ _ _ => runsOnly_of_busy rfl (hphase rest)) fs s h).mono
    (fun written t ht => ?_) fun _ ht => ht
  cases written with
  | true => exact ht.1
  | false => exact ht.choose_spec

theorem readBits_keepsCommand (len : Nat) (h : RunsOnly code s) : KeepsCommand code (readBits len s) :=
  readBits_meets s (.inr trivial) (fun _ _ _ _ _ _ => h) (fun _ _ _ _ => h) (fun _ _ _ _ => h)
    fun _ _ _ _ _ => runsOnly_endCommand _ _

theorem fetchPayload_keepsCommand (flag : Nat) (h : RunsOnly code s) : KeepsCommand code (fetchPayload p flag s) :=
  (readBits_keepsCommand _ h).andThen fun _ _ ht => ht

theorem fetchToken_keepsCommand (h : RunsOnly 0b10#2 s) : KeepsCommand 0b10#2 (fetchToken p s) := by
  rw [fetchToken]
  split
  · exact fetchPayload_keepsCommand 1 h
  · split
    · exact fetchPayload_keepsCommand 0 h
    · refine (readBits_keepsCommand 1 h).andThen fun flag t ht => ?_
      cases flag with
      | none => exact ht
      | some v =>
        refine fetchPayload_keepsCommand v (runsOnly_of_busy (phase := if v = 1 then .dLit else .dMatch) rfl ?_)
        split <;> rfl

theorem litOp_keepsCommand (b : Byte) (h : RunsOnly 0b10#2 s) : KeepsCommand 0b10#2 (litOp p b s) := by
  have hput := putByte_keepsCommand (p := p) b h
  rw [litOp]
  generalize putByte p b s = r at hput ⊢
  cases r with
  | ok a t => exact runsOnly_of_busy (phase := .dFlag) rfl rfl
  | waits t => exact runsOnly_of_busy (phase := .dPut b) rfl rfl
  | _ => exact hput

theorem copyLoop_keepsCommand (offset len left k : Nat) (s : State) (h : RunsOnly 0b10#2 s) :
    KeepsCommand 0b10#2 (copyLoop p offset len left k s) := by
  induction left generalizing k s with
  | zero => exact runsOnly_of_busy (phase := .dFlag) rfl rfl
  | succ left ih =>
    refine onAccess_keepsCommand fun c _ => ?_
    have hput := putByte_keepsCommand (p := p) c h
    generalize putByte p c s = r at hput ⊢
    cases r with
    | ok a t => exact ih (k + 1) t hput
    | waits t => exact runsOnly_of_busy (phase := .dCopy offset len k) rfl rfl
    | _ => exact hput

theorem decodeTokenOp_keepsCommand (h : RunsOnly 0b10#2 s) : KeepsCommand 0b10#2 (decodeTokenOp p s) := by
  refine (fetchToken_keepsCommand h).andThen fun i t ht => ?_
  cases i with
  | none => exact runsOnly_of_busy (phase := .dFinish) rfl rfl
  | some i =>
    cases i with
    | lit b => exact litOp_keepsCommand b ht
    | matchTok offset len => exact copyLoop_keepsCommand offset len len 0 t ht
    | _ => trivial

theorem fillOp_keepsCommand (h : RunsOnly 0b01#2 s) : KeepsCommand 0b01#2 (fillOp p s) := by
  have hsearch : ∀ t : State, RunsOnly 0b01#2 { t with seq := .busy .cSearch } :=
    fun t => runsOnly_of_busy (phase := .cSearch) rfl rfl
  rw [fillOp]
  split
  · cases hread : srcRead s with
    | waits => exact h
    | got a t =>
      rw [(srcRead_got hread).1]
      cases a with
      | byte b =>
        refine onAccess_keepsCommand fun u hu => ?_
        rw [(winWrite_ok.mp hu).2]
        exact h
      | endOfData => exact hsearch _
      | err e => exact runsOnly_endCommand _ _
  · exact hsearch s

/-! ## Every phase -/

/-- An operation under PS leaves its own command running, or none. -/
theorem phaseOp_keepsCommand {phase : Phase} (hseq : s.seq = .busy phase) :
    KeepsCommand (phaseCode phase) (phaseOp p phase s) := by
  have h : RunsOnly (phaseCode phase) s := runsOnly_of_busy hseq rfl
  cases phase with
  | vCheck c =>
    show RunsOnly _ (validateOp c s)
    unfold validateOp
    split <;> exact runsOnly_endCommand _ _
  | cInit =>
    simp only [phaseOp, compressInit]
    split
    · exact runsOnly_endCommand _ _
    · exact runsOnly_of_busy rfl rfl
  | cFill => exact fillOp_keepsCommand h
  | cSearch =>
    simp only [phaseOp, compressSearch]
    split
    · exact onAccess_keepsCommand fun q _ => runsOnly_of_busy rfl rfl
    · exact runsOnly_of_busy rfl rfl
  | cEmit =>
    simp only [phaseOp, compressEmit]
    split
    · exact onAccess_keepsCommand fun b _ => runsOnly_of_busy rfl rfl
    · exact runsOnly_of_busy rfl rfl
  | cWrite fs =>
    refine (writeFields_keepsCommand (phase := .cWrite) fs emitSink_keeps_runsOnly (fun _ => rfl) h).andThen
      fun written t ht => ?_
    cases written
    · exact ht
    · refine runsOnly_of_busy rfl ?_
      split <;> rfl
  | cCompact =>
    simp only [phaseOp, compactOp]
    split
    · trivial
    · exact runsOnly_of_busy rfl rfl
  | cRefill => exact fillOp_keepsCommand h
  | cFlush =>
    exact (flushBits_keepsCommand (fun b s => emitSink_keepsCommand b) h).andThen fun _ t _ => runsOnly_of_busy rfl rfl
  | cFinish => exact finishOp_keepsCommand h
  | dInit =>
    simp only [phaseOp, decompressInit]
    split
    · exact runsOnly_endCommand _ _
    · exact runsOnly_of_busy rfl rfl
  | dFlag => exact decodeTokenOp_keepsCommand h
  | dLit => exact decodeTokenOp_keepsCommand h
  | dPut b => exact litOp_keepsCommand b h
  | dMatch => exact decodeTokenOp_keepsCommand h
  | dCopy offset len k => exact copyLoop_keepsCommand offset len (len - k) k s h
  | dFinish => exact finishOp_keepsCommand h
  | ipCheck =>
    simp only [phaseOp, inPlaceCheck]
    split
    · exact runsOnly_endCommand _ _
    · split
      · exact runsOnly_endCommand _ _
      · exact runsOnly_of_busy rfl rfl
  | ipSeed k =>
    simp only [phaseOp, inPlaceSeed]
    split
    · exact onAccess_keepsCommand fun t _ => runsOnly_of_busy rfl rfl
    · exact runsOnly_of_busy rfl rfl
  | ipSearch =>
    simp only [phaseOp, inPlaceSearch]
    split
    · exact onAccess_keepsCommand fun q _ => runsOnly_of_busy rfl rfl
    · exact runsOnly_of_busy rfl rfl
  | ipEmit =>
    simp only [phaseOp, inPlaceEmit]
    split
    · exact onAccess_keepsCommand fun b _ => runsOnly_of_busy rfl rfl
    · exact runsOnly_of_busy rfl rfl
  | ipWrite fs =>
    refine (writeFields_keepsCommand (phase := .ipWrite) fs emitIo_keeps_runsOnly (fun _ => rfl) h).andThen
      fun written t ht => ?_
    cases written
    · exact ht
    · exact runsOnly_of_busy rfl rfl
  | ipGate =>
    simp only [phaseOp, inPlaceGate]
    split <;> exact runsOnly_of_busy rfl rfl
  | ipFlush gated =>
    exact (flushBits_keepsCommand (fun b s => emitIo_keepsCommand b) h).andThen fun _ t _ => runsOnly_endCommand _ _

/-- Whatever an operation leaves, its own command runs or none. -/
theorem coreOp_keepsCommand {phase : Phase} (hseq : s.seq = .busy phase) :
    (coreOp phase s).All (RunsOnly (phaseCode phase)) := by
  refine meets_iff_all.mp ?_
  cases hps : s.ps with
  | some p => exact coreOp_some hps ▸ phaseOp_keepsCommand hseq
  | none =>
    by_cases hv : ∃ c, phase = .vCheck c
    · obtain ⟨c, rfl⟩ := hv
      exact phaseOp_keepsCommand (p := tableParams) hseq
    · rw [coreOp_none hps fun c hc => hv ⟨c, hc⟩]
      trivial

end Sys2Proof.Proofs

/-! The invariant along a whole step: a command's operations, a turn, a CMD write, the moves of host and channels. -/

namespace Sys2Proof.Proofs

open Sys2Proof Sys2Proof.Machine

variable {s t : State} {phase : Phase}

/-! ## The invariant, and a command that runs or has ended -/

/-- The part of the invariant an operation of a data command carries along (R22, R23, R31, R123): CONFIG, PS, the
operands, the build. -/
def Configured (s : State) : Prop :=
  buildOk s.build ∧ configWritten s.cfg.config = s.cfg.config ∧ (∀ p, s.ps = some p → p.Legal s.build.idxW) ∧
    (∀ config, s.build.mode = .fixed config → s.cfg.config = config ∧ s.ps = some (configParams config)) ∧
    s.cfg.ipL < 2 ^ s.build.idxW ∧ s.cfg.ipOffset < 2 ^ s.build.idxW

theorem Configured.carried (h : Configured s) (hst : Carried s t) : Configured t := by
  unfold Configured
  rw [hst.build, hst.cfg, hst.ps]
  exact h

theorem configured_of_inv (h : Inv s) : Configured s := by
  obtain ⟨hbuild, ⟨hconfig, hlegal, hfixed⟩, -, -, -, -, -, hipL, hipOffset, -⟩ := h
  refine ⟨hbuild, hconfig, hlegal, fun config hmode => ?_, hipL, hipOffset⟩
  obtain ⟨hcfg, hps, -⟩ := hfixed config hmode
  exact ⟨hcfg, hps⟩

/-- The phases of COMPRESS_IN_PLACE are those in which the core owns IO. -/
theorem ownsIo_busy (h : s.seq = .busy phase) : s.ownsIo = inPlacePhase phase := by
  simp [State.ownsIo, h]

theorem inv_of_running {p : ParamSet} (hcfg : Configured s) (hps : s.ps = some p) (hv : ∀ c, phase ≠ .vCheck c)
    (h : Running p phase s) : Inv s := by
  obtain ⟨hbuild, hconfig, hlegal, hfixed, hipL, hipOffset⟩ := hcfg
  obtain ⟨hseq, hres, ⟨-, hmem, hbw, hbr⟩, hinv, hlen⟩ := h
  refine ⟨hbuild, ⟨hconfig, hlegal, fun config hmode => ?_⟩, .inl ⟨.inr (isBusy_busy s phase hseq), hres⟩, hmem,
    fun phase' hseq' => ?_, hbw, hbr, hipL, hipOffset, fun howns p' hps' => ?_⟩
  · obtain ⟨hc, hp⟩ := hfixed config hmode
    refine ⟨hc, hp, fun c hc => absurd (hseq.symm.trans hc) ?_⟩
    simpa using hv c
  · obtain rfl : phase = phase' := by simpa using hseq.symm.trans hseq'
    exact .inr ⟨p, hps, hinv⟩
  · obtain rfl : p = p' := by simpa using hps.symm.trans hps'
    exact hlen (ownsIo_busy hseq ▸ howns)

/-- With no command running, only the results and the memories are left to ask for. -/
theorem inv_of_free (hcfg : Configured s) (hfree : ∀ phase, s.seq ≠ .busy phase) (hres : resultInv s)
    (hmem : memoryInv s) (hbw : s.bw.cnt ≤ 31) (hbr : s.br.cnt ≤ 31) : Inv s := by
  obtain ⟨hbuild, hconfig, hlegal, hfixed, hipL, hipOffset⟩ := hcfg
  refine ⟨hbuild, ⟨hconfig, hlegal, fun config hmode => ?_⟩, hres, hmem, fun phase hseq => absurd hseq (hfree phase),
    hbw, hbr, hipL, hipOffset, fun howns => ?_⟩
  · obtain ⟨hc, hp⟩ := hfixed config hmode
    exact ⟨hc, hp, fun c hseq => absurd hseq (hfree _)⟩
  · unfold State.ownsIo at howns
    split at howns
    · exact absurd (by assumption) (hfree _)
    · cases howns

theorem inv_of_ended {e : Ending} (hcfg : Configured s) (he : e ≠ .readOfUnwrittenByte) (hseq : s.seq = endSeq e)
    (hres : s.res = endRes e) (hmem : memoryInv s) (hbw : s.bw.cnt ≤ 31) (hbr : s.br.cnt ≤ 31) : Inv s :=
  inv_of_free hcfg (fun phase => hseq ▸ endSeq_not_busy e phase) (.inr ⟨e, he, hseq, hres⟩) hmem hbw hbr

theorem inv_of_left {p : ParamSet} (hcfg : Configured s) (hps : s.ps = some p)
    (hv : ∀ c, s.seq ≠ .busy (.vCheck c)) (h : Left p s) : Inv s := by
  obtain ⟨phase, hrun⟩ | ⟨⟨-, hmem, hbw, hbr⟩, e, he, hseq, hres⟩ := h
  · exact inv_of_running hcfg hps (fun c hc => hv c (hc ▸ hrun.1)) hrun
  · exact inv_of_ended hcfg he hseq hres hmem hbw hbr

/-- A running data command, out of the invariant. -/
theorem running_of_inv (h : Inv s) (hseq : s.seq = .busy phase) (hv : ∀ c, phase ≠ .vCheck c) :
    ∃ p, s.ps = some p ∧ Running p phase s := by
  obtain ⟨-, ⟨-, hlegal, -⟩, hres, hmem, hrun, hbw, hbr, -, -, hlen⟩ := h
  obtain ⟨c, hc⟩ | ⟨p, hps, hinv⟩ := hrun phase hseq
  · exact absurd hc (hv c)
  · refine ⟨p, hps, hseq, ?_, ⟨hlegal p hps, hmem, hbw, hbr⟩, hinv, fun hip => hlen (ownsIo_busy hseq ▸ hip) p hps⟩
    obtain ⟨-, hclear⟩ | ⟨e, -, he, -⟩ := hres
    · exact hclear
    · exact absurd (he.symm.trans hseq) (endSeq_not_busy e phase)

/-! ## One operation, one turn -/

/-- What holds of every state an operation leaves adds to what it meets. -/
theorem Meets.and_all {α : Type} {P Q : State → Prop} {halt : Prop} {r : Res α} (h : Meets (fun _ => P) P halt r)
    (hall : r.All Q) : Meets (fun _ s => P s ∧ Q s) (fun s => P s ∧ Q s) halt r := by
  cases r with
  | ok a s => exact ⟨h, hall⟩
  | waits s => exact ⟨h, hall⟩
  | ended s => exact ⟨h, hall⟩
  | faulted f => exact h
  | refused x => exact h

/-- VALIDATE latches what passed its checks; a build's fixed value passes them (R120, R123). -/
theorem validateOp_inv {config : Word32} (h : Inv s) (hseq : s.seq = .busy (.vCheck config)) :
    Inv (validateOp config s) := by
  have hcfg := configured_of_inv h
  obtain ⟨-, ⟨-, -, hissued⟩, -, hmem, -, hbw, hbr, -⟩ := h
  obtain ⟨hbuild, hconfig, -, hfixed, hip⟩ := hcfg
  unfold validateOp
  split
  · rename_i hpass
    have hlatched : Configured { s with ps := some (configParams config) } := by
      refine ⟨hbuild, hconfig, fun p hp => ?_, fun c hmode => ?_, hip⟩
      · cases hp
        exact hpass
      · obtain ⟨hc, -, hvc⟩ := hissued c hmode
        exact ⟨hc, by rw [hvc config hseq]⟩
    exact inv_of_ended (e := .validated) hlatched (by decide) rfl rfl hmem hbw hbr
  · rename_i e hfail
    have hcleared : Configured { s with ps := none } := by
      refine ⟨hbuild, hconfig, nofun, fun c hmode => ?_, hip⟩
      obtain rfl := (hissued c hmode).2.2 config hseq
      have hlegal : (configParams config).Legal s.build.idxW := by
        unfold buildOk at hbuild
        rw [hmode] at hbuild
        exact hbuild.1
      exact absurd (hlegal.symm.trans hfail) (by simp)
    exact inv_of_ended (e := .paramError e) hcleared (by simp) rfl rfl hmem hbw hbr

/-- Every operation keeps the invariant, and never halts the model. -/
theorem coreOp_inv (h : Inv s) (hseq : s.seq = .busy phase) : Meets (fun _ => Inv) Inv False (coreOp phase s) := by
  by_cases hv : ∃ c, phase = .vCheck c
  · obtain ⟨c, rfl⟩ := hv
    exact validateOp_inv h hseq
  · have hv : ∀ c, phase ≠ .vCheck c := fun c hc => hv ⟨c, hc⟩
    obtain ⟨p, hps, hrun⟩ := running_of_inv h hseq hv
    have hsound : Sound p (coreOp phase s) := coreOp_some hps ▸ phaseOp_sound hrun hv
    have hinv : ∀ t, (Left p t ∧ Carried s t) ∧ RunsOnly (phaseCode phase) t → Inv t := by
      rintro t ⟨⟨hleft, hcarried⟩, honly⟩
      refine inv_of_left ((configured_of_inv h).carried hcarried) (hcarried.ps.trans hps) (fun c hc => ?_) hleft
      obtain ⟨c', hc'⟩ := phaseCode_eq_zero_iff.mp (honly _ hc).symm
      exact hv c' hc'
    exact ((hsound.and_all (carried_coreOp s hv)).and_all (coreOp_keepsCommand hseq)).mono (fun _ => hinv) hinv

/-- A turn keeps the invariant, and never halts the model. -/
theorem runCore_inv (h : Inv s) (n : Nat) : ∃ t, runCore n s = .next t ∧ Inv t :=
  runCore_next (P := Inv) (fun _ _ hseq hs => meets_never_iff.mp (coreOp_inv hs hseq)) n s h

/-! ## A CMD write (R220) -/

/-- What a step may come to: a state that meets the invariant, or a refusal other than of a codec field or a stray
token. -/
def Kept : Host.Outcome State Fault Refusal → Prop
  | .next t => Inv t
  | .fault _ => False
  | .refused r => r ≠ .fieldOutOfRange ∧ r ≠ .tokenOutsideDecompress

theorem runCore_kept (h : Inv s) (n : Nat) : Kept (runCore n s) := by
  obtain ⟨t, ht, hinv⟩ := runCore_inv h n
  exact ht ▸ hinv

/-- ISSUE leaves the invariant, if it holds of the accepted command before its first operation. -/
theorem launch_issue_kept {code : BitVec 2} {needsPs : Bool} {first : Phase} {copies : State → State} (h : Inv s)
    (hfirst : (needsPs = true → s.ps ≠ none) → s.ready →
      Inv (copies { s with cfg := { s.cfg with cmd := code }, res := ResultRegs.clear, seq := .busy first })) :
    Kept (launch (issue code needsPs first s) copies s) := by
  obtain ⟨-, hissue⟩ | ⟨-, hissue⟩ | ⟨-, -, -, hissue⟩ | ⟨hready, hps, hissue⟩ := issue_cases code needsPs first s <;>
    rw [hissue]
  · exact ⟨by decide, by decide⟩
  · exact h
  · exact ⟨by decide, by decide⟩
  · exact runCore_kept (hfirst hps hready) _

/-- A data command before its first operation, if its first phase asks for nothing. -/
theorem inv_accepted {p : ParamSet} {first : Phase} {code : BitVec 2} {ip : InPlaceRegs} (h : Inv s)
    (hps : s.ps = some p) (hv : ∀ c, first ≠ .vCheck c) (hfirst : ∀ t, phaseInv p t first)
    (hlen : inPlacePhase first = true → ioLengthOf p s.build ip.len) :
    Inv { s with cfg := { s.cfg with cmd := code }, res := ResultRegs.clear, seq := .busy first, ip := ip } := by
  have hcfg := configured_of_inv h
  obtain ⟨-, ⟨-, hlegal, -⟩, -, hmem, -, hbw, hbr, -⟩ := h
  exact inv_of_running (s := { s with cfg := { s.cfg with cmd := code }, res := _, seq := _, ip := ip }) hcfg hps hv
    ⟨rfl, rfl, ⟨hlegal p hps, hmem, hbw, hbr⟩, hfirst _, hlen⟩

/-- VALIDATE before its operation holds CONFIG as it stands (R220). -/
theorem inv_accepted_validate (h : Inv s) :
    Inv { s with
          cfg := { s.cfg with cmd := 0b00#2 }, res := ResultRegs.clear, seq := .busy (.vCheck s.cfg.config) } := by
  obtain ⟨hbuild, ⟨hconfig, hlegal, hfixed⟩, -, hmem, -, hbw, hbr, hipL, hipOffset, -⟩ := h
  refine ⟨hbuild, ⟨hconfig, hlegal, fun config hmode => ?_⟩, .inl ⟨.inr rfl, rfl⟩, hmem, fun phase hphase => ?_, hbw,
    hbr, hipL, hipOffset, nofun⟩
  · obtain ⟨hc, hp, -⟩ := hfixed config hmode
    exact ⟨hc, hp, fun c hseq => by cases hseq; exact hc⟩
  · cases hphase
    exact .inl ⟨_, rfl⟩

/-- A CMD write, of COMPRESS_IN_PLACE under IoLength. -/
theorem exec_decodeCmd_kept (code : BitVec 2) (h : Inv s)
    (hio : code = 0b11#2 → s.ready → ∀ p, s.ps = some p → ioLength p s) : Kept (exec (decodeCmd code) s) := by
  have hps : (true = true → s.ps ≠ none) → ∃ p, s.ps = some p := fun hne => Option.ne_none_iff_exists'.mp (hne rfl)
  obtain rfl | rfl | rfl | rfl := code_cases code
  · exact launch_issue_kept h fun _ _ => inv_accepted_validate h
  · refine launch_issue_kept h fun hne _ => ?_
    obtain ⟨p, hp⟩ := hps hne
    exact inv_accepted (ip := s.ip) h hp nofun (fun _ => trivial) nofun
  · refine launch_issue_kept h fun hne _ => ?_
    obtain ⟨p, hp⟩ := hps hne
    exact inv_accepted (ip := s.ip) h hp nofun (fun _ => trivial) nofun
  · refine launch_issue_kept h fun hne hready => ?_
    obtain ⟨p, hp⟩ := hps hne
    exact inv_accepted (s := s) (ip := { s.ip with len := s.cfg.ipL, off := s.cfg.ipOffset }) h hp nofun
      (fun _ => trivial) fun _ => hio rfl hready p hp

/-! ## The moves of the host and the channels -/

theorem configWritten_idem (w : Word32) : configWritten (configWritten w) = configWritten w := by
  simp [configWritten, BitVec.and_assoc]

/-- CONFIG, PS and the operands at reset, in both modes (R45, R123). -/
theorem configured_resetOf {b : Build} (hbuild : buildOk b) : Configured (State.resetOf b) := by
  obtain ⟨idxW, wbufBytes, mode⟩ := b
  have hpow : 0 < 2 ^ idxW := Nat.two_pow_pos _
  cases mode with
  | runtime => exact ⟨trivial, (by decide : configWritten 0 = 0), nofun, nofun, hpow, hpow⟩
  | fixed config =>
    have hbuild' := hbuild
    obtain ⟨hlegal, hwritten⟩ := hbuild
    refine ⟨hbuild', hwritten, fun p hp => ?_, fun c hc => ?_, hpow, hpow⟩
    · cases hp
      exact hlegal
    · cases hc
      exact ⟨rfl, rfl⟩

/-- Reset values, with whatever canonical IO the host holds, meet the invariant (R45, R123, R270). -/
theorem resetCore_inv (hbuild : buildOk s.build) (hio : Memory.wf Config.ioUnlisted s.io) : Inv (resetCore s) :=
  inv_of_free (s := resetCore s) (configured_resetOf hbuild) nofun (.inl ⟨.inl rfl, rfl⟩)
    ⟨(reset_memories_wf s.build).1, hio, nofun⟩ (by simp [State.resetOf]) (by simp [State.resetOf])

/-- A write of CONFIG keeps its reserved bits 0; a fixed CONFIG stays (R22, R123). -/
theorem hostWriteConfig_inv (w : Word32) (h : Inv s) : Inv (hostWriteConfig w s) := by
  unfold hostWriteConfig
  split
  · rename_i hmode
    obtain ⟨hbuild, ⟨-, hlegal, -⟩, hrest⟩ := h
    exact ⟨hbuild, ⟨configWritten_idem w, hlegal, fun config hfixed => absurd (hmode.symm.trans hfixed) nofun⟩, hrest⟩
  · exact h

/-- Every move but a CMD write. -/
theorem hostMove_kept (a : Act) (h : Inv s) : Kept (hostMove a s) := by
  cases a with
  | writeConfig w => exact hostWriteConfig_inv w h
  | writeIpL v =>
    rw [hostMove]
    split
    · rename_i hfits
      obtain ⟨hbuild, hconfig, hres, hmem, hseq, hbw, hbr, -, hrest⟩ := h
      exact ⟨hbuild, hconfig, hres, hmem, hseq, hbw, hbr, of_decide_eq_true hfits, hrest⟩
    · exact ⟨by decide, by decide⟩
  | writeIpOffset v =>
    rw [hostMove]
    split
    · rename_i hfits
      obtain ⟨hbuild, hconfig, hres, hmem, hseq, hbw, hbr, hipL, -, hrest⟩ := h
      exact ⟨hbuild, hconfig, hres, hmem, hseq, hbw, hbr, hipL, of_decide_eq_true hfits, hrest⟩
    · exact ⟨by decide, by decide⟩
  | read reg =>
    simp only [hostMove, hostRead]
    split
    · exact ⟨by decide, by decide⟩
    · split
      · exact h
      · exact ⟨by decide, by decide⟩
  | writeIo addr b =>
    rw [hostMove]
    split
    · exact ⟨by decide, by decide⟩
    · obtain ⟨hbuild, hconfig, hres, hmem, hrest⟩ := h
      exact ⟨hbuild, hconfig, hres, memoryInv_writeIo addr b hmem, hrest⟩
  | pass => exact runCore_kept h _
  | reset =>
    obtain ⟨hbuild, -, -, ⟨-, hio, -⟩, -⟩ := h
    exact resetCore_inv hbuild hio
  | _ => exact h

/-- One step, the host keeping to IoLength (R272). -/
theorem step_kept (h : Inv s) (hio : ioLengthIssued s) : Kept (step s) := by
  obtain ⟨code, rest, hscript, hstep⟩ | ⟨a, rest, -, -, hstep⟩ | ⟨-, hstep⟩ := step_cases s <;> rw [hstep]
  · exact exec_decodeCmd_kept code h fun hcode => hio ⟨rest, hcode ▸ hscript⟩
  · exact hostMove_kept a h
  · exact runCore_kept h _

/-- Settles O48: what a step comes to is a state that meets the invariant. -/
theorem everyStepKeepsTheInvariant : Obligations.EveryStepKeepsTheInvariant := fun s t h hio hstep => by
  have hkept := step_kept h hio
  rwa [hstep] at hkept

/-- Settles O49: a step comes to no fault and to neither refusal, and a turn of the core to a next state. -/
theorem noStepGoesOutOfRange : Obligations.NoStepGoesOutOfRange := fun s h hio => by
  have hkept := step_kept h hio
  refine ⟨fun f hf => ?_, fun hr => ?_, fun hr => ?_, fun hscript => ?_⟩
  · rwa [hf] at hkept
  · rw [hr] at hkept
    exact hkept.1 rfl
  · rw [hr] at hkept
    exact hkept.2 rfl
  · obtain ⟨t, ht, -⟩ := runCore_inv h (s.quantum + 1)
    exact ⟨t, by rw [step, hscript]; exact ht⟩

/-- Settles O47: a build that exists starts from canonical, empty memories. -/
theorem invariantHoldsAtReset : Obligations.InvariantHoldsAtReset := fun b hb =>
  resetCore_inv (s := State.resetOf b) hb (reset_memories_wf b).2

end Sys2Proof.Proofs

/-! Who changes PS (R23, R279). -/

namespace Sys2Proof.Proofs

open Sys2Proof Sys2Proof.Machine

variable {s t : State} {code : BitVec 2}

/-- A turn of a data command keeps PS. -/
theorem runCore_ps {n : Nat} (hcode : code ≠ 0b00#2) (h : RunsOnly code s) (hrun : runCore n s = .next t) :
    t.ps = s.ps := by
  have hkeeps : ∀ u phase, u.seq = .busy phase → u.ps = s.ps ∧ RunsOnly code u →
      (coreOp phase u).All fun v => v.ps = s.ps ∧ RunsOnly code v := by
    rintro u phase hseq ⟨hps, honly⟩
    have hphase := honly phase hseq
    have hv : ∀ c, phase ≠ .vCheck c := fun c hc => hcode (hphase ▸ phaseCode_eq_zero_iff.mpr ⟨c, hc⟩)
    have hleft := (meets_iff_all.mpr (coreOp_keepsCommand hseq)).and_all (carried_coreOp u hv)
    exact meets_iff_all.mp (hleft.mono (fun _ v ⟨honly', hcarried⟩ => ⟨hcarried.ps.trans hps, hphase ▸ honly'⟩)
      fun v ⟨honly', hcarried⟩ => ⟨hcarried.ps.trans hps, hphase ▸ honly'⟩)
  exact (runCore_keeps hkeeps n s t ⟨rfl, h⟩ hrun).1

/-- A turn of the core keeps PS, unless VALIDATE runs. -/
theorem coreTurn_ps (hv : ∀ c, s.seq ≠ .busy (.vCheck c)) (hrun : coreTurn s = .next t) : t.ps = s.ps := by
  by_cases hbusy : ∃ phase, s.seq = .busy phase
  · obtain ⟨phase, hseq⟩ := hbusy
    refine runCore_ps (code := phaseCode phase) (fun hzero => ?_) (runsOnly_of_busy hseq rfl) hrun
    obtain ⟨c, rfl⟩ := phaseCode_eq_zero_iff.mp hzero
    exact hv c hseq
  · exact runCore_ps (code := 0b01#2) (by decide) (fun phase hseq => absurd ⟨phase, hseq⟩ hbusy) hrun

/-- A CMD write of a data command keeps PS, accepted or not (R220). -/
theorem launch_issue_ps {needsPs : Bool} {first : Phase} {copies : State → State} (hcode : code ≠ 0b00#2)
    (hfirst : phaseCode first = code) (hseq : ∀ u, (copies u).seq = u.seq) (hps : ∀ u, (copies u).ps = u.ps)
    (hrun : launch (issue code needsPs first s) copies s = .next t) : t.ps = s.ps := by
  obtain ⟨-, hissue⟩ | ⟨-, hissue⟩ | ⟨-, -, -, hissue⟩ | ⟨-, -, hissue⟩ := issue_cases code needsPs first s <;>
    rw [hissue] at hrun
  · cases hrun
  · cases hrun
    rfl
  · cases hrun
  · exact (runCore_ps hcode (runsOnly_of_busy (hseq _) hfirst) hrun).trans (hps _)

theorem exec_decodeCmd_ps (hcode : code ≠ 0b00#2) (hrun : exec (decodeCmd code) s = .next t) : t.ps = s.ps := by
  obtain rfl | rfl | rfl | rfl := code_cases code
  · exact absurd rfl hcode
  · exact launch_issue_ps (first := .cInit) hcode rfl (fun _ => rfl) (fun _ => rfl) hrun
  · exact launch_issue_ps (first := .dInit) hcode rfl (fun _ => rfl) (fun _ => rfl) hrun
  · exact launch_issue_ps (first := .ipCheck) hcode rfl
      (copies := fun t => { t with ip := { t.ip with len := t.cfg.ipL, off := t.cfg.ipOffset } }) (fun _ => rfl)
      (fun _ => rfl) hrun

/-- Settles O51: neither a data command, CMD write or turn, nor a move of the host or a channel reaches PS. -/
theorem onlyValidateChangesTheParameters : Obligations.OnlyValidateChangesTheParameters := by
  intro s t _ _ hstep hne
  by_cases hv : ∃ c, s.seq = .busy (.vCheck c)
  · exact .inr (.inr hv)
  have hv : ∀ c, s.seq ≠ .busy (.vCheck c) := fun c hc => hv ⟨c, hc⟩
  obtain ⟨code, rest, hscript, h⟩ | ⟨a, rest, hscript, -, h⟩ | ⟨-, h⟩ := step_cases s <;> rw [h] at hstep
  · by_cases hcode : code = 0b00#2
    · exact .inr (.inl ⟨rest, hcode ▸ hscript⟩)
    · exact absurd (exec_decodeCmd_ps hcode hstep) hne
  · by_cases hreset : a = .reset
    · exact .inl ⟨rest, hreset ▸ hscript⟩
    by_cases hpass : a = .pass
    · subst hpass
      exact absurd (coreTurn_ps (s := { s with script := rest }) hv hstep) hne
    · rw [(hostMove_frame hpass hreset hstep).1] at hne
      exact absurd rfl hne
  · exact absurd (coreTurn_ps hv hstep) hne

end Sys2Proof.Proofs

/-! What each data command sets at its start (R46). -/

namespace Sys2Proof.Proofs

open Sys2Proof Sys2Proof.Machine

variable {s : State} {p : ParamSet}

/-- The byte an IO cell holds behind the first `k` writes of IP_SEED (R202). -/
def seededByte (p : ParamSet) (s : State) (k a : Nat) : Option Byte :=
  if s.ip.off - p.dict ≤ a ∧ a < s.ip.off - p.dict + k then some p.c else s.ioByte a

/-- The trace behind the first `k` writes of IP_SEED, newest first. -/
def seededHistory (p : ParamSet) (s : State) (k : Nat) : List Event :=
  ((List.range k).map fun j => .ioWrite (s.ip.off - p.dict + j) p.c).reverse ++ s.history

theorem seededHistory_succ (k : Nat) :
    seededHistory p s (k + 1) = .ioWrite (s.ip.off - p.dict + k) p.c :: seededHistory p s k := by
  simp [seededHistory, List.range_succ]

/-- One write of IP_SEED (R202). -/
theorem coreOp_ipSeed_write {k : Nat} (hps : s.ps = some p) (hk : k < p.dict)
    (hin : s.ip.off - p.dict + k < s.ip.len) :
    coreOp (.ipSeed k) s =
      .ok ()
        { s with
          seq := .busy (.ipSeed (k + 1))
          io := memWrite Config.ioUnlisted s.io (s.ip.off - p.dict + k) p.c
          history := .ioWrite (s.ip.off - p.dict + k) p.c :: s.history } := by
  rw [coreOp_some hps, phaseOp, inPlaceSeed, if_pos hk, ioWrite, if_pos hin, onAccess_ok]

/-- Behind the last write of IP_SEED (R202). -/
theorem coreOp_ipSeed_last (hps : s.ps = some p) :
    coreOp (.ipSeed p.dict) s =
      .ok ()
        { s with
          seq := .busy .ipSearch
          bw := { acc := 0, cnt := 0 }
          ip :=
            { s.ip with
              s := s.ip.off - p.dict
              r := s.ip.off
              out := 0
              offset2 := offsetCorrection p s.ip.off } } := by
  rw [coreOp_some hps, phaseOp, inPlaceSeed, if_neg (lt_irrefl _)]

/-- The first `k` writes of IP_SEED, cell after cell from IO[offset - (N - F)] on. -/
theorem runs_ipSeed (hps : s.ps = some p) (hseq : s.seq = .busy (.ipSeed 0)) (hmin : p.minOffset ≤ s.ip.off)
    (hlen : s.ip.off < s.ip.len) (k : Nat) (hk : k ≤ p.dict) :
    ∃ io, Runs k s { s with seq := .busy (.ipSeed k), io := io, history := seededHistory p s k } ∧
      ∀ a, memRead Config.ioUnlisted io a = seededByte p s k a := by
  have hdict : p.dict ≤ p.minOffset := Nat.le_add_right _ _
  induction k with
  | zero => exact ⟨s.io, hseq ▸ .refl s, fun a => (if_neg (by omega)).symm⟩
  | succ k ih =>
    obtain ⟨io, hruns, hbytes⟩ := ih (by omega)
    have hin : s.ip.off - p.dict + k < s.ip.len := by omega
    refine ⟨memWrite Config.ioUnlisted io (s.ip.off - p.dict + k) p.c, hruns.trans (.one rfl ?_), fun a => ?_⟩
    · rw [seededHistory_succ]
      exact coreOp_ipSeed_write hps (by omega) hin
    · rw [memRead_memWrite, hbytes a, seededByte, seededByte]
      by_cases ha : a = s.ip.off - p.dict + k
      · rw [if_pos ha, if_pos (by omega)]
      · rw [if_neg ha]
        exact if_congr (by omega) rfl rfl

/-- COMPRESS_IN_PLACE from its check to its first search (R201, R202, R224). -/
theorem runs_ipCheck_ipSearch (hps : s.ps = some p) (hseq : s.seq = .busy .ipCheck) (hmin : p.minOffset ≤ s.ip.off)
    (hlen : s.ip.off < s.ip.len) :
    ∃ io, Runs (p.dict + 2) s
        { s with
          seq := .busy .ipSearch
          bw := { acc := 0, cnt := 0 }
          ip :=
            { s.ip with
              s := s.ip.off - p.dict
              r := s.ip.off
              out := 0
              offset2 := offsetCorrection p s.ip.off }
          io := io
          history := seededHistory p s p.dict } ∧
      ∀ a, memRead Config.ioUnlisted io a = seededByte p s p.dict a := by
  have hcheck : coreOp .ipCheck s = .ok () { s with seq := .busy (.ipSeed 0) } := by
    rw [coreOp_some hps, phaseOp, inPlaceCheck, if_neg (by omega), if_neg (by omega)]
  obtain ⟨io, hruns, hbytes⟩ :=
    runs_ipSeed (s := { s with seq := .busy (.ipSeed 0) }) hps rfl hmin hlen p.dict le_rfl
  refine ⟨io, ?_, hbytes⟩
  rw [show p.dict + 2 = 1 + p.dict + 1 by omega]
  exact ((Runs.one hseq hcheck).trans hruns).trans (.one rfl (coreOp_ipSeed_last hps))

/-- C_INIT with a window RAM that holds the window (R150). -/
theorem coreOp_cInit (hps : s.ps = some p) (hroom : 2 * p.n ≤ s.build.wbufBytes) :
    coreOp .cInit s =
      .ok ()
        { s with
          bw := { acc := 0, cnt := 0 }
          win := memFill p.dict p.c
          cp := { r := p.dict, s := 0, be := p.dict }
          seq := .busy .cFill } := by
  rw [coreOp_some hps, phaseOp, compressInit, if_neg (by omega)]

/-- D_INIT with a window RAM that holds the dictionary (R160). -/
theorem coreOp_dInit (hps : s.ps = some p) (hroom : p.n ≤ s.build.wbufBytes) :
    coreOp .dInit s =
      .ok ()
        { s with
          br := { acc := 0, cnt := 0 }
          win := memFill p.n p.c
          dR := p.dict
          seq := .busy .dFlag } := by
  rw [coreOp_some hps, phaseOp, decompressInit, if_neg (by omega)]

/-- A data command as ISSUE accepts it, in its first phase, with `quantum` operations to a turn (R220). -/
def accepted (code : BitVec 2) (first : Phase) (quantum : Nat) (s : State) : State :=
  { s with
    quantum := quantum, cfg := { s.cfg with cmd := code }, res := ResultRegs.clear, seq := .busy first }

/-- The same with the operand copies of COMPRESS_IN_PLACE (R224). -/
def acceptedInPlace (quantum : Nat) (s : State) : State :=
  { accepted 0b11#2 .ipCheck quantum s with ip := { s.ip with len := s.cfg.ipL, off := s.cfg.ipOffset } }

theorem exec_compress_eq_runCore (quantum : Nat) (hready : s.ready) (hps : s.ps ≠ none) :
    exec .compress { s with quantum := quantum } = runCore quantum (accepted 0b01#2 .cInit quantum s) :=
  execCompress_ready (s := { s with quantum := quantum }) hready hps

theorem exec_decompress_eq_runCore (quantum : Nat) (hready : s.ready) (hps : s.ps ≠ none) :
    exec .decompress { s with quantum := quantum } = runCore quantum (accepted 0b10#2 .dInit quantum s) :=
  execDecompress_ready (s := { s with quantum := quantum }) hready hps

theorem exec_compressInPlace_eq_runCore (quantum : Nat) (hready : s.ready) (hps : s.ps ≠ none) :
    exec .compressInPlace { s with quantum := quantum } = runCore quantum (acceptedInPlace quantum s) :=
  execCompressInPlace_ready (s := { s with quantum := quantum }) hready hps

/-- Settles O4: the first operation of COMPRESS and of DECOMPRESS, and the seed of COMPRESS_IN_PLACE. -/
theorem commandsInitialiseTheirState : Obligations.CommandsInitialiseTheirState := by
  intro s p hready hps _
  have hne : s.ps ≠ none := by simp [hps]
  refine ⟨fun hroom => ?_, fun hroom => ?_, fun _ hmin hlen => ?_⟩
  · have hruns := Runs.one (s := accepted 0b01#2 .cInit 1 s) rfl (coreOp_cInit hps hroom)
    exact ⟨_, (exec_compress_eq_runCore 1 hready hne).trans (hruns.runCore 0), rfl,
      fun a => by simp [winByte_eq, ParamSet.dict]⟩
  · have hruns := Runs.one (s := accepted 0b10#2 .dInit 1 s) rfl (coreOp_dInit hps hroom)
    exact ⟨_, (exec_decompress_eq_runCore 1 hready hne).trans (hruns.runCore 0), rfl, fun a => by simp [winByte_eq]⟩
  · obtain ⟨io, hruns, hbytes⟩ :=
      runs_ipCheck_ipSearch (s := acceptedInPlace (p.dict + 2) s) hps rfl hmin hlen
    have hdict : p.dict ≤ s.cfg.ipOffset := Nat.le_trans (Nat.le_add_right _ _) hmin
    refine ⟨_, (exec_compressInPlace_eq_runCore (p.dict + 2) hready hne).trans (hruns.runCore 0), rfl, ?_,
      fun a => (hbytes a).trans ?_⟩
    · simp [State.trace, seededHistory, acceptedInPlace, accepted, ParamSet.dict]
    · show (if s.cfg.ipOffset - p.dict ≤ a ∧ a < s.cfg.ipOffset - p.dict + p.dict then _ else _) = _
      rw [Nat.sub_add_cancel hdict]
      rfl

end Sys2Proof.Proofs

/-! The host's side of the registers: its writes, its reads, the layout of STATUS, and reset (R22, R30 to R35, R45). -/

namespace Sys2Proof.Proofs

open Sys2Proof Sys2Proof.Machine

variable {s : State} {rest : List Act}

/-! ## A step at a move -/

/-- A step at a move that is no CMD write is that move, taken from the script. -/
theorem step_move {a : Act} (hscript : s.script = a :: rest) (ha : ∀ code, a ≠ .writeCmd code) :
    step s = hostMove a { s with script := rest } := by
  cases a with
  | writeCmd code => exact absurd rfl (ha code)
  | _ => rw [step, hscript]

/-! ## Host writes -/

/-- CONFIG after a write: the low 24 bits (R22). -/
theorem configWritten_toNat (w : Word32) : (configWritten w).toNat = w.toNat % 2 ^ 24 := by
  rw [configWritten, BitVec.toNat_and]
  exact Nat.and_two_pow_sub_one_eq_mod w.toNat 24

/-- The three fields of CONFIG are its bytes 0, 1 and 2 (R22). -/
theorem config_fields (w : Word32) :
    (configC w).toNat = w.toNat % 256 ∧ configEI w = w.toNat / 256 % 256 ∧ configEJ w = w.toNat / 65536 % 256 := by
  simp [configC, configEI, configEJ, Nat.shiftRight_eq_div_pow]

theorem hostWriteConfig_runtime (w : Word32) (hmode : s.build.mode = .runtime) :
    hostWriteConfig w s = { s with cfg := { s.cfg with config := configWritten w } } := by
  simp [hostWriteConfig, hmode]

theorem hostWriteConfig_fixed (w : Word32) {config : Word32} (hmode : s.build.mode = .fixed config) :
    hostWriteConfig w s = s := by
  simp [hostWriteConfig, hmode]

/-- A write of an index register: stored if IDX_W bits hold the value, else refused (R30, log 11). -/
theorem ite_fitsIndex {α : Type} (s : State) (v : Nat) (stored refused : α) :
    (v < 2 ^ s.build.idxW → (if fitsIndex s v then stored else refused) = stored) ∧
      (2 ^ s.build.idxW ≤ v → (if fitsIndex s v then stored else refused) = refused) := by
  refine ⟨fun h => if_pos (decide_eq_true h), fun h => if_neg ?_⟩
  simpa [fitsIndex] using h

/-- Settles O5, write by write. -/
theorem hostWritesReachTheirRegisters : Obligations.HostWritesReachTheirRegisters := by
  intro s rest
  refine ⟨fun w hscript => ?_, fun v hscript => ?_, fun v hscript => ?_, fun a b hscript => ?_⟩ <;>
    rw [step_move hscript (by simp), hostMove]
  · refine ⟨fun hmode => ⟨configWritten w, ?_, configWritten_toNat w, ?_⟩, fun c hmode => ?_⟩
    · exact congrArg Host.Outcome.next (hostWriteConfig_runtime (s := { s with script := rest }) w hmode)
    · obtain ⟨hC, hEI, hEJ⟩ := config_fields (configWritten w)
      rw [hC, hEI, hEJ, configWritten_toNat]
      omega
    · exact congrArg Host.Outcome.next (hostWriteConfig_fixed (s := { s with script := rest }) w hmode)
  · exact ite_fitsIndex { s with script := rest } v _ _
  · exact ite_fitsIndex { s with script := rest } v _ _
  · refine ⟨fun hfree => ⟨_, if_neg (fun howns => absurd (hfree.symm.trans howns) (by decide)), rfl,
      memRead_memWrite_same _ _ _ _, fun c hc => memRead_memWrite_other _ _ _ hc⟩, fun howns => if_pos howns⟩

/-! ## Host reads -/

/-- A register other than an IO cell is read whatever runs (R35). -/
theorem hostRead_value {reg : HostReg} {v : HostValue} (hreg : ∀ a, reg ≠ .ioCell a)
    (hv : hostReadValue s reg = some v) : hostRead reg s = .next { s with reads := (reg, v) :: s.reads } := by
  cases reg with
  | ioCell a => exact absurd rfl (hreg a)
  | _ => simp only [hostRead, hv]

/-- A RESULT register with no value is not read (R34, log 20). -/
theorem hostRead_noValue {reg : HostReg} (hreg : ∀ a, reg ≠ .ioCell a) (hnone : hostReadValue s reg = none) :
    hostRead reg s = .refused .noResultValue := by
  cases reg with
  | ioCell a => exact absurd rfl (hreg a)
  | _ => simp only [hostRead, hnone]

/-- An IO cell is read while the core does not own IO (R42). -/
theorem hostRead_ioCell {a : Nat} {b : Byte} (hfree : s.ownsIo = false) (hb : s.ioByte a = some b) :
    hostRead (.ioCell a) s = .next { s with reads := (.ioCell a, .byte b) :: s.reads } := by
  have hvalue : hostReadValue s (.ioCell a) = some (.byte b) := congrArg (Option.map _) hb
  simp only [hostRead, hfree, hvalue]

theorem hostRead_ioCell_owned {a : Nat} (howns : s.ownsIo = true) :
    hostRead (.ioCell a) s = .refused .hostIoWhileBusy := by
  simp only [hostRead, howns]

/-- Taking a move from the script changes no register. -/
theorem hostReadValue_script (reg : HostReg) : hostReadValue { s with script := rest } reg = hostReadValue s reg := by
  cases reg <;> rfl

/-- Settles O57: a register with a value, one without, and a cell of IO. -/
theorem hostReadsStatusAndResults : Obligations.HostReadsStatusAndResults := by
  intro s rest
  refine ⟨fun reg hscript hreg => ?_, rfl, rfl, rfl, rfl, rfl, rfl, rfl, rfl, fun a hscript => ?_⟩ <;>
    rw [step_move hscript (by simp), hostMove]
  · exact ⟨fun v hv => hostRead_value (s := { s with script := rest }) hreg ((hostReadValue_script reg).trans hv),
      fun hnone => hostRead_noValue hreg ((hostReadValue_script reg).trans hnone)⟩
  · refine ⟨fun hfree => ?_, fun howns => hostRead_ioCell_owned (s := { s with script := rest }) howns⟩
    obtain ⟨b, hb⟩ := Option.isSome_iff_exists.mp (ioByte_isSome s a)
    exact ⟨b, hb, hostRead_ioCell (s := { s with script := rest }) hfree hb⟩

/-! ## STATUS -/

theorem seqCode_le (q : SeqState) : seqCode q ≤ 4 := by
  cases q <;> simp [seqCode]

/-- STATUS as a number: its fields do not overlap (R32). -/
theorem status_toNat (s : State) :
    s.status.toNat = seqCode s.seq + 16 * s.res.errCode.toNat + 256 * s.res.ipRestValid.toNat := by
  have hseq := seqCode_le s.seq
  have herr := s.res.errCode.isLt
  have hvalid := s.res.ipRestValid.toNat_le
  rw [State.status, BitVec.toNat_ofNat, Nat.mod_eq_of_lt (by omega)]

/-- Settles O55, from STATUS as a number. -/
theorem statusWordLayout : Obligations.StatusWordLayout := by
  intro s
  have hseq := seqCode_le s.seq
  have herr := s.res.errCode.isLt
  have hvalid := s.res.ipRestValid.toNat_le
  rw [status_toNat]
  refine ⟨by omega, by omega, by omega, by omega, by omega, ?_⟩
  exact ⟨fun h => h ▸ rfl, fun phase h => h ▸ rfl, fun h => h ▸ rfl, fun h => h ▸ rfl, fun h => h ▸ rfl⟩

/-! ## Reset -/

/-- Settles O54: the reset values of each mode, and what is outside the core. -/
theorem resetGivesTheResetValues : Obligations.ResetGivesTheResetValues := by
  intro s rest hscript
  refine ⟨resetCore { s with script := rest }, step_move hscript nofun, rfl, rfl, rfl, rfl, rfl, fun hmode => ?_,
    fun config hmode => ?_, rfl, fun a => rfl, rfl, rfl, rfl, rfl⟩
  all_goals simp [State.cfgValid, State.resetOf, resetConfig, resetPs, hmode]

end Sys2Proof.Proofs

/-! A match against the reference dictionary, and what a match longer than its distance outputs (R76, R187, R274). -/

namespace Sys2Proof.Proofs

open Sys2Proof Sys2Proof.Machine

variable {p : ParamSet} {s : State} {d : Decoded} {base : List Event}

/-! ## The copy of a match refines the reference copy -/

/-- The decoder's state, its sink accepting, holds the reference dictionary `d` and has put out `d.out` since the trace
was `base` (R70, R160). -/
structure Mirrors (p : ParamSet) (base : List Event) (d : Decoded) (s : State) : Prop where
  room : p.n ≤ s.build.wbufBytes
  inside : d.cursor < p.n
  cursor : s.dR = d.cursor
  cells : ∀ a, a < p.n → s.winByte a = some (d.cell a)
  writes : s.snk.writes = []
  accepting : s.snk.accepting = true
  history : s.history = (writesOk d.out).reverse ++ base

/-- A full dictionary mirrors what `State.decoded` reads off it. -/
theorem mirrors_decoded (hroom : p.n ≤ s.build.wbufBytes) (hdR : s.dR < p.n) (hholds : winHolds s 0 p.n)
    (hwrites : s.snk.writes = []) (haccepting : s.snk.accepting = true) :
    Mirrors p s.history (s.decoded p) s where
  room := hroom
  inside := hdR
  cursor := rfl
  cells a ha := by
    obtain ⟨b, hb⟩ := Option.ne_none_iff_exists'.mp (hholds a ha (Nat.zero_le a))
    simp [State.decoded, hb]
  writes := hwrites
  accepting := haccepting
  history := rfl

theorem Mirrors.winRead_eq (h : Mirrors p base d s) {a : Nat} (ha : a < p.n) : winRead s a = .ok (d.cell a) :=
  winRead_ok.mpr ⟨Nat.lt_of_lt_of_le ha h.room, h.cells a ha⟩

/-- PUT to an accepting sink (R161). -/
def putAccepted (p : ParamSet) (b : Byte) (s : State) : State :=
  { s with
    history := .snkWrite b .ok :: s.history
    win := memWrite Config.winUnlisted s.win s.dR b
    dR := (s.dR + 1) &&& p.mask }

theorem Mirrors.putByte_eq (h : Mirrors p base d s) (b : Byte) : putByte p b s = .ok () (putAccepted p b s) := by
  have hin : s.dR < s.build.wbufBytes := h.cursor ▸ Nat.lt_of_lt_of_le h.inside h.room
  rw [putByte, emitSink_accepting b h.writes h.accepting]
  simp [onAccess, winWrite, hin, putAccepted]

theorem Mirrors.put (h : Mirrors p base d s) (b : Byte) : Mirrors p base (d.put p b) (putAccepted p b s) where
  room := h.room
  inside := Nat.mod_lt _ p.n_pos
  cursor := by rw [putAccepted, h.cursor, p.and_mask]; rfl
  cells a ha := by
    refine (winByte_write s s.dR a b).trans ?_
    rw [h.cells a ha, h.cursor]
    exact (apply_ite some _ _ _).symm
  writes := h.writes
  accepting := h.accepting
  history := by simp [putAccepted, Decoded.put, writesOk, h.history]

/-- The copy of a match leaves what the reference copy gives, and changes WIN, D_R, SEQ and the trace only (R187). -/
theorem Mirrors.copyLoop_ok (h : Mirrors p base d s) (offset len left k : Nat) :
    ∃ t, copyLoop p offset len left k s = .ok () t ∧ Mirrors p base (d.copy p offset left k) t ∧
      t = { s with win := t.win, dR := t.dR, seq := .busy .dFlag, history := t.history } := by
  induction left generalizing k s d with
  | zero =>
    obtain ⟨hroom, hinside, hcursor, hcells, hwrites, haccepting, hhistory⟩ := h
    exact ⟨_, rfl, ⟨hroom, hinside, hcursor, hcells, hwrites, haccepting, hhistory⟩, rfl⟩
  | succ left ih =>
    have hread := h.winRead_eq (p.and_mask_lt (offset + k))
    obtain ⟨t, ht, hmirrors, hframe⟩ := ih (h.put (d.cell ((offset + k) &&& p.mask))) (k + 1)
    refine ⟨t, ?_, ?_, hframe⟩
    · rw [copyLoop, hread, onAccess_ok, h.putByte_eq]
      exact ht
    · rw [Decoded.copy, ← p.and_mask]
      exact hmirrors

/-! ## The reference copy repeats its output -/

/-- `k` steps into a match whose output starts `dist` cells past its offset: output `j` stands in the cell it was stored
at, and repeats output `j - dist`. -/
structure Repeats (p : ParamSet) (offset dist k : Nat) (d : Decoded) : Prop where
  length : d.out.length = k
  cursor : d.cursor = (offset + dist + k) % p.n
  stored : ∀ j, j < k → d.out[j]? = some (d.cell ((offset + dist + j) % p.n))
  repeats : ∀ j, dist ≤ j → j < k → d.out[j]? = d.out[j - dist]?

/-- Two cells less than N apart are not the same cell (R162). -/
theorem add_mod_ne {n a j k : Nat} (hjk : j < k) (hk : k < n) : (a + j) % n ≠ (a + k) % n := fun h => by
  have hmod : j % n = k % n := Nat.ModEq.add_left_cancel' a h
  rw [Nat.mod_eq_of_lt hk, Nat.mod_eq_of_lt (hjk.trans hk)] at hmod
  omega

theorem put_cell_cursor (p : ParamSet) (b : Byte) (d : Decoded) : (d.put p b).cell d.cursor = b := if_pos rfl

theorem put_cell_of_ne {a : Nat} (p : ParamSet) (b : Byte) (h : a ≠ d.cursor) : (d.put p b).cell a = d.cell a :=
  if_neg h

theorem put_out_old {j : Nat} (p : ParamSet) (b : Byte) (h : j < d.out.length) : (d.put p b).out[j]? = d.out[j]? :=
  List.getElem?_append_left h

theorem put_out_new (p : ParamSet) (b : Byte) (d : Decoded) : (d.put p b).out[d.out.length]? = some b :=
  List.getElem?_concat_length

/-- A step reads, from step `dist` on, the cell stored `dist` steps before, which no step since has stored over. -/
theorem Repeats.put {offset dist k : Nat} (h : Repeats p offset dist k d) (hdist : 1 ≤ dist) (hk : k < p.n) :
    Repeats p offset dist (k + 1) (d.put p (d.cell ((offset + k) % p.n))) := by
  obtain ⟨rfl, hcursor, hstored, hrepeats⟩ := h
  refine ⟨by simp [Decoded.put], ?_, fun j hj => ?_, fun j hlo hj => ?_⟩
  · rw [Decoded.put, hcursor, Nat.mod_add_mod]
    rfl
  · obtain hj | rfl := Nat.lt_succ_iff_lt_or_eq.mp hj
    · rw [put_out_old p _ hj, put_cell_of_ne p _ (hcursor ▸ add_mod_ne hj hk), hstored j hj]
    · rw [put_out_new, ← hcursor, put_cell_cursor]
  · rw [put_out_old p _ (by omega : j - dist < _)]
    obtain hj | rfl := Nat.lt_succ_iff_lt_or_eq.mp hj
    · rw [put_out_old p _ hj, hrepeats j hlo hj]
    · have hread : offset + dist + (d.out.length - dist) = offset + d.out.length := by omega
      rw [put_out_new, hstored _ (by omega), hread]

theorem Repeats.copy {offset dist : Nat} (hdist : 1 ≤ dist) (left k : Nat) (d : Decoded)
    (h : Repeats p offset dist k d) (hlen : k + left ≤ p.n) :
    Repeats p offset dist (k + left) (d.copy p offset left k) := by
  induction left generalizing k d with
  | zero => exact h
  | succ left ih =>
    have hcount : k + (left + 1) = k + 1 + left := by omega
    rw [hcount]
    exact ih (k + 1) _ (h.put hdist (by omega)) (by omega)

/-- A SnkWrite answered Ok tells its byte. -/
theorem writesOk_injective : Function.Injective writesOk :=
  List.map_injective_iff.mpr fun _ _ h => by simpa using h

/-- Settles O29: the copy puts out what the reference copy does, and that repeats itself. -/
theorem overlappingMatchRepeatsItsOutput : Obligations.OverlappingMatchRepeatsItsOutput := by
  intro s t p offset len dist bs htoken hps hlegal hroom hdR hholds hwrites haccepting hlen hdist _ hcursor hexec
    htrace k hlo hk
  obtain ⟨u, hu, hmirrors, -⟩ :=
    (mirrors_decoded hroom hdR hholds hwrites haccepting).copyLoop_ok offset len len 0
  have hexec' : exec (.matchTok offset len) s = .next u := by
    simp [exec, execMatch, htoken, hps, matchOp, hu]
  obtain rfl : t = u := by simpa using hexec.symm.trans hexec'
  obtain rfl : bs = ((s.decoded p).copy p offset len 0).out :=
    writesOk_injective (List.reverse_injective (List.append_cancel_right (htrace.symm.trans hmirrors.history)))
  have hstart : Repeats p offset dist 0 (s.decoded p) := ⟨rfl, hcursor, nofun, nofun⟩
  have hrepeats := hstart.copy hdist len 0 _ (by have := ParamSet.f_lt_n hlegal; omega)
  exact hrepeats.repeats k hlo (by omega)

end Sys2Proof.Proofs

/-! The trace along a step: transactions are recorded in front of it, never taken back (R64, R226). -/

namespace Sys2Proof.Proofs

open Sys2Proof Sys2Proof.Machine

variable {s t u : State}

/-- The trace of `t` is that of `s` with later transactions before it, newest first. -/
def Extends (s t : State) : Prop := ∃ es, t.history = es ++ s.history

theorem Extends.of_eq (h : t.history = s.history) : Extends s t := ⟨[], h⟩

theorem Extends.trans (h : Extends s t) (h' : Extends t u) : Extends s u := by
  obtain ⟨es, hes⟩ := h
  obtain ⟨fs, hfs⟩ := h'
  exact ⟨fs ++ es, by rw [hfs, hes, List.append_assoc]⟩

/-- In the order of R226 the later transactions come behind. -/
theorem Extends.trace (h : Extends s t) : ∃ es, t.trace = s.trace ++ es := by
  obtain ⟨es, hes⟩ := h
  exact ⟨es.reverse, by rw [State.trace, State.trace, hes, List.reverse_append]⟩

/-- VALIDATE makes no transaction (R120). -/
theorem validateOp_history (config : Word32) (s : State) : (validateOp config s).history = s.history := by
  unfold validateOp
  split <;> rfl

theorem coreOp_extends (phase : Phase) (s : State) : (coreOp phase s).All (Extends s) := by
  by_cases hv : ∃ c, phase = .vCheck c
  · obtain ⟨c, rfl⟩ := hv
    exact .of_eq (validateOp_history c s)
  · exact (carried_coreOp s fun c hc => hv ⟨c, hc⟩).imp fun _ h => h.trace

theorem runCore_extends {n : Nat} (hrun : runCore n s = .next t) : Extends s t :=
  runCore_keeps (P := Extends s) (fun u phase _ hu => (coreOp_extends phase u).imp fun _ h => hu.trans h) n s t
    (.of_eq rfl) hrun

/-- A CMD write, accepted or not, makes no transaction before the command's first operation (R220). -/
theorem launch_issue_extends {code : BitVec 2} {needsPs : Bool} {first : Phase} {copies : State → State}
    (hcopies : ∀ u, (copies u).history = u.history)
    (hrun : launch (issue code needsPs first s) copies s = .next t) : Extends s t := by
  obtain ⟨-, hissue⟩ | ⟨-, hissue⟩ | ⟨-, -, -, hissue⟩ | ⟨-, -, hissue⟩ := issue_cases code needsPs first s <;>
    rw [hissue] at hrun
  · cases hrun
  · cases hrun
    exact .of_eq rfl
  · cases hrun
  · obtain ⟨es, hes⟩ := runCore_extends hrun
    exact ⟨es, by rw [hes, hcopies]⟩

theorem exec_decodeCmd_extends {code : BitVec 2} (hrun : exec (decodeCmd code) s = .next t) : Extends s t := by
  obtain rfl | rfl | rfl | rfl := code_cases code
  · exact launch_issue_extends (first := .vCheck s.cfg.config) (fun _ => rfl) hrun
  · exact launch_issue_extends (first := .cInit) (fun _ => rfl) hrun
  · exact launch_issue_extends (first := .dInit) (fun _ => rfl) hrun
  · exact launch_issue_extends (first := .ipCheck)
      (copies := fun t => { t with ip := { t.ip with len := t.cfg.ipL, off := t.cfg.ipOffset } }) (fun _ => rfl) hrun

/-- A move of the host or a channel records nothing itself, a reset included (R244, R270). -/
theorem hostMove_extends {a : Act} (hmove : hostMove a s = .next t) : Extends s t := by
  by_cases hpass : a = .pass
  · subst hpass
    exact runCore_extends hmove
  by_cases hreset : a = .reset
  · subst hreset
    cases hmove
    exact .of_eq (resetCore_history s)
  · rw [(hostMove_frame hpass hreset hmove).1]
    exact .of_eq rfl

theorem step_extends (hstep : step s = .next t) : Extends s t := by
  obtain ⟨code, rest, -, h⟩ | ⟨a, rest, -, -, h⟩ | ⟨-, h⟩ := step_cases s <;> rw [h] at hstep
  · exact exec_decodeCmd_extends (s := { s with script := rest }) hstep
  · exact hostMove_extends (s := { s with script := rest }) hstep
  · exact runCore_extends hstep

/-- Settles O50: whatever kind of step it is, it extends the trace; the premises of R272 are not needed. -/
theorem theTraceOnlyGrows : Obligations.TheTraceOnlyGrows := fun _ _ _ _ hstep => (step_extends hstep).trace

end Sys2Proof.Proofs

/-! The wire format: a token is its flag and the payload that flag asks for, and nothing else is (R90 to R98). -/

namespace Sys2Proof.Proofs

open Sys2Proof Sys2Proof.Machine

variable {p : ParamSet} {i : Instr} {flag : Bool} {payload bits rest : List Bool}

/-! ## The bits of a token -/

/-- LIT is the flag 1 and the bits of its byte (R91). -/
theorem encode_lit (p : ParamSet) (b : Byte) : encode p (.lit b) = true :: byteBits b :=
  calc encode p (.lit b) = bitsOf ((1 <<< 8) ||| b.toNat) (1 + 8) := List.append_nil _
    _ = bitsOf 1 1 ++ bitsOf b.toNat 8 := bitsOf_shiftLeft_or 1 b.toNat 1 8 b.isLt

/-- MATCH is the flag 0, its offset and its length code (R92); an offset too wide would lose its high bits. -/
theorem encode_matchTok (offset : Nat) {len : Nat} (hlen : len - p.p - 1 < 2 ^ p.ej) :
    encode p (.matchTok offset len) = false :: (bitsOf offset p.ei ++ bitsOf (len - p.p - 1) p.ej) := by
  rw [← bitsOf_shiftLeft_or offset _ p.ei p.ej hlen]
  exact congrArg (false :: ·) (List.append_nil _)

/-- The offset and the length code of a well-formed match fit their bit fields (R92, R95). -/
theorem matchTok_bounds {offset len : Nat} (hwf : (Instr.matchTok offset len).wf p = true) :
    offset < 2 ^ p.ei ∧ p.p < len ∧ len - p.p - 1 < 2 ^ p.ej := by
  simp only [Instr.wf, offsetOk, lengthOk, Bool.and_eq_true, decide_eq_true_eq] at hwf
  obtain ⟨hoffset, hlo, hhi⟩ := hwf
  unfold ParamSet.f at hhi
  exact ⟨hoffset, hlo, by omega⟩

/-- The token assembled from a flag and a payload is written as exactly these bits (R93, R95). -/
theorem encode_decodeFields (hlen : payload.length = payloadWidth p flag.toNat) :
    encode p (decodeFields p flag.toNat (bitsToNat payload)) = flag :: payload := by
  cases flag with
  | true =>
    change encode p (.lit (bitsToByte payload)) = _
    rw [encode_lit, byteBits_bitsToByte hlen]
  | false =>
    have hbits := bitsOf_bitsToNat payload
    replace hlen : payload.length = p.ei + p.ej := hlen
    rw [hlen, bitsOf_add] at hbits
    have hcode (c : Nat) : c + p.p + 1 - p.p - 1 = c := by omega
    change encode p (.matchTok _ _) = _
    rw [encode_matchTok, hcode, bitsOf_and_mask _ _ _ le_rfl, hbits]
    rw [hcode]
    exact Nat.and_lt_two_pow _ (Nat.sub_lt (Nat.two_pow_pos _) Nat.one_pos)

/-- The payload of a MATCH is its offset above its length code (R95). -/
theorem decodeFields_mul_add (offset : Nat) {code : Nat} (hcode : code < 2 ^ p.ej) :
    decodeFields p 0 (2 ^ p.ej * offset + code) = .matchTok offset (code + p.p + 1) := by
  change Instr.matchTok _ _ = _
  rw [Nat.shiftRight_eq_div_pow, Nat.mul_add_div (Nat.two_pow_pos _), Nat.div_eq_of_lt hcode,
    Nat.and_two_pow_sub_one_eq_mod, Nat.mul_add_mod, Nat.mod_eq_of_lt hcode, Nat.add_zero]

/-- Every well-formed token is assembled from some flag and payload (R98). -/
theorem exists_payload (htok : cmdCode i = none) (hwf : i.wf p = true) :
    ∃ (flag : Bool) (payload : List Bool), payload.length = payloadWidth p flag.toNat ∧
      decodeFields p flag.toNat (bitsToNat payload) = i := by
  cases i with
  | lit b => exact ⟨true, byteBits b, byteBits_length b, congrArg Instr.lit (bitsToByte_byteBits b)⟩
  | matchTok offset len =>
    obtain ⟨hoffset, hlo, hcode⟩ := matchTok_bounds hwf
    refine ⟨false, bitsOf offset p.ei ++ bitsOf (len - p.p - 1) p.ej, by simp [payloadWidth], ?_⟩
    rw [bitsToNat_append, bitsToNat_bitsOf, bitsToNat_bitsOf, bitsOf_length, Nat.mod_eq_of_lt hoffset,
      Nat.mod_eq_of_lt hcode, Nat.mul_comm, Bool.toNat_false, decodeFields_mul_add offset hcode]
    congr 1
    omega
  | _ => cases htok

/-- An encoding has at least the bit of its flag (R91, R92). -/
theorem encode_length_pos (htok : cmdCode i = none) (hwf : i.wf p = true) : 0 < (encode p i).length := by
  obtain ⟨flag, payload, hlen, rfl⟩ := exists_payload htok hwf
  simp [encode_decodeFields hlen]

/-! ## What decodes -/

/-- A token is read exactly where the bits begin with a flag and its whole payload (R93, R96). -/
theorem decodeToken_ok_iff :
    decodeToken p bits = .ok (i, rest) ↔
      ∃ (flag : Bool) (payload : List Bool), payload.length = payloadWidth p flag.toNat ∧
        bits = flag :: (payload ++ rest) ∧ decodeFields p flag.toNat (bitsToNat payload) = i := by
  cases bits with
  | nil => simp [decodeToken]
  | cons b bs =>
    constructor
    · intro h
      simp only [decodeToken] at h
      split at h
      · cases h
      · rename_i hlen
        cases h
        exact ⟨b, bs.take (payloadWidth p b.toNat), List.length_take_of_le (Nat.not_lt.mp hlen),
          by rw [List.take_append_drop], rfl⟩
    · rintro ⟨flag, payload, hlen, hbits, rfl⟩
      cases hbits
      simp [decodeToken, ← hlen]

/-- Decoding fails only at the end of the stream: fewer bits remain than the token of that flag has (R97). -/
theorem decodeToken_error_iff :
    decodeToken p bits = .error .endOfStream ↔
      bits = [] ∨ (bits.head? = some true ∧ bits.length < 9) ∨
        (bits.head? = some false ∧ bits.length < 1 + p.ei + p.ej) := by
  cases bits with
  | nil => simp [decodeToken]
  | cons b bs =>
    cases b with
    | true => simp [decodeToken, payloadWidth]; omega
    | false => simp [decodeToken, payloadWidth]; omega

/-- A token is read back from its encoding, and what follows is left (R96). -/
theorem decodeToken_encode (htok : cmdCode i = none) (hwf : i.wf p = true) (rest : List Bool) :
    decodeToken p (encode p i ++ rest) = .ok (i, rest) := by
  obtain ⟨flag, payload, hlen, rfl⟩ := exists_payload htok hwf
  rw [encode_decodeFields hlen]
  exact decodeToken_ok_iff.mpr ⟨flag, payload, hlen, rfl, rfl⟩

/-- Settles O6: every well-formed token is a flag and a payload, written as these bits and assembled from them again. -/
theorem decodeInvertsEncode : Obligations.DecodeInvertsEncode :=
  fun _ _ _ rest _ htok hwf => decodeToken_encode htok hwf rest

/-- Settles O7: what decodes is assembled from a flag and a payload, which fix its fields and its encoding. -/
theorem everyBitPatternIsATokenOrATail : Obligations.EveryBitPatternIsATokenOrATail := by
  refine fun _ p bits _ => ⟨fun i rest h => ?_, decodeToken_error_iff⟩
  obtain ⟨flag, payload, hlen, rfl, rfl⟩ := decodeToken_ok_iff.mp h
  refine ⟨decodeFields_token _ _ _, decodeFields_wf _ (hlen ▸ bitsToNat_lt payload), ?_⟩
  rw [encode_decodeFields hlen, List.cons_append]

/-- Settles O9: the bits are those of the two formats, and the lengths count them. -/
theorem tokenBitLayout : Obligations.TokenBitLayout := by
  refine fun _ p _ => ⟨fun b => ⟨encode_lit p b, by simp [encode_lit], rfl⟩, fun offset len hwf => ?_⟩
  obtain ⟨-, -, hcode⟩ := matchTok_bounds hwf
  exact ⟨encode_matchTok offset hcode, by simp [encode_matchTok offset hcode]; omega, rfl⟩

/-- Settles O11: the flag and payload of each word, evaluated. -/
theorem specWordsDecode : Obligations.SpecWordsDecode := ⟨rfl, rfl, rfl⟩

/-! ## A byte stream -/

/-- Less than a byte of padding decodes to no token: a MATCH has more than 8 bits (R90, R97). -/
theorem decodeToken_padding {idxW k : Nat} (hlegal : p.Legal idxW) (hk : k < 8) :
    decodeToken p (List.replicate k false) = .error .endOfStream := by
  obtain ⟨-, -, hsum, -, -⟩ := (ParamSet.legal_iff idxW p).mp hlegal
  rw [decodeToken_error_iff]
  cases k with
  | zero => exact .inl rfl
  | succ k => exact .inr (.inr ⟨rfl, by rw [List.length_replicate]; omega⟩)

/-- Tokens written one after another are read back, up to a tail that holds no whole token (R97). -/
theorem decodeTokens_encode {ts : List Instr} {tail : List Bool} {fuel : Nat}
    (hts : ∀ i ∈ ts, cmdCode i = none ∧ i.wf p = true) (htail : decodeToken p tail = .error .endOfStream)
    (hfuel : (ts.flatMap (encode p)).length ≤ fuel) :
    decodeTokens p fuel (ts.flatMap (encode p) ++ tail) = ts := by
  induction ts generalizing fuel with
  | nil => cases fuel <;> simp [decodeTokens, htail]
  | cons i ts ih =>
    obtain ⟨⟨htok, hwf⟩, hts⟩ := List.forall_mem_cons.mp hts
    have hpos := encode_length_pos htok hwf
    rw [List.flatMap_cons, List.length_append] at hfuel
    cases fuel with
    | zero => omega
    | succ fuel =>
      rw [List.flatMap_cons, List.append_assoc, decodeTokens, decodeToken_encode htok hwf]
      exact congrArg (i :: ·) (ih hts (by omega))

/-- Settles O8, by induction on the tokens: the byte stream's bits are the tokens' and less than a byte of padding. -/
theorem streamRoundTrip : Obligations.StreamRoundTrip := by
  intro idxW p ts hlegal hts
  obtain ⟨k, hk, hbits, hlen⟩ := packBytes_bits (ts.flatMap (encode p))
  rw [decodeStream, encodeStream, hbits]
  exact decodeTokens_encode hts (decodeToken_padding hlegal hk) (by omega)

end Sys2Proof.Proofs

/-! The codes of CMD, and the step that takes one (R102, R220). -/

namespace Sys2Proof.Proofs

open Sys2Proof Sys2Proof.Machine

/-- Every code is assigned, and to one command (R102). -/
theorem cmdCode_decodeCmd (code : BitVec 2) : cmdCode (decodeCmd code) = some code := by
  obtain rfl | rfl | rfl | rfl := code_cases code <;> rfl

/-- A command is read back from its code (R102). -/
theorem decodeCmd_of_cmdCode {i : Instr} {code : BitVec 2} (h : cmdCode i = some code) : decodeCmd code = i := by
  cases i <;> cases h <;> rfl

/-- Settles O10: each code's command, and the two round trips. -/
theorem commandCodesAreAssigned : Obligations.CommandCodesAreAssigned :=
  ⟨rfl, rfl, rfl, rfl, cmdCode_decodeCmd, fun _ _ => decodeCmd_of_cmdCode⟩

/-- Settles O58: a CMD write is the fetch of a command. -/
theorem stepRunsTheWrittenCommand : Obligations.StepRunsTheWrittenCommand :=
  fun s code rest hscript => ⟨by rw [step, hscript], cmdCode_decodeCmd code⟩

end Sys2Proof.Proofs

/-! The checks of a parameter set, what VALIDATE makes of them, and the constants of a set that passes (R120, R121). -/

namespace Sys2Proof.Proofs

open Sys2Proof Sys2Proof.Machine

variable {idxW : Nat} {p : ParamSet} {s : State}

/-! ## The constants of a legal set (R24, R121) -/

/-- EI and EJ of a legal set (R24). -/
theorem ei_ej_range (h : p.Legal idxW) : (5 ≤ p.ei ∧ p.ei ≤ 23) ∧ 1 ≤ p.ej ∧ p.ej ≤ 11 := by
  obtain ⟨hzero, hlt, hlo, hhi, -⟩ := (ParamSet.legal_iff idxW p).mp h
  omega

/-- P turns from 1 to 2 where the sum reaches 17. -/
theorem p_of_sum (h : p.Legal idxW) : (p.ei + p.ej ≤ 16 → p.p = 1) ∧ (17 ≤ p.ei + p.ej → p.p = 2) := by
  obtain ⟨-, -, hlo, hhi, -⟩ := (ParamSet.legal_iff idxW p).mp h
  unfold ParamSet.p
  omega

theorem n_range (h : p.Legal idxW) : 32 ≤ p.n ∧ p.n ≤ 2 ^ 23 := by
  obtain ⟨⟨hlo, hhi⟩, -⟩ := ei_ej_range h
  exact ⟨Nat.pow_le_pow_right Nat.two_pos hlo, Nat.pow_le_pow_right Nat.two_pos hhi⟩

theorem f_range (h : p.Legal idxW) : 3 ≤ p.f ∧ p.f ≤ 2050 := by
  obtain ⟨-, hlo, hhi⟩ := ei_ej_range h
  have hp := ParamSet.p_range h
  have hpowLo : 2 ^ 1 ≤ 2 ^ p.ej := Nat.pow_le_pow_right Nat.two_pos hlo
  have hpowHi : 2 ^ p.ej ≤ 2 ^ 11 := Nat.pow_le_pow_right Nat.two_pos hhi
  unfold ParamSet.f
  omega

/-- N - F is at least 15: `2 ^ EJ` is at most half of N, the other half at least 16, and at least 256 where P is 2. -/
theorem dict_ge (h : p.Legal idxW) : 15 ≤ p.dict := by
  obtain ⟨-, hlt, -⟩ := (ParamSet.legal_iff idxW p).mp h
  have hhalf : 2 ^ p.ej * 2 ≤ p.n := Nat.pow_le_pow_right (n := 2) Nat.two_pos hlt
  obtain ⟨hsmall, hlarge⟩ := p_of_sum h
  unfold ParamSet.dict ParamSet.f
  rcases Nat.lt_or_ge (p.ei + p.ej) 17 with hsum | hsum
  · have hp := hsmall (by omega)
    have hn := (n_range h).1
    omega
  · have hp := hlarge hsum
    have hn : 2 ^ 9 ≤ p.n := Nat.pow_le_pow_right Nat.two_pos (by omega)
    omega

/-- N - F is largest at EI = 23, where P is 2 and so F at least 4. -/
theorem dict_le (h : p.Legal idxW) : p.dict ≤ 8388604 := by
  obtain ⟨⟨-, hei⟩, hej, -⟩ := ei_ej_range h
  unfold ParamSet.dict
  rcases Nat.lt_or_ge p.ei 23 with hlt | hge
  · have hn : p.n ≤ 2 ^ 22 := Nat.pow_le_pow_right Nat.two_pos (by omega)
    omega
  · have hp := (p_of_sum h).2 (by omega)
    have hpow : 2 ^ 1 ≤ 2 ^ p.ej := Nat.pow_le_pow_right Nat.two_pos hej
    have hf : 4 ≤ p.f := by
      unfold ParamSet.f
      omega
    have hn := (n_range h).2
    omega

/-- Settles O2: the ranges of the constants one by one, and the legal pairs counted. -/
theorem legalParameterRangesAndConstants : Obligations.LegalParameterRangesAndConstants := by
  refine ⟨fun p h => ?_, by decide +kernel⟩
  obtain ⟨hei, hej⟩ := ei_ej_range h
  have hn := n_range h
  have hp := ParamSet.p_range h
  have hdictLo := dict_ge h
  have hdictHi := dict_le h
  have hmask : p.mask = p.n - 1 := rfl
  have hgap : p.gap = p.p + 4 := rfl
  have hminOffset : p.minOffset = p.dict + p.gap := rfl
  exact ⟨hei, hej, ⟨rfl, hn⟩, ⟨rfl, by omega, by omega⟩, ⟨rfl, hp⟩, p_of_sum h, ⟨rfl, f_range h⟩,
    ⟨rfl, ParamSet.f_lt_n h, hdictLo, hdictHi⟩, ⟨rfl, by omega, by omega⟩, ⟨rfl, by omega, by omega⟩⟩

/-! ## The checks in their order (R120) -/

/-- Settles O1: each clause is a branch of `paramError`, behind the checks before it. -/
theorem parameterChecksInPriorityOrder : Obligations.ParameterChecksInPriorityOrder := by
  intro idxW ei ej
  unfold paramError
  refine ⟨fun hzero => if_pos hzero, fun hzero hge => ?_, fun hzero hlt hsum => ?_, fun hzero hlt hlo hlarge => ?_,
    fun hzero hlt hlo hhi hidx => ?_⟩ <;> rw [if_neg hzero]
  · rw [if_pos hge]
  · rw [if_neg (by omega), if_pos hsum]
  · rw [if_neg (by omega), if_neg (by omega), if_pos hlarge]
  · rw [if_neg (by omega), if_neg (by omega), if_neg (by omega)]

/-! ## VALIDATE (R120, R221) -/

/-- A VALIDATE that is accepted and has one operation in its turn ends in it, on CONFIG as it stands. -/
theorem exec_validate_eq_validateOp (hready : s.ready) (hquantum : 1 ≤ s.quantum) :
    exec .validate s =
      .next
        (validateOp s.cfg.config
          { s with
            cfg := { s.cfg with cmd := 0 }, res := ResultRegs.clear, seq := .busy (.vCheck s.cfg.config) }) :=
  (execValidate_ready hready).trans ((Runs.refl _).ends rfl rfl hquantum)

theorem validateOp_of_fail {config : Word32} {e : ParamError}
    (hfail : paramError s.build.idxW (configEI config) (configEJ config) = some e) :
    validateOp config s = endCommand (.paramError e) { s with ps := none } := by
  rw [validateOp, hfail]

theorem validateOp_of_pass {config : Word32}
    (hpass : paramError s.build.idxW (configEI config) (configEJ config) = none) :
    validateOp config s = endCommand .validated { s with ps := some (configParams config) } := by
  rw [validateOp, hpass]

/-- A failing check ends VALIDATE with its code, and PS loses its value (D15). -/
theorem exec_validate_of_fail {e : ParamError} (hready : s.ready) (hquantum : 1 ≤ s.quantum)
    (hfail : paramError s.build.idxW (configEI s.cfg.config) (configEJ s.cfg.config) = some e) :
    exec .validate s =
      .next
        { s with
          cfg := { s.cfg with cmd := 0 }
          ps := none
          seq := .error
          res := { ResultRegs.clear with errCode := paramErrCode e } } :=
  (exec_validate_eq_validateOp hready hquantum).trans (congrArg _ (validateOp_of_fail hfail))

/-- With no failing check VALIDATE latches the fields of CONFIG. -/
theorem exec_validate_of_pass (hready : s.ready) (hquantum : 1 ≤ s.quantum)
    (hpass : paramError s.build.idxW (configEI s.cfg.config) (configEJ s.cfg.config) = none) :
    exec .validate s =
      .next
        { s with
          cfg := { s.cfg with cmd := 0 }
          ps := some (configParams s.cfg.config)
          seq := .done
          res := ResultRegs.clear } :=
  (exec_validate_eq_validateOp hready hquantum).trans (congrArg _ (validateOp_of_pass hpass))

/-- Settles O3: the check that decides (O1), and the state that VALIDATE leaves behind it. -/
theorem validateChecksAndLatches : Obligations.ValidateChecksAndLatches := by
  rintro s _ _ _ hready hquantum rfl rfl rfl
  obtain ⟨hzero, hge, hsmall, hlarge, hpass⟩ :=
    parameterChecksInPriorityOrder s.build.idxW (configEI s.cfg.config) (configEJ s.cfg.config)
  exact ⟨fun h => exec_validate_of_fail hready hquantum (hzero h),
    fun h h' => exec_validate_of_fail hready hquantum (hge h h'),
    fun h h' hlo => exec_validate_of_fail hready hquantum (hsmall h h' hlo),
    fun h h' hlo hhi => exec_validate_of_fail hready hquantum (hlarge h h' hlo hhi),
    fun h h' hlo hhi hidx => exec_validate_of_pass hready hquantum (hpass h h' hlo hhi hidx)⟩

end Sys2Proof.Proofs

/-! The bits of the codec's accumulators: what a field adds, and the whole bytes that pend (R25, R26, R130, R134). -/

namespace Sys2Proof.Proofs

open Sys2Proof Sys2Proof.Machine

theorem field_ok_iff {f : Field} : f.ok = true ↔ 1 ≤ f.width ∧ f.width ≤ 24 ∧ f.value < 2 ^ f.width :=
  decide_eq_true_iff

theorem bitsOf_zero (n : Nat) : bitsOf 0 n = List.replicate n false := by
  induction n with
  | zero => rfl
  | succ n ih => rw [bitsOf, Nat.zero_testBit, ih, List.replicate_succ]

theorem byteBits_ofNat (v : Nat) : byteBits (BitVec.ofNat 8 v) = bitsOf v 8 := by
  rw [byteBits, BitVec.toNat_ofNat, bitsOf_mod v 8 8 le_rfl]

/-- The bits of a byte string tell its bytes. -/
theorem flatMap_byteBits_injective : Function.Injective fun bs : List Byte => bs.flatMap byteBits := by
  intro bs
  induction bs with
  | nil =>
    intro cs h
    cases cs with
    | nil => rfl
    | cons c cs => exact absurd (congrArg List.length h) (by simp; omega)
  | cons b bs ih =>
    intro cs h
    cases cs with
    | nil => exact absurd (congrArg List.length h) (by simp)
    | cons c cs =>
      obtain ⟨hhead, htail⟩ := List.append_inj h (by simp)
      rw [← bitsToByte_byteBits b, ← bitsToByte_byteBits c, hhead, ih htail]

/-- A value shifted in behind the valid bits, at most 32 in all: no valid bit is lost (R130, R134). -/
theorem bits_shiftIn (a : BitAcc) {v n : Nat} (hv : v < 2 ^ n) (hcnt : a.cnt + n ≤ 32) :
    BitAcc.bits { acc := BitVec.ofNat 32 ((a.acc.toNat <<< n) ||| v), cnt := a.cnt + n } = a.bits ++ bitsOf v n := by
  rw [BitAcc.bits, BitVec.toNat_ofNat, bitsOf_mod _ _ _ hcnt, bitsOf_shiftLeft_or _ _ _ _ hv, BitAcc.bits]

theorem bits_pushBits {f : Field} (a : BitAcc) (hf : f.ok = true) (ha : a.cnt ≤ 7) :
    (pushBits f a).bits = a.bits ++ bitsOf f.value f.width := by
  obtain ⟨-, hwidth, hvalue⟩ := field_ok_iff.mp hf
  exact bits_shiftIn a hvalue (by omega)

@[simp] theorem pushBits_cnt (f : Field) (a : BitAcc) : (pushBits f a).cnt = a.cnt + f.width := rfl

/-! ## Bits taken off the front -/

/-- An accumulator without its first `n` valid bits. -/
def dropBits (n : Nat) (a : BitAcc) : BitAcc := { a with cnt := a.cnt - n }

@[simp] theorem dropBits_cnt (n : Nat) (a : BitAcc) : (dropBits n a).cnt = a.cnt - n := rfl

@[simp] theorem dropBits_dropBits (m n : Nat) (a : BitAcc) : dropBits n (dropBits m a) = dropBits (m + n) a := by
  simp [dropBits, Nat.sub_sub]

/-- The valid bits are the first `n`, as the number they are, and the others. -/
theorem bits_eq_append (a : BitAcc) {n : Nat} (h : n ≤ a.cnt) :
    a.bits = bitsOf (a.acc.toNat >>> (a.cnt - n)) n ++ (dropBits n a).bits := by
  have hsplit := bitsOf_add a.acc.toNat n (a.cnt - n)
  rw [Nat.add_sub_cancel' h] at hsplit
  exact hsplit

theorem byteBits_topByte (a : BitAcc) : byteBits (topByte a) = bitsOf (a.acc.toNat >>> (a.cnt - 8)) 8 := by
  rw [topByte, byteBits_ofNat]
  exact bitsOf_and_mask _ 8 8 le_rfl

/-! ## Whole bytes -/

/-- The first `k` bytes of the valid bits, as the loop of WRITE_BITS takes them off (R130). -/
def pendingBytes : Nat → BitAcc → List Byte
  | 0, _ => []
  | k + 1, a => topByte a :: pendingBytes k (dropBits 8 a)

@[simp] theorem pendingBytes_length (k : Nat) (a : BitAcc) : (pendingBytes k a).length = k := by
  induction k generalizing a with
  | zero => rfl
  | succ k ih => rw [pendingBytes, List.length_cons, ih]

theorem pendingBytes_add (k m : Nat) (a : BitAcc) :
    pendingBytes (k + m) a = pendingBytes k a ++ pendingBytes m (dropBits (8 * k) a) := by
  induction k generalizing a with
  | zero => rw [Nat.zero_add]; rfl
  | succ k ih =>
    rw [Nat.succ_add, pendingBytes, ih, dropBits_dropBits, Nat.mul_succ, Nat.add_comm 8]
    rfl

/-- The bytes and the bits behind them are the valid bits. -/
theorem bits_pendingBytes {k : Nat} {a : BitAcc} (h : 8 * k ≤ a.cnt) :
    (pendingBytes k a).flatMap byteBits ++ (dropBits (8 * k) a).bits = a.bits := by
  induction k generalizing a with
  | zero => rfl
  | succ k ih =>
    have hrest := ih (a := dropBits 8 a) (by rw [dropBits_cnt]; omega)
    rw [dropBits_dropBits, Nat.add_comm 8] at hrest
    rw [pendingBytes, List.flatMap_cons, List.append_assoc, Nat.mul_succ, hrest, byteBits_topByte,
      ← bits_eq_append a (by omega)]

/-- The whole bytes that pend. -/
def wholeBytes (a : BitAcc) : List Byte := pendingBytes (a.cnt / 8) a

/-- The bits that pend behind the whole bytes. -/
def partByte (a : BitAcc) : BitAcc := dropBits (8 * (a.cnt / 8)) a

@[simp] theorem wholeBytes_length (a : BitAcc) : (wholeBytes a).length = a.cnt / 8 := pendingBytes_length _ _

@[simp] theorem partByte_cnt (a : BitAcc) : (partByte a).cnt = a.cnt % 8 := by
  rw [partByte, dropBits_cnt]
  omega

theorem partByte_cnt_le (a : BitAcc) : (partByte a).cnt ≤ 7 := by
  rw [partByte_cnt]
  omega

theorem bits_wholeBytes (a : BitAcc) : (wholeBytes a).flatMap byteBits ++ (partByte a).bits = a.bits :=
  bits_pendingBytes (Nat.mul_div_le _ _)

/-- The whole bytes from byte `k` on are those that pend once `k` bytes are gone. -/
theorem wholeBytes_split {k : Nat} {a : BitAcc} (hk : k ≤ a.cnt / 8) :
    wholeBytes a = pendingBytes k a ++ wholeBytes (dropBits (8 * k) a) := by
  have hcount : a.cnt / 8 = k + (dropBits (8 * k) a).cnt / 8 := by rw [dropBits_cnt]; omega
  rw [wholeBytes, hcount, pendingBytes_add, wholeBytes]

theorem take_wholeBytes {k : Nat} {a : BitAcc} (hk : k ≤ a.cnt / 8) : (wholeBytes a).take k = pendingBytes k a := by
  rw [wholeBytes_split hk, List.take_left' (pendingBytes_length k a)]

theorem drop_wholeBytes {k : Nat} {a : BitAcc} (hk : k ≤ a.cnt / 8) :
    (wholeBytes a).drop k = wholeBytes (dropBits (8 * k) a) := by
  rw [wholeBytes_split hk, List.drop_left' (pendingBytes_length k a)]

theorem wholeBytes_getElem? {k : Nat} {a : BitAcc} (hk : k < a.cnt / 8) :
    (wholeBytes a)[k]? = some (topByte (dropBits (8 * k) a)) := by
  have hone : 1 ≤ (dropBits (8 * k) a).cnt / 8 := by rw [dropBits_cnt]; omega
  rw [wholeBytes_split hk.le, wholeBytes_split hone, List.getElem?_append_right (by simp)]
  simp [pendingBytes]

/-- Taking whole bytes off the front leaves the part of a byte at the end. -/
theorem partByte_dropBits {k : Nat} {a : BitAcc} (hk : k ≤ a.cnt / 8) :
    partByte (dropBits (8 * k) a) = partByte a := by
  rw [partByte, partByte, dropBits_dropBits, dropBits_cnt]
  congr 1
  omega

end Sys2Proof.Proofs

/-! The writer of the bit codec (R130 to R133, R136): the bytes it emits, and the bits it leaves. -/

namespace Sys2Proof.Proofs

open Sys2Proof Sys2Proof.Machine

variable {emit : Byte → State → Res Unit} {s t : State}

/-! ## EMIT, byte after byte (R131) -/

/-- EMIT of each byte in turn. -/
def emitAll (emit : Byte → State → Res Unit) : List Byte → State → Res Unit
  | [], s => .ok () s
  | b :: bs, s => (emit b s).andThen fun _ t => emitAll emit bs t

theorem emitAll_cons_ok {b : Byte} {bs : List Byte} :
    emitAll emit (b :: bs) s = .ok () t ↔ ∃ u, emit b s = .ok () u ∧ emitAll emit bs u = .ok () t := by
  rw [emitAll]
  cases emit b s <;> simp

/-- EMIT neither looks at the pending bits nor moves them. -/
def IgnoresWriter (emit : Byte → State → Res Unit) : Prop :=
  ∀ a b s t, emit b s = .ok () t → emit b { s with bw := a } = .ok () { t with bw := a }

theorem emitSink_listed (b : Byte) {rest : List WriteAnswer} (h : s.snk.writes = .ok :: rest) :
    emitSink b s = .ok () { s with snk := { s.snk with writes := rest }, history := .snkWrite b .ok :: s.history } := by
  simp [emitSink, snkWrite, h]

theorem emitSink_err (b : Byte) {e : ErrW} {rest : List WriteAnswer} (h : s.snk.writes = .err e :: rest) :
    emitSink b s =
      .ended
        (endCommand (.writeError e)
          { s with snk := { s.snk with writes := rest }, history := .snkWrite b (.err e) :: s.history }) := by
  simp [emitSink, snkWrite, h]

theorem emitSink_silent (b : Byte) (h : s.snk.writes = []) (h' : s.snk.accepting = false) :
    emitSink b s = .waits s := by
  rw [emitSink, snkWrite_waits.mpr ⟨h, h'⟩]

theorem emitSink_ignoresWriter : IgnoresWriter emitSink := by
  intro a b s t h
  rcases hw : s.snk.writes with _ | ⟨_ | e, rest⟩
  · cases hacc : s.snk.accepting with
    | true => cases (emitSink_accepting b hw hacc).symm.trans h; exact emitSink_accepting b hw hacc
    | false => cases (emitSink_silent b hw hacc).symm.trans h
  · cases (emitSink_listed b hw).symm.trans h; exact emitSink_listed b hw
  · cases (emitSink_err b hw).symm.trans h

theorem emitIo_ignoresWriter : IgnoresWriter emitIo := by
  intro a b s t h
  rcases Nat.lt_or_ge s.ip.out s.ip.len with hin | hout
  · cases (emitIo_ok b hin).symm.trans h
    exact emitIo_ok b hin
  · cases (emitIo_outside b hout).symm.trans h

/-- A sink that accepts takes every byte, and only the trace moves. -/
theorem emitAll_accepting (bs : List Byte) (h : s.snk.writes = []) (h' : s.snk.accepting = true) :
    emitAll emitSink bs s = .ok () { s with history := (writesOk bs).reverse ++ s.history } := by
  induction bs generalizing s with
  | nil => rfl
  | cons b bs ih =>
    rw [emitAll, emitSink_accepting b h h', Res.andThen_ok,
      ih (s := { s with history := .snkWrite b .ok :: s.history }) h h']
    simp [writesOk]

/-- A sink with an Ok listed for each byte takes them all. -/
theorem emitAll_listed (bs : List Byte) {rest : List WriteAnswer}
    (h : s.snk.writes = List.replicate bs.length .ok ++ rest) :
    emitAll emitSink bs s =
      .ok ()
        { s with snk := { s.snk with writes := rest }, history := (writesOk bs).reverse ++ s.history } := by
  induction bs generalizing s with
  | nil => cases h; rfl
  | cons b bs ih =>
    rw [emitAll, emitSink_listed b h, Res.andThen_ok, ih rfl]
    simp [writesOk]

/-- EMIT into IO stores its byte at IP_OUT, advances IP_OUT, and changes no other cell. -/
theorem emitIo_stores (b : Byte) (h : s.ip.out < s.ip.len) :
    ∃ t, emitIo b s = .ok () t ∧
      t =
        { s with
          io := t.io
          history := .ioWrite s.ip.out b :: s.history
          ip := { s.ip with out := s.ip.out + 1 } } ∧
      t.ioByte s.ip.out = some b ∧ ∀ a, a ≠ s.ip.out → t.ioByte a = s.ioByte a :=
  ⟨_, emitIo_ok b h, rfl, memRead_memWrite_same _ _ _ _, fun _ ha => memRead_memWrite_other _ _ _ ha⟩

/-- IO takes the bytes at IP_OUT onward, in order, and no other cell changes. -/
theorem emitAll_io (bs : List Byte) (h : s.ip.out + bs.length ≤ s.ip.len) :
    ∃ t, emitAll emitIo bs s = .ok () t ∧
      t = { s with io := t.io, history := t.history, ip := { s.ip with out := s.ip.out + bs.length } } ∧
      (∀ k, k < bs.length → t.ioByte (s.ip.out + k) = bs[k]?) ∧
      ∀ a, (a < s.ip.out ∨ s.ip.out + bs.length ≤ a) → t.ioByte a = s.ioByte a := by
  induction bs generalizing s with
  | nil => exact ⟨s, rfl, rfl, fun k hk => absurd hk (Nat.not_lt_zero k), fun _ _ => rfl⟩
  | cons b bs ih =>
    rw [List.length_cons] at h ⊢
    obtain ⟨u, hb, hu, hstored, hframe⟩ := emitIo_stores (s := s) b (by omega)
    have hout : u.ip.out = s.ip.out + 1 := by rw [hu]
    have hlen : u.ip.len = s.ip.len := by rw [hu]
    obtain ⟨t, hbs, ht, hcells, hframes⟩ := ih (s := u) (by omega)
    refine ⟨t, emitAll_cons_ok.mpr ⟨u, hb, hbs⟩, ?_, fun k hk => ?_, fun a ha => ?_⟩
    · rw [ht, hu, Nat.add_right_comm, Nat.add_assoc]
    · cases k with
      | zero => exact (hframes _ (by omega)).trans hstored
      | succ k =>
        have hcell := hcells k (by omega)
        rwa [hout, Nat.add_right_comm, Nat.add_assoc] at hcell
    · rw [hframes a (by omega), hframe a (by omega)]

/-! ## WRITE_BITS (R130, R136) -/

/-- The same answer, but the state of a wait is `s`: a byte that EMIT could not deliver is pending there. -/
def waitingIn (s : State) : Res Unit → Res Unit
  | .waits _ => .waits s
  | r => r

theorem drainBits_of_lt {fuel : Nat} (h : s.bw.cnt < 8) : drainBits emit fuel s = .ok () s := by
  cases fuel with
  | zero => rfl
  | succ fuel => rw [drainBits, if_neg (by omega)]

/-- Where 8 bits pend, the loop of WRITE_BITS is an EMIT of the top byte and the loop again. -/
theorem drainBits_of_le {fuel : Nat} {r : Res Unit} (h : 8 ≤ s.bw.cnt)
    (hemit : emit (topByte s.bw) { s with bw := dropBits 8 s.bw } = r) :
    drainBits emit (fuel + 1) s = (waitingIn s r).andThen fun _ t => drainBits emit fuel t := by
  unfold dropBits at hemit
  rw [drainBits, if_pos h, hemit]
  cases r <;> rfl

/-- The loop of WRITE_BITS after `k` bytes that EMIT has taken. -/
theorem drainBits_after {a : BitAcc} {k fuel : Nat} (hemit : IgnoresWriter emit) (hk : 8 * k ≤ a.cnt)
    (h : emitAll emit (pendingBytes k a) s = .ok () t) :
    drainBits emit (fuel + k) { s with bw := a } = drainBits emit fuel { t with bw := dropBits (8 * k) a } := by
  induction k generalizing s a with
  | zero => cases h; rfl
  | succ k ih =>
    obtain ⟨u, hb, hbs⟩ := emitAll_cons_ok.mp h
    have hstep := hemit (dropBits 8 a) _ _ _ hb
    have hrest := ih (by rw [dropBits_cnt]; omega) hbs
    rw [dropBits_dropBits, Nat.add_comm 8] at hrest
    have htop : 8 ≤ a.cnt := by omega
    exact (drainBits_of_le (s := { s with bw := a }) htop hstep).trans hrest

/-- WRITE_BITS after `k` bytes that EMIT has taken: at least one round of the loop is left. -/
theorem writeBits_after {k : Nat} {f : Field} (hemit : IgnoresWriter emit) (hf : f.ok = true)
    (hk : k ≤ (pushBits f s.bw).cnt / 8) (h : emitAll emit (pendingBytes k (pushBits f s.bw)) s = .ok () t) :
    ∃ fuel, writeBits emit f s = drainBits emit (fuel + 1) { t with bw := dropBits (8 * k) (pushBits f s.bw) } := by
  obtain ⟨hpos, -, -⟩ := field_ok_iff.mp hf
  have hcnt := pushBits_cnt f s.bw
  obtain ⟨fuel, hfuel⟩ : ∃ fuel, s.bw.cnt + f.width = fuel + 1 + k := ⟨s.bw.cnt + f.width - k - 1, by omega⟩
  refine ⟨fuel, ?_⟩
  rw [writeBits, if_pos hf, hfuel]
  exact drainBits_after hemit (by omega) h

/-- WRITE_BITS where EMIT takes every whole byte: they are emitted, and the part of a byte stays pending. -/
theorem writeBits_of_emitAll {f : Field} (hemit : IgnoresWriter emit) (hf : f.ok = true)
    (h : emitAll emit (wholeBytes (pushBits f s.bw)) s = .ok () t) :
    writeBits emit f s = .ok () { t with bw := partByte (pushBits f s.bw) } := by
  obtain ⟨fuel, hfuel⟩ := writeBits_after hemit hf le_rfl h
  exact hfuel.trans (drainBits_of_lt (Nat.lt_succ_of_le (partByte_cnt_le _)))

theorem writeBits_refused {f : Field} (hf : f.ok ≠ true) : writeBits emit f s = .refused .fieldOutOfRange :=
  if_neg hf

/-- Settles O12: the bytes are the whole ones of the old pending bits and the field, and EMIT takes the first `k`. -/
theorem writeBitsAppendsTheField : Obligations.WriteBitsAppendsTheField := by
  intro s f hs hf
  refine ⟨wholeBytes (pushBits f s.bw), partByte (pushBits f s.bw),
    (bits_wholeBytes _).trans (bits_pushBits s.bw hf hs), wholeBytes_length _, partByte_cnt _, ?_, ?_, ?_⟩
  · exact fun hw hacc => writeBits_of_emitAll emitSink_ignoresWriter hf (emitAll_accepting _ hw hacc)
  · intro k e rest hk hw
    rw [wholeBytes_length] at hk
    rw [take_wholeBytes hk.le, wholeBytes_getElem? hk]
    refine ⟨_, dropBits 8 (dropBits (8 * k) (pushBits f s.bw)), rfl, ?_⟩
    obtain ⟨fuel, hafter⟩ :=
      writeBits_after emitSink_ignoresWriter hf hk.le (emitAll_listed _ (by rw [pendingBytes_length]; exact hw))
    exact hafter.trans (drainBits_of_le (by rw [dropBits_cnt]; omega) (emitSink_err _ rfl))
  · intro k hk hw hacc
    rw [wholeBytes_length] at hk
    rw [take_wholeBytes hk.le, drop_wholeBytes hk.le, ← partByte_dropBits hk.le, bits_wholeBytes]
    refine ⟨dropBits (8 * k) (pushBits f s.bw), rfl, ?_⟩
    obtain ⟨fuel, hafter⟩ := writeBits_after emitSink_ignoresWriter hf hk.le
      (emitAll_listed (rest := []) _ (by rw [pendingBytes_length, List.append_nil]; exact hw))
    refine hafter.trans (drainBits_of_le ?_ (emitSink_silent _ rfl ?_))
    · rw [dropBits_cnt]
      omega
    · exact hacc

/-- Settles O13: IO takes every whole byte. -/
theorem writeBitsIntoIo : Obligations.WriteBitsIntoIo := by
  intro s f _ hs hf hroom
  have hlen := wholeBytes_length (pushBits f s.bw)
  obtain ⟨t, hemit, ht, hcells, hframe⟩ := emitAll_io (s := s) (wholeBytes (pushBits f s.bw)) (hlen ▸ hroom)
  refine ⟨wholeBytes (pushBits f s.bw), { t with bw := partByte (pushBits f s.bw) },
    writeBits_of_emitAll emitIo_ignoresWriter hf hemit, (bits_wholeBytes _).trans (bits_pushBits s.bw hf hs), hlen,
    partByte_cnt _, ?_, hcells, hframe⟩
  rw [ht]

/-- The bits and the number of the whole bytes fix what WRITE_BITS emits and what it leaves. -/
theorem wholeBytes_unique {a : BitAcc} {bs : List Byte} {bits : List Bool}
    (hbits : bs.flatMap byteBits ++ bits = a.bits)
    (hlen : bs.length = a.cnt / 8) : wholeBytes a = bs ∧ (partByte a).bits = bits := by
  obtain ⟨hbytes, hrest⟩ := List.append_inj ((bits_wholeBytes a).trans hbits.symm) (by simp [hlen])
  exact ⟨flatMap_byteBits_injective hbytes, hrest⟩

/-- A field behind another, as one field (R133). -/
def joinFields (a b : Field) : Field := { value := (a.value <<< b.width) ||| b.value, width := a.width + b.width }

theorem joinFields_ok {a b : Field} (ha : a.ok = true) (hb : b.ok = true) (hwidth : a.width + b.width ≤ 24) :
    (joinFields a b).ok = true := by
  obtain ⟨hpos, -, hva⟩ := field_ok_iff.mp ha
  obtain ⟨-, -, hvb⟩ := field_ok_iff.mp hb
  refine field_ok_iff.mpr ⟨Nat.le_add_right_of_le hpos, hwidth, Nat.or_lt_two_pow ?_ ?_⟩
  · rw [joinFields, Nat.shiftLeft_eq, Nat.pow_add]
    exact Nat.mul_lt_mul_of_pos_right hva (Nat.two_pow_pos _)
  · exact hvb.trans_le (Nat.pow_le_pow_right (by decide) (Nat.le_add_left _ _))

theorem bits_pushBits_joinFields {a b : Field} (acc : BitAcc) (ha : a.ok = true) (hb : b.ok = true)
    (hwidth : a.width + b.width ≤ 24) (hacc : acc.cnt ≤ 7) :
    (pushBits (joinFields a b) acc).bits = acc.bits ++ bitsOf a.value a.width ++ bitsOf b.value b.width := by
  obtain ⟨-, -, hvb⟩ := field_ok_iff.mp hb
  rw [bits_pushBits acc (joinFields_ok ha hb hwidth) hacc, joinFields, bitsOf_shiftLeft_or _ _ _ _ hvb,
    List.append_assoc]

/-- Settles O15: the whole bytes of the one field and then of the other are those of both bit strings joined. -/
theorem writingTwoFieldsIsWritingTheJoinedField : Obligations.WritingTwoFieldsIsWritingTheJoinedField := by
  intro s a b hs ha hb hw hacc
  have hbits :
      (wholeBytes (pushBits a s.bw) ++ wholeBytes (pushBits b (partByte (pushBits a s.bw)))).flatMap byteBits ++
          (partByte (pushBits b (partByte (pushBits a s.bw)))).bits =
        s.bw.bits ++ bitsOf a.value a.width ++ bitsOf b.value b.width := by
    rw [List.flatMap_append, List.append_assoc, bits_wholeBytes, bits_pushBits _ hb (partByte_cnt_le _),
      ← List.append_assoc, bits_wholeBytes, bits_pushBits _ ha hs]
  refine ⟨_, _, _,
    writeBits_of_emitAll emitSink_ignoresWriter ha (emitAll_accepting _ hw hacc),
    writeBits_of_emitAll emitSink_ignoresWriter hb (emitAll_accepting _ hw hacc), by simp [writesOk],
    partByte_cnt_le _, hbits, fun hwidth => ?_⟩
  obtain ⟨hbytes, hrest⟩ :=
    wholeBytes_unique (hbits.trans (bits_pushBits_joinFields s.bw ha hb hwidth hs).symm) (by simp [joinFields]; omega)
  have hjoined :=
    writeBits_of_emitAll emitSink_ignoresWriter (joinFields_ok ha hb hwidth) (emitAll_accepting _ hw hacc)
  rw [hbytes] at hjoined
  exact ⟨_, hjoined, by simp [writesOk], by simp [joinFields]; omega, hrest⟩

/-! ## FLUSH (R132) -/

/-- The byte FLUSH emits: the pending bits, left-justified. -/
def flushByte (a : BitAcc) : Byte := BitVec.ofNat 8 ((a.acc.toNat <<< (8 - a.cnt)) &&& 0xFF)

theorem byteBits_flushByte {a : BitAcc} (h : a.cnt ≤ 8) :
    byteBits (flushByte a) = a.bits ++ List.replicate (8 - a.cnt) false := by
  have hjustified := bitsOf_shiftLeft_or a.acc.toNat 0 a.cnt (8 - a.cnt) (Nat.two_pow_pos _)
  rw [Nat.or_zero, Nat.add_sub_cancel' h, bitsOf_zero] at hjustified
  rw [flushByte, byteBits_ofNat]
  exact (bitsOf_and_mask _ 8 8 le_rfl).trans hjustified

theorem flushBits_of_none (h : s.bw.cnt = 0) : flushBits emit s = .ok () s := by
  rw [flushBits, if_neg (by omega)]

theorem flushBits_of_pos {r : Res Unit} (h : 0 < s.bw.cnt)
    (hemit : emit (flushByte s.bw) { s with bw := { s.bw with cnt := 0 } } = r) :
    flushBits emit s = waitingIn s r := by
  rw [flushByte] at hemit
  rw [flushBits, if_pos h, hemit]
  cases r <;> rfl

/-- Settles O14: each answer to the EMIT of the padded byte. -/
theorem flushPadsThePendingBits : Obligations.FlushPadsThePendingBits := by
  refine fun s hs => ⟨fun hnone => ⟨flushBits_of_none hnone, flushBits_of_none hnone⟩, fun hcnt =>
    ⟨flushByte s.bw, byteBits_flushByte (by omega), ?_, ?_, ?_, ?_⟩⟩
  · exact fun hw hacc => flushBits_of_pos hcnt (emitSink_accepting _ hw hacc)
  · exact fun e rest hw => flushBits_of_pos hcnt (emitSink_err _ hw)
  · exact fun hw hacc => flushBits_of_pos hcnt (emitSink_silent _ hw hacc)
  · intro _ hroom
    obtain ⟨t, hemit, hstored⟩ :=
      emitIo_stores (s := { s with bw := { s.bw with cnt := 0 } }) (flushByte s.bw) hroom
    exact ⟨t, flushBits_of_pos hcnt hemit, hstored⟩

end Sys2Proof.Proofs

/-! The reader of the bit codec (R134 to R136). -/

namespace Sys2Proof.Proofs

open Sys2Proof Sys2Proof.Machine

variable {s t : State} {len : Nat}

/-- The accumulator with a byte behind its valid bits (R134). -/
def pushByte (a : BitAcc) (b : Byte) : BitAcc :=
  { acc := BitVec.ofNat 32 ((a.acc.toNat <<< 8) ||| b.toNat), cnt := a.cnt + 8 }

@[simp] theorem pushByte_cnt (a : BitAcc) (b : Byte) : (pushByte a b).cnt = a.cnt + 8 := rfl

theorem foldl_pushByte_cnt (a : BitAcc) (bs : List Byte) : (bs.foldl pushByte a).cnt = a.cnt + 8 * bs.length := by
  induction bs generalizing a with
  | nil => rfl
  | cons b bs ih =>
    rw [List.foldl_cons, ih, List.length_cons, pushByte_cnt]
    omega

theorem bits_foldl_pushByte (a : BitAcc) (bs : List Byte) (h : a.cnt + 8 * bs.length ≤ 32) :
    (bs.foldl pushByte a).bits = a.bits ++ bs.flatMap byteBits := by
  induction bs generalizing a with
  | nil => simp
  | cons b bs ih =>
    rw [List.length_cons] at h
    have hpush : (pushByte a b).bits = a.bits ++ byteBits b := bits_shiftIn a b.isLt (by omega)
    rw [List.foldl_cons, ih _ (by rw [pushByte_cnt]; omega), hpush, List.append_assoc, List.flatMap_cons]

theorem fillBits_of_le {fuel : Nat} (h : len ≤ s.br.cnt) : fillBits len fuel s = .ok true s := by
  cases fuel with
  | zero => rfl
  | succ fuel => rw [fillBits, if_neg (by omega)]

/-- The loop of READ_BITS takes a byte off the source while it needs one (R134). -/
theorem fillBits_of_bytes {fuel : Nat} {bs : List Byte} {rest : List SrcAnswer} (hsrc : s.src = bs.map .byte ++ rest)
    (hneed : s.br.cnt + 8 * bs.length < len + 8) (hfuel : bs.length ≤ fuel) :
    fillBits len fuel s =
      fillBits len (fuel - bs.length)
        { s with
          br := bs.foldl pushByte s.br, src := rest, history := (readsOf bs).reverse ++ s.history } := by
  induction bs generalizing s fuel with
  | nil => cases hsrc; rfl
  | cons b bs ih =>
    rw [List.length_cons] at hneed hfuel
    obtain ⟨fuel, rfl⟩ := Nat.exists_eq_add_of_le' (Nat.one_le_of_lt hfuel)
    have hread := srcRead_byte (rest := bs.map .byte ++ rest) hsrc
    have hcnt : s.br.cnt < len := by omega
    rw [fillBits, if_pos hcnt, hread]
    refine (ih rfl (by dsimp only; omega) (by omega)).trans ?_
    simp [readsOf, pushByte]

/-- The loop of READ_BITS ends without enough bits where the source does (R135). -/
theorem fillBits_of_end {fuel : Nat} (hcnt : s.br.cnt < len) (hfuel : fuel ≠ 0) (hsrc : s.src = [.endOfData]) :
    fillBits len fuel s = .ok false { s with history := .srcRead .endOfData :: s.history } := by
  obtain ⟨fuel, rfl⟩ := Nat.exists_eq_succ_of_ne_zero hfuel
  rw [fillBits, if_pos hcnt, srcRead_end hsrc]

theorem readBits_of_enough (hlen : 1 ≤ len ∧ len ≤ Config.maxField) (h : fillBits len len s = .ok true t) :
    readBits len s =
      .ok (some ((t.br.acc.toNat >>> (t.br.cnt - len)) &&& (2 ^ len - 1))) { t with br := dropBits len t.br } := by
  rw [readBits, if_pos hlen, h]
  rfl

theorem readBits_of_short (hlen : 1 ≤ len ∧ len ≤ Config.maxField) (h : fillBits len len s = .ok false t) :
    readBits len s = .ok none t := by
  rw [readBits, if_pos hlen, h]
  rfl

/-- Settles O16: the bytes fill the buffer, and the number is its first `len` bits. -/
theorem readBitsReturnsTheNextBits : Obligations.ReadBitsReturnsTheNextBits := by
  intro s len bs rest hpos hle hcnt hsrc hbytes
  have hfilled := foldl_pushByte_cnt s.br bs
  have henough : len ≤ (bs.foldl pushByte s.br).cnt := by omega
  have hfill := (fillBits_of_bytes hsrc (by omega) (fuel := len) (by omega)).trans (fillBits_of_le henough)
  refine ⟨_, _, readBits_of_enough ⟨hpos, hle⟩ hfill, ?_, ?_, ?_⟩
  · exact Nat.and_lt_two_pow _ (Nat.sub_lt (Nat.two_pow_pos len) Nat.one_pos)
  · rw [bitsOf_and_mask _ len len le_rfl, ← bits_eq_append _ henough, bits_foldl_pushByte s.br bs (by omega)]
  · rw [dropBits_cnt]
    dsimp only
    omega

/-- Settles O17: the bytes there are, and then the End. -/
theorem readBitsMeetsTheEnd : Obligations.ReadBitsMeetsTheEnd := by
  intro s len bs hpos hle hsrc hshort
  refine ⟨bs.foldl pushByte s.br, readBits_of_short ⟨hpos, hle⟩ ?_⟩
  refine (fillBits_of_bytes hsrc (by omega) (by omega)).trans (fillBits_of_end ?_ (by omega) rfl)
  dsimp only
  rw [foldl_pushByte_cnt]
  exact hshort

/-- Settles O18: a field that is not `Field.ok`, and a length outside the reader's limits. -/
theorem codecRefusesOutOfRangeFields : Obligations.CodecRefusesOutOfRangeFields := by
  refine ⟨fun emit f s hbad => writeBits_refused fun hok => ?_, fun len s hbad => if_neg fun hlen => ?_⟩
  · obtain ⟨hpos, hwidth, hvalue⟩ := field_ok_iff.mp hok
    omega
  · obtain ⟨hpos, hle⟩ := hlen
    have : len ≤ 24 := hle
    omega

end Sys2Proof.Proofs

/-! The sliding window of COMPRESS: one round of FILL, and the compaction (R151, R155, R78). -/

namespace Sys2Proof.Proofs

open Sys2Proof Sys2Proof.Machine

variable {p : ParamSet} {s : State}

/-! ## FILL (R151) -/

theorem srcRead_err {e : ErrR} {rest : List SrcAnswer} (h : s.src = .err e :: rest) :
    srcRead s = .got (.err e) { s with src := rest, history := .srcRead (.err e) :: s.history } := by
  simp [srcRead, h]

theorem fillOp_byte {b : Byte} {rest : List SrcAnswer} (hroom : s.cp.be < 2 * p.n) (hin : s.cp.be < s.build.wbufBytes)
    (hsrc : s.src = .byte b :: rest) :
    fillOp p s =
      .ok ()
        { s with
          src := rest
          history := .srcRead (.byte b) :: s.history
          win := memWrite Config.winUnlisted s.win s.cp.be b
          cp := { s.cp with be := s.cp.be + 1 } } := by
  rw [fillOp, if_pos hroom, srcRead_byte hsrc]
  simp [onAccess_ok, winWrite, hin]

theorem fillOp_end (hroom : s.cp.be < 2 * p.n) (hsrc : s.src = [.endOfData]) :
    fillOp p s = .ok () { s with history := .srcRead .endOfData :: s.history, seq := .busy .cSearch } := by
  rw [fillOp, if_pos hroom, srcRead_end hsrc]

theorem fillOp_err {e : ErrR} {rest : List SrcAnswer} (hroom : s.cp.be < 2 * p.n) (hsrc : s.src = .err e :: rest) :
    fillOp p s =
      .ended (endCommand (.readError e) { s with src := rest, history := .srcRead (.err e) :: s.history }) := by
  rw [fillOp, if_pos hroom, srcRead_err hsrc]

theorem fillOp_full (hfull : 2 * p.n ≤ s.cp.be) : fillOp p s = .ok () { s with seq := .busy .cSearch } := by
  rw [fillOp, if_neg (Nat.not_lt.mpr hfull)]

/-- Settles O24: a round for each answer of the source, and one with the window full. -/
theorem fillStoresTheNextByte : Obligations.FillStoresTheNextByte := fun _ _ =>
  ⟨fun _ _ hroom hin hsrc =>
      ⟨_, fillOp_byte hroom hin hsrc, rfl, memRead_memWrite_same _ _ _ _, fun _ => memRead_memWrite_other _ _ _⟩,
    fillOp_end, fun _ _ => fillOp_err, fillOp_full⟩

/-! ## COMPACT (R155) -/

theorem compactOp_of_room (hroom : 2 * p.n ≤ s.build.wbufBytes) :
    compactOp p s =
      .ok ()
        { s with
          win := memMoveDown p.n s.win
          cp := { r := s.cp.r - p.n, s := s.cp.s - p.n, be := s.cp.be - p.n }
          seq := .busy .cRefill } := by
  rw [compactOp, if_neg (Nat.not_lt.mpr hroom)]

/-- Settles O25: the copy reads WIN[N + a] below N and leaves the cells from N on. -/
theorem compactionMovesTheWindowDown : Obligations.CompactionMovesTheWindowDown := by
  intro p s hroom
  refine ⟨_, compactOp_of_room hroom, rfl, fun a ha => ?_, fun a ha => ?_⟩
  · rw [winByte_eq, winByte_eq, memGet_memMoveDown_low _ _ ha]
  · rw [winByte_eq, winByte_eq, memGet_memMoveDown_high _ _ ha]

end Sys2Proof.Proofs

/-! The frame of LIT and MATCH: bytes put one after another, and nothing else (R161, R186, R187). -/

namespace Sys2Proof.Proofs

open Sys2Proof Sys2Proof.Machine

variable {p : ParamSet} {s t u : State} {m n : Nat}

/-! ## Bytes put -/

theorem cursorAt_add (p : ParamSet) (r m n : Nat) : cursorAt p r (m + n) = cursorAt p (cursorAt p r m) n := by
  induction n with
  | zero => rfl
  | succ n ih => rw [← Nat.add_assoc, cursorAt, cursorAt, ih]

theorem sinkBytes_append (es fs : List Event) : sinkBytes (es ++ fs) = sinkBytes es ++ sinkBytes fs :=
  List.filterMap_append

/-- From `s` to `t` the sink has accepted exactly `n` bytes, each stored at the cursor and the cursor moved on (R161,
R162); beyond that only SEQ, STATUS and RESULT, the sink and the trace may differ. -/
structure HasPut (p : ParamSet) (n : Nat) (s t : State) : Prop where
  frame : t = { s with seq := t.seq, res := t.res, win := t.win, dR := t.dR, snk := t.snk, history := t.history }
  trace : ∃ es, t.history = es ++ s.history ∧ (sinkBytes es).length = n
  cursor : t.dR = cursorAt p s.dR n
  cells : ∀ a, (∀ k, k < n → a ≠ cursorAt p s.dR k) → t.winByte a = s.winByte a

theorem HasPut.refl (p : ParamSet) (s : State) : HasPut p 0 s s := ⟨rfl, ⟨[], rfl, rfl⟩, rfl, fun _ _ => rfl⟩

theorem HasPut.trans (h : HasPut p m s t) (h' : HasPut p n t u) : HasPut p (m + n) s u where
  frame := by rw [h'.frame, h.frame]
  trace := by
    obtain ⟨es, hes, rfl⟩ := h.trace
    obtain ⟨fs, hfs, rfl⟩ := h'.trace
    refine ⟨fs ++ es, by rw [hfs, hes, List.append_assoc], ?_⟩
    rw [sinkBytes_append, List.length_append, Nat.add_comm]
  cursor := by rw [h'.cursor, h.cursor, cursorAt_add]
  cells a ha := by
    refine (h'.cells a fun k hk => ?_).trans (h.cells a fun k hk => ha k (Nat.lt_add_right n hk))
    rw [h.cursor, ← cursorAt_add]
    exact ha (m + k) (Nat.add_lt_add_left hk m)

/-- SEQ, STATUS and RESULT do not count: `endCommand`, and the phase the sequencer goes on in. -/
theorem HasPut.withSeqRes (h : HasPut p n s t) (q : SeqState) (r : ResultRegs) :
    HasPut p n s { t with seq := q, res := r } where
  frame := by rw [h.frame]
  trace := h.trace
  cursor := h.cursor
  cells := h.cells

/-- A PUT that is done has put its byte; one that waits or ends the command has put none (R161, R243). -/
theorem putByte_hasPut (p : ParamSet) (b : Byte) (s : State) :
    Meets (fun _ => HasPut p 1 s) (HasPut p 0 s) True (putByte p b s) := by
  obtain ⟨t, hr, hw⟩ | ⟨hr, -⟩ | ⟨e, t, hr, hw⟩ := emitSink_cases b s <;> rw [putByte, hr]
  · rw [(snkWrite_got hw).1]
    refine onAccess_meets (fun u hu => ?_) (fun hu => ?_) fun _ _ => trivial
    · rw [(winWrite_ok.mp hu).2]
      refine ⟨rfl, ⟨[.snkWrite b .ok], rfl, rfl⟩, rfl, fun a ha => ?_⟩
      exact memRead_memWrite_other _ _ _ (ha 0 Nat.one_pos)
    · rw [winWrite] at hu
      split at hu <;> cases hu
  · exact .refl p s
  · rw [(snkWrite_got hw).1]
    exact ⟨rfl, ⟨[.snkWrite b (.err e)], rfl, rfl⟩, rfl, fun _ _ => rfl⟩

/-! ## The two tokens -/

/-- What a token of `len` bytes may leave: as many of them put as the sink accepted. -/
def HasPutUpTo (p : ParamSet) (len : Nat) (s t : State) : Prop := ∃ n ≤ len, HasPut p n s t

theorem litOp_hasPutUpTo (p : ParamSet) (b : Byte) (s : State) : (litOp p b s).All (HasPutUpTo p 1 s) := by
  have hput := putByte_hasPut p b s
  rw [litOp]
  generalize putByte p b s = r at hput ⊢
  cases r with
  | ok a t => exact ⟨1, le_rfl, hput.withSeqRes _ t.res⟩
  | waits t => exact ⟨0, Nat.zero_le 1, hput.withSeqRes _ t.res⟩
  | ended t => exact ⟨0, Nat.zero_le 1, hput⟩
  | _ => trivial

/-- Each step of the copy puts one byte, or is the last (R187). -/
theorem copyLoop_hasPutUpTo (p : ParamSet) (offset len left k : Nat) (s : State) :
    (copyLoop p offset len left k s).All (HasPutUpTo p left s) := by
  induction left generalizing k s with
  | zero => exact ⟨0, le_rfl, (HasPut.refl p s).withSeqRes _ s.res⟩
  | succ left ih =>
    refine onAccess_all ⟨0, Nat.zero_le _, (HasPut.refl p s).withSeqRes _ _⟩ fun c _ => ?_
    have hput := putByte_hasPut p c s
    generalize putByte p c s = r at hput ⊢
    cases r with
    | ok a t => exact (ih (k + 1) t).imp fun u ⟨n, hn, hrest⟩ => ⟨1 + n, by omega, HasPut.trans hput hrest⟩
    | waits t => exact ⟨0, Nat.zero_le _, hput.withSeqRes _ t.res⟩
    | ended t => exact ⟨0, Nat.zero_le _, hput⟩
    | _ => trivial

theorem exec_lit_next {b : Byte} (hps : s.ps = some p) (h : exec (.lit b) s = .next t) :
    (litOp p b s).outcome = .next t := by
  rw [exec, execLit, hps] at h
  split at h
  · exact h
  · cases h

theorem exec_matchTok_next {offset len : Nat} (hps : s.ps = some p) (h : exec (.matchTok offset len) s = .next t) :
    (copyLoop p offset len len 0 s).outcome = .next t := by
  rw [exec, execMatch, hps] at h
  split at h
  · exact h
  · cases h

/-- Settles O30: either token puts one byte after another, and stops where the sink does. -/
theorem tokensChangeOnlyTheirOutput : Obligations.TokensChangeOnlyTheirOutput := by
  intro s t p i len htoken hps hexec
  have hput : HasPutUpTo p len s t := by
    obtain ⟨⟨b, rfl⟩, rfl⟩ | ⟨offset, rfl⟩ := htoken
    · exact Res.outcome_next (litOp_hasPutUpTo p b s) (exec_lit_next hps hexec)
    · exact Res.outcome_next (copyLoop_hasPutUpTo p offset len len 0 s) (exec_matchTok_next hps hexec)
  obtain ⟨n, hn, hframe, ⟨es, hes, rfl⟩, hcursor, hcells⟩ := hput
  exact ⟨hframe, es, hes, hn, hcursor, hcells⟩

end Sys2Proof.Proofs

/-! What SEARCH finds and what it reads (R171, R172, R174). -/

namespace Sys2Proof.Proofs

open Sys2Proof Sys2Proof.Machine

variable {B B' : Nat → Except MemStop Byte} {g : Nat → Byte} {s r f1 lo : Nat} {q q' : SearchRegs}

/-! ## The best match among the candidates looked at -/

/-- The registers after the candidates of [lo, r): no longer match among them, and the best match is the initial
(0, 1) or the most recent candidate of its length, which is 2 or more. -/
structure IsBest (g : Nat → Byte) (r f1 lo : Nat) (q : SearchRegs) : Prop where
  longest : ∀ i l, lo ≤ i → i < r → matchLength g i r f1 l → l ≤ q.y
  best : q.x = 0 ∧ q.y = 1 ∨
    2 ≤ q.y ∧ lo ≤ q.x ∧ q.x < r ∧ matchLength g q.x r f1 q.y ∧
      ∀ i l, q.x < i → i < r → matchLength g i r f1 l → l < q.y

theorem IsBest.one_le_y (h : IsBest g r f1 lo q) : 1 ≤ q.y := by
  obtain ⟨-, hy⟩ | ⟨hy, -⟩ := h.best <;> omega

theorem IsBest.y_le (h : IsBest g r f1 lo q) (hf1 : 1 ≤ f1) : q.y ≤ f1 := by
  obtain ⟨-, hy⟩ | ⟨-, -, -, hlen, -⟩ := h.best
  · exact hy ▸ hf1
  · exact hlen.1

/-- Before the first candidate the best match is (0, 1). -/
theorem isBest_initial (hx : q.x = 0) (hy : q.y = 1) : IsBest g r f1 r q :=
  ⟨fun _ _ hlo hr _ => absurd hr (Nat.not_lt.2 hlo), .inl ⟨hx, hy⟩⟩

/-- The best match once candidate `lo`, of length `l`, is looked at too (R172). -/
def TakesBetter (lo l : Nat) (q q' : SearchRegs) : Prop :=
  q.y < l ∧ q'.x = lo ∧ q'.y = l ∨ l ≤ q.y ∧ q'.x = q.x ∧ q'.y = q.y

/-- Only a strictly longer match replaces the best, so that ties go to the more recent candidate (R172). -/
theorem IsBest.takesBetter {l : Nat} (h : IsBest g r f1 (lo + 1) q) (hlo : lo < r) (hl : matchLength g lo r f1 l)
    (htake : TakesBetter lo l q q') : IsBest g r f1 lo q' := by
  have hlongest : ∀ i m, lo ≤ i → i < r → matchLength g i r f1 m → m ≤ max q.y l := fun i m hi hr hm => by
    obtain rfl | hi := Nat.eq_or_lt_of_le hi
    · exact le_max_of_le_right (matchLength_unique hm hl).le
    · exact le_max_of_le_left (h.longest i m hi hr hm)
  obtain ⟨hlt, hx, hy⟩ | ⟨hle, hx, hy⟩ := htake
  · refine ⟨by rwa [hy, ← max_eq_right hlt.le], .inr ?_⟩
    rw [hx, hy]
    have := h.one_le_y
    exact ⟨by omega, le_rfl, hlo, hl, fun i m hi hr hm => (h.longest i m hi hr hm).trans_lt hlt⟩
  · refine ⟨by rwa [hy, ← max_eq_left hle], ?_⟩
    rw [hx, hy]
    exact h.best.imp_right fun ⟨hy2, hxlo, hrest⟩ => ⟨hy2, by omega, hrest⟩

/-- One candidate of the scan, over bytes that are there: its match length is taken if it is the better one. -/
theorem scanMatches_succ {n : Nat} (hf1 : 1 ≤ f1) (hB : ∀ i, s ≤ i → i < r + f1 → B i = .ok (g i)) (hn : s + n < r)
    (hqf : q.f1 = f1) (hqc : q.c = g r) :
    ∃ l q', scanMatches B s r (n + 1) q = scanMatches B s r n q' ∧ q'.f1 = f1 ∧ q'.c = g r ∧
      matchLength g (s + n) r f1 l ∧ TakesBetter (s + n) l q q' := by
  subst hqf
  rw [scanMatches, hB (s + n) (by omega) (by omega)]
  dsimp only
  split
  · rename_i hfirst
    have hagree : agreeFor g (s + n) r 1 := fun m hm => by
      obtain rfl : m = 0 := by omega
      exact hfirst.trans hqc
    obtain ⟨l, hext, -, hl⟩ := extendMatch_ok (B := B) (g := g) (i := s + n) (r := r)
      (fun m hm => ⟨hB _ (by omega) (by omega), hB _ (by omega) (by omega)⟩) q.f1 1 hf1 (by omega) hagree
    rw [hext]
    dsimp only
    split
    · rename_i hlt
      exact ⟨l, _, rfl, rfl, hqc, hl, .inl ⟨hlt, rfl, rfl⟩⟩
    · rename_i hle
      exact ⟨l, _, rfl, rfl, hqc, hl, .inr ⟨Nat.not_lt.1 hle, rfl, rfl⟩⟩
  · rename_i hfirst
    exact ⟨0, _, rfl, rfl, hqc, matchLength_zero (hqc ▸ hfirst), .inr ⟨Nat.zero_le _, rfl, rfl⟩⟩

/-- The scan ends at the best match of all candidates. -/
theorem scanMatches_isBest (hf1 : 1 ≤ f1) (hB : ∀ i, s ≤ i → i < r + f1 → B i = .ok (g i)) (n : Nat) (hn : s + n ≤ r)
    (hqf : q.f1 = f1) (hqc : q.c = g r) (hbest : IsBest g r f1 (s + n) q) :
    ∃ t, scanMatches B s r n q = .ok t ∧ IsBest g r f1 s t := by
  induction n generalizing q with
  | zero => exact ⟨q, rfl, hbest⟩
  | succ n ih =>
    obtain ⟨l, q', heq, hqf', hqc', hl, htake⟩ := scanMatches_succ hf1 hB hn hqf hqc
    rw [heq]
    exact ih (by omega) hqf' hqc' (hbest.takesBetter hn hl htake)

theorem searchMatch_isBest (old : SearchRegs) (hsr : s ≤ r) (hf1 : 1 ≤ f1)
    (hB : ∀ i, s ≤ i → i < r + f1 → B i = .ok (g i)) :
    ∃ q, searchMatch B s r f1 old = .ok q ∧ IsBest g r f1 s q := by
  rw [searchMatch, hB r hsr (by omega)]
  refine scanMatches_isBest hf1 hB (r - s) (by omega) rfl rfl ?_
  rw [Nat.add_sub_cancel' hsr]
  exact isBest_initial rfl rfl

/-- Settles O22: the scan's best match, read off in each of R171's two cases. -/
theorem searchFindsTheMostRecentLongestMatch : Obligations.SearchFindsTheMostRecentLongestMatch := by
  intro B g s r f1 old hsr hf1 hB
  obtain ⟨q, hq, hbest⟩ := searchMatch_isBest old hsr.le hf1 hB
  refine ⟨q, hq, hbest.one_le_y, hbest.y_le hf1, ?_, ?_⟩
  · rintro ⟨i, l, hi, hr, hl, h2⟩
    have hly := hbest.longest i l hi hr hl
    obtain ⟨-, hy⟩ | ⟨-, hlo, hhi, hlen, hrecent⟩ := hbest.best
    · omega
    · exact ⟨hlo, hhi, hlen, hbest.longest, hrecent⟩
  · intro hshort
    obtain hinitial | ⟨hy, hlo, hhi, hlen, -⟩ := hbest.best
    · exact hinitial
    · have := hshort _ _ hlo hhi hlen
      omega

/-! ## The bytes SEARCH reads -/

/-- The extension reads the first f1 bytes from the candidate and from `r`, failing reads included. -/
theorem extendMatch_congr {i : Nat} (hB : ∀ m, m < f1 → B (i + m) = B' (i + m) ∧ B (r + m) = B' (r + m))
    (fuel j : Nat) : extendMatch B i r f1 fuel j = extendMatch B' i r f1 fuel j := by
  induction fuel generalizing j with
  | zero => rfl
  | succ fuel ih =>
    by_cases hj : j < f1
    · obtain ⟨hi, hr⟩ := hB j hj
      simp only [extendMatch, hi, hr, ih]
    · simp only [extendMatch, hj, if_false]

theorem scanMatches_congr (hB : ∀ i, s ≤ i → i < r + f1 → B i = B' i) (n : Nat) (hn : s + n ≤ r) (hqf : q.f1 = f1) :
    scanMatches B s r n q = scanMatches B' s r n q := by
  induction n generalizing q with
  | zero => rfl
  | succ n ih =>
    have hext : extendMatch B (s + n) r f1 f1 1 = extendMatch B' (s + n) r f1 f1 1 :=
      extendMatch_congr (fun m hm => ⟨hB _ (by omega) (by omega), hB _ (by omega) (by omega)⟩) f1 1
    have hscan : ∀ t : SearchRegs, t.f1 = f1 → scanMatches B s r n t = scanMatches B' s r n t :=
      fun t ht => ih (by omega) ht
    simp only [scanMatches, hB (s + n) (by omega) (by omega), hqf, hext, hscan]

/-- Settles O23: c is read at `r`, each candidate in [s, r), and an extension tests `j < f1` first (R174). -/
theorem searchReadsOnlyTheWindow : Obligations.SearchReadsOnlyTheWindow := by
  intro B B' s r f1 old hsr hf1 hB
  have hscan : ∀ q : SearchRegs, q.f1 = f1 → scanMatches B s r (r - s) q = scanMatches B' s r (r - s) q :=
    fun q hq => scanMatches_congr hB (r - s) (by omega) hq
  simp only [searchMatch, hB r hsr (by omega), hscan]

end Sys2Proof.Proofs

/-! The reference tokens of an input: what each stands for, and what the decoder makes of them (R171, R180, R190). -/

namespace Sys2Proof.Proofs

open Sys2Proof Sys2Proof.Machine

variable {p : ParamSet} {data : List Byte} {d : Decoded} {i : Instr} {r : Nat}

/-! ## The tokens chosen -/

/-- The byte of the unbounded window at an index (R153, R207); past its end no byte is meant. -/
def flatCell (p : ParamSet) (data : List Byte) (i : Nat) : Byte := if i < p.dict then p.c else data.getD (i - p.dict) 0

theorem flatByte_eq {k : Nat} (h : k < p.dict + data.length) : flatByte p data k = .ok (flatCell p data k) := by
  rw [flatByte, flatCell]
  split
  · rfl
  · have hin : k - p.dict < data.length := by omega
    simp [hin]

/-- How far the search at `r` may look ahead (R152). -/
def flatAhead (p : ParamSet) (data : List Byte) (r : Nat) : Nat := min p.f (p.dict + data.length - r)

theorem flatAhead_le (p : ParamSet) (data : List Byte) (r : Nat) :
    flatAhead p data r ≤ p.f ∧ flatAhead p data r ≤ p.dict + data.length - r :=
  ⟨Nat.min_le_left _ _, Nat.min_le_right _ _⟩

theorem flatAhead_pos (hr : r < p.dict + data.length) : 1 ≤ flatAhead p data r := by
  have hpos := p.f_pos
  rw [flatAhead]
  omega

/-- The token at `r` is what ENCODE_TOKEN makes of the best match there (R171, R180, R182). -/
def IsChosen (p : ParamSet) (data : List Byte) (r : Nat) (i : Instr) : Prop :=
  ∃ q, IsBest (flatCell p data) r (flatAhead p data r) (r - p.dict) q ∧
    i = if q.y ≤ p.p then .lit (flatCell p data r) else .matchTok (q.x % p.n) q.y

/-- Where input is left, a token is chosen and the rest follows behind its span. -/
theorem flatTokens_succ {fuel : Nat} (hlo : p.dict ≤ r) (hhi : r < p.dict + data.length) :
    ∃ i, IsChosen p data r i ∧ flatTokens p data (fuel + 1) r = i :: flatTokens p data fuel (r + tokenSpan i) := by
  have hahead := flatAhead_le p data r
  obtain ⟨q, hq, hbest⟩ := searchMatch_isBest (B := flatByte p data) (g := flatCell p data) (s := r - p.dict) (r := r)
    State.reset.sr (Nat.sub_le _ _) (flatAhead_pos hhi) fun k _ hk => flatByte_eq (by omega)
  refine ⟨_, ⟨q, hbest, rfl⟩, ?_⟩
  rw [flatAhead] at hq
  rw [flatTokens, if_pos hhi, hq]
  dsimp only
  rw [flatByte_eq hhi]
  split <;> rfl

theorem flatTokens_of_end {fuel : Nat} (hend : p.dict + data.length ≤ r) : flatTokens p data fuel r = [] := by
  cases fuel with
  | zero => rfl
  | succ fuel => rw [flatTokens, if_neg (by omega)]

/-- What a chosen token stands for (R171, R180): the byte at `r`, or a match in the window, inside the input. -/
theorem IsChosen.lit_or_match (h : IsChosen p data r i) (hp : 1 ≤ p.p) :
    i = .lit (flatCell p data r) ∨
      ∃ x len, i = .matchTok (x % p.n) len ∧ p.p < len ∧ len ≤ p.f ∧ len ≤ p.dict + data.length - r ∧
        r ≤ x + p.dict ∧ x < r ∧ agreeFor (flatCell p data) x r len := by
  obtain ⟨q, hbest, rfl⟩ := h
  split
  · exact .inl rfl
  · rename_i hlong
    obtain ⟨-, hy⟩ | ⟨-, hlo, hhi, ⟨hlen, hagree, -⟩, -⟩ := hbest.best
    · omega
    · have hahead := flatAhead_le p data r
      exact .inr ⟨q.x, q.y, rfl, by omega, by omega, by omega, by omega, hhi, hagree⟩

theorem IsChosen.span (h : IsChosen p data r i) (hp : 1 ≤ p.p) (hr : r < p.dict + data.length) :
    1 ≤ tokenSpan i ∧ r + tokenSpan i ≤ p.dict + data.length := by
  obtain rfl | ⟨x, len, rfl, hlo, -, hin, -⟩ := h.lit_or_match hp
  · exact ⟨le_rfl, hr⟩
  · rw [tokenSpan_matchTok]
    omega

theorem IsChosen.wf (h : IsChosen p data r i) (hp : 1 ≤ p.p) : cmdCode i = none ∧ i.wf p = true := by
  obtain rfl | ⟨x, len, rfl, hlo, hhi, -⟩ := h.lit_or_match hp
  · exact ⟨rfl, rfl⟩
  · exact ⟨rfl, p.and_mask x ▸ matchTok_wf x hlo hhi⟩

/-- THE INDUCTION over the reference tokens: `P` of the tokens from `r` on, if it holds at the end of the input and is
carried back over each chosen token. -/
theorem flatTokens_induction {P : Nat → List Instr → Prop} (hp : 1 ≤ p.p) (hend : P (p.dict + data.length) [])
    (hstep : ∀ r i ts, r < p.dict + data.length → p.dict ≤ r → IsChosen p data r i → P (r + tokenSpan i) ts →
      P r (i :: ts)) :
    ∀ fuel r, p.dict ≤ r → r ≤ p.dict + data.length → p.dict + data.length ≤ r + fuel →
      P r (flatTokens p data fuel r) := by
  intro fuel
  induction fuel with
  | zero =>
    intro r _ hhi hfuel
    obtain rfl : r = p.dict + data.length := by omega
    exact hend
  | succ fuel ih =>
    intro r hlo hhi hfuel
    obtain rfl | hlt := Nat.eq_or_lt_of_le hhi
    · rw [flatTokens_of_end le_rfl]
      exact hend
    · obtain ⟨i, hi, htokens⟩ := flatTokens_succ (fuel := fuel) hlo hlt
      obtain ⟨hpos, hin⟩ := hi.span hp hlt
      rw [htokens]
      exact hstep r i _ hlt hlo hi (ih _ (by omega) hin (by omega))

theorem compressTokens_induction {P : Nat → List Instr → Prop} (hp : 1 ≤ p.p) (hend : P (p.dict + data.length) [])
    (hstep : ∀ r i ts, r < p.dict + data.length → p.dict ≤ r → IsChosen p data r i → P (r + tokenSpan i) ts →
      P r (i :: ts)) : P p.dict (compressTokens p data) :=
  flatTokens_induction hp hend hstep _ _ le_rfl (Nat.le_add_right _ _) le_rfl

theorem compressTokens_wf {idxW : Nat} (hlegal : p.Legal idxW) :
    ∀ i ∈ compressTokens p data, cmdCode i = none ∧ i.wf p = true := by
  obtain ⟨hp, -⟩ := ParamSet.p_range hlegal
  refine compressTokens_induction (P := fun _ ts => ∀ i ∈ ts, cmdCode i = none ∧ i.wf p = true) hp nofun ?_
  exact fun r i ts _ _ hi hts => List.forall_mem_cons.mpr ⟨hi.wf hp, hts⟩

/-- Settles O42: each chosen token is well-formed, and a well-formed match is longer than P. -/
theorem referenceTokensAreWellFormed : Obligations.ReferenceTokensAreWellFormed := by
  intro idxW p data hlegal i hi
  obtain ⟨htok, hwf⟩ := compressTokens_wf hlegal i hi
  refine ⟨htok, hwf, ?_⟩
  rintro offset len rfl
  obtain ⟨-, hlo, -⟩ := matchTok_bounds hwf
  exact hlo

/-! ## What the decoder makes of them -/

/-- The decoder has put out the input before `r`, and its dictionary holds the last N bytes before `r` (R162, R190). -/
structure HasDecoded (p : ParamSet) (data : List Byte) (r : Nat) (d : Decoded) : Prop where
  lo : p.dict ≤ r
  out : d.out = data.take (r - p.dict)
  cursor : d.cursor = r % p.n
  cells : ∀ k, k < r → r ≤ k + p.n → d.cell (k % p.n) = flatCell p data k

theorem hasDecoded_start {idxW : Nat} (hlegal : p.Legal idxW) : HasDecoded p data p.dict (Decoded.start p) where
  lo := le_rfl
  out := by simp [Decoded.start]
  cursor := by
    have := ParamSet.dict_add_f hlegal
    have := p.f_pos
    have hlt : p.dict < p.n := by omega
    exact (Nat.mod_eq_of_lt hlt).symm
  cells k hk _ := by rw [flatCell, if_pos hk]; rfl

/-- The next byte of the input, put. -/
theorem HasDecoded.put (h : HasDecoded p data r d) (hr : r < p.dict + data.length) :
    HasDecoded p data (r + 1) (d.put p (flatCell p data r)) where
  lo := Nat.le_succ_of_le h.lo
  out := by
    have hlo := h.lo
    have hin : r - p.dict < data.length := by omega
    have hcell : flatCell p data r = data[r - p.dict] := by simp [flatCell, Nat.not_lt.mpr hlo, hin]
    rw [Decoded.put, h.out, hcell, Nat.succ_sub hlo, Nat.succ_eq_add_one, List.take_concat_get' data _ hin]
  cursor := by rw [Decoded.put, h.cursor, Nat.mod_add_mod]
  cells k hk hn := by
    obtain rfl | hlt := Nat.eq_or_lt_of_le (Nat.le_of_lt_succ hk)
    · rw [← h.cursor, put_cell_cursor]
    · have hne : k % p.n ≠ d.cursor := by
        rw [h.cursor]
        have := add_mod_ne (n := p.n) (a := k) (j := 0) (k := r - k) (by omega) (by omega)
        rwa [Nat.add_zero, Nat.add_sub_cancel' hlt.le] at this
      rw [put_cell_of_ne p _ hne, h.cells k hlt (by omega)]

/-- A match at `x` in the window, from its step `k` on: step `k` reads the byte at `x + k`, which is the one at
`r + k` (R187). -/
theorem HasDecoded.copy {x len : Nat} (hdict : p.dict ≤ p.n) (hin : r + len ≤ p.dict + data.length)
    (hlo : r ≤ x + p.dict) (hhi : x < r) (hagree : agreeFor (flatCell p data) x r len) (left k : Nat)
    (hk : k + left = len) (h : HasDecoded p data (r + k) d) :
    HasDecoded p data (r + len) (d.copy p (x % p.n) left k) := by
  induction left generalizing k d with
  | zero => exact hk ▸ h
  | succ left ih =>
    have hread : d.cell ((x % p.n + k) % p.n) = flatCell p data (r + k) := by
      rw [Nat.mod_add_mod, h.cells (x + k) (by omega) (by omega), hagree k (by omega)]
    rw [Decoded.copy, hread]
    exact ih (k + 1) (by omega) (h.put (by omega))

theorem HasDecoded.token (h : HasDecoded p data r d) (hp : 1 ≤ p.p) (hdict : p.dict ≤ p.n) (hi : IsChosen p data r i)
    (hr : r < p.dict + data.length) : HasDecoded p data (r + tokenSpan i) (d.token p i) := by
  obtain rfl | ⟨x, len, rfl, -, -, hin, hlo, hhi, hagree⟩ := hi.lit_or_match hp
  · exact h.put hr
  · exact HasDecoded.copy (r := r) (by omega) (by omega) hlo hhi hagree len 0 (Nat.zero_add len) h

/-- Settles O37: at each position the decoder has put out the input so far, and at the end all of it. -/
theorem referenceTokensExpandToTheInput : Obligations.ReferenceTokensExpandToTheInput := by
  intro idxW p data hlegal
  obtain ⟨hp, -⟩ := ParamSet.p_range hlegal
  have hdict := ParamSet.dict_add_f hlegal
  refine compressTokens_induction (p := p) (data := data)
    (P := fun r ts => ∀ d, HasDecoded p data r d → (ts.foldl (fun d i => d.token p i) d).out = data) hp ?_ ?_ _
    (hasDecoded_start hlegal)
  · intro d hd
    simp [hd.out]
  · exact fun r i ts hr _ hi hts d hd => hts _ (hd.token hp (by omega) hi hr)

end Sys2Proof.Proofs

/-! LIT and MATCH as instructions: where they run, and what the sink's answers make of them (R161, R185 to R187). -/

namespace Sys2Proof.Proofs

open Sys2Proof Sys2Proof.Machine

variable {p : ParamSet} {s t : State} {i : Instr} {d : Decoded} {base : List Event}

/-! ## Where a token runs (R185) -/

/-- At a token and under PS, a token's meaning is its operation. -/
theorem exec_token (htoken : s.atToken = true) (hps : s.ps = some p) (hi : cmdCode i = none) :
    exec i s = (tokenOp p i s).outcome := by
  cases i with
  | lit b => simp [exec, execLit, tokenOp, htoken, hps]
  | matchTok offset len => simp [exec, execMatch, tokenOp, htoken, hps]
  | _ => cases hi

/-- Settles O31: the guard of LIT and of MATCH, and then PS. -/
theorem tokensNeedARunningDecompress : Obligations.TokensNeedARunningDecompress := by
  intro s i hi
  cases i with
  | lit b => exact ⟨fun h => by simp [exec, execLit, h], fun h hps => by simp [exec, execLit, h, hps]⟩
  | matchTok offset len => exact ⟨fun h => by simp [exec, execMatch, h], fun h hps => by simp [exec, execMatch, h, hps]⟩
  | _ => cases hi

/-! ## LIT (R186) -/

/-- PUT to a sink that answers Ok (R161). -/
theorem putByte_ok {b : Byte} (hin : s.dR < s.build.wbufBytes) (hw : snkWrite b s = .got .ok t) :
    putByte p b s =
      .ok () { t with win := memWrite Config.winUnlisted s.win s.dR b, dR := (s.dR + 1) &&& p.mask } := by
  obtain ⟨ht, -⟩ := snkWrite_got hw
  rw [putByte, emitSink, hw, ht]
  simp [onAccess_ok, winWrite, hin]

/-- PUT to a sink that answers Err: no store (R161, R243). -/
theorem putByte_err (b : Byte) {e : ErrW} {rest : List WriteAnswer} (h : s.snk.writes = .err e :: rest) :
    putByte p b s =
      .ended
        (endCommand (.writeError e)
          { s with snk := { s.snk with writes := rest }, history := .snkWrite b (.err e) :: s.history }) := by
  rw [putByte, emitSink_err b h]
  rfl

/-- Settles O27: each answer to LIT's PUT. -/
theorem literalPutsItsByte : Obligations.LiteralPutsItsByte := by
  intro s p b htoken hps
  rw [exec_token htoken hps rfl, tokenOp, litOp]
  refine ⟨fun t hin hw => ⟨?_, (snkWrite_got hw).1⟩, fun e rest hw => ?_, fun hw hacc => ?_⟩
  · rw [putByte_ok hin hw]
    rfl
  · rw [putByte_err b hw]
    rfl
  · rw [putByte, emitSink_silent b hw hacc]
    rfl

/-! ## MATCH (R187) -/

/-- A match of `left` steps puts out as many bytes behind what is out. -/
theorem copy_out (p : ParamSet) (offset left k : Nat) (d : Decoded) :
    ∃ bs, (d.copy p offset left k).out = d.out ++ bs ∧ bs.length = left := by
  induction left generalizing k d with
  | zero => exact ⟨[], (List.append_nil _).symm, rfl⟩
  | succ left ih =>
    obtain ⟨bs, hout, hlen⟩ := ih (k + 1) (d.put p (d.cell ((offset + k) % p.n)))
    exact ⟨_ :: bs, hout.trans (List.append_assoc _ [_] bs), congrArg (· + 1) hlen⟩

theorem copy_cursor (p : ParamSet) (offset left k : Nat) {d : Decoded} (hd : d.cursor < p.n) :
    (d.copy p offset left k).cursor = (d.cursor + left) % p.n := by
  induction left generalizing k d with
  | zero => exact (Nat.mod_eq_of_lt hd).symm
  | succ left ih =>
    rw [Decoded.copy, ih (k + 1) (Nat.mod_lt _ p.n_pos), Decoded.put, Nat.mod_add_mod, Nat.add_assoc, Nat.add_comm 1]

/-- The same state with a sink that accepts. -/
def withOpenSink (s : State) : State := { s with snk := { writes := [], accepting := true, fin := none } }

theorem snkWrite_listed (b : Byte) {a : WriteAnswer} {rest : List WriteAnswer} (h : s.snk.writes = a :: rest) :
    snkWrite b s =
      .got a { s with snk := { s.snk with writes := rest }, history := .snkWrite b a :: s.history } := by
  simp [snkWrite, h]

/-- The state after a PUT to a sink that had an Ok listed and has `rest` left (R161). -/
def putListed (p : ParamSet) (b : Byte) (rest : List WriteAnswer) (s : State) : State :=
  { putAccepted p b s with snk := { s.snk with writes := rest } }

theorem putByte_listed {b : Byte} {rest : List WriteAnswer} (hin : s.dR < s.build.wbufBytes)
    (h : s.snk.writes = .ok :: rest) : putByte p b s = .ok () (putListed p b rest s) :=
  putByte_ok hin (snkWrite_listed b h)

theorem Mirrors.putListed (h : Mirrors p base d (withOpenSink s)) (b : Byte) (rest : List WriteAnswer) :
    Mirrors p base (d.put p b) (withOpenSink (putListed p b rest s)) := h.put b

/-- A step of the copy whose byte is taken (R187). -/
theorem copyLoop_of_ok {offset len left k : Nat} {b : Byte} (hread : winRead s ((offset + k) &&& p.mask) = .ok b)
    (hput : putByte p b s = .ok () t) :
    copyLoop p offset len (left + 1) k s = copyLoop p offset len left (k + 1) t := by
  rw [copyLoop, hread, onAccess_ok, hput]

/-- A step of the copy at which the command ends (R243). -/
theorem copyLoop_of_ended {offset len left k : Nat} {b : Byte} (hread : winRead s ((offset + k) &&& p.mask) = .ok b)
    (hput : putByte p b s = .ended t) : copyLoop p offset len (left + 1) k s = .ended t := by
  rw [copyLoop, hread, onAccess_ok, hput]

/-- A sink that takes `k` bytes and then fails ends the copy there: the bytes before are out, and so stored (R187,
R243). -/
theorem copyLoop_fails {e : ErrW} {rest : List WriteAnswer} (offset len : Nat) {left k : Nat} (start : Nat)
    (hk : k < left) (hw : s.snk.writes = List.replicate k .ok ++ .err e :: rest)
    (h : Mirrors p base d (withOpenSink s)) :
    ∃ t b, copyLoop p offset len left start s = .ended (endCommand (.writeError e) t) ∧
      (d.copy p offset left start).out[d.out.length + k]? = some b ∧ t.dR = (d.cursor + k) % p.n ∧
      t.history =
        .snkWrite b (.err e) ::
          ((writesOk ((d.copy p offset left start).out.take (d.out.length + k))).reverse ++ base) := by
  induction left generalizing k start s d with
  | zero => omega
  | succ left ih =>
    have hread : winRead s ((offset + start) &&& p.mask) = .ok (d.cell ((offset + start) % p.n)) :=
      p.and_mask (offset + start) ▸ h.winRead_eq (p.and_mask_lt _)
    have hin : s.dR < s.build.wbufBytes := h.cursor ▸ Nat.lt_of_lt_of_le h.inside h.room
    rw [Decoded.copy]
    generalize d.cell ((offset + start) % p.n) = b at hread ⊢
    cases k with
    | zero =>
      obtain ⟨bs, hout, -⟩ := copy_out p offset left (start + 1) (d.put p b)
      replace hout : ((d.put p b).copy p offset left (start + 1)).out = d.out ++ (b :: bs) :=
        hout.trans (List.append_assoc d.out [b] bs)
      refine ⟨_, b, copyLoop_of_ended hread (putByte_err b hw), ?_, h.cursor.trans (Nat.mod_eq_of_lt h.inside).symm, ?_⟩
      · simp [hout]
      · rw [hout, Nat.add_zero, List.take_left]
        exact congrArg _ h.history
    | succ k =>
      have hput := putByte_listed (p := p) hin hw (b := b)
      have hlen : (d.put p b).out.length + k = d.out.length + (k + 1) := by
        simp [Decoded.put, Nat.add_assoc, Nat.add_comm 1]
      obtain ⟨t, c, hfails, hc, hcursor, hhistory⟩ := ih (start + 1) (Nat.lt_of_succ_lt_succ hk) rfl (h.putListed b _)
      rw [hlen] at hc hhistory
      refine ⟨t, c, (copyLoop_of_ok hread hput).trans hfails, hc, ?_, hhistory⟩
      rw [hcursor, Decoded.put, Nat.mod_add_mod, Nat.add_assoc, Nat.add_comm 1]

/-- Settles O28: to an accepting sink the copy is the reference copy; a failing one ends it at byte `k`. -/
theorem matchCopiesFromTheDictionary : Obligations.MatchCopiesFromTheDictionary := by
  intro s p offset len htoken hps _ hroom hdR hholds
  obtain ⟨bs, hout, hlen⟩ := copy_out p offset len 0 (s.decoded p)
  rw [exec_token htoken hps rfl]
  refine ⟨(congrArg List.length hout).trans (by simpa [State.decoded] using hlen), fun hw hacc => ?_,
    fun k e rest hk hw => ?_⟩
  · obtain ⟨t, ht, hmirrors, hframe⟩ := (mirrors_decoded hroom hdR hholds hw hacc).copyLoop_ok offset len len 0
    refine ⟨t, congrArg Res.outcome ht, ?_, hmirrors.cursor.trans (copy_cursor p offset len 0 hdR), hmirrors.cells⟩
    have hcursor : t.dR = ((s.decoded p).token p (.matchTok offset len)).cursor := hmirrors.cursor
    have hhistory : t.history = (writesOk ((s.decoded p).token p (.matchTok offset len)).out).reverse ++ s.history :=
      hmirrors.history
    rw [← hcursor, ← hhistory]
    exact hframe
  · obtain ⟨t, b, ht, hb, hcursor, hhistory⟩ :=
      copyLoop_fails offset len 0 hk hw (d := s.decoded p)
        (mirrors_decoded (s := withOpenSink s) hroom hdR hholds rfl rfl)
    have hempty : (s.decoded p).out.length + k = k := Nat.zero_add k
    rw [hempty] at hb hhistory
    exact ⟨_, b, congrArg Res.outcome ht, hb, rfl, rfl, hcursor, hhistory⟩

end Sys2Proof.Proofs

/-! The fetch of a token (R185): the bits it takes from the reader and the source, and the step that runs it. -/

namespace Sys2Proof.Proofs

open Sys2Proof Sys2Proof.Machine

variable {p : ParamSet} {s t : State} {i : Instr} {phase : Phase} {bytes : List Byte}
  {answers : List SrcAnswer}

/-! ## A step at a fetched token -/

/-- At a token, or at none: what a fetch leaves (R185). -/
def LeftAtToken (i : Option Instr) (s : State) : Prop := s.atToken = true ∧ ∀ j ∈ i, cmdCode j = none

theorem readBits_atToken (len : Nat) (h : s.atToken = true) :
    Meets (fun _ t => t.atToken = true) (fun _ => True) True (readBits len s) :=
  readBits_meets s (.inr trivial) (fun _ _ _ _ _ _ => h) (fun _ _ _ _ => h) (fun _ _ _ _ => trivial)
    fun _ _ _ _ _ => trivial

theorem fetchPayload_atToken (flag : Nat) (h : s.atToken = true) :
    Meets LeftAtToken (fun _ => True) True (fetchPayload p flag s) := by
  refine (readBits_atToken _ h).andThen fun v t ht => ⟨ht, fun j hj => ?_⟩
  obtain ⟨v, -, rfl⟩ := Option.map_eq_some_iff.mp hj
  exact decodeFields_token p flag v

/-- Whatever is fetched is a token, and the phase stays one in which the rules execute a token. -/
theorem fetchToken_atToken (h : s.atToken = true) :
    Meets LeftAtToken (fun _ => True) True (fetchToken p s) := by
  rw [fetchToken]
  split
  · exact fetchPayload_atToken 1 h
  · split
    · exact fetchPayload_atToken 0 h
    · refine (readBits_atToken 1 h).andThen fun flag t ht => ?_
      cases flag with
      | none => exact ⟨ht, nofun⟩
      | some v => exact fetchPayload_atToken v (by by_cases hv : v = 1 <;> simp [State.atToken, hv])

theorem atToken_iff : s.atToken = true ↔ s.seq = .busy .dFlag ∨ s.seq = .busy .dLit ∨ s.seq = .busy .dMatch :=
  decide_eq_true_iff

/-- A token's phase is a fetch and then the token's operation. -/
theorem coreOp_of_fetch (htoken : s.atToken = true) (hps : s.ps = some p) (hseq : s.seq = .busy phase)
    (hfetch : fetchToken p s = .ok (some i) t) : coreOp phase s = tokenOp p i t := by
  have hphase : phase = .dFlag ∨ phase = .dLit ∨ phase = .dMatch := by simpa [hseq] using atToken_iff.mp htoken
  rw [coreOp_some hps]
  obtain rfl | rfl | rfl := hphase <;> rw [phaseOp, decodeTokenOp, hfetch] <;> rfl

/-- A step of one operation, with no move pending. -/
theorem step_of_quantum_zero (hscript : s.script = []) (hquantum : s.quantum = 0) (hseq : s.seq = .busy phase) :
    step s = (coreOp phase s).outcome := by
  rw [step, hscript]
  dsimp only
  rw [coreTurn, hquantum, runCore_busy 0 hseq]
  cases coreOp phase s <;> rfl

/-- Settles O59: the phase's operation is the fetch and then the token's, and what is fetched runs where it is left. -/
theorem stepRunsTheFetchedToken : Obligations.StepRunsTheFetchedToken := by
  intro s t p i htoken hps hfetch
  have hleft := fetchToken_atToken (p := p) htoken
  have hcarried := carried_fetchToken p s
  rw [hfetch] at hleft hcarried
  obtain ⟨ht, hi⟩ := hleft
  have hop : ∀ phase, s.seq = .busy phase → (coreOp phase s).outcome = exec i t := fun phase hseq => by
    rw [coreOp_of_fetch htoken hps hseq hfetch, exec_token ht (hcarried.ps.trans hps) (hi i rfl)]
  refine ⟨hop, fun hscript hquantum => ?_⟩
  obtain hseq | hseq | hseq := atToken_iff.mp htoken
  all_goals rw [step_of_quantum_zero hscript hquantum hseq, hop _ hseq]

/-! ## The bits of a token -/

theorem flatMap_byteBits_length (bs : List Byte) : (bs.flatMap byteBits).length = 8 * bs.length := by
  simp [Nat.mul_comm]

/-- After SrcReads of the bytes `bs`: the reader holds `a`, and the source has `src` left (R134). -/
def afterReads (s : State) (a : BitAcc) (bs : List Byte) (src : List SrcAnswer) : State :=
  { s with br := a, src := src, history := (readsOf bs).reverse ++ s.history }

/-- READ_BITS where the buffered bits and the source's next bytes begin with `payload`: that is the number, and no byte
more than needed is read (R134). -/
theorem readBits_of_bits {payload left : List Bool} (hwidth : 1 ≤ payload.length ∧ payload.length ≤ 24)
    (hcnt : s.br.cnt ≤ 7) (hsrc : s.src = bytes.map .byte ++ answers)
    (hbits : s.br.bits ++ bytes.flatMap byteBits = payload ++ left) :
    ∃ bs rest a, bytes = bs ++ rest ∧ a.cnt ≤ 7 ∧ a.bits ++ rest.flatMap byteBits = left ∧
      readBits payload.length s =
        .ok (some (bitsToNat payload)) (afterReads s a bs (rest.map .byte ++ answers)) := by
  obtain ⟨hpos, hle⟩ := hwidth
  have hlen := congrArg List.length hbits
  rw [List.length_append, List.length_append, flatMap_byteBits_length, BitAcc.bits, bitsOf_length] at hlen
  have hneed : (payload.length - s.br.cnt + 7) / 8 ≤ bytes.length := by omega
  obtain ⟨bs, rest, rfl, hbs⟩ : ∃ bs rest, bytes = bs ++ rest ∧ bs.length = (payload.length - s.br.cnt + 7) / 8 :=
    ⟨_, _, (List.take_append_drop _ bytes).symm, List.length_take_of_le hneed⟩
  rw [List.map_append, List.append_assoc] at hsrc
  obtain ⟨v, a, hread, hv, hsplit, ha⟩ := readBitsReturnsTheNextBits s _ bs _ hpos hle hcnt hsrc hbs
  rw [List.flatMap_append, ← List.append_assoc, hsplit, List.append_assoc] at hbits
  obtain ⟨hpayload, hleft⟩ := List.append_inj hbits (bitsOf_length v _)
  have hnumber : bitsToNat payload = v :=
    calc bitsToNat payload = bitsToNat (bitsOf v payload.length) := congrArg bitsToNat hpayload.symm
      _ = v % 2 ^ payload.length := bitsToNat_bitsOf _ _
      _ = v := Nat.mod_eq_of_lt hv
  exact ⟨bs, rest, a, rfl, ha, hleft, hnumber ▸ hread⟩

/-- An End is answered whatever is behind it. -/
theorem srcRead_of_end (h : s.src = .endOfData :: answers) :
    ∃ src, srcRead s = .got .endOfData { s with src := src, history := .srcRead .endOfData :: s.history } := by
  cases answers with
  | nil => exact ⟨_, srcRead_end h⟩
  | cons a rest => exact ⟨_, srcRead_of_cons (List.cons_ne_nil a rest) h⟩

/-- The loop of READ_BITS ends without enough bits at an End (R135). -/
theorem fillBits_of_srcRead_end {len fuel : Nat} (hcnt : s.br.cnt < len) (hread : srcRead s = .got .endOfData t) :
    fillBits len (fuel + 1) s = .ok false t := by
  rw [fillBits, if_pos hcnt, hread]

/-- After SrcReads of the bytes `bs` and one more, answered End (R135). -/
def afterEnd (s : State) (a : BitAcc) (bs : List Byte) (src : List SrcAnswer) : State :=
  { s with br := a, src := src, history := .srcRead .endOfData :: ((readsOf bs).reverse ++ s.history) }

/-- READ_BITS where the source ends first, whatever the source has behind its End (R135). -/
theorem readBits_of_few {len : Nat} (hwidth : 1 ≤ len ∧ len ≤ 24)
    (hsrc : s.src = bytes.map .byte ++ .endOfData :: answers) (hfew : s.br.cnt + 8 * bytes.length < len) :
    ∃ a src, readBits len s = .ok none (afterEnd s a bytes src) := by
  have hcnt := foldl_pushByte_cnt s.br bytes
  obtain ⟨src, hread⟩ := srcRead_of_end (answers := answers)
    (s := afterReads s (bytes.foldl pushByte s.br) bytes (.endOfData :: answers)) rfl
  obtain ⟨fuel, hfuel⟩ : ∃ fuel, len - bytes.length = fuel + 1 := ⟨len - bytes.length - 1, by omega⟩
  refine ⟨bytes.foldl pushByte s.br, src, readBits_of_short hwidth ?_⟩
  rw [fillBits_of_bytes hsrc (by omega) (by omega), hfuel]
  exact fillBits_of_srcRead_end (hcnt.trans_lt hfew) hread

/-! ## The bits of a fetch -/

/-- Behind the flag the sequencer is at the payload (R185). -/
theorem fetchToken_of_flag {flag : Bool} (hseq : s.seq = .busy .dFlag)
    (hflag : readBits 1 s = .ok (some flag.toNat) t) :
    fetchToken p s = fetchPayload p flag.toNat { t with seq := .busy (payloadPhase flag.toNat) } := by
  rw [fetchToken, if_neg (by simp [hseq]), if_neg (by simp [hseq]), hflag]
  rfl

/-- The flag of the next bits, with the bytes it needs (R185). -/
theorem readBits_flag {flag : Bool} {left : List Bool} (hcnt : s.br.cnt ≤ 7)
    (hsrc : s.src = bytes.map .byte ++ answers) (hbits : s.br.bits ++ bytes.flatMap byteBits = flag :: left) :
    ∃ bs rest a, bytes = bs ++ rest ∧ a.cnt ≤ 7 ∧ a.bits ++ rest.flatMap byteBits = left ∧
      readBits 1 s = .ok (some flag.toNat) (afterReads s a bs (rest.map .byte ++ answers)) := by
  have hread := readBits_of_bits (payload := [flag]) (by simp) hcnt hsrc hbits
  cases flag <;> exact hread

/-- Where the next bits decode to a token, that is what is fetched, its bits and no byte more than they need taken; the
phase is that of the token's kind (R93, R185). -/
theorem fetchToken_of_decodeToken {idxW : Nat} {left : List Bool} (hlegal : p.Legal idxW) (hseq : s.seq = .busy .dFlag)
    (hcnt : s.br.cnt ≤ 7) (hsrc : s.src = bytes.map .byte ++ answers)
    (hbits : decodeToken p (s.br.bits ++ bytes.flatMap byteBits) = .ok (i, left)) :
    ∃ bs rest a phase, bytes = bs ++ rest ∧ a.cnt ≤ 7 ∧ a.bits ++ rest.flatMap byteBits = left ∧
      ((∃ b, i = .lit b ∧ phase = .dLit) ∨ ∃ offset len, i = .matchTok offset len ∧ phase = .dMatch) ∧
      fetchToken p s =
        .ok (some i) { afterReads s a bs (rest.map .byte ++ answers) with seq := .busy phase } := by
  obtain ⟨flag, payload, hlen, hsplit, rfl⟩ := decodeToken_ok_iff.mp hbits
  obtain ⟨bs, rest, a, rfl, ha, hrest, hflag⟩ := readBits_flag hcnt hsrc hsplit
  have hwidth := payloadWidth_range hlegal flag.toNat
  obtain ⟨bs', rest', a', rfl, ha', hleft, hpayload⟩ := readBits_of_bits (payload := payload)
    (s := { afterReads s a bs (rest.map .byte ++ answers) with seq := .busy (payloadPhase flag.toNat) })
    (by omega) ha rfl hrest
  refine ⟨bs ++ bs', rest', a', payloadPhase flag.toNat, (List.append_assoc _ _ _).symm, ha', hleft, ?_, ?_⟩
  · cases flag with
    | true => exact .inl ⟨_, rfl, rfl⟩
    | false => exact .inr ⟨_, _, rfl, rfl⟩
  · rw [fetchToken_of_flag hseq hflag, fetchPayload, ← hlen, hpayload]
    simp [afterReads, readsOf]

/-- Where the next bits are no whole token and then the source ends, nothing is fetched, and all bytes are read (R97,
R188). -/
theorem fetchToken_of_end {idxW : Nat} (hlegal : p.Legal idxW) (hseq : s.seq = .busy .dFlag) (hcnt : s.br.cnt ≤ 7)
    (hsrc : s.src = bytes.map .byte ++ .endOfData :: answers)
    (hbits : decodeToken p (s.br.bits ++ bytes.flatMap byteBits) = .error .endOfStream) :
    ∃ a src phase, fetchToken p s = .ok none { afterEnd s a bytes src with seq := .busy phase } := by
  generalize hsplit : s.br.bits ++ bytes.flatMap byteBits = bits at hbits
  cases bits with
  | nil =>
    have hlen := congrArg List.length hsplit
    rw [List.length_append, flatMap_byteBits_length, BitAcc.bits, bitsOf_length, List.length_nil] at hlen
    obtain ⟨a, src, hread⟩ := readBits_of_few (len := 1) (by decide) hsrc (by omega)
    refine ⟨a, src, .dFlag, ?_⟩
    rw [fetchToken, if_neg (by simp [hseq]), if_neg (by simp [hseq]), hread, ← hseq]
    rfl
  | cons flag more =>
    obtain ⟨bs, rest, a, rfl, ha, hrest, hflag⟩ := readBits_flag hcnt hsrc hsplit
    have hwidth := payloadWidth_range hlegal flag.toNat
    have hfew : more.length < payloadWidth p flag.toNat := by simpa [decodeToken] using hbits
    rw [← hrest, List.length_append, flatMap_byteBits_length, BitAcc.bits, bitsOf_length] at hfew
    obtain ⟨a', src, hpayload⟩ := readBits_of_few (bytes := rest) (answers := answers)
      (s := { afterReads s a bs (rest.map .byte ++ .endOfData :: answers) with
              seq := .busy (payloadPhase flag.toNat) })
      (by omega) rfl hfew
    refine ⟨a', src, payloadPhase flag.toNat, ?_⟩
    rw [fetchToken_of_flag hseq hflag, fetchPayload, hpayload]
    simp [afterReads, afterEnd, readsOf]

/-- Settles O60: the fetch takes the token's bits; at most 7 are left, so that no byte is. -/
theorem stepRunsTheTokenOfTheNextBits : Obligations.StepRunsTheTokenOfTheNextBits := by
  intro s p bytes answers i left hseq hps hlegal hcnt hscript hquantum hsrc hbits hleft
  obtain ⟨bs, rest, a, phase, rfl, ha, hrest, hphase, hfetch⟩ :=
    fetchToken_of_decodeToken hlegal hseq hcnt hsrc hbits
  obtain rfl : rest = [] := by
    have hlen := congrArg List.length hrest
    rw [List.length_append, flatMap_byteBits_length] at hlen
    exact List.eq_nil_of_length_eq_zero (by omega)
  rw [List.append_nil]
  refine ⟨a, phase, hphase, by simpa using hrest, ?_⟩
  exact (stepRunsTheFetchedToken s _ p i (atToken_iff.mpr (.inl hseq)) hps hfetch).2 hscript hquantum

end Sys2Proof.Proofs

/-! What a streaming command has read and written, and how it ends (R222, R223, R226). -/

namespace Sys2Proof.Proofs

open Sys2Proof Sys2Proof.Machine

variable {p : ParamSet} {s t u : State} {bytes out bytes' out' : List Byte} {o : OutVal}

/-! ## The bytes of a run -/

theorem srcBytes_append (es fs : List Event) : srcBytes (es ++ fs) = srcBytes es ++ srcBytes fs := List.filterMap_append

@[simp] theorem srcBytes_readsOf (bs : List Byte) : srcBytes (readsOf bs) = bs := by
  simp [srcBytes, readsOf, List.filterMap_map]

@[simp] theorem sinkBytes_readsOf (bs : List Byte) : sinkBytes (readsOf bs) = [] := by
  simp [sinkBytes, readsOf, List.filterMap_map]

@[simp] theorem srcBytes_writesOk (bs : List Byte) : srcBytes (writesOk bs) = [] := by
  simp [srcBytes, writesOk, List.filterMap_map]

@[simp] theorem sinkBytes_writesOk (bs : List Byte) : sinkBytes (writesOk bs) = bs := by
  simp [sinkBytes, writesOk, List.filterMap_map]

/-- From `s` to `t` the source has given `bytes` and the sink has accepted `out` (R226). -/
def Transfers (bytes out : List Byte) (s t : State) : Prop :=
  ∃ es, t.history = es.reverse ++ s.history ∧ srcBytes es = bytes ∧ sinkBytes es = out

theorem Transfers.none (h : t.history = s.history) : Transfers [] [] s t := ⟨[], h, rfl, rfl⟩

theorem Transfers.reads (h : t.history = (readsOf bytes).reverse ++ s.history) : Transfers bytes [] s t :=
  ⟨_, h, srcBytes_readsOf _, sinkBytes_readsOf _⟩

theorem Transfers.writes (h : t.history = (writesOk out).reverse ++ s.history) : Transfers [] out s t :=
  ⟨_, h, srcBytes_writesOk _, sinkBytes_writesOk _⟩

/-- An End is no byte. -/
theorem Transfers.meetsEnd (h : t.history = .srcRead .endOfData :: s.history) : Transfers [] [] s t :=
  ⟨[_], h, rfl, rfl⟩

theorem Transfers.trans (h : Transfers bytes out s t) (h' : Transfers bytes' out' t u) :
    Transfers (bytes ++ bytes') (out ++ out') s u := by
  obtain ⟨es, hes, rfl, rfl⟩ := h
  obtain ⟨fs, hfs, rfl, rfl⟩ := h'
  refine ⟨es ++ fs, ?_, srcBytes_append es fs, sinkBytes_append es fs⟩
  rw [hfs, hes, List.reverse_append, List.append_assoc]

/-! ## The end of a run -/

/-- A streaming command begun in `s` has ended in DONE with the sink's value: it has read `bytes`, written `out`, and
finished the sink last (R222, R223, R225). -/
structure Completed (o : OutVal) (bytes out : List Byte) (s t : State) (es : List Event) : Prop where
  done : t.seq = .done
  res : t.res = endRes (.finished o)
  trace : t.trace = s.trace ++ es
  read : srcBytes es = bytes
  written : sinkBytes es = out
  last : es.getLast? = some (.snkFinish (.ok o))

/-- The end of a streaming command whose sink finishes with `o` (R68, R225). -/
def finishedWith (o : OutVal) (s : State) : State :=
  endCommand (.finished o)
    { s with snk := { writes := [], accepting := false, fin := none }, history := .snkFinish (.ok o) :: s.history }

theorem finishOp_ok (h : s.snk.fin = some (.ok o)) : finishOp s = .ended (finishedWith o s) := by
  rw [finishOp, snkFinish, h]
  rfl

theorem Transfers.completed (h : Transfers bytes out s t) : ∃ es, Completed o bytes out s (finishedWith o t) es := by
  obtain ⟨es, hes, rfl, rfl⟩ := h
  refine ⟨es ++ [.snkFinish (.ok o)], rfl, rfl, ?_, ?_, ?_, List.getLast?_concat⟩
  · simp [State.trace, finishedWith, hes]
  · rw [srcBytes_append]
    exact List.append_nil _
  · rw [sinkBytes_append]
    exact List.append_nil _

/-- A turn long enough to reach the end of a streaming command completes it. -/
theorem runCore_finishes {n q : Nat} {phase : Phase} (h : Runs n s t) (hseq : t.seq = .busy phase)
    (hphase : phase = .cFinish ∨ phase = .dFinish) (hps : t.ps = some p) (hsnk : t.snk = acceptingSink o) (hq : n < q) :
    runCore q s = .next (finishedWith o t) := by
  refine Machine.Runs.ends h hseq ?_ hq
  rw [coreOp_some hps]
  have hfin : t.snk.fin = some (.ok o) := by rw [hsnk]; rfl
  obtain rfl | rfl := hphase <;> exact finishOp_ok hfin

end Sys2Proof.Proofs

/-! A run of DECOMPRESS: token by token what the reference decoder does (R185 to R189). -/

namespace Sys2Proof.Proofs

open Sys2Proof Sys2Proof.Machine

variable {p : ParamSet} {s t : State} {i : Instr} {d : Decoded} {base : List Event} {bytes : List Byte}
  {answers : List SrcAnswer} {o : OutVal}

/-! ## The reference decoder's output, counted from any point -/

/-- The decoder with its output so far forgotten. -/
def restarted (d : Decoded) : Decoded := { d with out := [] }

/-- The decoder with `bs` put out before. -/
def prependOut (bs : List Byte) (d : Decoded) : Decoded := { d with out := bs ++ d.out }

theorem prependOut_restarted (d : Decoded) : prependOut d.out (restarted d) = d := by
  simp [prependOut, restarted]

theorem put_prependOut (p : ParamSet) (b : Byte) (bs : List Byte) (d : Decoded) :
    (prependOut bs d).put p b = prependOut bs (d.put p b) :=
  congrArg (Decoded.mk (d.put p b).cell (d.put p b).cursor) (List.append_assoc bs d.out [b])

theorem copy_prependOut (p : ParamSet) (offset left k : Nat) (bs : List Byte) (d : Decoded) :
    (prependOut bs d).copy p offset left k = prependOut bs (d.copy p offset left k) := by
  induction left generalizing k d with
  | zero => rfl
  | succ left ih =>
    rw [Decoded.copy, put_prependOut, ih]
    rfl

theorem token_prependOut (p : ParamSet) (i : Instr) (bs : List Byte) (d : Decoded) :
    (prependOut bs d).token p i = prependOut bs (d.token p i) := by
  cases i with
  | lit b => exact put_prependOut p b bs d
  | matchTok offset len => exact copy_prependOut p offset len 0 bs d
  | _ => rfl

theorem foldl_token_prependOut (p : ParamSet) (ts : List Instr) (bs : List Byte) (d : Decoded) :
    ts.foldl (fun d i => d.token p i) (prependOut bs d) = prependOut bs (ts.foldl (fun d i => d.token p i) d) := by
  induction ts generalizing d with
  | nil => rfl
  | cons i ts ih => rw [List.foldl_cons, token_prependOut, ih, List.foldl_cons]

/-- What is out already, and what the tokens add. -/
theorem foldl_token_out (p : ParamSet) (ts : List Instr) (d : Decoded) :
    (ts.foldl (fun d i => d.token p i) d).out =
      d.out ++ (ts.foldl (fun d i => d.token p i) (restarted d)).out := by
  conv_lhs => rw [← prependOut_restarted d, foldl_token_prependOut]
  rfl

/-! ## One token -/

/-- Either token's operation to an accepting sink is the reference token (R186, R187). -/
theorem Mirrors.tokenOp_ok (h : Mirrors p base d s) (hi : cmdCode i = none) :
    ∃ t, tokenOp p i s = .ok () t ∧ Mirrors p base (d.token p i) t ∧
      t = { s with win := t.win, dR := t.dR, seq := .busy .dFlag, history := t.history } := by
  cases i with
  | lit b =>
    obtain ⟨hroom, hinside, hcursor, hcells, hwrites, haccepting, hhistory⟩ := h.put b
    refine ⟨{ putAccepted p b s with seq := .busy .dFlag }, ?_,
      ⟨hroom, hinside, hcursor, hcells, hwrites, haccepting, hhistory⟩, rfl⟩
    rw [tokenOp, litOp, h.putByte_eq b]
  | matchTok offset len => exact h.copyLoop_ok offset len len 0
  | _ => cases hi

/-- DECOMPRESS at D_FLAG: the source has `bytes` and then an End, the sink accepts and finishes with `o`, and the
dictionary is that of the reference decoder `d`, its output counted from here. -/
structure AtFlag (p : ParamSet) (o : OutVal) (answers : List SrcAnswer) (d : Decoded) (bytes : List Byte)
    (s : State) : Prop where
  seq : s.seq = .busy .dFlag
  ps : s.ps = some p
  cnt : s.br.cnt ≤ 7
  src : s.src = bytes.map .byte ++ .endOfData :: answers
  snk : s.snk = acceptingSink o
  fresh : d.out = []
  mirrors : Mirrors p s.history d s

/-- The bits still to come. -/
def bitsAhead (s : State) (bytes : List Byte) : List Bool := s.br.bits ++ bytes.flatMap byteBits

/-- A whole token ahead: one operation takes its bits and does what the reference decoder does. -/
theorem AtFlag.token {idxW : Nat} {left : List Bool} (hlegal : p.Legal idxW) (h : AtFlag p o answers d bytes s)
    (hbits : decodeToken p (bitsAhead s bytes) = .ok (i, left)) :
    ∃ t bs rest, bytes = bs ++ rest ∧ bitsAhead t rest = left ∧ coreOp .dFlag s = .ok () t ∧
      AtFlag p o answers (restarted (d.token p i)) rest t ∧ Transfers bs (d.token p i).out s t := by
  obtain ⟨hseq, hps, hcnt, hsrc, hsnk, hfresh, hroom, hinside, hcursor, hcells, hwrites, haccepting, -⟩ := h
  obtain ⟨bs, rest, a, phase, rfl, ha, hleft, -, hfetch⟩ := fetchToken_of_decodeToken hlegal hseq hcnt hsrc hbits
  obtain ⟨flag, payload, -, -, rfl⟩ := decodeToken_ok_iff.mp hbits
  have hmirrors : Mirrors p ((readsOf bs).reverse ++ s.history) d
      { afterReads s a bs (rest.map .byte ++ .endOfData :: answers) with seq := .busy phase } :=
    ⟨hroom, hinside, hcursor, hcells, hwrites, haccepting, by rw [hfresh]; rfl⟩
  obtain ⟨t, ht, ⟨hroom', hinside', hcursor', hcells', hwrites', haccepting', hhistory⟩, hframe⟩ :=
    hmirrors.tokenOp_ok (decodeFields_token p flag.toNat (bitsToNat payload))
  refine ⟨t, bs, rest, rfl, ?_, (coreOp_of_fetch (atToken_iff.mpr (.inl hseq)) hps hseq hfetch).trans ht,
    ⟨?_, ?_, ?_, ?_, ?_, rfl, ⟨hroom', hinside', hcursor', hcells', hwrites', haccepting', rfl⟩⟩, ?_⟩
  · rw [hframe]
    exact hleft
  · rw [hframe]
  · rw [hframe]
    exact hps
  · rw [hframe]
    exact ha
  · rw [hframe]
    rfl
  · rw [hframe]
    exact hsnk
  · have hreads : Transfers bs [] s (afterReads s a bs (rest.map .byte ++ .endOfData :: answers)) := .reads rfl
    have hwrites : Transfers [] _ (afterReads s a bs (rest.map .byte ++ .endOfData :: answers)) t := .writes hhistory
    simpa using hreads.trans hwrites

/-- No whole token ahead: one operation reads what there is and goes on to D_FINISH (R188). -/
theorem AtFlag.stop {idxW : Nat} (hlegal : p.Legal idxW) (h : AtFlag p o answers d bytes s)
    (hbits : decodeToken p (bitsAhead s bytes) = .error .endOfStream) :
    ∃ t, coreOp .dFlag s = .ok () t ∧ t.seq = .busy .dFinish ∧ t.ps = some p ∧ t.snk = acceptingSink o ∧
      Transfers bytes [] s t := by
  obtain ⟨a, src, phase, hfetch⟩ := fetchToken_of_end hlegal h.seq h.cnt h.src hbits
  refine ⟨{ afterEnd s a bytes src with seq := .busy .dFinish }, ?_, rfl, h.ps, h.snk, ?_⟩
  · rw [coreOp_some h.ps, phaseOp, decodeTokenOp, hfetch]
    rfl
  · have hreads : Transfers bytes [] s (afterReads s a bytes src) := .reads rfl
    have hend : Transfers [] [] (afterReads s a bytes src) { afterEnd s a bytes src with seq := .busy .dFinish } :=
      .meetsEnd rfl
    simpa using hreads.trans hend

/-! ## All tokens -/

theorem decodeTokens_of_error {bits : List Bool} {fuel : Nat} (h : decodeToken p bits = .error .endOfStream) :
    decodeTokens p fuel bits = [] := by
  cases fuel with
  | zero => rfl
  | succ fuel => rw [decodeTokens, h]

/-- From D_FLAG to D_FINISH, one operation a token and one for the end (R188, R189). -/
theorem AtFlag.runs {idxW : Nat} (hlegal : p.Legal idxW) (fuel : Nat) (h : AtFlag p o answers d bytes s)
    (hfuel : (bitsAhead s bytes).length ≤ fuel) :
    ∃ t, Runs ((decodeTokens p fuel (bitsAhead s bytes)).length + 1) s t ∧ t.seq = .busy .dFinish ∧ t.ps = some p ∧
      t.snk = acceptingSink o ∧
      Transfers bytes ((decodeTokens p fuel (bitsAhead s bytes)).foldl (fun d i => d.token p i) d).out s t := by
  induction fuel generalizing d s bytes with
  | zero =>
    have hbits : decodeToken p (bitsAhead s bytes) = .error .endOfStream := by
      rw [List.eq_nil_of_length_eq_zero (Nat.le_zero.mp hfuel)]
      rfl
    obtain ⟨t, hop, hseq, hps, hsnk, htransfers⟩ := h.stop hlegal hbits
    exact ⟨t, Runs.one h.seq hop, hseq, hps, hsnk, h.fresh ▸ htransfers⟩
  | succ fuel ih =>
    cases hbits : decodeToken p (bitsAhead s bytes) with
    | error e =>
      cases e
      rw [decodeTokens_of_error hbits]
      obtain ⟨t, hop, hseq, hps, hsnk, htransfers⟩ := h.stop hlegal hbits
      exact ⟨t, Runs.one h.seq hop, hseq, hps, hsnk, h.fresh ▸ htransfers⟩
    | ok next =>
      obtain ⟨i, left⟩ := next
      obtain ⟨u, bs, rest, rfl, rfl, hop, hflag, hfirst⟩ := h.token hlegal hbits
      have hshorter : (bitsAhead u rest).length ≤ fuel := by
        obtain ⟨flag, payload, -, hsplit, -⟩ := decodeToken_ok_iff.mp hbits
        rw [hsplit, List.length_cons, List.length_append] at hfuel
        omega
      obtain ⟨t, hruns, hseq, hps, hsnk, hrest⟩ := ih hflag hshorter
      rw [decodeTokens, hbits]
      refine ⟨t, .step _ h.seq hop hruns, hseq, hps, hsnk, ?_⟩
      rw [List.foldl_cons, foldl_token_out]
      exact hfirst.trans hrest

/-- D_INIT leaves the reference decoder's start and an empty reader (R160). -/
theorem atFlag_start (hps : s.ps = some p) (hlegal : p.Legal s.build.idxW) (hroom : p.n ≤ s.build.wbufBytes)
    (hsrc : s.src = bytes.map .byte ++ .endOfData :: answers) (hsnk : s.snk = acceptingSink o) :
    AtFlag p o answers (Decoded.start p) bytes
      { s with br := { acc := 0, cnt := 0 }, win := memFill p.n p.c, dR := p.dict, seq := .busy .dFlag } := by
  have hdict := ParamSet.dict_add_f hlegal
  have hpos := p.f_pos
  refine ⟨rfl, hps, Nat.zero_le 7, hsrc, hsnk, rfl, hroom, ?_, rfl, fun a ha => ?_, ?_, ?_, rfl⟩
  · show p.dict < p.n
    omega
  · simp [winByte_eq, ha, Decoded.start]
  · simp [hsnk, acceptingSink]
  · simp [hsnk, acceptingSink]

/-- DECOMPRESS of any bytes, in a turn of as many operations as there are tokens and three more (R223). -/
theorem exec_decompress_completes {quantum : Nat} (hready : s.ready) (hps : s.ps = some p)
    (hlegal : p.Legal s.build.idxW) (hroom : p.n ≤ s.build.wbufBytes) (hsrc : srcEndsAfter bytes s.src)
    (hsnk : s.snk = acceptingSink o) (hquantum : (decodeStream p bytes).length + 3 ≤ quantum) :
    ∃ t es, exec .decompress { s with quantum := quantum } = .next t ∧
      Completed o bytes (expand p (decodeStream p bytes)) s t es := by
  obtain ⟨answers, hsrc⟩ := hsrc
  have hinit := coreOp_dInit (s := accepted 0b10#2 .dInit quantum s) hps hroom
  have hstart := atFlag_start (s := accepted 0b10#2 .dInit quantum s) hps hlegal hroom hsrc hsnk
  obtain ⟨t, hruns, hseq, hps', hsnk', htransfers⟩ :=
    hstart.runs hlegal (8 * bytes.length) (flatMap_byteBits_length bytes).le
  have hall : Transfers bytes (expand p (decodeStream p bytes)) s t := htransfers
  obtain ⟨es, hcompleted⟩ := hall.completed (o := o)
  refine ⟨finishedWith o t, es, (exec_decompress_eq_runCore quantum hready (by simp [hps])).trans ?_, hcompleted⟩
  refine runCore_finishes ((Runs.one rfl hinit).trans hruns) hseq (.inr rfl) hps' hsnk' ?_
  show 1 + ((decodeStream p bytes).length + 1) < quantum
  omega

/-- Settles O36: the run token by token, with three operations more: D_INIT, the STOP and D_FINISH. -/
theorem decompressEmitsTheExpansion : Obligations.DecompressEmitsTheExpansion := by
  intro s p bytes o hready hps hlegal hroom hsrc _ hsnk
  refine ⟨(decodeStream p bytes).length + 3, fun quantum hquantum => ?_⟩
  obtain ⟨t, es, hexec, hdone, hres, htrace, hread, hwritten, hlast⟩ :=
    exec_decompress_completes hready hps hlegal hroom hsrc hsnk hquantum
  exact ⟨t, es, hexec, hdone, hres, htrace, hread, hwritten, hlast⟩

end Sys2Proof.Proofs

/-! COMPRESS's search in its sliding window finds the reference token (R152, R171, R180). -/

namespace Sys2Proof.Proofs

open Sys2Proof Sys2Proof.Machine

variable {p : ParamSet} {data : List Byte} {g : Nat → Byte} {base lo r f1 : Nat} {q q' : SearchRegs} {i j : Instr}

/-! ## One best match -/

theorem IsBest.y_le_y (h : IsBest g r f1 lo q) (h' : IsBest g r f1 lo q') : q.y ≤ q'.y := by
  obtain ⟨-, hy⟩ | ⟨-, hlo, hhi, hlen, -⟩ := h.best
  · exact hy ▸ h'.one_le_y
  · exact h'.longest _ _ hlo hhi hlen

/-- The best match is one: the longest, and the most recent of the longest (R171, R172). -/
theorem IsBest.unique (h : IsBest g r f1 lo q) (h' : IsBest g r f1 lo q') : q.x = q'.x ∧ q.y = q'.y := by
  have hy := Nat.le_antisymm (h.y_le_y h') (h'.y_le_y h)
  refine ⟨?_, hy⟩
  obtain ⟨hx, hone⟩ | ⟨htwo, -, hhi, hlen, hrecent⟩ := h.best <;>
    obtain ⟨hx', hone'⟩ | ⟨htwo', -, hhi', hlen', hrecent'⟩ := h'.best
  · exact hx.trans hx'.symm
  · omega
  · omega
  · rcases Nat.lt_trichotomy q.x q'.x with hlt | heq | hgt
    · have := hrecent _ _ hlt hhi' hlen'
      omega
    · exact heq
    · have := hrecent' _ _ hgt hhi hlen
      omega

/-- One token is chosen at a position. -/
theorem IsChosen.unique (h : IsChosen p data r i) (h' : IsChosen p data r j) : i = j := by
  obtain ⟨q, hq, rfl⟩ := h
  obtain ⟨q', hq', rfl⟩ := h'
  obtain ⟨hx, hy⟩ := hq.unique hq'
  rw [hx, hy]

theorem flatTokens_of_isChosen {fuel : Nat} (hlo : p.dict ≤ r) (hhi : r < p.dict + data.length)
    (hi : IsChosen p data r i) :
    flatTokens p data (fuel + 1) r = i :: flatTokens p data fuel (r + tokenSpan i) := by
  obtain ⟨j, hj, htokens⟩ := flatTokens_succ (fuel := fuel) hlo hhi
  rw [htokens, hi.unique hj]

/-! ## The window's place in the input -/

theorem matchLength_shift {k l : Nat} :
    matchLength (fun a => g (base + a)) k r f1 l ↔ matchLength g (base + k) (base + r) f1 l := by
  simp only [matchLength, agreeFor, Nat.add_assoc]

/-- The best match as an index of the whole, the window starting at `base` in it. -/
def shiftBest (base : Nat) (q : SearchRegs) : SearchRegs := { q with x := if q.y = 1 then 0 else base + q.x }

theorem IsBest.shift (h : IsBest (fun a => g (base + a)) r f1 lo q) :
    IsBest g (base + r) f1 (base + lo) (shiftBest base q) := by
  refine ⟨fun k l hlo hhi hl => ?_, ?_⟩
  · obtain ⟨k, rfl⟩ := Nat.exists_eq_add_of_le (Nat.le_trans (Nat.le_add_right _ _) hlo)
    exact h.longest k l (by omega) (by omega) (matchLength_shift.mpr hl)
  · obtain ⟨-, hy⟩ | ⟨hy, hlo, hhi, hlen, hrecent⟩ := h.best
    · exact .inl ⟨if_pos hy, hy⟩
    · have hx : (shiftBest base q).x = base + q.x := if_neg (by omega)
      rw [hx]
      refine .inr ⟨hy, by omega, by omega, matchLength_shift.mp hlen, fun k l hlo hhi hl => ?_⟩
      obtain ⟨k, rfl⟩ := Nat.exists_eq_add_of_le (Nat.le_trans (Nat.le_add_right _ _) hlo.le)
      exact hrecent k l (by omega) (by omega) (matchLength_shift.mpr hl)

/-- ENCODE_TOKEN on the best match of a window that starts at a multiple of N chooses the reference token: the offset is
taken modulo N (R180, R182). -/
theorem isChosen_of_window (hp : 1 ≤ p.p) (hbase : p.n ∣ base) (hlo : p.dict ≤ r)
    (h : IsBest (fun a => flatCell p data (base + a)) r (flatAhead p data (base + r)) (r - p.dict) q) :
    IsChosen p data (base + r)
      (if q.y ≤ p.p then .lit (flatCell p data (base + r)) else .matchTok (q.x % p.n) q.y) := by
  refine ⟨shiftBest base q, ?_, ?_⟩
  · have hstart : base + r - p.dict = base + (r - p.dict) := by omega
    rw [hstart]
    exact h.shift
  · obtain ⟨m, rfl⟩ := hbase
    show _ = if q.y ≤ p.p then _ else Instr.matchTok ((if q.y = 1 then 0 else p.n * m + q.x) % p.n) q.y
    split
    · rfl
    · rw [if_neg (by omega), Nat.mul_add_mod]

end Sys2Proof.Proofs

/-! The fields of a token on their way to an accepting sink (R101, R130, R153). -/

namespace Sys2Proof.Proofs

open Sys2Proof Sys2Proof.Machine

variable {p : ParamSet} {s : State} {o : OutVal} {i : Instr}

theorem encode_eq_fieldBits (hi : cmdCode i = none) : encode p i = fieldBits (encodeFields p i) := by
  rw [encode, hi]

theorem encodeFields_ok {idxW : Nat} (hlegal : p.Legal idxW) (hi : cmdCode i = none) (hwf : i.wf p = true) :
    ∀ f ∈ encodeFields p i, f.ok = true := by
  cases i with
  | lit b => exact litFields_ok hlegal b
  | matchTok offset len => exact (Laws.FieldsFit.matchTok offset len idxW p hlegal hwf).1
  | _ => cases hi

theorem encodeFields_length_le (hi : cmdCode i = none) : (encodeFields p i).length ≤ 2 := by
  cases i with
  | lit b => exact Nat.le_succ 1
  | matchTok offset len => exact le_rfl
  | _ => cases hi

/-- One field written to an accepting sink. -/
theorem coreOp_cWrite_cons {f : Field} {rest : List Field} (hps : s.ps = some p) (hcnt : s.bw.cnt ≤ 7)
    (hsnk : s.snk = acceptingSink o) (hf : f.ok = true) :
    coreOp (.cWrite (f :: rest)) s =
      .ok ()
        { s with
          seq := .busy (.cWrite rest)
          bw := partByte (pushBits f s.bw)
          history := (writesOk (wholeBytes (pushBits f s.bw))).reverse ++ s.history } := by
  have hwrite := writeBits_of_emitAll (s := { s with seq := .busy (.cWrite rest) }) emitSink_ignoresWriter hf
    (emitAll_accepting _ (by simp [hsnk, acceptingSink]) (by simp [hsnk, acceptingSink]))
  rw [coreOp_some hps, phaseOp, compressWrite, writeFields, drainBits_of_lt (by omega), Res.andThen_ok]
  dsimp only
  rw [hwrite]
  rfl

/-- All fields written: the window advances by the consumed length (R153). -/
theorem coreOp_cWrite_nil (hps : s.ps = some p) (hcnt : s.bw.cnt ≤ 7) :
    coreOp (.cWrite []) s =
      .ok ()
        { s with
          cp := { s.cp with r := s.cp.r + s.sr.y, s := s.cp.s + s.sr.y }
          seq := .busy (if s.cp.r + s.sr.y ≥ 2 * p.n - p.f then .cCompact else .cSearch) } := by
  rw [coreOp_some hps, phaseOp, compressWrite, writeFields, drainBits_of_lt (by omega)]
  rfl

/-- The state in which a token's fields are written: `bs` have gone out, and `a` pends. -/
def afterFields (s : State) (a : BitAcc) (bs : List Byte) : State :=
  { s with seq := .busy (.cWrite []), bw := a, history := (writesOk bs).reverse ++ s.history }

theorem runs_cWrite {fs : List Field} (hps : s.ps = some p) (hcnt : s.bw.cnt ≤ 7) (hsnk : s.snk = acceptingSink o)
    (hseq : s.seq = .busy (.cWrite fs)) (hfs : ∀ f ∈ fs, f.ok = true) :
    ∃ a bs, Runs fs.length s (afterFields s a bs) ∧ bs.flatMap byteBits ++ a.bits = s.bw.bits ++ fieldBits fs ∧
      a.cnt ≤ 7 := by
  induction fs generalizing s with
  | nil =>
    refine ⟨s.bw, [], ?_, (List.append_nil _).symm, hcnt⟩
    rw [afterFields, ← hseq]
    exact .refl s
  | cons f fs ih =>
    obtain ⟨hf, hfs⟩ := List.forall_mem_cons.mp hfs
    have hop := coreOp_cWrite_cons (rest := fs) hps hcnt hsnk hf
    obtain ⟨a, bs, hruns, hbits, ha⟩ := ih (s := { s with
      seq := .busy (.cWrite fs)
      bw := partByte (pushBits f s.bw)
      history := (writesOk (wholeBytes (pushBits f s.bw))).reverse ++ s.history }) hps (partByte_cnt_le _) hsnk rfl hfs
    refine ⟨a, wholeBytes (pushBits f s.bw) ++ bs, ?_, ?_, ha⟩
    · have hruns' := Runs.step _ hseq hop hruns
      simpa [afterFields, writesOk] using hruns'
    · rw [List.flatMap_append, List.append_assoc, hbits, ← List.append_assoc, bits_wholeBytes, bits_pushBits _ hf hcnt,
        List.append_assoc]
      rfl

end Sys2Proof.Proofs

/-! The window of COMPRESS in its input: FILL, and what the source still has (R150, R151, R155). -/

namespace Sys2Proof.Proofs

open Sys2Proof Sys2Proof.Machine

variable {p : ParamSet} {s t : State} {data : List Byte} {base : Nat} {o : OutVal} {phase : Phase}

/-! ## The window in the input -/

/-- The bytes the source still has, the window starting at `base` (R151). -/
def unread (p : ParamSet) (data : List Byte) (base : Nat) (s : State) : List Byte :=
  data.drop (base + s.cp.be - p.dict)

/-- COMPRESS between its operations: the window holds the input from `base` on, a multiple of N, up to bufferEnd; the
source has the rest, and then nothing but Ends; the sink accepts and finishes with `o` (R47, R69, R272). -/
structure HasWindow (p : ParamSet) (o : OutVal) (data : List Byte) (base : Nat) (s : State) : Prop where
  ps : s.ps = some p
  snk : s.snk = acceptingSink o
  cnt : s.bw.cnt ≤ 7
  room : 2 * p.n ≤ s.build.wbufBytes
  aligned : p.n ∣ base
  start : s.cp.r = s.cp.s + p.dict
  r_le : s.cp.r ≤ s.cp.be
  be_le : s.cp.be ≤ 2 * p.n
  within : base + s.cp.be ≤ p.dict + data.length
  cells : ∀ a, s.cp.s ≤ a → a < s.cp.be → s.winByte a = some (flatCell p data (base + a))
  src : ∃ ends, s.src = (unread p data base s).map .byte ++ .endOfData :: ends ∧ ∀ a ∈ ends, a = .endOfData

/-- A window that has moved on by the consumed length, bits and bytes of a token written (R153). -/
theorem HasWindow.advance {span : Nat} (h : HasWindow p o data base s) (hspan : s.cp.r + span ≤ s.cp.be)
    (hps : t.ps = s.ps) (hsnk : t.snk = s.snk) (hcnt : t.bw.cnt ≤ 7) (hbuild : t.build = s.build)
    (hcp : t.cp = { s.cp with r := s.cp.r + span, s := s.cp.s + span }) (hwin : t.win = s.win) (hsrc : t.src = s.src) :
    HasWindow p o data base t := by
  have hbe : t.cp.be = s.cp.be := by rw [hcp]
  have hunread : unread p data base t = unread p data base s := by rw [unread, hbe, unread]
  obtain ⟨hps', hsnk', -, hroom, haligned, hstart, -, hbe_le, hwithin, hcells, hends⟩ := h
  refine ⟨hps.trans hps', hsnk.trans hsnk', hcnt, hbuild ▸ hroom, haligned, ?_, ?_, hbe ▸ hbe_le, hbe ▸ hwithin,
    fun a hlo hhi => ?_, hunread ▸ hsrc ▸ hends⟩
  · rw [hcp]
    dsimp only
    omega
  · rw [hcp]
    exact hspan
  · rw [hbe] at hhi
    rw [hcp] at hlo
    rw [State.winByte, hwin]
    exact hcells a (Nat.le_of_add_right_le hlo) hhi

/-- Only PS, the sink, the writer, the build, the pointers, WIN and the source count. -/
theorem HasWindow.of_eq (h : HasWindow p o data base s) (hps : t.ps = s.ps) (hsnk : t.snk = s.snk)
    (hcnt : t.bw.cnt ≤ 7) (hbuild : t.build = s.build) (hcp : t.cp = s.cp) (hwin : t.win = s.win)
    (hsrc : t.src = s.src) : HasWindow p o data base t :=
  h.advance (span := 0) h.r_le hps hsnk hcnt hbuild hcp hwin hsrc

/-- FILL has done what it can: the window is full, or the input has ended. -/
def IsFilled (p : ParamSet) (data : List Byte) (base : Nat) (s : State) : Prop :=
  s.cp.be = 2 * p.n ∨ base + s.cp.be = p.dict + data.length

/-- A source with nothing but Ends answers End, and nothing but Ends is left (R272). -/
theorem srcRead_of_ends {ends : List SrcAnswer} (hsrc : s.src = .endOfData :: ends)
    (hends : ∀ a ∈ ends, a = .endOfData) :
    ∃ ends', srcRead s =
        .got .endOfData { s with src := .endOfData :: ends', history := .srcRead .endOfData :: s.history } ∧
      ∀ a ∈ ends', a = .endOfData := by
  cases ends with
  | nil => exact ⟨[], by simp [srcRead, hsrc], nofun⟩
  | cons a ends =>
    obtain ⟨rfl, hends'⟩ := List.forall_mem_cons.mp hends
    exact ⟨ends, srcRead_of_cons (List.cons_ne_nil _ _) hsrc, hends'⟩

theorem coreOp_fill (hfill : phase = .cFill ∨ phase = .cRefill) (hps : s.ps = some p) :
    coreOp phase s = fillOp p s := by
  rw [coreOp_some hps]
  obtain rfl | rfl := hfill <;> rfl

/-- A FILL that takes a byte (R151). -/
theorem HasWindow.fillByte {b : Byte} {rest : List Byte} (h : HasWindow p o data base s) (hroom : s.cp.be < 2 * p.n)
    (hunread : unread p data base s = b :: rest) :
    ∃ t, fillOp p s = .ok () t ∧ HasWindow p o data base t ∧ t.seq = s.seq ∧ t.cp = { s.cp with be := s.cp.be + 1 } ∧
      t.bw = s.bw ∧ unread p data base t = rest ∧ Transfers [b] [] s t := by
  obtain ⟨hps, hsnk, hcnt, hwbuf, haligned, hstart, hr, hbe, hwithin, hcells, ends, hsrc, hends⟩ := h
  rw [hunread] at hsrc
  have hlt : base + s.cp.be - p.dict < data.length := by
    have := congrArg List.length hunread
    rw [unread, List.length_drop, List.length_cons] at this
    omega
  have hdrop : data[base + s.cp.be - p.dict] = b ∧ data.drop (base + s.cp.be - p.dict + 1) = rest := by
    rw [unread, List.drop_eq_getElem_cons hlt] at hunread
    exact List.cons_eq_cons.mp hunread
  have hnext : base + (s.cp.be + 1) - p.dict = base + s.cp.be - p.dict + 1 := by omega
  have hrest : data.drop (base + (s.cp.be + 1) - p.dict) = rest := hnext ▸ hdrop.2
  refine ⟨_, fillOp_byte hroom (by omega) hsrc, ⟨hps, hsnk, hcnt, hwbuf, haligned, hstart, ?_, ?_, ?_,
    fun a hlo hhi => ?_, ends, ?_, hends⟩, rfl, rfl, rfl, hrest, ⟨[.srcRead (.byte b)], rfl, rfl, rfl⟩⟩
  · exact Nat.le_succ_of_le hr
  · exact hroom
  · dsimp only
    omega
  · refine (winByte_write s s.cp.be a b).trans ?_
    dsimp only at hlo hhi
    split
    · rename_i heq
      rw [heq, flatCell, if_neg (by omega), ← hdrop.1]
      simp [hlt]
    · exact hcells a hlo (by omega)
  · rw [unread]
    exact hrest.symm ▸ rfl

/-- A FILL at the end of the input (R151). -/
theorem HasWindow.fillEnd (h : HasWindow p o data base s) (hroom : s.cp.be < 2 * p.n)
    (hunread : unread p data base s = []) :
    ∃ t, fillOp p s = .ok () t ∧ HasWindow p o data base t ∧ t.seq = .busy .cSearch ∧ t.cp = s.cp ∧ t.bw = s.bw ∧
      Transfers [] [] s t := by
  obtain ⟨ends, hsrc, hends⟩ := h.src
  rw [hunread] at hsrc
  obtain ⟨ends', hread, hends'⟩ := srcRead_of_ends hsrc hends
  refine ⟨{ s with src := .endOfData :: ends', history := .srcRead .endOfData :: s.history, seq := .busy .cSearch }, ?_,
    { h with src := ⟨ends', ?_, hends'⟩ }, rfl, rfl, rfl, .meetsEnd rfl⟩
  · rw [fillOp, if_pos hroom, hread]
  · exact hunread.symm ▸ rfl

/-- What a FILL leaves: the search is next, the window filled with the bytes `bs` of the input. -/
structure Filled (p : ParamSet) (o : OutVal) (data : List Byte) (base : Nat) (bs : List Byte) (s t : State) : Prop where
  seq : t.seq = .busy .cSearch
  window : HasWindow p o data base t
  filled : IsFilled p data base t
  r : t.cp.r = s.cp.r
  bw : t.bw = s.bw
  source : unread p data base s = bs ++ unread p data base t
  transfers : Transfers bs [] s t

/-- FILL and refill: one operation a byte, and one for the end (R151, R155). -/
theorem HasWindow.fill (hfill : phase = .cFill ∨ phase = .cRefill) (hseq : s.seq = .busy phase)
    (h : HasWindow p o data base s) :
    ∃ t bs, Runs (bs.length + 1) s t ∧ Filled p o data base bs s t := by
  generalize hgap : 2 * p.n - s.cp.be = gap
  induction gap generalizing s with
  | zero =>
    have hfull : s.cp.be = 2 * p.n := by
      have := h.be_le
      omega
    have hop := (coreOp_fill hfill h.ps).trans (fillOp_full hfull.ge)
    exact ⟨_, [], .one hseq hop, rfl, h.of_eq rfl rfl h.cnt rfl rfl rfl rfl, .inl hfull, rfl, rfl, rfl, .none rfl⟩
  | succ gap ih =>
    have hroom : s.cp.be < 2 * p.n := by omega
    cases hunread : unread p data base s with
    | nil =>
      obtain ⟨t, hop, hwindow, hnext, hcp, hbw, htransfers⟩ := h.fillEnd hroom hunread
      have hempty : unread p data base t = [] := by rw [unread, hcp, ← unread, hunread]
      refine ⟨t, [], .one hseq ((coreOp_fill hfill h.ps).trans hop), hnext, hwindow, .inr ?_, by rw [hcp], hbw,
        hunread.trans hempty.symm, htransfers⟩
      have := congrArg List.length hempty
      rw [unread, List.length_drop, List.length_nil] at this
      have := hwindow.within
      have := hwindow.start
      have := hwindow.r_le
      omega
    | cons b rest =>
      obtain ⟨u, hop, hwindow, hsame, hcp, hbw, hrest, hfirst⟩ := h.fillByte hroom hunread
      obtain ⟨t, bs, hruns, hnext, hwindow', hfilled, hr, hbw', hunread', htransfers⟩ :=
        ih (hsame.trans hseq) hwindow (by rw [hcp]; dsimp only; omega)
      refine ⟨t, b :: bs, .step _ hseq ((coreOp_fill hfill h.ps).trans hop) hruns, hnext, hwindow', hfilled, ?_,
        hbw'.trans hbw, ?_, hfirst.trans htransfers⟩
      · rw [hr, hcp]
      · rw [hunread, ← hrest, hunread']
        rfl

end Sys2Proof.Proofs

/-! A run of COMPRESS: token by token what the reference compressor does; and the round trip (R152 to R156, R190,
R222). -/

namespace Sys2Proof.Proofs

open Sys2Proof Sys2Proof.Machine

variable {p : ParamSet} {s t : State} {data : List Byte} {base : Nat} {o : OutVal} {i : Instr}

/-! ## One token -/

/-- COMPRESS at C_SEARCH: the window filled, its pointer below the compaction mark (R152). -/
structure AtSearch (p : ParamSet) (o : OutVal) (data : List Byte) (base : Nat) (s : State) : Prop where
  seq : s.seq = .busy .cSearch
  window : HasWindow p o data base s
  filled : IsFilled p data base s
  below : s.cp.r < 2 * p.n - p.f

theorem HasWindow.winRead_eq (h : HasWindow p o data base s) {a : Nat} (hlo : s.cp.s ≤ a) (hhi : a < s.cp.be) :
    winRead s a = .ok (flatCell p data (base + a)) :=
  winRead_ok.mpr ⟨by have := h.room; have := h.be_le; omega, h.cells a hlo hhi⟩

/-- A filled window looks as far ahead as the input does (R152). -/
theorem AtSearch.ahead_eq (h : AtSearch p o data base s) :
    min p.f (s.cp.be - s.cp.r) = flatAhead p data (base + s.cp.r) := by
  have := h.below
  have := h.window.within
  rw [flatAhead]
  obtain hfull | hend := h.filled <;> omega

/-- C_SEARCH and C_EMIT choose the reference token and go on to its fields (R152, R180). -/
theorem AtSearch.emits {idxW : Nat} (hlegal : p.Legal idxW) (h : AtSearch p o data base s) (hr : s.cp.r < s.cp.be) :
    ∃ i sr, IsChosen p data (base + s.cp.r) i ∧ sr.y = tokenSpan i ∧
      Runs 2 s { s with sr := sr, seq := .busy (.cWrite (encodeFields p i)) } := by
  obtain ⟨hp, -⟩ := ParamSet.p_range hlegal
  have hpos := p.f_pos
  have hwindow := h.window
  have hstart := hwindow.start
  obtain ⟨q, hq, hbest⟩ := searchMatch_isBest (B := winRead s) (g := fun a => flatCell p data (base + a)) (s := s.cp.s)
    (r := s.cp.r) (f1 := min p.f (s.cp.be - s.cp.r)) s.sr (by omega) (by omega)
    fun k hlo hhi => hwindow.winRead_eq hlo (by omega)
  have hsearch : coreOp .cSearch s = .ok () { s with sr := q, seq := .busy .cEmit } := by
    rw [coreOp_some hwindow.ps, phaseOp, compressSearch, if_pos hr, hq]
    rfl
  have hchosen := isChosen_of_window hp hwindow.aligned (by omega : p.dict ≤ s.cp.r) (q := q) (by
    rw [← h.ahead_eq]
    exact (by omega : s.cp.s = s.cp.r - p.dict) ▸ hbest)
  have hemit := coreOp_some (phase := .cEmit) (s := { s with sr := q, seq := .busy .cEmit }) hwindow.ps
  rw [phaseOp, compressEmit] at hemit
  dsimp only at hemit
  split at hchosen
  · rename_i hshort
    rw [if_pos hshort] at hemit
    have hread : winRead { s with sr := q, seq := .busy .cEmit } s.cp.r = .ok (flatCell p data (base + s.cp.r)) :=
      hwindow.winRead_eq (by omega) hr
    rw [hread] at hemit
    exact ⟨_, { q with y := 1 }, hchosen, rfl, (Runs.one h.seq hsearch).trans (.one rfl hemit)⟩
  · rename_i hlong
    rw [if_neg hlong, p.and_mask] at hemit
    exact ⟨_, q, hchosen, rfl, (Runs.one h.seq hsearch).trans (.one rfl hemit)⟩

theorem IsChosen.span_le {r : Nat} (h : IsChosen p data r i) (hp : 1 ≤ p.p) (hr : r < p.dict + data.length) :
    tokenSpan i ≤ flatAhead p data r := by
  obtain rfl | ⟨x, len, rfl, -, hf, hin, -⟩ := h.lit_or_match hp
  · exact flatAhead_pos hr
  · exact Nat.le_min.mpr ⟨hf, hin⟩

/-- The phase behind a token: the compaction once the pointer has reached the mark (R152, C12). -/
def nextPhase (p : ParamSet) (r : Nat) : Phase := if r ≥ 2 * p.n - p.f then .cCompact else .cSearch

/-- What the operations of a token `i` leave, before the compaction test is acted on: its bits written to `out` and the
pending bits, and the window advanced by its span. -/
structure TokenWritten (p : ParamSet) (o : OutVal) (data : List Byte) (base : Nat) (i : Instr) (out : List Byte)
    (s t : State) : Prop where
  chosen : IsChosen p data (base + s.cp.r) i
  seq : t.seq = .busy (nextPhase p t.cp.r)
  window : HasWindow p o data base t
  filled : IsFilled p data base t
  r : t.cp.r = s.cp.r + tokenSpan i
  source : unread p data base t = unread p data base s
  bits : out.flatMap byteBits ++ t.bw.bits = s.bw.bits ++ encode p i
  transfers : Transfers [] out s t

/-- Search, decision, at most two fields, and the advance (R152, R153, R180). -/
theorem AtSearch.writesToken {idxW : Nat} (hlegal : p.Legal idxW) (h : AtSearch p o data base s)
    (hr : s.cp.r < s.cp.be) : ∃ i out n t, n ≤ 5 ∧ Runs n s t ∧ TokenWritten p o data base i out s t := by
  obtain ⟨hp, -⟩ := ParamSet.p_range hlegal
  obtain ⟨i, sr, hi, hsr, hemits⟩ := h.emits hlegal hr
  obtain ⟨htok, hwf⟩ := hi.wf hp
  obtain ⟨a, out, hfields, hbits, ha⟩ := runs_cWrite
    (s := { s with sr := sr, seq := .busy (.cWrite (encodeFields p i)) }) h.window.ps h.window.cnt h.window.snk
    rfl (encodeFields_ok hlegal htok hwf)
  have hadvance := coreOp_cWrite_nil
    (s := afterFields { s with sr := sr, seq := .busy (.cWrite (encodeFields p i)) } a out) h.window.ps ha
  have hlen := encodeFields_length_le (p := p) htok
  have hspan : s.cp.r + sr.y ≤ s.cp.be := by
    have := hi.span_le hp (by have := h.window.within; omega)
    rw [← h.ahead_eq] at this
    omega
  refine ⟨i, out, 2 + (encodeFields p i).length + 1, _, by omega, (hemits.trans hfields).trans (.one rfl hadvance),
    hi, rfl, h.window.advance hspan rfl rfl ha rfl rfl rfl rfl, h.filled, ?_, rfl, ?_, .writes rfl⟩
  · exact congrArg _ hsr
  · rw [encode_eq_fieldBits htok]
    exact hbits

/-! ## The compaction -/

/-- Behind the compaction the window starts N later in the input, and so holds the same bytes (R155). -/
theorem HasWindow.compact {idxW : Nat} (hlegal : p.Legal idxW) (h : HasWindow p o data base s)
    (hmark : 2 * p.n - p.f ≤ s.cp.r) :
    ∃ t, coreOp .cCompact s = .ok () t ∧ t.seq = .busy .cRefill ∧ HasWindow p o data (base + p.n) t ∧
      t.cp.r = s.cp.r - p.n ∧ t.bw = s.bw ∧ unread p data (base + p.n) t = unread p data base s ∧
      Transfers [] [] s t := by
  have hdict := ParamSet.dict_add_f hlegal
  have hlt := ParamSet.f_lt_n hlegal
  obtain ⟨hps, hsnk, hcnt, hroom, haligned, hstart, hr, hbe, hwithin, hcells, hends⟩ := h
  have hunread : data.drop (base + p.n + (s.cp.be - p.n) - p.dict) = data.drop (base + s.cp.be - p.dict) := by
    congr 1
    omega
  refine ⟨_, (coreOp_some hps).trans (compactOp_of_room hroom), rfl, ⟨hps, hsnk, hcnt, hroom,
    Nat.dvd_add haligned (Nat.dvd_refl _), ?_, ?_, ?_, ?_, fun a hlo hhi => ?_, ?_⟩, rfl, rfl, hunread, .none rfl⟩
  case refine_5 =>
    dsimp only at hlo hhi
    rw [winByte_eq, memGet_memMoveDown_low _ _ (by omega), ← winByte_eq, hcells _ (by omega) (by omega), Nat.add_assoc]
  case refine_6 =>
    rw [unread]
    exact hunread ▸ hends
  all_goals dsimp only; omega

/-- What a token leaves at the next search: `bs` read behind it, and `out` written. -/
structure TokenDone (p : ParamSet) (o : OutVal) (data : List Byte) (base : Nat) (i : Instr) (base' : Nat)
    (bs out : List Byte) (s t : State) : Prop where
  chosen : IsChosen p data (base + s.cp.r) i
  next : AtSearch p o data base' t
  place : base' + t.cp.r = base + s.cp.r + tokenSpan i
  source : unread p data base s = bs ++ unread p data base' t
  bits : out.flatMap byteBits ++ t.bw.bits = s.bw.bits ++ encode p i
  transfers : Transfers bs out s t

/-- One token, the compaction and refill behind it included. -/
theorem AtSearch.token {idxW : Nat} (hlegal : p.Legal idxW) (h : AtSearch p o data base s) (hr : s.cp.r < s.cp.be) :
    ∃ i base' bs out n t, n ≤ 7 + bs.length ∧ Runs n s t ∧ TokenDone p o data base i base' bs out s t := by
  have hlt := ParamSet.f_lt_n hlegal
  obtain ⟨i, out, n, t, hn, hruns, hi, hseq, hwindow, hfilled, hnext, hunread, hbits, hwrites⟩ :=
    h.writesToken hlegal hr
  rw [nextPhase] at hseq
  split at hseq
  · rename_i hmark
    obtain ⟨u, hop, hsequ, hwindowu, hru, hbwu, hunreadu, hmoves⟩ := hwindow.compact hlegal hmark
    obtain ⟨v, bs, hfill, hsearch, hwindowv, hfilledv, hrv, hbwv, hunreadv, hreads⟩ := hwindowu.fill (.inr rfl) hsequ
    have hin := hwindow.r_le
    have hbe := hwindow.be_le
    refine ⟨i, base + p.n, bs, out, n + 1 + (bs.length + 1), v, by omega,
      (hruns.trans (.one hseq hop)).trans hfill, hi, ⟨hsearch, hwindowv, hfilledv, by omega⟩, by omega, ?_, ?_, ?_⟩
    · rw [← hunreadv, hunreadu, hunread]
    · rw [hbwv, hbwu, hbits]
    · simpa using (hwrites.trans hmoves).trans hreads
  · rename_i hmark
    exact ⟨i, base, [], out, n, t, by omega, hruns, hi, ⟨hseq, hwindow, hfilled, by omega⟩, by omega, hunread.symm,
      hbits, hwrites⟩

/-! ## All tokens -/

/-- What the loop of COMPRESS leaves: the whole input read, and the bits of the tokens `ts` written to `out` and the
pending bits (R156). -/
structure AllWritten (p : ParamSet) (o : OutVal) (ts : List Instr) (bs out : List Byte) (s t : State) : Prop where
  seq : t.seq = .busy .cFlush
  ps : t.ps = some p
  snk : t.snk = acceptingSink o
  cnt : t.bw.cnt ≤ 7
  atEnd : t.cp.r = t.cp.be
  bits : out.flatMap byteBits ++ t.bw.bits = s.bw.bits ++ ts.flatMap (encode p)
  transfers : Transfers bs out s t

/-- At the end of the input the loop ends (R152, R156). -/
theorem AtSearch.exits (h : AtSearch p o data base s) (hr : s.cp.r = s.cp.be) (fuel : Nat) :
    ∃ t, coreOp .cSearch s = .ok () t ∧
      AllWritten p o (flatTokens p data fuel (base + s.cp.r)) (unread p data base s) [] s t := by
  have hbelow := h.below
  have hend : base + s.cp.be = p.dict + data.length := h.filled.resolve_left (by omega)
  have hunread : unread p data base s = [] := List.drop_eq_nil_of_le (by omega)
  rw [flatTokens_of_end (by omega), hunread]
  refine ⟨{ s with seq := .busy .cFlush }, ?_, rfl, h.window.ps, h.window.snk, h.window.cnt, hr,
    (List.append_nil _).symm, .none rfl⟩
  rw [coreOp_some h.window.ps, phaseOp, compressSearch, if_neg (by omega)]

/-- The loop of COMPRESS, at most seven operations a token and one for each byte read behind it. -/
theorem AtSearch.runs {idxW : Nat} (hlegal : p.Legal idxW) (fuel : Nat) (h : AtSearch p o data base s)
    (hfuel : p.dict + data.length ≤ base + s.cp.r + fuel) :
    ∃ n t out, n ≤ 7 * fuel + (unread p data base s).length + 1 ∧ Runs n s t ∧
      AllWritten p o (flatTokens p data fuel (base + s.cp.r)) (unread p data base s) out s t := by
  induction fuel generalizing base s with
  | zero =>
    have hin := h.window.r_le
    have hwithin := h.window.within
    obtain ⟨t, hop, hall⟩ := h.exits (by omega) 0
    exact ⟨1, t, [], by omega, .one h.seq hop, hall⟩
  | succ fuel ih =>
    obtain hr | hr := Nat.eq_or_lt_of_le h.window.r_le
    · obtain ⟨t, hop, hall⟩ := h.exits hr (fuel + 1)
      exact ⟨1, t, [], by omega, .one h.seq hop, hall⟩
    · obtain ⟨i, base', bs, out, n, u, hn, hruns, hi, hnext, hplace, hunread, hbits, hfirst⟩ := h.token hlegal hr
      have hstart := h.window.start
      have hwithin := h.window.within
      have hspan := (hi.span (ParamSet.p_range hlegal).1 (by omega)).1
      obtain ⟨m, t, out', hm, hruns', hall⟩ := ih hnext (by omega)
      rw [hplace] at hall
      rw [flatTokens_of_isChosen (by omega) (by omega) hi, hunread]
      refine ⟨n + m, t, out ++ out', by rw [List.length_append]; omega, hruns.trans hruns',
        { hall with bits := ?_, transfers := hfirst.trans hall.transfers }⟩
      rw [List.flatMap_append, List.append_assoc, hall.bits, ← List.append_assoc, hbits, List.flatMap_cons,
        List.append_assoc]

/-! ## The last byte, and the whole command -/

/-- Bytes whose bits are these and less than a byte of padding are the packed bytes (R90). -/
theorem packBytes_eq {bits : List Bool} {bs : List Byte} {k : Nat} (hk : k < 8)
    (h : bs.flatMap byteBits = bits ++ List.replicate k false) : packBytes bits = bs := by
  obtain ⟨m, hm, hbits, hlen⟩ := packBytes_bits bits
  have hlen' := congrArg List.length h
  rw [flatMap_byteBits_length, List.length_append, List.length_replicate] at hlen'
  obtain rfl : m = k := by omega
  exact flatMap_byteBits_injective (hbits.trans h.symm)

/-- C_FLUSH pads the pending bits to a byte, or has none to pad (R132). -/
theorem coreOp_cFlush (hps : s.ps = some p) (hcnt : s.bw.cnt ≤ 7) (hsnk : s.snk = acceptingSink o) :
    ∃ t out k, coreOp .cFlush s = .ok () t ∧ t.seq = .busy .cFinish ∧ t.ps = some p ∧ t.snk = acceptingSink o ∧
      t.cp = s.cp ∧ Transfers [] out s t ∧ k < 8 ∧ out.flatMap byteBits = s.bw.bits ++ List.replicate k false := by
  obtain hnone | hsome := Nat.eq_zero_or_pos s.bw.cnt
  · refine ⟨{ s with seq := .busy .cFinish }, [], 0, ?_, rfl, hps, hsnk, rfl, .none rfl, Nat.succ_pos 7, ?_⟩
    · rw [coreOp_some hps, phaseOp, compressFlush, flushBits_of_none hnone]
      rfl
    · rw [BitAcc.bits, hnone]
      rfl
  · have hemit := emitSink_accepting (s := { s with bw := { s.bw with cnt := 0 } }) (flushByte s.bw)
      (by simp [hsnk, acceptingSink]) (by simp [hsnk, acceptingSink])
    refine ⟨{ s with
      bw := { s.bw with cnt := 0 }, history := .snkWrite (flushByte s.bw) .ok :: s.history, seq := .busy .cFinish },
      [flushByte s.bw], 8 - s.bw.cnt, ?_, rfl, hps, hsnk, rfl, .writes rfl, by omega, ?_⟩
    · rw [coreOp_some hps, phaseOp, compressFlush, flushBits_of_pos hsome hemit]
      rfl
    · exact (List.append_nil _).trans (byteBits_flushByte (by omega))

/-- C_INIT leaves the window before the first byte of the input (R150). -/
theorem hasWindow_start (hps : s.ps = some p) (hlegal : p.Legal s.build.idxW) (hroom : 2 * p.n ≤ s.build.wbufBytes)
    (hsrc : srcEndsAfter data s.src) (hidem : srcIdempotentEnd s.src) (hsnk : s.snk = acceptingSink o) :
    HasWindow p o data 0
      { s with
        bw := { acc := 0, cnt := 0 }
        win := memFill p.dict p.c
        cp := { r := p.dict, s := 0, be := p.dict }
        seq := .busy .cFill } := by
  have hdict := ParamSet.dict_add_f hlegal
  obtain ⟨ends, hends⟩ := hsrc
  refine ⟨hps, hsnk, Nat.zero_le 7, hroom, Nat.dvd_zero _, (Nat.zero_add _).symm, le_rfl, ?_, ?_,
    fun a _ ha => ?_, ends, ?_, ?_⟩
  · show p.dict ≤ 2 * p.n
    omega
  · show 0 + p.dict ≤ _
    omega
  · replace ha : a < p.dict := ha
    simp [winByte_eq, flatCell, ha]
  · simpa [unread] using hends
  · rw [hends] at hidem
    exact srcIdempotentEnd_end (List.pairwise_append.mp hidem).2.1

/-- COMPRESS of any input, in a turn of at least eight operations for each byte and five more: it ends in DONE, its
input all read, with the stream of the reference tokens written (R222). -/
theorem exec_compress_completes {quantum : Nat} (hready : s.ready) (hps : s.ps = some p) (hlegal : p.Legal s.build.idxW)
    (hroom : 2 * p.n ≤ s.build.wbufBytes) (hsrc : srcEndsAfter data s.src) (hidem : srcIdempotentEnd s.src)
    (hsnk : s.snk = acceptingSink o) (hquantum : 8 * data.length + 5 ≤ quantum) :
    ∃ t es, exec .compress { s with quantum := quantum } = .next t ∧
      Completed o data (encodeStream p (compressTokens p data)) s t es ∧ t.cp.r = t.cp.be := by
  have hdict := ParamSet.dict_add_f hlegal
  have hlt := ParamSet.f_lt_n hlegal
  have hinit := coreOp_cInit (s := accepted 0b01#2 .cInit quantum s) hps hroom
  have hwindow := hasWindow_start (s := accepted 0b01#2 .cInit quantum s) hps hlegal hroom hsrc hidem hsnk
  obtain ⟨u, bs, hfill, hseq, hwindowu, hfilled, hr, hbw, hunread, hreads⟩ := hwindow.fill (.inl rfl) rfl
  have hplace : 0 + u.cp.r = p.dict := by rw [hr, Nat.zero_add]
  obtain ⟨n, v, out, hn, hruns, hall⟩ := AtSearch.runs hlegal data.length ⟨hseq, hwindowu, hfilled, by omega⟩ (by omega)
  rw [hplace] at hall
  obtain ⟨hseqv, hpsv, hsnkv, hcntv, hend, hbits, hwrites⟩ := hall
  obtain ⟨w, last, k, hflush, hseqw, hpsw, hsnkw, hcp, hlast, hk, hpad⟩ := coreOp_cFlush hpsv hcntv hsnkv
  have hdata : data = bs ++ unread p data 0 u := by
    rw [← hunread, unread]
    simp
  have hstream : encodeStream p (compressTokens p data) = out ++ last := by
    refine packBytes_eq hk ?_
    rw [List.flatMap_append, hpad, ← List.append_assoc, hbits, hbw]
    rfl
  have htransfers : Transfers data (encodeStream p (compressTokens p data)) s w := by
    have hall : Transfers _ _ s w := (hreads.trans hwrites).trans hlast
    rwa [List.append_nil, List.nil_append, ← hstream, ← hdata] at hall
  obtain ⟨es, hcompleted⟩ := htransfers.completed (o := o)
  have hcount := congrArg List.length hdata
  rw [List.length_append] at hcount
  refine ⟨finishedWith o w, es, (exec_compress_eq_runCore quantum hready (by simp [hps])).trans ?_, hcompleted, ?_⟩
  · exact runCore_finishes ((((Runs.one rfl hinit).trans hfill).trans hruns).trans (.one hseqv hflush)) hseqw (.inl rfl)
      hpsw hsnkw (by omega)
  · show w.cp.r = w.cp.be
    rw [hcp, hend]

/-- Settles O38: COMPRESS writes the stream of the reference tokens, from which DECOMPRESS reads them back (O8), and
they expand to the input (O37). -/
theorem compressThenDecompressIsIdentity : Obligations.CompressThenDecompressIsIdentity := by
  intro s s' u p data o o' hlegal hready hps hroom hsrc hidem hsnk hready' hps' hbuild' hsrc' hidem' hsnk' hreadyu hpsu
    hbuildu hsnku
  have hstream : decodeStream p (encodeStream p (compressTokens p data)) = compressTokens p data :=
    streamRoundTrip _ p _ hlegal (compressTokens_wf hlegal)
  have hroomu : p.n ≤ u.build.wbufBytes := by
    rw [hbuildu]
    omega
  refine ⟨max (8 * data.length + 5) ((compressTokens p data).length + 3), fun quantum hquantum => ?_⟩
  obtain ⟨t, es, hexec, hc, -⟩ :=
    exec_compress_completes (quantum := quantum) hready hps hlegal hroom hsrc hidem hsnk (by omega)
  obtain ⟨t', es', hexec', hc', -⟩ := exec_compress_completes (quantum := quantum) hready' hps' (hbuild' ▸ hlegal)
    (hbuild' ▸ hroom) hsrc' hidem' hsnk' (by omega)
  refine ⟨t, t', es, es', hexec, hc.trace, hc.done, hexec', hc'.trace, hc'.done, hc'.written.trans hc.written.symm,
    fun answers hanswers _ => ?_⟩
  rw [hc.written] at hanswers
  obtain ⟨v, fs, hdec, hd⟩ := exec_decompress_completes (s := { u with src := answers }) (quantum := quantum) hreadyu
    hpsu (hbuildu ▸ hlegal) hroomu hanswers hsnku (by rw [hstream]; omega)
  refine ⟨v, fs, hdec, hd.trace, hd.done, hd.written.trans ?_⟩
  rw [hstream]
  exact referenceTokensExpandToTheInput _ p data hlegal

end Sys2Proof.Proofs

/-! The output of COMPRESS_IN_PLACE in IO: the bits written so far, and what a turn at a token's fields and FLUSH add to
them (R131 to R133, R205). -/

namespace Sys2Proof.Proofs

open Sys2Proof Sys2Proof.Machine

variable {s t u : State}

/-! ## The bytes of IO (R249) -/

theorem ioBytes_eq_map (s : State) (lo n : Nat) :
    s.ioBytes lo n = (List.range n).map fun k => (s.ioByte (lo + k)).getD 0 := by
  have hbyte : ∀ k, s.ioByte (lo + k) = some ((s.ioByte (lo + k)).getD 0) := fun k => by
    obtain ⟨b, hb⟩ := Option.isSome_iff_exists.mp (ioByte_isSome s (lo + k))
    rw [hb]
    rfl
  rw [State.ioBytes, funext hbyte]
  exact congrFun List.filterMap_eq_map' _

@[simp] theorem ioBytes_length (s : State) (lo n : Nat) : (s.ioBytes lo n).length = n := by
  rw [ioBytes_eq_map, List.length_map, List.length_range]

theorem ioBytes_getElem? {lo n k : Nat} (hk : k < n) : (s.ioBytes lo n)[k]? = s.ioByte (lo + k) := by
  obtain ⟨b, hb⟩ := Option.isSome_iff_exists.mp (ioByte_isSome s (lo + k))
  simp [ioBytes_eq_map, hk, hb]

theorem ioBytes_add (s : State) (lo m n : Nat) : s.ioBytes lo (m + n) = s.ioBytes lo m ++ s.ioBytes (lo + m) n := by
  simp [ioBytes_eq_map, List.range_add, Function.comp_def, Nat.add_assoc]

theorem ioBytes_take {lo m n : Nat} (h : m ≤ n) : (s.ioBytes lo n).take m = s.ioBytes lo m := by
  obtain ⟨k, rfl⟩ := Nat.exists_eq_add_of_le h
  rw [ioBytes_add, List.take_left' (ioBytes_length s lo m)]

theorem ioBytes_of_getElem? {lo : Nat} {bs : List Byte} (h : ∀ k, k < bs.length → s.ioByte (lo + k) = bs[k]?) :
    s.ioBytes lo bs.length = bs := by
  refine List.ext_getElem? fun k => ?_
  rcases Nat.lt_or_ge k bs.length with hk | hk
  · rw [ioBytes_getElem? hk, h k hk]
  · rw [List.getElem?_eq_none (by rwa [ioBytes_length]), List.getElem?_eq_none hk]

theorem ioBytes_congr {lo n : Nat} (h : ∀ k, k < n → t.ioByte (lo + k) = s.ioByte (lo + k)) :
    t.ioBytes lo n = s.ioBytes lo n :=
  List.filterMap_congr fun k hk => h k (List.mem_range.mp hk)

/-! ## The bits put out -/

/-- The bits COMPRESS_IN_PLACE has written: those of the output bytes IO[0..IP_OUT), then the pending ones (R131). -/
def outputBits (s : State) : List Bool := (s.ioBytes 0 s.ip.out).flatMap byteBits ++ s.bw.bits

@[simp] theorem outputBits_length (s : State) : (outputBits s).length = 8 * s.ip.out + s.bw.cnt := by
  rw [outputBits, List.length_append, flatMap_byteBits_length, ioBytes_length, BitAcc.bits, bitsOf_length]

/-- What an operation of the writer leaves: `bits` put out, no IO cell changed behind the output, the search registers
and the in-place registers but IP_OUT as they were. -/
structure Wrote (bits : List Bool) (s t : State) : Prop where
  ps : t.ps = s.ps
  sr : t.sr = s.sr
  ip : t.ip = { s.ip with out := t.ip.out }
  bits : outputBits t = outputBits s ++ bits
  kept : ∀ a, t.ip.out ≤ a → t.ioByte a = s.ioByte a
  out_le : s.ip.out ≤ t.ip.out

theorem Wrote.refl (s : State) : Wrote [] s s :=
  ⟨rfl, rfl, rfl, (List.append_nil _).symm, fun _ _ => rfl, le_rfl⟩

theorem Wrote.trans {bits bits' : List Bool} (h : Wrote bits s t) (h' : Wrote bits' t u) :
    Wrote (bits ++ bits') s u where
  ps := h'.ps.trans h.ps
  sr := h'.sr.trans h.sr
  ip := h'.ip.trans (by rw [h.ip])
  bits := by rw [h'.bits, h.bits, List.append_assoc]
  kept a ha := (h'.kept a ha).trans (h.kept a (h'.out_le.trans ha))
  out_le := h.out_le.trans h'.out_le

/-- Only the output counts, not the phase. -/
theorem Wrote.withSeq {bits : List Bool} {q : SeqState} (h : Wrote bits s t) : Wrote bits s { t with seq := q } :=
  ⟨h.ps, h.sr, h.ip, h.bits, h.kept, h.out_le⟩

/-- The count of what has been put out. -/
theorem Wrote.count {bits : List Bool} (h : Wrote bits s t) :
    8 * t.ip.out + t.bw.cnt = 8 * s.ip.out + s.bw.cnt + bits.length := by
  have hlen := congrArg List.length h.bits
  rwa [List.length_append, outputBits_length, outputBits_length] at hlen

@[simp] theorem fieldsWidth_cons (f : Field) (fs : List Field) : fieldsWidth (f :: fs) = f.width + fieldsWidth fs :=
  List.sum_cons

theorem fieldBits_length (fs : List Field) : (fieldBits fs).length = fieldsWidth fs := by
  simp [fieldBits, fieldsWidth, List.length_flatMap]

/-! ## WRITE_BITS and FLUSH into IO (R130, R132) -/

/-- Bytes stored at IP_OUT onward and the bits left pending behind them put out what they hold beyond what pended. -/
theorem emitAll_io_wrote {bs : List Byte} {a : BitAcc} {bits : List Bool} (hroom : s.ip.out + bs.length ≤ s.ip.len)
    (hbits : bs.flatMap byteBits ++ a.bits = s.bw.bits ++ bits) :
    ∃ t, emitAll emitIo bs s = .ok () t ∧ t.seq = s.seq ∧ Wrote bits s { t with bw := a } := by
  obtain ⟨t, hemit, ht, hcells, hframe⟩ := emitAll_io bs hroom
  have hip : t.ip = { s.ip with out := s.ip.out + bs.length } := by rw [ht]
  have hout : t.ip.out = s.ip.out + bs.length := by rw [hip]
  refine ⟨t, hemit, by rw [ht], by rw [ht], by rw [ht], by rw [hout]; exact hip, ?_, fun k hk => hframe k (.inr ?_), ?_⟩
  · have hold : t.ioBytes 0 s.ip.out = s.ioBytes 0 s.ip.out := ioBytes_congr fun k hk => hframe _ (by omega)
    have hnew : t.ioBytes (0 + s.ip.out) bs.length = bs := ioBytes_of_getElem? (by rwa [Nat.zero_add])
    show (t.ioBytes 0 t.ip.out).flatMap byteBits ++ a.bits = _
    rw [hout, ioBytes_add, hold, hnew, List.flatMap_append, List.append_assoc, hbits, outputBits, List.append_assoc]
  · exact hout ▸ hk
  · show s.ip.out ≤ t.ip.out
    omega

/-- The loop of WRITE_BITS puts out nothing new: the whole bytes move from the accumulator to IO. -/
theorem drainBits_io (hroom : s.ip.out + s.bw.cnt / 8 ≤ s.ip.len) :
    ∃ t, drainBits emitIo s.bw.cnt s = .ok () t ∧ t.seq = s.seq ∧ Wrote [] s t ∧ t.bw.cnt ≤ 7 := by
  obtain ⟨t, hemit, hseq, hwrote⟩ := emitAll_io_wrote (a := partByte s.bw) (bits := []) (bs := wholeBytes s.bw)
    (by rwa [wholeBytes_length]) (by rw [bits_wholeBytes, List.append_nil])
  refine ⟨{ t with bw := partByte s.bw }, ?_, hseq, hwrote, partByte_cnt_le _⟩
  have hdrain :=
    drainBits_after (fuel := s.bw.cnt - s.bw.cnt / 8) emitIo_ignoresWriter (Nat.mul_div_le s.bw.cnt 8) hemit
  rw [Nat.sub_add_cancel (Nat.div_le_self _ _)] at hdrain
  exact hdrain.trans (drainBits_of_lt (Nat.lt_succ_of_le (partByte_cnt_le _)))

theorem writeBits_io {f : Field} (hf : f.ok = true) (hcnt : s.bw.cnt ≤ 7)
    (hroom : s.ip.out + (s.bw.cnt + f.width) / 8 ≤ s.ip.len) :
    ∃ t, writeBits emitIo f s = .ok () t ∧ t.seq = s.seq ∧ Wrote (bitsOf f.value f.width) s t ∧ t.bw.cnt ≤ 7 := by
  have hpush : Wrote (bitsOf f.value f.width) s { s with bw := pushBits f s.bw } := by
    refine ⟨rfl, rfl, rfl, ?_, fun _ _ => rfl, le_rfl⟩
    show (s.ioBytes 0 s.ip.out).flatMap byteBits ++ (pushBits f s.bw).bits = _
    rw [bits_pushBits s.bw hf hcnt, outputBits, List.append_assoc]
  obtain ⟨t, hdrain, hseq, hwrote, ht⟩ := drainBits_io (s := { s with bw := pushBits f s.bw }) hroom
  rw [writeBits, if_pos hf]
  exact ⟨t, hdrain, hseq, List.append_nil (bitsOf f.value f.width) ▸ hpush.trans hwrote, ht⟩

theorem flushBits_io (hcnt : s.bw.cnt ≤ 7) (hroom : s.ip.out < s.ip.len) :
    ∃ t k, flushBits emitIo s = .ok () t ∧ k < 8 ∧ Wrote (List.replicate k false) s t ∧ t.bw.cnt = 0 := by
  obtain hnone | hsome := Nat.eq_zero_or_pos s.bw.cnt
  · exact ⟨s, 0, flushBits_of_none hnone, Nat.succ_pos 7, .refl s, hnone⟩
  · obtain ⟨t, hemit, -, hwrote⟩ := emitAll_io_wrote (s := s) (bs := [flushByte s.bw]) (a := { s.bw with cnt := 0 })
      (bits := List.replicate (8 - s.bw.cnt) false) hroom (by
        rw [List.flatMap_singleton, byteBits_flushByte (by omega)]
        exact List.append_nil _)
    obtain ⟨u, hbyte, hu⟩ := emitAll_cons_ok.mp hemit
    cases hu
    exact ⟨_, _, flushBits_of_pos hsome (emitIo_ignoresWriter _ _ _ _ hbyte), by omega, hwrote, rfl⟩

/-! ## The phases that write (R203, R205, R206) -/

/-- With no field left the bytes still pending go out, and r and s advance (R203). -/
theorem inPlaceWrite_nil (hroom : s.ip.out + s.bw.cnt / 8 ≤ s.ip.len) :
    ∃ t, Wrote [] s t ∧ t.bw.cnt ≤ 7 ∧
      inPlaceWrite [] s =
        .ok ()
          { t with
            ip := { t.ip with r := t.ip.r + t.sr.y, s := t.ip.s + t.sr.y }
            seq := .busy .ipGate } := by
  obtain ⟨t, hdrain, -, hwrote, hcnt⟩ := drainBits_io hroom
  refine ⟨t, hwrote, hcnt, ?_⟩
  rw [inPlaceWrite, writeFields, hdrain]
  rfl

/-- One field of a token goes out behind the bytes still pending (R101, R133). -/
theorem inPlaceWrite_cons {f : Field} {rest : List Field} (hf : f.ok = true)
    (hroom : 8 * s.ip.out + s.bw.cnt + f.width ≤ 8 * s.ip.len) :
    ∃ t, inPlaceWrite (f :: rest) s = .ok () t ∧ t.seq = .busy (.ipWrite rest) ∧
      Wrote (bitsOf f.value f.width) s t ∧ t.bw.cnt ≤ 7 := by
  obtain ⟨t, hdrain, -, hdrained, ht⟩ := drainBits_io (s := s) (by omega)
  have hcount := hdrained.count
  have hlen : t.ip.len = s.ip.len := by rw [hdrained.ip]
  rw [List.length_nil] at hcount
  obtain ⟨u, hwrite, hseq, hwrote, hu⟩ :=
    writeBits_io (s := { t with seq := .busy (.ipWrite rest) }) hf ht (by dsimp only; omega)
  refine ⟨u, ?_, hseq, hdrained.withSeq.trans hwrote, hu⟩
  rw [inPlaceWrite, writeFields, hdrain]
  dsimp only [Res.andThen_ok]
  rw [hwrite]
  rfl

/-- FLUSH pads what pends to a byte, and the command ends (R132, R205, R206). -/
theorem inPlaceFlush_ended (gated : Bool) (hcnt : s.bw.cnt ≤ 7) (hroom : s.ip.out < s.ip.len) :
    ∃ t k, k < 8 ∧ Wrote (List.replicate k false) s t ∧ t.bw.cnt = 0 ∧
      inPlaceFlush gated s = .ended (endCommand (.inPlace t.ip.out (if gated then some t.ip.r else none)) t) := by
  obtain ⟨t, k, hflush, hk, hwrote, ht⟩ := flushBits_io hcnt hroom
  refine ⟨t, k, hk, hwrote, ht, ?_⟩
  rw [inPlaceFlush, hflush]
  rfl

end Sys2Proof.Proofs

/-! The offset correction of COMPRESS_IN_PLACE, its precondition check, and the input it never overwrites (R201, R202,
R204, R205, R71). -/

namespace Sys2Proof.Proofs

open Sys2Proof Sys2Proof.Machine

variable {p : ParamSet} {s t u : State} {phase : Phase}

/-! ## The offset correction (R202, R204) -/

/-- IP_OFFSET2 is N less the remainder of `offset + F`. -/
theorem offsetCorrection_eq (p : ParamSet) (off : Nat) : offsetCorrection p off = p.n - (off + p.f) % p.n := by
  have hdiv := Nat.div_add_mod (off + p.f) p.n
  rw [offsetCorrection, Nat.mul_add, Nat.mul_one]
  omega

theorem offsetCorrection_range (p : ParamSet) (off : Nat) :
    1 ≤ offsetCorrection p off ∧ offsetCorrection p off ≤ p.n := by
  have hlt := Nat.mod_lt (off + p.f) p.n_pos
  rw [offsetCorrection_eq]
  omega

/-- THE IDEA of the correction: the first seed cell, so corrected, is a multiple of N, as cell 0 of the decoder is. -/
theorem seedStart_add_offsetCorrection {off : Nat} (hfn : p.f ≤ p.n) (hdict : p.dict ≤ off) :
    off - p.dict + offsetCorrection p off = p.n * ((off + p.f) / p.n) := by
  have hdiv := Nat.div_add_mod (off + p.f) p.n
  have hlt := Nat.mod_lt (off + p.f) p.n_pos
  have hsplit : p.dict + p.f = p.n := Nat.sub_add_cancel hfn
  rw [offsetCorrection_eq]
  omega

/-- Settles O26: a position's distance from the first seed cell is its distance from a multiple of N. -/
theorem offsetCorrectionGivesTheDecoderCell : Obligations.OffsetCorrectionGivesTheDecoderCell := by
  intro b p off len hlegal hmin _ _
  have hsplit := ParamSet.dict_add_f hlegal
  have hdict : p.dict ≤ off := Nat.le_trans (Nat.le_add_right _ _) hmin
  have hfpos := p.f_pos
  obtain ⟨hlo, hhi⟩ := offsetCorrection_range p off
  have hstart := seedStart_add_offsetCorrection (ParamSet.f_lt_n hlegal).le hdict
  refine ⟨hlo, hhi, ?_, fun m => ?_, fun k hk => ?_⟩
  · have hsum : offsetCorrection p off + (off + p.f) = p.n * ((off + p.f) / p.n) + p.n := by omega
    rw [hsum, Nat.mul_add_mod, Nat.mod_self]
  · have hsum : off + m + offsetCorrection p off = p.n * ((off + p.f) / p.n) + (p.dict + m) := by omega
    rw [hsum, p.and_mask, p.and_mask, Nat.mul_add_mod]
  · have hsum : off - p.dict + k + offsetCorrection p off = p.n * ((off + p.f) / p.n) + k := by omega
    rw [hsum, p.and_mask, Nat.mul_add_mod, Nat.mod_eq_of_lt (by omega)]

/-! ## The precondition check (R201) -/

/-- A turn whose first operation ends COMPRESS_IN_PLACE. -/
theorem exec_compressInPlace_of_ended {e : Ending} (hready : s.ready) (hps : s.ps = some p) (hquantum : 1 ≤ s.quantum)
    (hcheck : inPlaceCheck p (acceptedInPlace s.quantum s) = .ended (endCommand e (acceptedInPlace s.quantum s))) :
    exec .compressInPlace s = .next (endCommand e (acceptedInPlace s.quantum s)) := by
  have hop : coreOp .ipCheck (acceptedInPlace s.quantum s) = inPlaceCheck p (acceptedInPlace s.quantum s) :=
    coreOp_some hps
  exact (exec_compressInPlace_eq_runCore s.quantum hready (by simp [hps])).trans
    ((Runs.refl _).ends rfl (hop.trans hcheck) hquantum)

/-- Settles O39: the three answers of IP_CHECK, in its order. -/
theorem inPlacePreconditionExits : Obligations.InPlacePreconditionExits := by
  intro s p hready hps _ hquantum
  refine ⟨fun hnone => ?_, fun hlt hshort => ?_, fun hlt hmin => ?_⟩
  · exact ⟨_, exec_compressInPlace_of_ended hready hps hquantum (if_pos hnone), rfl, rfl, rfl, rfl⟩
  · exact ⟨_, exec_compressInPlace_of_ended hready hps hquantum ((if_neg (Nat.not_le.mpr hlt)).trans (if_pos hshort)),
      rfl, rfl, rfl, rfl⟩
  · have hcheck :
        coreOp .ipCheck (acceptedInPlace 1 s) = .ok () { acceptedInPlace 1 s with seq := .busy (.ipSeed 0) } :=
      (coreOp_some (s := acceptedInPlace 1 s) (phase := .ipCheck) hps).trans
        ((if_neg (Nat.not_le.mpr hlt)).trans (if_neg (Nat.not_lt.mpr hmin)))
    exact ⟨_, (exec_compressInPlace_eq_runCore 1 hready (by simp [hps])).trans ((Runs.one rfl hcheck).runCore 0), rfl,
      rfl, rfl⟩

/-! ## Unread input (R205, R71, R277) -/

/-- The phases of COMPRESS_IN_PLACE behind its seed (R38). -/
def pastSeed : Phase → Bool
  | .ipSearch | .ipEmit | .ipWrite _ | .ipGate | .ipFlush _ => true
  | _ => false

/-- No command runs but a COMPRESS_IN_PLACE that has written its seed. -/
def OnlyPastSeed (s : State) : Prop := ∀ phase, s.seq = .busy phase → pastSeed phase = true

theorem onlyPastSeed_of_busy (hseq : s.seq = .busy phase) (h : pastSeed phase = true) : OnlyPastSeed s :=
  fun phase' hseq' => by
    obtain rfl : phase = phase' := by simpa using hseq.symm.trans hseq'
    exact h

theorem onlyPastSeed_endCommand (e : Ending) (s : State) : OnlyPastSeed (endCommand e s) :=
  fun phase h => absurd h (endSeq_not_busy e phase)

/-- IP_R has moved up only, and no IO byte at or above it has changed. -/
def LeavesUnread (s t : State) : Prop := s.ip.r ≤ t.ip.r ∧ ∀ a, t.ip.r ≤ a → t.ioByte a = s.ioByte a

theorem LeavesUnread.refl (s : State) : LeavesUnread s s := ⟨le_rfl, fun _ _ => rfl⟩

theorem LeavesUnread.trans (h : LeavesUnread s t) (h' : LeavesUnread t u) : LeavesUnread s u := by
  obtain ⟨hr, hkept⟩ := h
  obtain ⟨hr', hkept'⟩ := h'
  exact ⟨hr.trans hr', fun a ha => (hkept' a ha).trans (hkept a (hr'.trans ha))⟩

/-- Output that ends at or below IP_R leaves the unread input alone. -/
theorem Wrote.leavesUnread {bits : List Bool} (h : Wrote bits s t) (hout : t.ip.out ≤ s.ip.r) : LeavesUnread s t := by
  have hr : t.ip.r = s.ip.r := by rw [h.ip]
  exact ⟨hr.ge, fun a ha => h.kept a (by omega)⟩

/-- One operation of COMPRESS_IN_PLACE behind its seed. Only the two that write touch IO, and the invariant keeps their
output below the dictionary. -/
theorem phaseOp_leavesUnread (h : Running p phase s) (hphase : pastSeed phase = true) :
    (phaseOp p phase s).All fun t => OnlyPastSeed t ∧ LeavesUnread s t := by
  have hbusy : ∀ {phase' sr}, pastSeed phase' = true →
      OnlyPastSeed { s with sr := sr, seq := .busy phase' } ∧ LeavesUnread s { s with sr := sr, seq := .busy phase' } :=
    fun hpast => ⟨onlyPastSeed_of_busy rfl hpast, .refl s⟩
  have hended := fun e => (⟨onlyPastSeed_endCommand e s, .refl s⟩ : OnlyPastSeed _ ∧ LeavesUnread s (endCommand e s))
  obtain ⟨-, -, -, hinv, -⟩ := h
  cases phase with
  | ipSearch =>
    rw [phaseOp, inPlaceSearch]
    split
    · exact onAccess_all (hended _) fun q _ => hbusy rfl
    · exact hbusy rfl
  | ipEmit =>
    rw [phaseOp, inPlaceEmit]
    split
    · exact onAccess_all (hended _) fun b _ => hbusy rfl
    · exact hbusy rfl
  | ipWrite fs =>
    obtain ⟨⟨-, -, hrs, hr, -⟩, -, hbelow, -, -, hok⟩ := hinv
    rw [phaseOp]
    cases fs with
    | nil =>
      obtain ⟨t, hwrote, -, hop⟩ := inPlaceWrite_nil (s := s) (by omega)
      have hcount := hwrote.count
      rw [List.length_nil] at hcount
      obtain ⟨hr', hkept⟩ := hwrote.leavesUnread (by omega)
      rw [hop]
      exact ⟨onlyPastSeed_of_busy rfl rfl, Nat.le_add_right_of_le hr', fun a ha => hkept a (Nat.le_of_add_right_le ha)⟩
    | cons f rest =>
      dsimp only [outputBelow] at hbelow
      rw [fieldsWidth_cons] at hbelow
      obtain ⟨t, hop, hseq, hwrote, -⟩ :=
        inPlaceWrite_cons (s := s) (rest := rest) (hok f List.mem_cons_self) (by omega)
      have hcount := hwrote.count
      rw [bitsOf_length] at hcount
      rw [hop]
      exact ⟨onlyPastSeed_of_busy hseq rfl, hwrote.leavesUnread (by omega)⟩
  | ipGate =>
    rw [phaseOp, inPlaceGate]
    split <;> exact hbusy rfl
  | ipFlush gated =>
    obtain ⟨⟨-, -, hrs, hr, -⟩, hcnt, hbelow, -⟩ := hinv
    obtain ⟨t, k, hk, hwrote, -, hop⟩ := inPlaceFlush_ended gated (s := s) hcnt (by omega)
    have hcount := hwrote.count
    rw [List.length_replicate] at hcount
    rw [phaseOp, hop]
    exact ⟨onlyPastSeed_endCommand _ t, hwrote.leavesUnread (by omega)⟩
  | _ => cases hphase

/-- Settles O41: what one operation leaves unread, and keeps of the invariant, a turn does. -/
theorem inPlaceNeverWritesUnreadInput : Obligations.InPlaceNeverWritesUnreadInput := by
  intro s t phase hinv hscript hseq hinPlace hcheck hseed hstep
  have hphase : pastSeed phase = true := by
    cases phase with
    | ipCheck => exact absurd rfl hcheck
    | ipSeed k => exact absurd rfl (hseed k)
    | ipSearch | ipEmit | ipWrite _ | ipGate | ipFlush _ => rfl
    | _ => cases hinPlace
  rw [step, hscript] at hstep
  have hkeeps := runCore_keeps (P := fun u => Inv u ∧ OnlyPastSeed u ∧ LeavesUnread s u) (fun u phase hsequ hu => ?_)
    (s.quantum + 1) s t ⟨hinv, onlyPastSeed_of_busy hseq hphase, .refl s⟩ hstep
  · exact hkeeps.2.2
  · obtain ⟨hinvu, honly, hleft⟩ := hu
    have hpast := honly phase hsequ
    obtain ⟨p, hps, hrun⟩ := running_of_inv hinvu hsequ (by rintro c rfl; cases hpast)
    have hop := coreOp_some (phase := phase) hps ▸ phaseOp_leavesUnread hrun hpast
    obtain ⟨hinv', -⟩ := meets_never_iff.mp (coreOp_inv hinvu hsequ)
    generalize coreOp phase u = r at hop hinv'
    cases r with
    | ok a v | waits v | ended v =>
      obtain ⟨honly', hleft'⟩ := hop
      exact ⟨hinv', honly', hleft.trans hleft'⟩
    | faulted f | refused x => trivial

end Sys2Proof.Proofs

/-! The reference tokens of a shorter input: cutting the input behind a token leaves the token as it was chosen (R171,
R180, R207). -/

namespace Sys2Proof.Proofs

open Sys2Proof Sys2Proof.Machine

variable {p : ParamSet} {data : List Byte} {g g' : Nat → Byte} {k r f1 f1' lo m : Nat} {q q' : SearchRegs} {i : Instr}
  {ts : List Instr}

/-! ## A best match asked for less -/

theorem exists_matchLength (g : Nat → Byte) (k r f1 : Nat) : ∃ l, matchLength g k r f1 l := by
  obtain ⟨l, -, -, hl⟩ := extendMatch_ok (B := fun a => .ok (g a)) (g := g) (i := k) (r := r) (f1 := f1)
    (fun _ _ => ⟨rfl, rfl⟩) f1 0 (Nat.zero_le _) (Nat.sub_le _ _) fun _ hm => absurd hm (Nat.not_lt_zero _)
  exact ⟨l, hl⟩

/-- A match length asked for less is no longer, and the same if it was short enough. -/
theorem matchLength_shorten {l l' : Nat} (hle : f1' ≤ f1) (h : matchLength g k r f1 l) (h' : matchLength g k r f1' l') :
    l' ≤ l ∧ (l ≤ f1' → l' = l) := by
  obtain ⟨-, hagree, hmax⟩ := h
  obtain ⟨hl', hagree', hmax'⟩ := h'
  have hle' := hmax l' (hl'.trans hle) hagree'
  exact ⟨hle', fun hl => Nat.le_antisymm hle' (hmax' l hl hagree)⟩

theorem IsBest.y_le_of_shorten (h : IsBest g r f1 lo q) (h' : IsBest g r f1' lo q') (hle : f1' ≤ f1) : q'.y ≤ q.y := by
  obtain ⟨-, hy⟩ | ⟨-, hlo, hhi, hlen, -⟩ := h'.best
  · exact hy ▸ h.one_le_y
  · obtain ⟨l, hl⟩ := exists_matchLength g q'.x r f1
    exact (matchLength_shorten hle hl hlen).1.trans (h.longest _ _ hlo hhi hl)

/-- A best match stays the best when less is asked for, but not less than its own length. -/
theorem IsBest.shorten (h : IsBest g r f1 lo q) (hle : f1' ≤ f1) (hy : q.y ≤ f1') : IsBest g r f1' lo q := by
  have hsame : ∀ j l', lo ≤ j → j < r → matchLength g j r f1' l' → matchLength g j r f1 l' := by
    intro j l' hlo hhi hl'
    obtain ⟨l, hl⟩ := exists_matchLength g j r f1
    rwa [(matchLength_shorten hle hl hl').2 ((h.longest j l hlo hhi hl).trans hy)]
  refine ⟨fun j l' hlo hhi hl' => h.longest j l' hlo hhi (hsame j l' hlo hhi hl'), h.best.imp_right ?_⟩
  rintro ⟨htwo, hlo, hhi, ⟨-, hagree, hmax⟩, hrecent⟩
  exact ⟨htwo, hlo, hhi, ⟨hy, hagree, fun j hj => hmax j (hj.trans hle)⟩,
    fun j l' hj hr hl' => hrecent j l' hj hr (hsame j l' (hlo.trans hj.le) hr hl')⟩

theorem agreeFor_congr (hg : ∀ a, a < r + f1 → g a = g' a) (hk : k < r) {j : Nat} (hj : j ≤ f1) :
    agreeFor g k r j ↔ agreeFor g' k r j :=
  forall₂_congr fun n hn => by rw [hg (k + n) (by omega), hg (r + n) (by omega)]

/-- A match length is a matter of the bytes looked at. -/
theorem matchLength_congr (hg : ∀ a, a < r + f1 → g a = g' a) (hk : k < r) {l : Nat} :
    matchLength g k r f1 l ↔ matchLength g' k r f1 l :=
  and_congr_right fun hl => and_congr (agreeFor_congr hg hk hl)
    (forall₂_congr fun _ hj => imp_congr_left (agreeFor_congr hg hk hj))

theorem IsBest.congr (hg : ∀ a, a < r + f1 → g a = g' a) (h : IsBest g r f1 lo q) : IsBest g' r f1 lo q where
  longest j l hlo hhi hl := h.longest j l hlo hhi ((matchLength_congr hg hhi).mpr hl)
  best := h.best.imp_right fun ⟨htwo, hlo, hhi, hlen, hrecent⟩ =>
    ⟨htwo, hlo, hhi, (matchLength_congr hg hhi).mp hlen,
      fun j l hj hr hl => hrecent j l hj hr ((matchLength_congr hg hr).mpr hl)⟩

/-! ## A token of a shorter input -/

theorem flatCell_take (hk : k < p.dict + m) : flatCell p (data.take m) k = flatCell p data k := by
  rw [flatCell, flatCell]
  split
  · rfl
  · rw [List.getD_eq_getElem?_getD, List.getD_eq_getElem?_getD, List.getElem?_take_of_lt (by omega)]

/-- A token chosen in an input is chosen in what is left when the input is cut behind it: a match, because it is not
longer than what is left; a literal, because no match gets longer. -/
theorem IsChosen.take (h : IsChosen p data r i) (hp : 1 ≤ p.p) (hm : m ≤ data.length) (hlo : p.dict ≤ r)
    (hspan : r + tokenSpan i ≤ p.dict + m) (hpos : 1 ≤ tokenSpan i) : IsChosen p (data.take m) r i := by
  have hlength : (data.take m).length = m := List.length_take_of_le hm
  obtain ⟨j, ⟨q', hbest', rfl⟩, -⟩ := flatTokens_succ (p := p) (data := data.take m) (fuel := 0) hlo (by omega)
  obtain ⟨q, hbest, rfl⟩ := h
  have hahead' := flatAhead_le p (data.take m) r
  have hle : flatAhead p (data.take m) r ≤ flatAhead p data r := by
    rw [flatAhead, flatAhead, hlength]
    omega
  have hcut : IsBest (flatCell p data) r (flatAhead p (data.take m) r) (r - p.dict) q' :=
    hbest'.congr fun a ha => flatCell_take (by omega)
  have hshorter := hbest.y_le_of_shorten hcut hle
  refine ⟨q', hbest', ?_⟩
  split
  · rename_i hlit
    rw [if_pos (hshorter.trans hlit), flatCell_take (by omega)]
  · rename_i hlong
    rw [if_neg hlong, tokenSpan_matchTok] at hspan
    have hin : q.y ≤ flatAhead p (data.take m) r := by
      have := hbest.y_le (flatAhead_pos (by omega))
      have := (flatAhead_le p data r).1
      rw [flatAhead, hlength]
      omega
    obtain ⟨hx, hy⟩ := (hbest.shorten hle hin).unique hcut
    rw [← hx, ← hy, if_neg hlong]

/-! ## The tokens of an input, one after another -/

/-- The input a list of tokens stands for (R153). -/
def spanOf (ts : List Instr) : Nat := (ts.map tokenSpan).sum

@[simp] theorem spanOf_append (ts ts' : List Instr) : spanOf (ts ++ ts') = spanOf ts + spanOf ts' := by
  simp [spanOf]

@[simp] theorem spanOf_cons (i : Instr) (ts : List Instr) : spanOf (i :: ts) = tokenSpan i + spanOf ts := by
  simp [spanOf]

@[simp] theorem spanOf_nil : spanOf [] = 0 := rfl

/-- Each token of `ts` is chosen, from `r` on, where the one before it ends. -/
def AreChosen (p : ParamSet) (data : List Byte) : Nat → List Instr → Prop
  | _, [] => True
  | r, i :: ts => (r < p.dict + data.length ∧ IsChosen p data r i) ∧ AreChosen p data (r + tokenSpan i) ts

theorem AreChosen.concat (h : AreChosen p data r ts) (hr : r + spanOf ts < p.dict + data.length)
    (hi : IsChosen p data (r + spanOf ts) i) : AreChosen p data r (ts ++ [i]) := by
  induction ts generalizing r with
  | nil => exact ⟨⟨hr, hi⟩, trivial⟩
  | cons j ts ih =>
    obtain ⟨hj, hts⟩ := h
    rw [spanOf_cons, ← Nat.add_assoc] at hr hi
    exact ⟨hj, ih hts hr hi⟩

theorem AreChosen.length_le (h : AreChosen p data r ts) (hp : 1 ≤ p.p) : ts.length ≤ spanOf ts := by
  induction ts generalizing r with
  | nil => exact le_rfl
  | cons i ts ih =>
    obtain ⟨⟨hr, hi⟩, hts⟩ := h
    have hpos := (hi.span hp hr).1
    have := ih hts
    rw [List.length_cons, spanOf_cons]
    omega

/-- Tokens chosen in an input are the reference tokens of the part they stand for. -/
theorem AreChosen.flatTokens_take (h : AreChosen p data r ts) (hp : 1 ≤ p.p) (hm : m ≤ data.length) (hlo : p.dict ≤ r)
    (hspan : r + spanOf ts = p.dict + m) {fuel : Nat} (hfuel : ts.length ≤ fuel) :
    flatTokens p (data.take m) fuel r = ts := by
  have hlength : (data.take m).length = m := List.length_take_of_le hm
  induction ts generalizing r fuel with
  | nil => exact flatTokens_of_end (by rw [hlength]; exact hspan.ge)
  | cons i ts ih =>
    obtain ⟨⟨hr, hi⟩, hts⟩ := h
    have hpos := (hi.span hp hr).1
    rw [spanOf_cons] at hspan
    rw [List.length_cons] at hfuel
    obtain ⟨fuel, rfl⟩ : ∃ n, fuel = n + 1 := ⟨fuel - 1, by omega⟩
    rw [flatTokens_of_isChosen hlo (by omega) (hi.take hp hm hlo (by omega) hpos),
      ih hts (by omega) (by omega) (by omega)]

theorem AreChosen.compressTokens_take (h : AreChosen p data p.dict ts) (hp : 1 ≤ p.p) (hin : spanOf ts ≤ data.length) :
    compressTokens p (data.take (spanOf ts)) = ts := by
  refine h.flatTokens_take hp hin le_rfl rfl ?_
  rw [List.length_take_of_le hin]
  exact h.length_le hp

end Sys2Proof.Proofs

/-! A run of COMPRESS_IN_PLACE: token by token what the reference compressor does, until the gate trips or the input
ends (R203 to R208). -/

namespace Sys2Proof.Proofs

open Sys2Proof Sys2Proof.Machine

variable {p : ParamSet} {s t u : State} {data : List Byte} {i : Instr} {ts : List Instr}

/-! ## The input and what is taken of it -/

/-- COMPRESS_IN_PLACE behind its seed, before its first token: the unbounded window of the input stands in IO from IP_S
to IP_L, and IP_OFFSET2 takes IP_S to a multiple of N (R202, R207). -/
structure Seeded (p : ParamSet) (data : List Byte) (u : State) : Prop where
  ps : u.ps = some p
  start : u.ip.r = u.ip.s + p.dict
  len : u.ip.len = u.ip.r + data.length
  gap : p.gap ≤ u.ip.s
  aligned : p.n ∣ u.ip.s + u.ip.offset2
  cells : ∀ k, k < p.dict + data.length → u.ioByte (u.ip.s + k) = some (flatCell p data k)
  out : u.ip.out = 0
  cnt : u.bw.cnt = 0

/-- COMPRESS_IN_PLACE with the tokens `ts` taken since `u`: they are the reference's choice, their bits are put out, the
pointers have advanced by their span, and IO is as it was from the dictionary on (R203, R205). -/
structure HasTaken (p : ParamSet) (data : List Byte) (u : State) (ts : List Instr) (s : State) : Prop where
  ps : s.ps = some p
  chosen : AreChosen p data p.dict ts
  inside : spanOf ts ≤ data.length
  ip : s.ip = { u.ip with s := u.ip.s + spanOf ts, r := u.ip.r + spanOf ts, out := s.ip.out }
  bits : outputBits s = ts.flatMap (encode p)
  cnt : s.bw.cnt ≤ 7
  below : outputBelow s 0
  kept : ∀ a, s.ip.s ≤ a → s.ioByte a = u.ioByte a

theorem Seeded.hasTaken (h : Seeded p data u) : HasTaken p data u [] u where
  ps := h.ps
  chosen := trivial
  inside := Nat.zero_le _
  ip := rfl
  bits := List.eq_nil_of_length_eq_zero (by rw [outputBits_length, h.out, h.cnt])
  cnt := h.cnt ▸ Nat.zero_le 7
  below := by
    have hgap : p.gap = p.p + 4 := rfl
    have := h.gap
    rw [outputBelow, h.out, h.cnt]
    omega
  kept _ _ := rfl

/-- Where the pointers stand, counted from the first seed cell. -/
theorem HasTaken.places (hu : Seeded p data u) (h : HasTaken p data u ts s) :
    s.ip.s = u.ip.s + spanOf ts ∧ s.ip.r = u.ip.s + (p.dict + spanOf ts) ∧
      s.ip.len = u.ip.s + (p.dict + data.length) ∧ s.ip.offset2 = u.ip.offset2 := by
  have hstart := hu.start
  have hlen := hu.len
  rw [h.ip]
  dsimp only
  omega

/-- Only PS, the writer, the in-place registers and IO count. -/
theorem HasTaken.of_eq (h : HasTaken p data u ts s) (hps : t.ps = s.ps) (hbw : t.bw = s.bw) (hip : t.ip = s.ip)
    (hio : t.io = s.io) : HasTaken p data u ts t := by
  have hbyte : ∀ a, t.ioByte a = s.ioByte a := fun a => by rw [State.ioByte, hio, State.ioByte]
  obtain ⟨hps', hchosen, hinside, hip', hbits, hcnt, hbelow, hkept⟩ := h
  refine ⟨hps.trans hps', hchosen, hinside, hip ▸ hip', ?_, hbw ▸ hcnt, ?_, fun a ha => ?_⟩
  · rw [outputBits, hip, hbw, ioBytes_congr fun k _ => hbyte (0 + k)]
    exact hbits
  · rw [outputBelow, hip, hbw]
    exact hbelow
  · exact (hbyte a).trans (hkept a (hip ▸ ha))

/-- A token's bits put out below the dictionary, and the pointers advanced by its span (R203). -/
theorem HasTaken.advance {q : SeqState} (h : HasTaken p data u ts s) (hr : spanOf ts < data.length)
    (hi : IsChosen p data (p.dict + spanOf ts) i) (hp : 1 ≤ p.p) (hwrote : Wrote (encode p i) s t)
    (hcnt : t.bw.cnt ≤ 7) (hbelow : outputBelow t 0) :
    HasTaken p data u (ts ++ [i])
      { t with ip := { t.ip with r := t.ip.r + tokenSpan i, s := t.ip.s + tokenSpan i }, seq := q } := by
  have hinput : p.dict + spanOf ts < p.dict + data.length := by omega
  have hin := (hi.span hp hinput).2
  have hs : t.ip.s = s.ip.s := by rw [hwrote.ip]
  have hspan : spanOf (ts ++ [i]) = spanOf ts + tokenSpan i := by simp
  refine ⟨hwrote.ps.trans h.ps, h.chosen.concat hinput hi, by omega, ?_, ?_, hcnt, ?_, fun a ha => ?_⟩
  · rw [hwrote.ip, h.ip, hspan, ← Nat.add_assoc, ← Nat.add_assoc]
  · rw [List.flatMap_append, List.flatMap_singleton, ← h.bits]
    exact hwrote.bits
  · dsimp only [outputBelow] at hbelow ⊢
    omega
  · dsimp only at ha
    exact (hwrote.kept a (by omega)).trans (h.kept a (by omega))

/-- The whole bytes of the tokens taken are those in IO (R205). -/
theorem HasTaken.out_eq (h : HasTaken p data u ts s) : (ts.flatMap (encode p)).length / 8 = s.ip.out := by
  have hcnt := h.cnt
  rw [← h.bits, outputBits_length]
  omega

/-- The test of IP_GATE is the gate of the tokens taken (R205). -/
theorem HasTaken.gateTrips_iff {off : Nat} (h : HasTaken p data u ts s) (hoff : u.ip.s = off - p.dict) :
    gateTrips p off ts ↔ s.ip.out + p.gap > s.ip.s := by
  have hs : s.ip.s = off - p.dict + spanOf ts := by rw [h.ip, ← hoff]
  rw [gateTrips, h.out_eq, hs, spanOf]

/-! ## One token -/

/-- The cells the search reads hold the unbounded window of the input (R207). -/
theorem HasTaken.ioRead_eq (hu : Seeded p data u) (h : HasTaken p data u ts s) {k : Nat} (hlo : spanOf ts ≤ k)
    (hhi : k < p.dict + data.length) : ioRead s (u.ip.s + k) = .ok (flatCell p data k) := by
  obtain ⟨hs, -, hlen, -⟩ := h.places hu
  exact ioRead_ok.mpr ⟨by omega, (h.kept _ (by omega)).trans (hu.cells k hhi)⟩

/-- The search in IO finds the reference's best match, at its place in IO (R203, R207). -/
theorem HasTaken.search (hu : Seeded p data u) (h : HasTaken p data u ts s) (hr : spanOf ts < data.length) :
    ∃ q q', searchMatch (ioRead s) s.ip.s s.ip.r (min p.f (s.ip.len - s.ip.r)) s.sr = .ok q ∧
      IsBest (flatCell p data) (p.dict + spanOf ts) (flatAhead p data (p.dict + spanOf ts)) (spanOf ts) q' ∧
      q.y = q'.y ∧ (q'.y ≠ 1 → q.x = u.ip.s + q'.x) := by
  obtain ⟨hs, hsr, hlen, -⟩ := h.places hu
  obtain ⟨-, hahead⟩ := flatAhead_le p data (p.dict + spanOf ts)
  have hpos := flatAhead_pos (p := p) (data := data) (r := p.dict + spanOf ts) (by omega)
  have hlook : min p.f (s.ip.len - s.ip.r) = flatAhead p data (p.dict + spanOf ts) := by
    rw [flatAhead]
    congr 1
    omega
  have hread : ∀ a, u.ip.s + spanOf ts ≤ a → a < u.ip.s + (p.dict + spanOf ts) + flatAhead p data (p.dict + spanOf ts) →
      ioRead s a = .ok (flatCell p data (a - u.ip.s)) := fun a hlo hhi => by
    obtain ⟨k, rfl⟩ := Nat.exists_eq_add_of_le (Nat.le_of_add_right_le hlo)
    rw [Nat.add_sub_cancel_left, h.ioRead_eq hu (by omega) (by omega)]
  obtain ⟨q, hq, hbest⟩ := searchMatch_isBest s.sr (by omega) hpos hread
  obtain ⟨q', -, hbest'⟩ := searchMatch_isBest (B := fun a => .ok (flatCell p data a)) (s := spanOf ts)
    (r := p.dict + spanOf ts) State.reset.sr (by omega) hpos fun _ _ _ => rfl
  have hshift := IsBest.shift (base := u.ip.s) (g := fun a => flatCell p data (a - u.ip.s))
    (by simpa only [Nat.add_sub_cancel_left] using hbest')
  obtain ⟨hx, hy⟩ := hbest.unique hshift
  rw [hlook, hs, hsr]
  exact ⟨q, q', hq, hbest', hy, fun hne => hx.trans (if_neg hne)⟩

/-- IP_SEARCH and IP_EMIT choose the reference token and go on to its fields: the correction makes the offset that of
the decoder's cell (R180, R183, R203, R204). -/
theorem HasTaken.emits {idxW : Nat} (hlegal : p.Legal idxW) (hu : Seeded p data u) (h : HasTaken p data u ts s)
    (hseq : s.seq = .busy .ipSearch) (hr : spanOf ts < data.length) :
    ∃ i sr, IsChosen p data (p.dict + spanOf ts) i ∧ sr.y = tokenSpan i ∧
      Runs 2 s { s with sr := sr, seq := .busy (.ipWrite (encodeFields p i)) } := by
  obtain ⟨hp, -⟩ := ParamSet.p_range hlegal
  obtain ⟨-, hsr, hlen, hoff2⟩ := h.places hu
  obtain ⟨q, q', hq, hbest, hy, hx⟩ := h.search hu hr
  have hsearch : coreOp .ipSearch s = .ok () { s with sr := q, seq := .busy .ipEmit } := by
    rw [coreOp_some h.ps, phaseOp, inPlaceSearch, if_pos (by omega), hq]
    rfl
  have hchosen : IsChosen p data (p.dict + spanOf ts)
      (if q'.y ≤ p.p then .lit (flatCell p data (p.dict + spanOf ts)) else .matchTok (q'.x % p.n) q'.y) :=
    ⟨q', by rwa [Nat.add_sub_cancel_left], rfl⟩
  have hemit := coreOp_some (phase := .ipEmit) (s := { s with sr := q, seq := .busy .ipEmit }) h.ps
  rw [phaseOp, inPlaceEmit] at hemit
  dsimp only at hemit
  rw [hy] at hemit
  split at hchosen
  · rename_i hshort
    have hread : ioRead { s with sr := q, seq := .busy .ipEmit } s.ip.r =
        .ok (flatCell p data (p.dict + spanOf ts)) := hsr ▸ h.ioRead_eq hu (by omega) (by omega)
    rw [if_pos hshort, hread] at hemit
    exact ⟨_, { q with y := 1 }, hchosen, rfl, (Runs.one hseq hsearch).trans (.one rfl hemit)⟩
  · rename_i hlong
    obtain ⟨m, hm⟩ := hu.aligned
    have hsum : q.x + s.ip.offset2 = p.n * m + q'.x := by
      rw [hx (by omega), hoff2, ← hm]
      omega
    rw [if_neg hlong, p.and_mask, hsum, Nat.mul_add_mod] at hemit
    exact ⟨_, q, hchosen, hy, (Runs.one hseq hsearch).trans (.one rfl hemit)⟩

/-- A token's fields, one operation each, where IO has room (R203). -/
theorem runs_ipWrite {fs : List Field} (hps : s.ps = some p) (hseq : s.seq = .busy (.ipWrite fs))
    (hfs : ∀ f ∈ fs, f.ok = true) (hcnt : s.bw.cnt ≤ 7)
    (hroom : 8 * s.ip.out + s.bw.cnt + fieldsWidth fs ≤ 8 * s.ip.len) :
    ∃ t, Runs fs.length s t ∧ t.seq = .busy (.ipWrite []) ∧ Wrote (fieldBits fs) s t ∧ t.bw.cnt ≤ 7 := by
  induction fs generalizing s with
  | nil => exact ⟨s, .refl s, hseq, .refl s, hcnt⟩
  | cons f fs ih =>
    obtain ⟨hf, hfs⟩ := List.forall_mem_cons.mp hfs
    rw [fieldsWidth_cons] at hroom
    obtain ⟨t, hop, hseqt, hwrote, hcntt⟩ := inPlaceWrite_cons (rest := fs) hf (s := s) (by omega)
    have hcount := hwrote.count
    have hlen : t.ip.len = s.ip.len := by rw [hwrote.ip]
    rw [bitsOf_length] at hcount
    obtain ⟨v, hruns, hseqv, hwrote', hcntv⟩ := ih (hwrote.ps.trans hps) hseqt hfs hcntt (by omega)
    exact ⟨v, .step _ hseq ((coreOp_some hps).trans hop) hruns, hseqv, hwrote.trans hwrote', hcntv⟩

/-- A token's fields and the advance of the pointers (R203). -/
theorem runs_ipWrite_ipGate {fs : List Field} (hps : s.ps = some p) (hseq : s.seq = .busy (.ipWrite fs))
    (hfs : ∀ f ∈ fs, f.ok = true) (hcnt : s.bw.cnt ≤ 7)
    (hroom : 8 * s.ip.out + s.bw.cnt + fieldsWidth fs ≤ 8 * s.ip.len) :
    ∃ t, Wrote (fieldBits fs) s t ∧ t.bw.cnt ≤ 7 ∧
      Runs (fs.length + 1) s
        { t with ip := { t.ip with r := t.ip.r + t.sr.y, s := t.ip.s + t.sr.y }, seq := .busy .ipGate } := by
  obtain ⟨t, hruns, hseqt, hwrote, -⟩ := runs_ipWrite hps hseq hfs hcnt hroom
  have hcount := hwrote.count
  have hlen : t.ip.len = s.ip.len := by rw [hwrote.ip]
  rw [fieldBits_length] at hcount
  obtain ⟨v, hdrained, hcntv, hop⟩ := inPlaceWrite_nil (s := t) (by omega)
  exact ⟨v, List.append_nil (fieldBits fs) ▸ hwrote.trans hdrained, hcntv,
    hruns.trans (.one hseqt ((coreOp_some (hwrote.ps.trans hps)).trans hop))⟩

/-- One token, up to the gate: MIN_GAP_SIZE leaves room for its bits below the dictionary (R203, R205). -/
theorem HasTaken.token {idxW : Nat} (hlegal : p.Legal idxW) (hu : Seeded p data u) (h : HasTaken p data u ts s)
    (hseq : s.seq = .busy .ipSearch) (hr : spanOf ts < data.length) (hgate : s.ip.out + p.gap ≤ s.ip.s) :
    ∃ i n t, n ≤ 5 ∧ Runs n s t ∧ t.seq = .busy .ipGate ∧ HasTaken p data u (ts ++ [i]) t ∧ 1 ≤ tokenSpan i := by
  obtain ⟨hp, -⟩ := ParamSet.p_range hlegal
  obtain ⟨hs, -, hlen, -⟩ := h.places hu
  obtain ⟨i, sr, hi, hsr, hemits⟩ := h.emits hlegal hu hseq hr
  obtain ⟨htok, hwf⟩ := hi.wf hp
  have hroom := token_fits_gap hlegal ((hi.lit_or_match hp).imp (fun hlit => ⟨_, hlit⟩)
    fun ⟨_, _, hmatch, _⟩ => ⟨_, _, hmatch⟩)
  have hcnt := h.cnt
  have hemitted : HasTaken p data u ts { s with sr := sr, seq := .busy (.ipWrite (encodeFields p i)) } :=
    h.of_eq rfl rfl rfl rfl
  obtain ⟨t, hwrote, hcntt, hfields⟩ := runs_ipWrite_ipGate hemitted.ps rfl (encodeFields_ok hlegal htok hwf) hcnt
    (by dsimp only; omega)
  have hcount := hwrote.count
  have hst : t.ip.s = s.ip.s := by rw [hwrote.ip]
  have hspan : t.sr.y = tokenSpan i := by rw [hwrote.sr]; exact hsr
  have hfew := encodeFields_length_le (p := p) htok
  rw [fieldBits_length] at hcount
  rw [← encode_eq_fieldBits htok] at hwrote
  rw [hspan] at hfields
  dsimp only at hcount
  refine ⟨i, _, _, by omega, hemits.trans hfields, rfl, ?_, (hi.span hp (by omega)).1⟩
  exact hemitted.advance hr hi hp hwrote hcntt (by dsimp only [outputBelow]; omega)

/-! ## All tokens -/

/-- What the loop of COMPRESS_IN_PLACE leaves, the input standing at offset `off`: tokens taken, none but the last
tripping the gate, and FLUSH next, because the last one did or because the input has ended (R205, R206). -/
structure LoopLeft (p : ParamSet) (data : List Byte) (off : Nat) (u : State) (ts : List Instr) (gated : Bool)
    (t : State) : Prop where
  seq : t.seq = .busy (.ipFlush gated)
  taken : HasTaken p data u ts t
  nonempty : 1 ≤ spanOf ts
  before : ∀ k, 0 < k → k < ts.length → ¬ gateTrips p off (ts.take k)
  gated_iff : gated = true ↔ gateTrips p off ts
  ended : gated = false → spanOf ts = data.length

theorem HasTaken.loop {idxW off : Nat} (hlegal : p.Legal idxW) (hu : Seeded p data u) (hoff : u.ip.s = off - p.dict)
    (fuel : Nat) (h : HasTaken p data u ts s) (hseq : s.seq = .busy .ipSearch) (hr : spanOf ts < data.length)
    (hgate : s.ip.out + p.gap ≤ s.ip.s) (hbefore : ∀ k, 0 < k → k ≤ ts.length → ¬ gateTrips p off (ts.take k))
    (hfuel : data.length ≤ spanOf ts + fuel) :
    ∃ n t ts' gated, n ≤ 6 * fuel + 1 ∧ Runs n s t ∧ LoopLeft p data off u ts' gated t := by
  induction fuel generalizing s ts with
  | zero => omega
  | succ fuel ih =>
    obtain ⟨i, n, t, hn, hruns, hseqt, htaken, hspan⟩ := h.token hlegal hu hseq hr hgate
    have htrips := htaken.gateTrips_iff hoff
    have hsum : spanOf (ts ++ [i]) = spanOf ts + tokenSpan i := by simp
    have hbefore' : ∀ k, 0 < k → k < (ts ++ [i]).length → ¬ gateTrips p off ((ts ++ [i]).take k) := by
      intro k hpos hk
      rw [List.length_append, List.length_singleton, Nat.lt_succ_iff] at hk
      rw [List.take_append_of_le_length hk]
      exact hbefore k hpos hk
    have hop := coreOp_some (phase := .ipGate) htaken.ps
    rw [phaseOp, inPlaceGate] at hop
    split at hop
    · rename_i hgated
      exact ⟨n + 1, _, ts ++ [i], true, by omega, hruns.trans (.one hseqt hop),
        rfl, htaken.of_eq rfl rfl rfl rfl, by omega, hbefore', iff_of_true rfl (htrips.mpr hgated), nofun⟩
    · rename_i hopen
      have hsearch := hruns.trans (.one hseqt hop)
      have hnext : HasTaken p data u (ts ++ [i]) { t with seq := .busy .ipSearch } := htaken.of_eq rfl rfl rfl rfl
      obtain hend | hmore := Nat.eq_or_lt_of_le htaken.inside
      · obtain ⟨-, hrt, hlen, -⟩ := hnext.places hu
        have hexit := coreOp_some (phase := .ipSearch) hnext.ps
        rw [phaseOp, inPlaceSearch, if_neg (by omega)] at hexit
        exact ⟨n + 1 + 1, _, ts ++ [i], false, by omega, hsearch.trans (.one rfl hexit), rfl,
          hnext.of_eq rfl rfl rfl rfl, by omega, hbefore', iff_of_false nofun (mt htrips.mp hopen), fun _ => hend⟩
      · have hopened : ∀ k, 0 < k → k ≤ (ts ++ [i]).length → ¬ gateTrips p off ((ts ++ [i]).take k) := by
          intro k hpos hk
          obtain rfl | hk := Nat.eq_or_lt_of_le hk
          · rw [List.take_length]
            exact mt htrips.mp hopen
          · exact hbefore' k hpos hk
        obtain ⟨m, v, ts', gated, hm, hruns', hleft⟩ := ih hnext rfl hmore (Nat.not_lt.mp hopen) hopened (by omega)
        exact ⟨n + 1 + m, v, ts', gated, by omega, hsearch.trans hruns', hleft⟩

/-! ## The whole command -/

/-- Check and seed leave the unbounded window of the input in IO: the fill bytes, and the input behind them (R201, R202,
R207). -/
theorem runs_ipCheck_seeded (hps : s.ps = some p) (hlegal : p.Legal s.build.idxW) (hseq : s.seq = .busy .ipCheck)
    (hmin : p.minOffset ≤ s.ip.off) (hlen : s.ip.off < s.ip.len) :
    ∃ u, Runs (p.dict + 2) s u ∧ u.seq = .busy .ipSearch ∧ u.ip.s = s.ip.off - p.dict ∧
      Seeded p (s.ioBytes s.ip.off (s.ip.len - s.ip.off)) u ∧ ∀ a, s.ip.off ≤ a → u.ioByte a = s.ioByte a := by
  have hgap : p.minOffset = p.dict + p.gap := rfl
  obtain ⟨io, hruns, hio⟩ := runs_ipCheck_ipSearch hps hseq hmin hlen
  refine ⟨_, hruns, rfl, rfl, ⟨hps, by dsimp only; omega, ?_, by dsimp only; omega, ⟨_, seedStart_add_offsetCorrection
    (ParamSet.f_lt_n hlegal).le (by omega)⟩, fun k hk => (hio _).trans ?_, rfl, rfl⟩, fun a ha => (hio a).trans ?_⟩
  · rw [ioBytes_length]
    exact (Nat.add_sub_cancel' hlen.le).symm
  · rw [ioBytes_length] at hk
    dsimp only
    rw [seededByte, flatCell]
    by_cases hseed : k < p.dict
    · rw [if_pos (by omega), if_pos hseed]
    · have hplace : s.ip.off - p.dict + k = s.ip.off + (k - p.dict) := by omega
      have hin : k - p.dict < (s.ioBytes s.ip.off (s.ip.len - s.ip.off)).length := by rw [ioBytes_length]; omega
      rw [if_neg (by omega), if_neg hseed, hplace, ← ioBytes_getElem? (by rwa [ioBytes_length] at hin),
        List.getElem?_eq_getElem hin, List.getD_eq_getElem _ _ hin]
  · exact if_neg (by omega)

/-- What COMPRESS_IN_PLACE leaves behind the loop (R205, R206). -/
theorem LoopLeft.flushed {off : Nat} {gated : Bool} (hu : Seeded p data u) (h : LoopLeft p data off u ts gated t) :
    ∃ v, coreOp (.ipFlush gated) t = .ended (endCommand (.inPlace v.ip.out (if gated then some v.ip.r else none)) v) ∧
      v.ip.r = u.ip.r + spanOf ts ∧ v.ip.out ≤ v.ip.r ∧ v.ioBytes 0 v.ip.out = encodeStream p ts ∧
      ∀ a, v.ip.r ≤ a → v.ioByte a = u.ioByte a := by
  have htaken := h.taken
  have hbelow := htaken.below
  have hcnt := htaken.cnt
  have hin := htaken.inside
  have hstart := hu.start
  obtain ⟨hs, hr, hlen, -⟩ := htaken.places hu
  obtain ⟨v, k, hk, hwrote, hnone, hop⟩ := inPlaceFlush_ended gated hcnt (s := t) (by omega)
  have hcount := hwrote.count
  rw [List.length_replicate] at hcount
  have hrv : v.ip.r = t.ip.r := by rw [hwrote.ip]
  have hstream : (v.ioBytes 0 v.ip.out).flatMap byteBits = ts.flatMap (encode p) ++ List.replicate k false := by
    rw [← htaken.bits, ← hwrote.bits, outputBits, BitAcc.bits, hnone]
    exact (List.append_nil _).symm
  exact ⟨v, (coreOp_some htaken.ps).trans hop, by omega, by omega, (packBytes_eq hk hstream).symm,
    fun a ha => (hwrote.kept a (by omega)).trans (htaken.kept a (by omega))⟩

/-- Settles O40: seed, loop and FLUSH; the tokens taken are the reference's choice in the whole input, and so in the
part consumed. -/
theorem inPlaceEmitsTheStreamOfWhatItConsumed : Obligations.InPlaceEmitsTheStreamOfWhatItConsumed := by
  intro s p hready hps hlegal _ hmin hlen
  refine ⟨p.dict + 6 * (s.cfg.ipL - s.cfg.ipOffset) + 4, fun quantum hquantum => ?_⟩
  have hdict : p.dict ≤ s.cfg.ipOffset := Nat.le_trans (Nat.le_add_right _ _) hmin
  have hdata := ioBytes_length s s.cfg.ipOffset (s.cfg.ipL - s.cfg.ipOffset)
  obtain ⟨u, hseed, hsequ, hoff, hu, hfresh⟩ :=
    runs_ipCheck_seeded (s := acceptedInPlace quantum s) hps hlegal rfl hmin hlen
  change u.ip.s = s.cfg.ipOffset - p.dict at hoff
  change Seeded p (s.ioBytes s.cfg.ipOffset (s.cfg.ipL - s.cfg.ipOffset)) u at hu
  change ∀ a, s.cfg.ipOffset ≤ a → u.ioByte a = s.ioByte a at hfresh
  have hstart := hu.start
  have hgap := hu.gap
  obtain ⟨n, t, ts, gated, hn, hloop, hleft⟩ := hu.hasTaken.loop hlegal hu hoff (s.cfg.ipL - s.cfg.ipOffset) hsequ
    (by rw [spanOf_nil]; omega) (by rw [hu.out]; omega) (fun k hpos hk => absurd hk (Nat.not_le.mpr hpos)) (by omega)
  obtain ⟨v, hflush, hstop, hout, hstream, hkept⟩ := hleft.flushed hu
  have hinside := hleft.taken.inside
  have hspan := hleft.nonempty
  have hexec := (exec_compressInPlace_eq_runCore quantum hready (by simp [hps])).trans
    ((hseed.trans hloop).ends hleft.seq hflush (by omega))
  have htokens : ts = compressTokens p (s.ioBytes s.cfg.ipOffset (v.ip.r - s.cfg.ipOffset)) := by
    have hconsumed : v.ip.r - s.cfg.ipOffset = spanOf ts := by omega
    rw [hconsumed, ← ioBytes_take (n := s.cfg.ipL - s.cfg.ipOffset) (by omega)]
    exact (hleft.taken.chosen.compressTokens_take (ParamSet.p_range hlegal).1 hinside).symm
  refine ⟨_, v.ip.out, v.ip.r, _, ts, hexec, rfl, rfl, by omega, by omega, hout, htokens, hleft.before,
    fun htrips => if_pos (hleft.gated_iff.mpr htrips), fun hopen => ?_, hstream,
    fun a ha => (hkept a ha).trans (hfresh a (by omega))⟩
  have hgated := mt hleft.gated_iff.mp hopen
  have hended := hleft.ended (Bool.eq_false_iff.mpr hgated)
  exact ⟨if_neg hgated, by omega⟩

end Sys2Proof.Proofs

/-! What ISSUE makes of a CMD write, and what the shared ending leaves (R220, R225); COMPRESS as a whole (R222). -/

namespace Sys2Proof.Proofs

open Sys2Proof Sys2Proof.Machine

variable {s : State} {code : BitVec 2}

/-! ## A CMD write that runs nothing (R220, R248) -/

theorem issue_busy {needsPs : Bool} {first phase : Phase} (h : s.seq = .busy phase) :
    issue code needsPs first s = .refused .commandWhileBusy := by
  rw [issue, h]

theorem issue_fault {needsPs : Bool} {first : Phase} (h : s.seq = .fault) : issue code needsPs first s = .ignored := by
  rw [issue, h]

theorem issue_noPs {first : Phase} (hready : s.ready) (hps : s.ps = none) :
    issue code true first s = .refused .noValidConfig := by
  obtain h | h | h := hready <;> simp [issue, h, hps]

/-- Every command is launched on what ISSUE says of its code; only VALIDATE is issued without PS. -/
theorem exec_eq_launch {i : Instr} (hi : cmdCode i = some code) (s : State) :
    ∃ needsPs first copies, exec i s = launch (issue code needsPs first s) copies s ∧
      (i ≠ .validate → needsPs = true) := by
  cases i with
  | lit b | matchTok offset len => cases hi
  | validate => cases hi; exact ⟨false, _, _, rfl, fun h => absurd rfl h⟩
  | compress | decompress | compressInPlace => cases hi; exact ⟨true, _, _, rfl, fun _ => rfl⟩

/-- Settles O32: what ISSUE says in each of the three cases is what the command comes to. -/
theorem issueTurnsCommandsAway : Obligations.IssueTurnsCommandsAway := by
  intro s i code hi
  obtain ⟨needsPs, first, copies, hexec, hneeds⟩ := exec_eq_launch hi s
  rw [hexec]
  refine ⟨fun phase hseq => ?_, fun hseq => ?_, fun hready hps hne => ?_⟩
  · rw [issue_busy hseq, launch_refused]
  · rw [issue_fault hseq, launch_ignored]
  · rw [hneeds hne, issue_noPs hready hps, launch_refused]

/-! ## A command accepted, and a command ended -/

/-- Settles O33: a turn of no operation leaves the state ISSUE has made. -/
theorem acceptedCommandBecomesBusy : Obligations.AcceptedCommandBecomesBusy := by
  intro s hready hquantum
  refine ⟨(execValidate_ready hready).trans ?_, fun p hps => ?_⟩
  · rw [hquantum, runCore_zero]
  · have hne : s.ps ≠ none := by simp [hps]
    refine ⟨(execCompress_ready hready hne).trans ?_, (execDecompress_ready hready hne).trans ?_, fun _ =>
      (execCompressInPlace_ready hready hne).trans ?_⟩ <;> rw [hquantum, runCore_zero]

/-- Settles O56: the row of each ending in R225's table. -/
theorem endOfCommandStatus : Obligations.EndOfCommandStatus := fun _ =>
  ⟨rfl, fun _ => rfl, fun _ => ⟨rfl, rfl⟩, fun _ => ⟨rfl, rfl⟩, fun _ => ⟨rfl, rfl⟩, fun _ => ⟨rfl, rfl, rfl⟩,
    fun _ _ => ⟨rfl, rfl, rfl⟩, rfl, rfl, fun _ => rfl⟩

/-! ## COMPRESS as a whole -/

/-- Settles O35: eight operations for each byte and five more complete the command. -/
theorem compressEmitsTheReferenceStream : Obligations.CompressEmitsTheReferenceStream := by
  intro s p data o hready hps hlegal hroom hsrc hidem hsnk
  refine ⟨8 * data.length + 5, fun quantum hquantum => ?_⟩
  obtain ⟨t, es, hexec, hdone, hend⟩ := exec_compress_completes hready hps hlegal hroom hsrc hidem hsnk hquantum
  exact ⟨t, es, hexec, hdone.done, hdone.res, hdone.trace, hdone.read, hdone.written, hdone.last, hend⟩

end Sys2Proof.Proofs

/-! The frames of the three data commands: what each leaves as it was, however far it has come (R222 to R224, R62). -/

namespace Sys2Proof.Proofs

open Sys2Proof Sys2Proof.Machine

variable {p : ParamSet} {s t u : State} {phase : Phase} {code : BitVec 2}

/-! ## A turn, operation by operation -/

theorem exec_next_ps {i : Instr} (hready : s.ready) (hi : cmdCode i = some code) (hne : i ≠ .validate)
    (hexec : exec i s = .next t) : ∃ p, s.ps = some p := by
  obtain ⟨-, -, hrefused⟩ := issueTurnsCommandsAway s i code hi
  refine Option.ne_none_iff_exists'.mp fun hnone => ?_
  rw [hrefused hready hnone hne] at hexec
  cases hexec

/-- What every operation of a command keeps under its PS, a turn of that command keeps. -/
theorem runCore_keeps_of_phaseOp {P : State → Prop} {n : Nat} (hps : ∀ v, P v → v.ps = some p)
    (hop : ∀ v phase, v.seq = .busy phase → phaseCode phase = code → P v → (phaseOp p phase v).All P)
    (honly : RunsOnly code s) (hs : P s) (hrun : runCore n s = .next t) : P t := by
  refine (runCore_keeps (P := fun v => RunsOnly code v ∧ P v) (fun v phase hseq ⟨honlyv, hv⟩ => ?_) n s t ⟨honly, hs⟩
    hrun).2
  have hcode := honlyv phase hseq
  have hleft := (meets_iff_all.mpr (coreOp_keepsCommand hseq)).and_all
    (coreOp_some (hps v hv) ▸ hop v phase hseq hcode hv)
  rw [hcode] at hleft
  exact meets_iff_all.mp hleft

/-- What EMIT keeps, and what does not look at SEQ and the pending bits, a turn at a token's fields keeps. -/
theorem writeFields_keeps {emit : Byte → State → Res Unit} {fieldsPhase : List Field → Phase} {P : State → Prop}
    (hemit : EmitKeeps emit P P True)
    (hpush : ∀ v rest a, P v → P { v with seq := .busy (fieldsPhase rest), bw := a }) (fs : List Field) (h : P s) :
    (writeFields emit fieldsPhase fs s).All P := by
  refine meets_iff_all.mp ((writeFields_meets (I := fun _ => P) (fun _ => hemit) (fun _ _ hv => hv)
    (fun _ _ _ _ => .inr trivial) (fun _ rest v hv _ _ => hpush v rest _ hv) fs s h).mono (fun written _ hv => ?_)
    fun _ hv => hv)
  cases written with
  | true => exact hv.1
  | false => exact hv.choose_spec

/-- SnkFinish moves the sink and the trace, and ends the command (R222, R223). -/
theorem finishOp_all {P : State → Prop} (hwaits : P s)
    (hended : ∀ e snk history, P (endCommand e { s with snk := snk, history := history })) : (finishOp s).All P := by
  rw [finishOp]
  cases hfin : snkFinish s with
  | waits => exact hwaits
  | got a v =>
    rw [(snkFinish_got hfin).2]
    cases a <;> exact hended _ _ _

/-! ## COMPRESS (R222) -/

/-- What COMPRESS may change: SEQ, STATUS and RESULT, the writer, its pointers and search registers, WIN, the channels
and the trace. -/
def CompressFrame (s t : State) : Prop :=
  t = { s with
        seq := t.seq, res := t.res, bw := t.bw, cp := t.cp, sr := t.sr, win := t.win, src := t.src, snk := t.snk,
        history := t.history }

theorem CompressFrame.refl (s : State) : CompressFrame s s := rfl

theorem CompressFrame.trans (h : CompressFrame s t) (h' : CompressFrame t u) : CompressFrame s u :=
  Eq.trans h' (by rw [show t = _ from h])

theorem emitSink_keeps_compressFrame : EmitKeeps emitSink (CompressFrame s) (CompressFrame s) True := fun b _ h _ =>
  emitSink_meets b _ (fun _ _ => ⟨h.trans rfl, rfl⟩) (h.trans rfl) fun _ _ _ => h.trans rfl

theorem fillOp_compressFrame (p : ParamSet) (s : State) : (fillOp p s).All (CompressFrame s) := by
  rw [fillOp]
  split
  · cases hread : srcRead s with
    | waits => exact rfl
    | got a t =>
      rw [(srcRead_got hread).1]
      cases a with
      | byte b =>
        refine onAccess_all rfl fun v hv => ?_
        rw [(winWrite_ok.mp hv).2]
        exact rfl
      | endOfData | err e => exact rfl
  · exact rfl

theorem phaseOp_compressFrame (hphase : phaseCode phase = 0b01#2) : (phaseOp p phase s).All (CompressFrame s) := by
  cases phase with
  | cInit =>
    rw [phaseOp, compressInit]
    split <;> exact rfl
  | cFill | cRefill => exact fillOp_compressFrame p s
  | cSearch =>
    rw [phaseOp, compressSearch]
    split
    · exact onAccess_all rfl fun _ _ => rfl
    · exact rfl
  | cEmit =>
    rw [phaseOp, compressEmit]
    split
    · exact onAccess_all rfl fun _ _ => rfl
    · exact rfl
  | cWrite fs =>
    refine (writeFields_keeps emitSink_keeps_compressFrame (fun _ _ _ h => h.trans rfl) fs (.refl s)).andThen
      (fun _ h => h) fun written v _ h => ?_
    cases written
    · exact h
    · exact h.trans rfl
  | cCompact =>
    rw [phaseOp, compactOp]
    split
    · trivial
    · exact rfl
  | cFlush =>
    have hflush : (flushBits emitSink s).All (CompressFrame s) :=
      meets_iff_all.mp (flushBits_meets (fun _ => .refl s) (.refl s) fun b _ =>
        emitSink_meets b _ (fun _ _ => rfl) rfl fun _ _ _ => rfl)
    exact hflush.andThen (fun _ h => h) fun _ _ _ h => h.trans rfl
  | cFinish => exact finishOp_all (.refl s) fun _ _ _ => rfl
  | _ => simp [phaseCode] at hphase

theorem exec_compress_frame (hready : s.ready) (hexec : exec .compress s = .next t) :
    CompressFrame { s with cfg := { s.cfg with cmd := 0b01#2 } } t := by
  obtain ⟨p, hps⟩ := exec_next_ps hready (i := .compress) rfl nofun hexec
  rw [show exec .compress s = _ from exec_compress_eq_runCore s.quantum hready (by simp [hps])] at hexec
  refine CompressFrame.trans (t := accepted 0b01#2 .cInit s.quantum s) rfl
    (runCore_keeps_of_phaseOp (p := p) (fun v hv => ?_) (fun v phase _ hphase hv => ?_) (runsOnly_of_busy rfl rfl)
      (.refl _) hexec)
  · rw [show v = _ from hv]
    exact hps
  · exact (phaseOp_compressFrame hphase).imp fun _ h => hv.trans h

/-! ## DECOMPRESS (R223) -/

/-- What DECOMPRESS may change: SEQ, STATUS and RESULT, the reader, its cursor, WIN, the channels and the trace. -/
def DecompressFrame (s t : State) : Prop :=
  t = { s with
        seq := t.seq, res := t.res, br := t.br, dR := t.dR, win := t.win, src := t.src, snk := t.snk,
        history := t.history }

theorem DecompressFrame.refl (s : State) : DecompressFrame s s := rfl

theorem DecompressFrame.trans (h : DecompressFrame s t) (h' : DecompressFrame t u) : DecompressFrame s u :=
  Eq.trans h' (by rw [show t = _ from h])

theorem HasPutUpTo.decompressFrame {n : Nat} (h : HasPutUpTo p n s t) : DecompressFrame s t := by
  obtain ⟨_, _, hput⟩ := h
  rw [DecompressFrame, hput.frame]

theorem readBits_decompressFrame (len : Nat) (s : State) : (readBits len s).All (DecompressFrame s) :=
  meets_iff_all.mp (readBits_meets s (.inr trivial) (fun _ _ _ _ _ _ => rfl) (fun _ _ _ _ => rfl) (fun _ _ _ _ => rfl)
    fun _ _ _ _ _ => rfl)

theorem fetchPayload_decompressFrame (p : ParamSet) (flag : Nat) (s : State) :
    (fetchPayload p flag s).All (DecompressFrame s) :=
  (readBits_decompressFrame _ s).andThen (fun _ h => h) fun _ _ _ h => h

theorem fetchToken_decompressFrame (p : ParamSet) (s : State) : (fetchToken p s).All (DecompressFrame s) := by
  rw [fetchToken]
  split
  · exact fetchPayload_decompressFrame p 1 s
  · split
    · exact fetchPayload_decompressFrame p 0 s
    · refine (readBits_decompressFrame 1 s).andThen (fun _ h => h) fun flag v _ h => ?_
      cases flag with
      | none => exact h
      | some flag =>
        have hflag : DecompressFrame s { v with seq := .busy (if flag = 1 then .dLit else .dMatch) } := h.trans rfl
        exact (fetchPayload_decompressFrame p flag _).imp fun _ => hflag.trans

theorem decodeTokenOp_decompressFrame (p : ParamSet) (s : State) : (decodeTokenOp p s).All (DecompressFrame s) := by
  refine (fetchToken_decompressFrame p s).andThen (fun _ h => h) fun i v _ h => ?_
  rcases i with _ | i
  · exact h.trans rfl
  · cases i with
    | lit b => exact (litOp_hasPutUpTo p b v).imp fun _ h' => h.trans h'.decompressFrame
    | matchTok offset len =>
      exact (copyLoop_hasPutUpTo p offset len len 0 v).imp fun _ h' => h.trans h'.decompressFrame
    | _ => trivial

theorem phaseOp_decompressFrame (hphase : phaseCode phase = 0b10#2) :
    (phaseOp p phase s).All (DecompressFrame s) := by
  cases phase with
  | dInit =>
    rw [phaseOp, decompressInit]
    split <;> exact rfl
  | dFlag | dLit | dMatch => exact decodeTokenOp_decompressFrame p s
  | dPut b => exact (litOp_hasPutUpTo p b s).imp fun _ h => h.decompressFrame
  | dCopy offset len k => exact (copyLoop_hasPutUpTo p offset len (len - k) k s).imp fun _ h => h.decompressFrame
  | dFinish => exact finishOp_all (.refl s) fun _ _ _ => rfl
  | _ => simp [phaseCode] at hphase

theorem exec_decompress_frame (hready : s.ready) (hexec : exec .decompress s = .next t) :
    DecompressFrame { s with cfg := { s.cfg with cmd := 0b10#2 } } t := by
  obtain ⟨p, hps⟩ := exec_next_ps hready (i := .decompress) rfl nofun hexec
  rw [show exec .decompress s = _ from exec_decompress_eq_runCore s.quantum hready (by simp [hps])] at hexec
  refine DecompressFrame.trans (t := accepted 0b10#2 .dInit s.quantum s) rfl
    (runCore_keeps_of_phaseOp (p := p) (fun v hv => ?_) (fun v phase _ hphase hv => ?_) (runsOnly_of_busy rfl rfl)
      (.refl _) hexec)
  · rw [show v = _ from hv]
    exact hps
  · exact (phaseOp_decompressFrame hphase).imp fun _ h => hv.trans h

/-! ## COMPRESS_IN_PLACE (R224, R62) -/

/-- COMPRESS_IN_PLACE accepted in `s` and come to `t`: only SEQ, STATUS and RESULT, the writer, the search and the
in-place registers, IO and the trace have changed. Of IO outside the seed range, nothing has until the seed is written,
and from then on nothing but the output below IP_OUT. -/
structure InPlaceFrame (p : ParamSet) (s t : State) : Prop where
  frame : t = { s with
                seq := t.seq, res := t.res, bw := t.bw, sr := t.sr, ip := t.ip, io := t.io, history := t.history }
  off : t.ip.off = s.ip.off
  seedFits : ∀ k, t.seq = .busy (.ipSeed k) → p.dict ≤ s.ip.off
  kept : ∀ a, (a < s.ip.off - p.dict ∨ s.ip.off ≤ a) → (OnlyPastSeed t → t.ip.out ≤ a) → t.ioByte a = s.ioByte a

theorem InPlaceFrame.refl (hseq : s.seq = .busy .ipCheck) : InPlaceFrame p s s where
  frame := rfl
  off := rfl
  seedFits k hk := by
    rw [hseq] at hk
    cases hk
  kept _ _ _ := rfl

/-- A move past the seed that leaves IO alone and, if the seed is already written, takes no output back. -/
theorem InPlaceFrame.move {q : SeqState} {res : ResultRegs} {bw : BitAcc} {sr : SearchRegs} {ip : InPlaceRegs}
    (h : InPlaceFrame p s t) (hpast : ∀ phase, q = .busy phase → pastSeed phase = true) (hoff : ip.off = t.ip.off)
    (hout : OnlyPastSeed t → t.ip.out ≤ ip.out) :
    InPlaceFrame p s { t with seq := q, res := res, bw := bw, sr := sr, ip := ip } where
  frame := by rw [h.frame]
  off := hoff.trans h.off
  seedFits k hk := absurd (hpast _ hk) Bool.false_ne_true
  kept a ha hlo := h.kept a ha fun hpast' => (hout hpast').trans (hlo hpast)

theorem InPlaceFrame.ended (h : InPlaceFrame p s t) (e : Ending) : InPlaceFrame p s (endCommand e t) :=
  h.move (onlyPastSeed_endCommand e t) rfl fun _ => le_rfl

/-- To a phase past the seed. -/
theorem InPlaceFrame.toPhase {bw : BitAcc} {sr : SearchRegs} (h : InPlaceFrame p s t) (hphase : pastSeed phase = true) :
    InPlaceFrame p s { t with seq := .busy phase, bw := bw, sr := sr } :=
  h.move (res := t.res) (ip := t.ip) (onlyPastSeed_of_busy (s := { t with seq := .busy phase }) rfl hphase) rfl
    fun _ => le_rfl

theorem not_onlyPastSeed_of_busy (hseq : t.seq = .busy phase) (hphase : pastSeed phase = false) : ¬ OnlyPastSeed t :=
  fun hpast => absurd (hpast phase hseq) (by simp [hphase])

/-- One of the seed's writes, inside the seed range (R202). -/
theorem InPlaceFrame.seed {k : Nat} (h : InPlaceFrame p s t) (hseq : t.seq = .busy (.ipSeed k)) (hk : k < p.dict) :
    InPlaceFrame p s
      { t with
        seq := .busy (.ipSeed (k + 1))
        io := memWrite Config.ioUnlisted t.io (t.ip.off - p.dict + k) p.c
        history := .ioWrite (t.ip.off - p.dict + k) p.c :: t.history } where
  frame := by rw [h.frame]
  off := h.off
  seedFits _ _ := h.seedFits k hseq
  kept a ha _ := by
    have hoff := h.off
    have hfits := h.seedFits k hseq
    exact (memRead_memWrite_other _ _ _ (by omega)).trans
      (h.kept a ha fun hpast => absurd hpast (not_onlyPastSeed_of_busy hseq rfl))

/-- One byte of output at IP_OUT, which moves past it (R131). -/
theorem InPlaceFrame.emit {bw : BitAcc} (h : InPlaceFrame p s t) (hpast : OnlyPastSeed t) (b : Byte) :
    InPlaceFrame p s
      { t with
        bw := bw
        io := memWrite Config.ioUnlisted t.io t.ip.out b
        history := .ioWrite t.ip.out b :: t.history
        ip := { t.ip with out := t.ip.out + 1 } } where
  frame := by rw [h.frame]
  off := h.off
  seedFits := h.seedFits
  kept a ha hlo := by
    have hout : t.ip.out + 1 ≤ a := hlo hpast
    exact (memRead_memWrite_other _ _ _ (by omega)).trans (h.kept a ha fun _ => by omega)

theorem emitIo_keeps_inPlaceFrame :
    EmitKeeps emitIo (fun v => InPlaceFrame p s v ∧ OnlyPastSeed v) (fun v => InPlaceFrame p s v ∧ OnlyPastSeed v)
      True :=
  fun b _ ⟨h, hpast⟩ _ => emitIo_meets b _ (fun _ => ⟨⟨h.emit hpast b, hpast⟩, rfl⟩) fun _ => trivial

theorem phaseOp_inPlaceFrame (h : InPlaceFrame p s t) (hseq : t.seq = .busy phase) (hphase : phaseCode phase = 0b11#2) :
    (phaseOp p phase t).All (InPlaceFrame p s) := by
  cases phase with
  | ipCheck =>
    rw [phaseOp, inPlaceCheck]
    split
    · exact h.ended _
    · split
      · exact h.ended _
      · rename_i hmin
        have hfits : p.dict ≤ t.ip.off := Nat.le_trans (Nat.le_add_right _ _) (Nat.not_lt.mp hmin)
        exact ⟨by rw [h.frame], h.off, fun _ _ => h.off ▸ hfits,
          fun a ha _ => h.kept a ha fun hpast => absurd hpast (not_onlyPastSeed_of_busy hseq rfl)⟩
  | ipSeed k =>
    rw [phaseOp, inPlaceSeed]
    split
    · rename_i hk
      refine onAccess_all (h.ended _) fun v hv => ?_
      rw [(ioWrite_ok.mp hv).2]
      exact h.seed hseq hk
    · exact h.move (fun _ hq => by cases hq; rfl) rfl fun hpast =>
        absurd hpast (not_onlyPastSeed_of_busy hseq rfl)
  | ipSearch =>
    rw [phaseOp, inPlaceSearch]
    split
    · exact onAccess_all (h.ended _) fun _ _ => h.toPhase rfl
    · exact h.toPhase rfl
  | ipEmit =>
    rw [phaseOp, inPlaceEmit]
    split
    · exact onAccess_all (h.ended _) fun _ _ => h.toPhase rfl
    · exact h.toPhase rfl
  | ipWrite fs =>
    refine (writeFields_keeps emitIo_keeps_inPlaceFrame
      (fun v rest a hv => ⟨hv.1.toPhase rfl, onlyPastSeed_of_busy rfl rfl⟩) fs
      ⟨h, onlyPastSeed_of_busy hseq rfl⟩).andThen (fun _ hv => hv.1) fun written v _ ⟨hv, _⟩ => ?_
    cases written
    · exact hv
    · exact hv.move (fun _ hq => by cases hq; rfl) rfl fun _ => le_rfl
  | ipGate =>
    rw [phaseOp, inPlaceGate]
    split <;> exact h.toPhase rfl
  | ipFlush gated =>
    have hflush : (flushBits emitIo t).All (InPlaceFrame p s) :=
      meets_iff_all.mp (flushBits_meets (fun _ => h) h fun b _ =>
        emitIo_meets b _ (fun _ => h.emit (onlyPastSeed_of_busy hseq rfl) b) fun _ => trivial)
    exact hflush.andThen (fun _ hv => hv) fun _ v _ hv => hv.ended _
  | _ => simp [phaseCode] at hphase

theorem exec_compressInPlace_frame (hready : s.ready) (hps : s.ps = some p)
    (hexec : exec .compressInPlace s = .next t) : InPlaceFrame p (acceptedInPlace s.quantum s) t := by
  rw [show exec .compressInPlace s = _ from exec_compressInPlace_eq_runCore s.quantum hready (by simp [hps])] at hexec
  refine runCore_keeps_of_phaseOp (p := p) (fun v hv => ?_)
    (fun v phase hseq hphase hv => phaseOp_inPlaceFrame hv hseq hphase) (runsOnly_of_busy rfl rfl) (.refl rfl) hexec
  rw [hv.frame]
  exact hps

/-- Settles O44: each operation of a command keeps its frame, and so does the turn. IoLength is not needed. -/
theorem dataCommandsChangeOnlyTheirOwnState : Obligations.DataCommandsChangeOnlyTheirOwnState := by
  intro s t hready
  refine ⟨exec_compress_frame hready, exec_decompress_frame hready, fun _ hexec => ?_⟩
  obtain ⟨p, hps⟩ := exec_next_ps hready (i := .compressInPlace) rfl nofun hexec
  have hframe := exec_compressInPlace_frame hready hps hexec
  refine ⟨hframe.frame, fun p' a hps' hout ha => ?_⟩
  obtain rfl : p = p' := Option.some.inj (hps.symm.trans hps')
  exact hframe.kept a ha fun _ => hout

end Sys2Proof.Proofs

/-! Two runs of a command side by side: a data command does not depend on what an earlier command left (R227, R39). -/

namespace Sys2Proof.Proofs

open Sys2Proof Sys2Proof.Machine

variable {α β γ : Type} {R R' : State → State → Prop}

/-! ## Operations that answer alike -/

/-- Two operations give the same answer, and leave states related by `R`. -/
inductive Alike (R : State → State → Prop) : Res α → Res α → Prop where
  | ok (a : α) {s u : State} (h : R s u) : Alike R (.ok a s) (.ok a u)
  | waits {s u : State} (h : R s u) : Alike R (.waits s) (.waits u)
  | ended {s u : State} (h : R s u) : Alike R (.ended s) (.ended u)
  | faulted (f : Fault) : Alike R (.faulted f) (.faulted f)
  | refused (x : Refusal) : Alike R (.refused x) (.refused x)

/-- The rule for a sequence. -/
theorem Alike.andThen {r r' : Res α} {next next' : α → State → Res β} (h : Alike R r r') (hR : ∀ s u, R s u → R' s u)
    (hnext : ∀ a s u, R s u → Alike R' (next a s) (next' a u)) : Alike R' (r.andThen next) (r'.andThen next') := by
  cases h with
  | ok a h => exact hnext a _ _ h
  | waits h => exact .waits (hR _ _ h)
  | ended h => exact .ended (hR _ _ h)
  | faulted f => exact .faulted f
  | refused x => exact .refused x

theorem Alike.mono {r r' : Res α} (h : Alike R r r') (hR : ∀ s u, R s u → R' s u) : Alike R' r r' := by
  cases h with
  | ok a h => exact .ok a (hR _ _ h)
  | waits h => exact .waits (hR _ _ h)
  | ended h => exact .ended (hR _ _ h)
  | faulted f => exact .faulted f
  | refused x => exact .refused x

/-- The rule for a test. -/
theorem Alike.ite {c c' : Prop} [Decidable c] [Decidable c'] {r₁ r₁' r₂ r₂' : Res α} (hc : c' = c)
    (h₁ : c → Alike R r₁ r₁') (h₂ : ¬ c → Alike R r₂ r₂') :
    Alike R (if c then r₁ else r₂) (if c' then r₁' else r₂') := by
  by_cases h : c
  · rw [if_pos h, if_pos (hc ▸ h)]
    exact h₁ h
  · rw [if_neg h, if_neg (hc ▸ h)]
    exact h₂ h

/-- Two memory accesses that stop alike, and give what `f` does not tell apart. -/
theorem onAccess_alike_of_map {s u : State} {access access' : Except MemStop α} {next next' : α → Res β} (f : α → γ)
    (haccess : access'.map f = access.map f)
    (hstop : R (endCommand .readOfUnwrittenByte s) (endCommand .readOfUnwrittenByte u))
    (hnext : ∀ a a', f a' = f a → Alike R (next a) (next' a')) :
    Alike R (onAccess access s next) (onAccess access' u next') := by
  cases access with
  | ok a =>
    cases access' with
    | ok a' => exact hnext a a' (Except.ok.inj haccess)
    | error e => cases haccess
  | error e =>
    cases access' with
    | ok a' => cases haccess
    | error e' =>
      cases haccess
      cases e with
      | outside f => exact .faulted f
      | noValue => exact .ended hstop

theorem onAccess_alike {s u : State} {access access' : Except MemStop α} {next next' : α → Res β}
    (haccess : access' = access)
    (hstop : R (endCommand .readOfUnwrittenByte s) (endCommand .readOfUnwrittenByte u))
    (hnext : ∀ a, Alike R (next a) (next' a)) : Alike R (onAccess access s next) (onAccess access' u next') :=
  onAccess_alike_of_map id (congrArg _ haccess) hstop fun a _ (ha : _ = a) => ha ▸ hnext a

/-- Two transactions get the same answer, and leave states related by `R`. -/
inductive AnsweredAlike (R : State → State → Prop) : Answered α → Answered α → Prop where
  | waits : AnsweredAlike R .waits .waits
  | got (a : α) {s u : State} (h : R s u) : AnsweredAlike R (.got a s) (.got a u)

/-! ## SEARCH does not look at the i and j it starts with (R170) -/

/-- The search registers without i and j. -/
def found (q : SearchRegs) : SearchRegs := { q with i := 0, j := 0 }

theorem scanMatches_found (B : Nat → Except MemStop Byte) (s r n : Nat) {q q' : SearchRegs} (h : found q' = found q) :
    (scanMatches B s r n q').map found = (scanMatches B s r n q).map found := by
  induction n generalizing q q' with
  | zero => exact congrArg Except.ok h
  | succ n ih =>
    obtain ⟨hx, hy, hf1, -, -, hc⟩ := SearchRegs.mk.inj h
    rw [scanMatches, scanMatches, hf1, hc, hy]
    cases B (s + n) with
    | error e => rfl
    | ok b =>
      dsimp only
      split
      · cases extendMatch B (s + n) r q.f1 q.f1 1 with
        | error e => rfl
        | ok j =>
          dsimp only
          split <;> exact ih (by simp only [found, hx])
      · exact ih (by simp only [found, hx])

theorem searchMatch_found (B : Nat → Except MemStop Byte) (s r f1 : Nat) (old old' : SearchRegs) :
    (searchMatch B s r f1 old').map found = (searchMatch B s r f1 old).map found := by
  rw [searchMatch, searchMatch]
  cases B r with
  | error e => rfl
  | ok c => exact scanMatches_found B s r (r - s) rfl

/-! ## What a running command looks at -/

/-- Which of the registers and memories the rest of a command looks at: of the search registers `best` is x and y, of
the in-place registers `operands` is the copies of IP_L and IP_OFFSET and `ip` is all. -/
structure Live where
  bw : Prop
  br : Prop
  cp : Prop
  dR : Prop
  win : Prop
  best : Prop
  operands : Prop
  ip : Prop

/-- None of them. -/
def Live.none : Live :=
  { bw := False, br := False, cp := False, dR := False, win := False, best := False, operands := False, ip := False }

/-- What COMPRESS looks at between two tokens, once C_INIT has set it (R46). -/
def Live.compress : Live := { Live.none with bw := True, cp := True, win := True }

/-- What DECOMPRESS looks at, once D_INIT has set it (R46). -/
def Live.decompress : Live := { Live.none with br := True, dR := True, win := True }

/-- What COMPRESS_IN_PLACE looks at between two tokens, once its seed is written (R46). -/
def Live.inPlace : Live := { Live.none with bw := True, ip := True }

/-- What the rest of a command looks at from each phase on. -/
def liveIn : Phase → Live
  | .vCheck _ | .cInit | .dInit => .none
  | .cFill | .cSearch | .cCompact | .cRefill | .cFlush | .cFinish => .compress
  | .cEmit | .cWrite _ => { Live.compress with best := True }
  | .dFlag | .dLit | .dPut _ | .dMatch | .dCopy .. | .dFinish => .decompress
  | .ipCheck | .ipSeed _ => { Live.none with operands := True }
  | .ipSearch | .ipGate | .ipFlush _ => .inPlace
  | .ipEmit | .ipWrite _ => { Live.inPlace with best := True }

variable {H K : List Event} {L : Live} {p : ParamSet} {s u t : State} {phase : Phase}

/-- Two runs of one command, begun with the traces `H` and `K`, at the same place: they agree on all that is live in
their phase, and have made the same transactions. -/
structure Twin (H K : List Event) (L : Live) (s u : State) : Prop where
  build : u.build = s.build
  ps : u.ps = s.ps
  seq : u.seq = s.seq
  res : u.res = s.res
  src : u.src = s.src
  snk : u.snk = s.snk
  io : u.io = s.io
  trace : ∃ es, s.history = es ++ H ∧ u.history = es ++ K
  live : ∀ phase, s.seq = .busy phase → L = liveIn phase
  bw : L.bw → u.bw = s.bw
  br : L.br → u.br = s.br
  cp : L.cp → u.cp = s.cp
  dR : L.dR → u.dR = s.dR
  win : L.win → u.win = s.win
  best : L.best → u.sr.x = s.sr.x ∧ u.sr.y = s.sr.y
  operands : L.operands → u.ip.len = s.ip.len ∧ u.ip.off = s.ip.off
  ip : L.ip → u.ip = s.ip

/-- At the same place, whatever is live there. -/
def Twins (H K : List Event) (s u : State) : Prop := ∃ L, Twin H K L s u

theorem Twin.twins (h : Twin H K L s u) : Twins H K s u := ⟨L, h⟩

theorem Twin.ended (h : Twin H K L s u) (e : Ending) : Twin H K L (endCommand e s) (endCommand e u) :=
  { h with seq := rfl, res := rfl, live := fun phase hseq => absurd hseq (endSeq_not_busy e phase) }

/-- On to a phase in which the same is live. -/
theorem Twin.toPhase (h : Twin H K L s u) (hL : L = liveIn phase) :
    Twin H K L { s with seq := .busy phase } { u with seq := .busy phase } :=
  { h with seq := rfl, live := fun _ hseq => by cases hseq; exact hL }

theorem Twin.twins_toPhase (h : Twin H K L s u) (hL : L = liveIn phase) :
    Twins H K { s with seq := .busy phase } { u with seq := .busy phase } := ⟨L, h.toPhase hL⟩

/-- A transaction is recorded in both. -/
theorem Twin.record (h : Twin H K L s u) (e : Event) :
    ∃ es, e :: s.history = es ++ H ∧ e :: u.history = es ++ K := by
  obtain ⟨es, hs, hu⟩ := h.trace
  exact ⟨e :: es, by rw [hs, List.cons_append], by rw [hu, List.cons_append]⟩

/-! ## The channels -/

theorem srcRead_alike (h : Twin H K L s u) : AnsweredAlike (Twin H K L) (srcRead s) (srcRead u) := by
  rw [srcRead, srcRead, h.src]
  split
  · exact .waits
  · exact .got _ { h with src := rfl, trace := h.record _ }
  · exact .got _ { h with src := rfl, trace := h.record _ }

theorem snkWrite_alike (b : Byte) (h : Twin H K L s u) :
    AnsweredAlike (Twin H K L) (snkWrite b s) (snkWrite b u) := by
  rw [snkWrite, snkWrite, h.snk]
  split
  · split
    · exact .got _ { h with snk := rfl, trace := h.record _ }
    · exact .waits
  · exact .got _ { h with snk := rfl, trace := h.record _ }

/-- EMIT gives the same answer in both runs. -/
abbrev EmitsAlike (H K : List Event) (L : Live) (emit : Byte → State → Res Unit) : Prop :=
  ∀ b s u, Twin H K L s u → Alike (Twin H K L) (emit b s) (emit b u)

theorem emitSink_alike : EmitsAlike H K L emitSink := by
  intro b s u h
  have hwrite := snkWrite_alike b h
  rw [emitSink, emitSink]
  generalize snkWrite b s = r at hwrite ⊢
  generalize snkWrite b u = r' at hwrite ⊢
  cases hwrite with
  | waits => exact .waits h
  | got a h' =>
    cases a with
    | ok => exact .ok () h'
    | err e => exact .ended (h'.ended _)

theorem finishOp_alike (h : Twin H K L s u) : Alike (Twin H K L) (finishOp s) (finishOp u) := by
  rw [finishOp, finishOp, snkFinish, snkFinish, h.snk]
  cases s.snk.fin with
  | none => exact .waits h
  | some a =>
    have hclosed : Twin H K L
        { s with snk := { writes := [], accepting := false, fin := none }, history := .snkFinish a :: s.history }
        { u with snk := { writes := [], accepting := false, fin := none }, history := .snkFinish a :: u.history } :=
      { h with snk := rfl, trace := h.record _ }
    cases a <;> exact .ended (hclosed.ended _)

end Sys2Proof.Proofs

/-! The operations of a data command in two runs side by side (R227). -/

namespace Sys2Proof.Proofs

open Sys2Proof Sys2Proof.Machine

variable {α β : Type} {R : State → State → Prop} {H K : List Event} {L : Live} {p : ParamSet} {s u s' u' t : State}
  {phase : Phase}

/-! ## The two memories -/

theorem Twin.winRead_eq (h : Twin H K L s u) (hwin : L.win) : winRead u = winRead s := by
  funext a
  rw [winRead, winRead, h.build, h.win hwin]

theorem Twin.ioRead_eq (h : Twin H K L s u) (hip : L.ip) : ioRead u = ioRead s := by
  funext a
  rw [ioRead, ioRead, h.io, h.ip hip]

theorem winWrite_alike {a : Nat} {b : Byte} {next next' : State → Res α} (h : Twin H K L s u) (hwin : L.win)
    (hnext : ∀ v w, Twin H K L v w → Alike R (next v) (next' w)) :
    Alike R (onAccess (winWrite a b s) s next) (onAccess (winWrite a b u) u next') := by
  have hsize : u.build.wbufBytes = s.build.wbufBytes := by rw [h.build]
  rw [winWrite, winWrite, h.win hwin, hsize]
  split
  · exact hnext _ _ { h with win := fun _ => rfl }
  · exact .faulted _

theorem ioWrite_alike {a : Nat} {b : Byte} {next next' : State → Res α} (h : Twin H K L s u)
    (hlen : u.ip.len = s.ip.len) (hnext : ∀ v w, Twin H K L v w → Alike R (next v) (next' w)) :
    Alike R (onAccess (ioWrite a b s) s next) (onAccess (ioWrite a b u) u next') := by
  rw [ioWrite, ioWrite, h.io, hlen]
  split
  · exact hnext _ _ { h with io := rfl, trace := h.record _ }
  · exact .faulted _

theorem emitIo_alike (hip : L.ip) : EmitsAlike H K L emitIo := by
  intro b s u h
  rw [emitIo, emitIo, h.ip hip]
  refine ioWrite_alike h (by rw [h.ip hip]) fun v w h' => .ok () { h' with operands := fun ho => ?_, ip := fun _ => ?_ }
  · exact h'.operands ho
  · rw [h'.ip hip]

theorem putByte_alike (b : Byte) (h : Twin H K L s u) (hwin : L.win) (hdR : L.dR) :
    Alike (Twin H K L) (putByte p b s) (putByte p b u) := by
  refine (emitSink_alike b s u h).andThen (fun _ _ h => h) fun _ v w h' => ?_
  rw [h'.dR hdR]
  exact winWrite_alike h' hwin fun v w h'' => .ok () { h'' with dR := fun _ => by rw [h''.dR hdR] }

/-! ## The writer -/

variable {emit : Byte → State → Res Unit}

theorem drainBits_alike (hemit : EmitsAlike H K L emit) (hbw : L.bw) (fuel : Nat) (h : Twin H K L s u) :
    Alike (Twin H K L) (drainBits emit fuel s) (drainBits emit fuel u) := by
  induction fuel generalizing s u with
  | zero => exact .ok () h
  | succ fuel ih =>
    rw [drainBits, drainBits, h.bw hbw]
    split
    · have hbyte := hemit (topByte s.bw) { s with bw := { s.bw with cnt := s.bw.cnt - 8 } }
        { u with bw := { s.bw with cnt := s.bw.cnt - 8 } } { h with bw := fun _ => rfl }
      generalize emit _ { s with bw := _ } = r at hbyte ⊢
      generalize emit _ { u with bw := _ } = r' at hbyte ⊢
      cases hbyte with
      | ok a h' => exact ih h'
      | waits => exact .waits h
      | ended h' => exact .ended h'
      | faulted f => exact .faulted f
      | refused x => exact .refused x
    · exact .ok () h

theorem writeBits_alike (hemit : EmitsAlike H K L emit) (hbw : L.bw) (f : Field) (h : Twin H K L s u) :
    Alike (Twin H K L) (writeBits emit f s) (writeBits emit f u) := by
  rw [writeBits, writeBits, h.bw hbw]
  split
  · exact drainBits_alike hemit hbw _ { h with bw := fun _ => rfl }
  · exact .refused _

theorem flushBits_alike (hemit : EmitsAlike H K L emit) (hbw : L.bw) (h : Twin H K L s u) :
    Alike (Twin H K L) (flushBits emit s) (flushBits emit u) := by
  rw [flushBits, flushBits, h.bw hbw]
  split
  · have hbyte := hemit (BitVec.ofNat 8 ((s.bw.acc.toNat <<< (8 - s.bw.cnt)) &&& 0xFF))
      { s with bw := { s.bw with cnt := 0 } } { u with bw := { s.bw with cnt := 0 } } { h with bw := fun _ => rfl }
    generalize emit _ { s with bw := _ } = r at hbyte ⊢
    generalize emit _ { u with bw := _ } = r' at hbyte ⊢
    cases hbyte with
    | waits => exact .waits h
    | ok a h' => exact .ok a h'
    | ended h' => exact .ended h'
    | faulted f => exact .faulted f
    | refused x => exact .refused x
  · exact .ok () h

theorem writeFields_alike {fieldsPhase : List Field → Phase} (hemit : EmitsAlike H K L emit) (hbw : L.bw)
    (hphase : ∀ rest, L = liveIn (fieldsPhase rest)) (fs : List Field) (h : Twin H K L s u) :
    Alike (Twin H K L) (writeFields emit fieldsPhase fs s) (writeFields emit fieldsPhase fs u) := by
  rw [writeFields, writeFields, h.bw hbw]
  refine (drainBits_alike hemit hbw _ h).andThen (fun _ _ h => h) fun _ v w h' => ?_
  cases fs with
  | nil => exact .ok true h'
  | cons f rest =>
    exact (writeBits_alike hemit hbw f (h'.toPhase (hphase rest))).andThen (fun _ _ h => h) fun _ _ _ h'' =>
      .ok false h''

/-! ## The reader, and the fetch of a token -/

theorem fillBits_alike (hbr : L.br) (len fuel : Nat) (h : Twin H K L s u) :
    Alike (Twin H K L) (fillBits len fuel s) (fillBits len fuel u) := by
  induction fuel generalizing s u with
  | zero => exact .ok true h
  | succ fuel ih =>
    have hread := srcRead_alike h
    rw [fillBits, fillBits, h.br hbr]
    split
    · generalize srcRead s = r at hread ⊢
      generalize srcRead u = r' at hread ⊢
      cases hread with
      | waits => exact .waits h
      | got a h' =>
        cases a with
        | byte b => exact ih { h' with br := fun _ => by rw [h'.br hbr] }
        | endOfData => exact .ok false h'
        | err e => exact .ended (h'.ended _)
    · exact .ok true h

theorem readBits_alike (hbr : L.br) (len : Nat) (h : Twin H K L s u) :
    Alike (Twin H K L) (readBits len s) (readBits len u) := by
  rw [readBits, readBits]
  split
  · refine (fillBits_alike hbr len len h).andThen (fun _ _ h => h) fun enough v w h' => ?_
    cases enough with
    | false => exact .ok none h'
    | true =>
      rw [h'.br hbr]
      exact .ok _ { h' with br := fun _ => rfl }
  · exact .refused _

theorem fetchPayload_alike (hbr : L.br) (flag : Nat) (h : Twin H K L s u) :
    Alike (Twin H K L) (fetchPayload p flag s) (fetchPayload p flag u) :=
  (readBits_alike hbr _ h).andThen (fun _ _ h => h) fun _ _ _ h' => .ok _ h'

theorem fetchToken_alike (h : Twin H K .decompress s u) :
    Alike (Twin H K .decompress) (fetchToken p s) (fetchToken p u) := by
  rw [fetchToken, fetchToken, h.seq]
  split
  · exact fetchPayload_alike trivial 1 h
  · split
    · exact fetchPayload_alike trivial 0 h
    · refine (readBits_alike trivial 1 h).andThen (fun _ _ h => h) fun flag v w h' => ?_
      cases flag with
      | none => exact .ok none h'
      | some flag => exact fetchPayload_alike trivial flag (h'.toPhase (by split <;> rfl))

/-! ## LIT and MATCH -/

theorem litOp_alike (b : Byte) (h : Twin H K .decompress s u) :
    Alike (Twin H K .decompress) (litOp p b s) (litOp p b u) := by
  have hput := putByte_alike (p := p) b h trivial trivial
  rw [litOp, litOp]
  generalize putByte p b s = r at hput ⊢
  generalize putByte p b u = r' at hput ⊢
  cases hput with
  | ok a h' => exact .ok () (h'.toPhase rfl)
  | waits h' => exact .waits (h'.toPhase rfl)
  | ended h' => exact .ended h'
  | faulted f => exact .faulted f
  | refused x => exact .refused x

theorem copyLoop_alike (offset len left k : Nat) (h : Twin H K .decompress s u) :
    Alike (Twin H K .decompress) (copyLoop p offset len left k s) (copyLoop p offset len left k u) := by
  induction left generalizing k s u with
  | zero => exact .ok () (h.toPhase rfl)
  | succ left ih =>
    rw [copyLoop, copyLoop, h.winRead_eq trivial]
    refine onAccess_alike rfl (h.ended _) fun c => ?_
    have hput := putByte_alike (p := p) c h trivial trivial
    generalize putByte p c s = r at hput ⊢
    generalize putByte p c u = r' at hput ⊢
    cases hput with
    | ok a h' => exact ih (k + 1) h'
    | waits h' => exact .waits (h'.toPhase rfl)
    | ended h' => exact .ended h'
    | faulted f => exact .faulted f
    | refused x => exact .refused x

theorem decodeTokenOp_alike (h : Twin H K .decompress s u) :
    Alike (Twin H K .decompress) (decodeTokenOp p s) (decodeTokenOp p u) := by
  refine (fetchToken_alike h).andThen (fun _ _ h => h) fun i v w h' => ?_
  rcases i with _ | i
  · exact .ok () (h'.toPhase rfl)
  · cases i with
    | lit b => exact litOp_alike b h'
    | matchTok offset len => exact copyLoop_alike offset len len 0 h'
    | _ => exact .refused _

/-! ## The other operations -/

theorem fillOp_alike (h : Twin H K .compress s u) : Alike (Twin H K .compress) (fillOp p s) (fillOp p u) := by
  have hread := srcRead_alike h
  rw [fillOp, fillOp]
  refine .ite (by rw [h.cp trivial]) (fun _ => ?_) fun _ => .ok () (h.toPhase rfl)
  generalize srcRead s = r at hread ⊢
  generalize srcRead u = r' at hread ⊢
  cases hread with
  | waits => exact .waits h
  | got a h' =>
    cases a with
    | byte b =>
      dsimp only
      rw [h'.cp trivial]
      exact winWrite_alike h' trivial fun v w h'' => .ok () { h'' with cp := fun _ => by rw [h''.cp trivial] }
    | endOfData => exact .ok () (h'.toPhase rfl)
    | err e => exact .ended (h'.ended _)

theorem validateOp_alike (config : Word32) (h : Twin H K L s u) :
    Twin H K L (validateOp config s) (validateOp config u) := by
  have hidxW : u.build.idxW = s.build.idxW := by rw [h.build]
  have hps : ∀ ps, Twin H K L { s with ps := ps } { u with ps := ps } := fun ps => { h with ps := rfl }
  rw [validateOp, validateOp, hidxW]
  split
  · exact (hps _).ended .validated
  · exact (hps _).ended (.paramError _)

/-- The search: the best match is live behind it, and is the same in both runs (R152, R203). -/
theorem search_alike {B B' : Nat → Except MemStop Byte} {a a' r r' f1 f1' : Nat} (h : Twin H K L s u) (hB : B' = B)
    (ha : a' = a) (hr : r' = r) (hf1 : f1' = f1) (hL : liveIn phase = { L with best := True }) :
    Alike (Twins H K)
      (onAccess (searchMatch B a r f1 s.sr) s fun q => .ok () { s with sr := q, seq := .busy phase })
      (onAccess (searchMatch B' a' r' f1' u.sr) u fun q => .ok () { u with sr := q, seq := .busy phase }) := by
  subst hB ha hr hf1
  refine onAccess_alike_of_map found (searchMatch_found _ _ _ _ _ _) (h.ended _).twins fun q q' hq => .ok () ?_
  obtain ⟨hx, hy, -⟩ := SearchRegs.mk.inj hq
  exact ⟨{ L with best := True },
    { h with seq := rfl, live := fun _ hseq => by cases hseq; exact hL.symm, best := fun _ => ⟨hx, hy⟩ }⟩

/-- The token decision: a literal or a match by the same y, and the same fields (R180). -/
theorem tokenDecision_alike {access access' : Except MemStop Byte} {i i' : Instr} {fieldsPhase : List Field → Phase}
    (h : Twin H K L s u) (hbest : L.best) (hphase : ∀ fs, L = liveIn (fieldsPhase fs)) (haccess : access' = access)
    (hi : i' = i) :
    Alike (Twins H K)
      (if s.sr.y ≤ p.p then
        onAccess access s fun b =>
          .ok () { s with sr := { s.sr with y := 1 }, seq := .busy (fieldsPhase (encodeFields p (.lit b))) }
      else .ok () { s with seq := .busy (fieldsPhase (encodeFields p i)) })
      (if u.sr.y ≤ p.p then
        onAccess access' u fun b =>
          .ok () { u with sr := { u.sr with y := 1 }, seq := .busy (fieldsPhase (encodeFields p (.lit b))) }
      else .ok () { u with seq := .busy (fieldsPhase (encodeFields p i')) }) := by
  obtain ⟨hx, hy⟩ := h.best hbest
  have hlit : Twin H K L { s with sr := { s.sr with y := 1 } } { u with sr := { u.sr with y := 1 } } :=
    { h with best := fun _ => ⟨hx, rfl⟩ }
  refine .ite (by rw [hy]) (fun _ => ?_) fun _ => .ok () (hi ▸ h.twins_toPhase (hphase _))
  exact onAccess_alike haccess (h.ended _).twins fun b => .ok () (hlit.twins_toPhase (hphase _))

/-! ## COMPRESS (R222) -/

theorem compressInit_alike (h : Twin H K .none s u) : Alike (Twins H K) (compressInit p s) (compressInit p u) := by
  refine .ite (by rw [h.build]) (fun _ => .ended (h.ended _).twins) fun _ => .ok () ⟨.compress, ?_⟩
  exact { h with
    seq := rfl, live := fun _ hseq => by cases hseq; rfl
    bw := fun _ => rfl, cp := fun _ => rfl, win := fun _ => rfl }

theorem compressSearch_alike (h : Twin H K .compress s u) :
    Alike (Twins H K) (compressSearch p s) (compressSearch p u) := by
  have hcp := h.cp trivial
  refine .ite (by rw [hcp]) (fun _ => ?_) fun _ => .ok () (h.twins_toPhase rfl)
  exact search_alike h (h.winRead_eq trivial) (by rw [hcp]) (by rw [hcp]) (by rw [hcp]) rfl

theorem compressEmit_alike (h : Twin H K (liveIn .cEmit) s u) :
    Alike (Twins H K) (compressEmit p s) (compressEmit p u) :=
  tokenDecision_alike (fieldsPhase := .cWrite) h trivial (fun _ => rfl)
    (by rw [h.winRead_eq trivial, h.cp trivial]) (by rw [(h.best trivial).1, (h.best trivial).2])

theorem compressWrite_alike {fs : List Field} (h : Twin H K (liveIn (.cWrite fs)) s u) :
    Alike (Twins H K) (compressWrite p fs s) (compressWrite p fs u) := by
  refine (writeFields_alike (fieldsPhase := .cWrite) emitSink_alike trivial (fun _ => rfl) fs h).andThen
    (fun _ _ => Twin.twins) fun written v w h' => ?_
  cases written with
  | false => exact .ok () h'.twins
  | true =>
    obtain ⟨-, hy⟩ := h'.best trivial
    dsimp only
    rw [hy, h'.cp trivial]
    refine .ok () ⟨.compress, { h' with seq := rfl, live := fun _ hseq => ?_, cp := fun _ => rfl, best := nofun }⟩
    cases hseq
    split <;> rfl

theorem compactOp_alike (h : Twin H K .compress s u) : Alike (Twins H K) (compactOp p s) (compactOp p u) := by
  refine .ite (by rw [h.build]) (fun _ => .faulted _) fun _ => .ok () ⟨.compress, ?_⟩
  exact { h with
    seq := rfl, live := fun _ hseq => by cases hseq; rfl
    cp := fun _ => by rw [h.cp trivial], win := fun _ => by rw [h.win trivial] }

theorem compressFlush_alike (h : Twin H K .compress s u) :
    Alike (Twins H K) (compressFlush s) (compressFlush u) :=
  (flushBits_alike emitSink_alike trivial h).andThen (fun _ _ => Twin.twins)
    fun _ _ _ h' => .ok () (h'.twins_toPhase rfl)

/-! ## The start of DECOMPRESS (R223) -/

theorem decompressInit_alike (h : Twin H K .none s u) :
    Alike (Twins H K) (decompressInit p s) (decompressInit p u) := by
  refine .ite (by rw [h.build]) (fun _ => .ended (h.ended _).twins) fun _ => .ok () ⟨.decompress, ?_⟩
  exact { h with
    seq := rfl, live := fun _ hseq => by cases hseq; rfl
    br := fun _ => rfl, dR := fun _ => rfl, win := fun _ => rfl }

/-! ## COMPRESS_IN_PLACE (R224) -/

theorem inPlaceCheck_alike (h : Twin H K (liveIn .ipCheck) s u) :
    Alike (Twins H K) (inPlaceCheck p s) (inPlaceCheck p u) := by
  obtain ⟨hlen, hoff⟩ := h.operands trivial
  rw [inPlaceCheck, inPlaceCheck, hlen, hoff]
  refine .ite rfl (fun _ => .ended (h.ended _).twins) fun _ => ?_
  exact .ite rfl (fun _ => .ended (h.ended _).twins) fun _ => .ok () (h.twins_toPhase rfl)

theorem inPlaceSeed_alike {k : Nat} (h : Twin H K (liveIn (.ipSeed k)) s u) :
    Alike (Twins H K) (inPlaceSeed p k s) (inPlaceSeed p k u) := by
  obtain ⟨hlen, hoff⟩ := h.operands trivial
  refine .ite rfl (fun _ => ?_) fun _ => .ok () ⟨.inPlace, ?_⟩
  · rw [hoff]
    exact ioWrite_alike h hlen fun v w h' => .ok () (h'.twins_toPhase rfl)
  · exact { h with
      seq := rfl, live := fun _ hseq => by cases hseq; rfl
      bw := fun _ => rfl, operands := nofun, ip := fun _ => by simp only [hlen, hoff] }

theorem inPlaceSearch_alike (h : Twin H K .inPlace s u) :
    Alike (Twins H K) (inPlaceSearch p s) (inPlaceSearch p u) := by
  have hip := h.ip trivial
  refine .ite (by rw [hip]) (fun _ => ?_) fun _ => .ok () (h.twins_toPhase rfl)
  exact search_alike h (h.ioRead_eq trivial) (by rw [hip]) (by rw [hip]) (by rw [hip]) rfl

theorem inPlaceEmit_alike (h : Twin H K (liveIn .ipEmit) s u) :
    Alike (Twins H K) (inPlaceEmit p s) (inPlaceEmit p u) :=
  tokenDecision_alike (fieldsPhase := .ipWrite) h trivial (fun _ => rfl)
    (by rw [h.ioRead_eq trivial, h.ip trivial])
    (by rw [(h.best trivial).1, (h.best trivial).2, h.ip trivial])

theorem inPlaceWrite_alike {fs : List Field} (h : Twin H K (liveIn (.ipWrite fs)) s u) :
    Alike (Twins H K) (inPlaceWrite fs s) (inPlaceWrite fs u) := by
  refine (writeFields_alike (fieldsPhase := .ipWrite) (emitIo_alike trivial) trivial (fun _ => rfl) fs h).andThen
    (fun _ _ => Twin.twins) fun written v w h' => ?_
  cases written with
  | false => exact .ok () h'.twins
  | true =>
    obtain ⟨-, hy⟩ := h'.best trivial
    exact .ok () ⟨.inPlace, { h' with
      seq := rfl, live := fun _ hseq => by cases hseq; rfl
      operands := nofun, ip := fun _ => by rw [hy, h'.ip trivial], best := nofun }⟩

theorem inPlaceGate_alike (h : Twin H K .inPlace s u) : Alike (Twins H K) (inPlaceGate p s) (inPlaceGate p u) :=
  .ite (by rw [h.ip trivial]) (fun _ => .ok () (h.twins_toPhase rfl)) fun _ => .ok () (h.twins_toPhase rfl)

theorem inPlaceFlush_alike {gated : Bool} (h : Twin H K .inPlace s u) :
    Alike (Twins H K) (inPlaceFlush gated s) (inPlaceFlush gated u) := by
  refine (flushBits_alike (emitIo_alike trivial) trivial h).andThen (fun _ _ => Twin.twins) fun _ v w h' => .ended ?_
  rw [h'.ip trivial]
  exact (h'.ended _).twins

/-! ## Every phase -/

/-- The operation of a phase looks at nothing but what is live in it. -/
theorem phaseOp_alike (h : Twin H K (liveIn phase) s u) :
    Alike (Twins H K) (phaseOp p phase s) (phaseOp p phase u) := by
  have htwins : ∀ {L} v w, Twin H K L v w → Twins H K v w := fun _ _ => Twin.twins
  cases phase with
  | vCheck config => exact .ended (validateOp_alike config h).twins
  | cInit => exact compressInit_alike h
  | cFill | cRefill => exact (fillOp_alike h).mono htwins
  | cSearch => exact compressSearch_alike h
  | cEmit => exact compressEmit_alike h
  | cWrite fs => exact compressWrite_alike h
  | cCompact => exact compactOp_alike h
  | cFlush => exact compressFlush_alike h
  | cFinish | dFinish => exact (finishOp_alike h).mono htwins
  | dInit => exact decompressInit_alike h
  | dFlag | dLit | dMatch => exact (decodeTokenOp_alike h).mono htwins
  | dPut b => exact (litOp_alike b h).mono htwins
  | dCopy offset len k => exact (copyLoop_alike offset len (len - k) k h).mono htwins
  | ipCheck => exact inPlaceCheck_alike h
  | ipSeed k => exact inPlaceSeed_alike h
  | ipSearch => exact inPlaceSearch_alike h
  | ipEmit => exact inPlaceEmit_alike h
  | ipWrite fs => exact inPlaceWrite_alike h
  | ipGate => exact inPlaceGate_alike h
  | ipFlush gated => exact inPlaceFlush_alike h

theorem coreOp_alike (h : Twin H K (liveIn phase) s u) : Alike (Twins H K) (coreOp phase s) (coreOp phase u) := by
  by_cases hv : ∃ config, phase = .vCheck config
  · obtain ⟨config, rfl⟩ := hv
    exact .ended (validateOp_alike config h).twins
  · cases hps : s.ps with
    | none =>
      rw [coreOp_none hps fun c hc => hv ⟨c, hc⟩, coreOp_none (h.ps.trans hps) fun c hc => hv ⟨c, hc⟩]
      exact .refused _
    | some p =>
      rw [coreOp_some hps, coreOp_some (h.ps.trans hps)]
      exact phaseOp_alike h

/-! ## A turn, and a command -/

/-- A turn takes twins to twins. -/
theorem runCore_twins (n : Nat) (h : Twins H K s u) (hrun : runCore n s = .next t) :
    ∃ v, runCore n u = .next v ∧ Twins H K t v := by
  induction n generalizing s u with
  | zero =>
    cases hrun
    exact ⟨u, rfl, h⟩
  | succ n ih =>
    obtain ⟨L, h⟩ := h
    by_cases hbusy : ∃ phase, s.seq = .busy phase
    · obtain ⟨phase, hseq⟩ := hbusy
      obtain rfl := h.live phase hseq
      have hop := coreOp_alike h
      rw [runCore_busy n hseq] at hrun
      rw [runCore_busy n (h.seq.trans hseq)]
      generalize coreOp phase s = r at hop hrun
      generalize coreOp phase u = r' at hop ⊢
      cases hop with
      | ok a h' => exact ih h' hrun
      | waits h' | ended h' =>
        cases hrun
        exact ⟨_, rfl, h'⟩
      | faulted f | refused x => cases hrun
    · have hfree : ∀ phase, s.seq ≠ .busy phase := fun phase hseq => hbusy ⟨phase, hseq⟩
      rw [runCore_free _ hfree] at hrun
      cases hrun
      exact ⟨u, runCore_free _ fun phase hseq => hfree phase (h.seq.symm.trans hseq), h.twins⟩

/-- The command that comes to `t` from `s` comes from `u` to a state that agrees with `t` on all that a command leaves
for the host and the channels, behind the same transactions. -/
theorem Twins.runs {n : Nat} {i : Instr} (h : Twins s.history u.history s' u') (hs : exec i s = runCore n s')
    (hu : exec i u = runCore n u') (hexec : exec i s = .next t) :
    ∃ v es, exec i u = .next v ∧ t.trace = s.trace ++ es ∧ v.trace = u.trace ++ es ∧
      v.seq = t.seq ∧ v.res = t.res ∧ v.src = t.src ∧ v.snk = t.snk ∧ v.io = t.io := by
  obtain ⟨v, hv, L, htwin⟩ := runCore_twins n h (hs.symm.trans hexec)
  obtain ⟨es, hes, hes'⟩ := htwin.trace
  exact ⟨v, es.reverse, hu.trans hv, by rw [State.trace, State.trace, hes, List.reverse_append],
    by rw [State.trace, State.trace, hes', List.reverse_append], htwin.seq, htwin.res, htwin.src, htwin.snk, htwin.io⟩

/-- Settles O46: accepted in either state, the command finds nothing live but PS, its operands, IO and the channels, and
from there on the two runs are twins. IoLength is not needed. -/
theorem commandsAreIndependentOfWhatWasLeft : Obligations.CommandsAreIndependentOfWhatWasLeft := by
  intro s u t i hi hready hready' hbuild hps hsrc hsnk hio hlen hoff hquantum hexec
  have haccepted : ∀ code first, liveIn first = .none →
      Twin s.history u.history .none (accepted code first s.quantum s) (accepted code first s.quantum u) :=
    fun code first hfirst =>
      { build := hbuild, ps := hps, seq := rfl, res := rfl, src := hsrc, snk := hsnk, io := hio
        trace := ⟨[], rfl, rfl⟩, live := fun _ hseq => by cases hseq; exact hfirst.symm
        bw := nofun, br := nofun, cp := nofun, dR := nofun, win := nofun, best := nofun, operands := nofun
        ip := nofun }
  have hu : { u with quantum := s.quantum } = u := by rw [← hquantum]
  obtain rfl | rfl | ⟨rfl, -⟩ := hi
  · obtain ⟨p, hp⟩ := exec_next_ps hready (i := .compress) rfl nofun hexec
    exact (haccepted 0b01#2 .cInit rfl).twins.runs (exec_compress_eq_runCore s.quantum hready (by simp [hp]))
      (hu ▸ exec_compress_eq_runCore s.quantum hready' (by simp [hps, hp])) hexec
  · obtain ⟨p, hp⟩ := exec_next_ps hready (i := .decompress) rfl nofun hexec
    exact (haccepted 0b10#2 .dInit rfl).twins.runs (exec_decompress_eq_runCore s.quantum hready (by simp [hp]))
      (hu ▸ exec_decompress_eq_runCore s.quantum hready' (by simp [hps, hp])) hexec
  · obtain ⟨p, hp⟩ := exec_next_ps hready (i := .compressInPlace) rfl nofun hexec
    have hcopied : Twins s.history u.history (acceptedInPlace s.quantum s) (acceptedInPlace s.quantum u) :=
      ⟨liveIn .ipCheck, { haccepted 0b11#2 .cInit rfl with
        seq := rfl, live := fun _ hseq => by cases hseq; rfl, operands := fun _ => ⟨hlen, hoff⟩, ip := nofun }⟩
    exact hcopied.runs (exec_compressInPlace_eq_runCore s.quantum hready (by simp [hp]))
      (hu ▸ exec_compressInPlace_eq_runCore s.quantum hready' (by simp [hps, hp])) hexec

end Sys2Proof.Proofs

/-! A command that waits for a channel: where it stands, and that it waits there until the channel answers (R38,
R261). -/

namespace Sys2Proof.Proofs

open Sys2Proof Sys2Proof.Machine

variable {α β : Type} {p : ParamSet} {s t : State} {phase : Phase} {Q : State → Prop} {emit : Byte → State → Res Unit}
  {quiet : Sink → Prop}

/-! ## Operations that stop -/

/-- If the operation waits, it leaves `Q`; if it ends the command, no command runs. -/
def StopsIn (Q : State → Prop) : Res α → Prop
  | .waits t => Q t
  | .ended t => t.isBusy = false
  | _ => True

theorem StopsIn.of_eq {r : Res α} (h : StopsIn Q r) (hr : r = .waits t) : Q t := by
  rw [hr] at h
  exact h

theorem StopsIn.ended {r : Res α} (h : StopsIn Q r) (hr : r = .ended t) : t.isBusy = false := by
  rw [hr] at h
  exact h

theorem StopsIn.andThen {r : Res α} {next : α → State → Res β} (h : StopsIn Q r)
    (hnext : ∀ a u, r = .ok a u → StopsIn Q (next a u)) : StopsIn Q (r.andThen next) := by
  cases r with
  | ok a u => exact hnext a u rfl
  | waits u | ended u => exact h
  | _ => trivial

theorem StopsIn.mono {Q' : State → Prop} {r : Res α} (h : StopsIn Q r) (hQ : ∀ t, Q t → Q' t) : StopsIn Q' r := by
  cases r with
  | waits t => exact hQ t h
  | ended t => exact h
  | _ => trivial

theorem onAccess_stopsIn {access : Except MemStop α} {next : α → Res β}
    (h : ∀ a, access = .ok a → StopsIn Q (next a)) : StopsIn Q (onAccess access s next) := by
  cases access with
  | ok a => exact h a rfl
  | error stop =>
    cases stop with
    | outside f => trivial
    | noValue => rfl

/-! ## Where a command stands while it waits -/

/-- No answer to a SnkWrite is ready (log 2). -/
def SinkSilent (k : Sink) : Prop := k.writes = [] ∧ k.accepting = false

/-- The channel a phase asks has no answer ready; a phase that asks none is never silent. -/
def Silent (s : State) : Phase → Prop
  | .cFill | .cRefill | .dFlag | .dLit | .dMatch => s.src = []
  | .cWrite _ | .cFlush | .dPut _ | .dCopy .. => SinkSilent s.snk
  | .cFinish | .dFinish => s.snk.fin = none
  | _ => False

/-- The operation of a phase gets as far as asking its channel. -/
def Asks (p : ParamSet) (s : State) : Phase → Prop
  | .cFill | .cRefill => s.cp.be < 2 * p.n
  | .cWrite _ => 8 ≤ s.bw.cnt
  | .cFlush => 0 < s.bw.cnt
  | .dFlag => s.br.cnt < 1
  | .dLit => s.br.cnt < 8
  | .dMatch => (1 ≤ p.ei + p.ej ∧ p.ei + p.ej ≤ 24) ∧ s.br.cnt < p.ei + p.ej
  | .dCopy offset len k => k < len ∧ ∃ c, winRead s ((offset + k) &&& p.mask) = .ok c
  | _ => True

/-- The command is in a phase whose channel it asks in vain. -/
def Stands (p : ParamSet) (s : State) : Prop := ∃ phase, s.seq = .busy phase ∧ Silent s phase ∧ Asks p s phase

/-! ## The writer -/

/-- EMIT keeps SEQ, and waits only for a sink that is `quiet`. -/
structure StopsWhere (emit : Byte → State → Res Unit) (quiet : Sink → Prop) : Prop where
  keeps : ∀ b u v, emit b u = .ok () v → v.seq = u.seq
  stops : ∀ b u, StopsIn (fun v => v = u ∧ quiet u.snk) (emit b u)

theorem emitSink_stopsWhere : StopsWhere emitSink SinkSilent where
  keeps b u v hv := by
    obtain ⟨w, hr, hw⟩ | ⟨hr, -⟩ | ⟨e, w, hr, -⟩ := emitSink_cases b u <;> cases hr.symm.trans hv
    rw [(snkWrite_got hw).1]
  stops b u := by
    obtain ⟨w, hr, -⟩ | ⟨hr, hw⟩ | ⟨e, w, hr, -⟩ := emitSink_cases b u <;> rw [hr]
    · trivial
    · exact ⟨rfl, snkWrite_waits.mp hw⟩
    · rfl

/-- EMIT into IO never waits (R131). -/
theorem emitIo_stopsWhere : StopsWhere emitIo fun _ => False where
  keeps b u v hv := by
    obtain hin | hout := Nat.lt_or_ge u.ip.out u.ip.len
    · cases (emitIo_ok b hin).symm.trans hv
      rfl
    · cases (emitIo_outside b hout).symm.trans hv
  stops b u := by
    obtain hin | hout := Nat.lt_or_ge u.ip.out u.ip.len
    · rw [emitIo_ok b hin]
      trivial
    · rw [emitIo_outside b hout]
      trivial

theorem drainBits_stopsIn (hemit : StopsWhere emit quiet) (fuel : Nat) (s : State) :
    StopsIn (fun t => t.seq = s.seq ∧ 8 ≤ t.bw.cnt ∧ quiet t.snk) (drainBits emit fuel s) := by
  induction fuel generalizing s with
  | zero => trivial
  | succ fuel ih =>
    obtain hcnt | hcnt := Nat.lt_or_ge s.bw.cnt 8
    · rw [drainBits_of_lt hcnt]
      trivial
    · rw [drainBits_of_le hcnt rfl]
      have hstops := hemit.stops (topByte s.bw) { s with bw := dropBits 8 s.bw }
      cases hr : emit (topByte s.bw) { s with bw := dropBits 8 s.bw } with
      | ok a u =>
        have hseq : u.seq = s.seq := hemit.keeps _ { s with bw := dropBits 8 s.bw } u hr
        exact (ih u).mono fun t ⟨ht, hrest⟩ => ⟨ht.trans hseq, hrest⟩
      | waits u =>
        exact ⟨rfl, hcnt, (hstops.of_eq hr).2⟩
      | ended u => exact hstops.ended hr
      | _ => trivial

theorem flushBits_stopsIn (hemit : StopsWhere emit quiet) (s : State) :
    StopsIn (fun t => t = s ∧ 0 < s.bw.cnt ∧ quiet s.snk) (flushBits emit s) := by
  obtain hcnt | hcnt := Nat.eq_zero_or_pos s.bw.cnt
  · rw [flushBits_of_none hcnt]
    trivial
  · have hstops := hemit.stops (flushByte s.bw) { s with bw := { s.bw with cnt := 0 } }
    rw [flushBits, if_pos hcnt]
    unfold flushByte at hstops
    generalize emit _ _ = r at hstops ⊢
    cases r with
    | waits u => exact ⟨rfl, hcnt, hstops.2⟩
    | ended u => exact hstops
    | _ => trivial

/-- A token's fields wait in the phase of the fields still to be pushed, with a whole byte pending. -/
theorem writeFields_stopsIn {fieldsPhase : List Field → Phase} (hemit : StopsWhere emit quiet) {fs : List Field}
    (hseq : s.seq = .busy (fieldsPhase fs)) :
    StopsIn (fun t => (∃ rest, t.seq = .busy (fieldsPhase rest)) ∧ 8 ≤ t.bw.cnt ∧ quiet t.snk)
      (writeFields emit fieldsPhase fs s) := by
  refine ((drainBits_stopsIn hemit s.bw.cnt s).mono fun t ⟨ht, hrest⟩ => ⟨⟨fs, ht.trans hseq⟩, hrest⟩).andThen
    fun _ u _ => ?_
  cases fs with
  | nil => trivial
  | cons f rest =>
    refine StopsIn.andThen ?_ fun _ _ _ => trivial
    rw [writeBits]
    split
    · exact (drainBits_stopsIn hemit _ _).mono fun t ⟨ht, hrest⟩ => ⟨⟨rest, ht⟩, hrest⟩
    · trivial

/-! ## The reader -/

theorem fillBits_stopsIn (len fuel : Nat) (s : State) :
    StopsIn (fun t => t.seq = s.seq ∧ t.br.cnt < len ∧ t.src = []) (fillBits len fuel s) := by
  induction fuel generalizing s with
  | zero => trivial
  | succ fuel ih =>
    rw [fillBits]
    split
    · rename_i hcnt
      cases hread : srcRead s with
      | waits =>
        exact ⟨rfl, hcnt, srcRead_waits.mp hread⟩
      | got a u =>
        rw [(srcRead_got hread).1]
        cases a with
        | byte b => exact ih _
        | endOfData => trivial
        | err e => rfl
    · trivial

theorem readBits_stopsIn (len : Nat) (s : State) :
    StopsIn (fun t => (1 ≤ len ∧ len ≤ 24) ∧ t.seq = s.seq ∧ t.br.cnt < len ∧ t.src = []) (readBits len s) := by
  rw [readBits]
  split
  · rename_i hlen
    refine ((fillBits_stopsIn len len s).mono fun t ht => ⟨hlen, ht⟩).andThen fun enough u _ => ?_
    cases enough <;> trivial
  · trivial

/-- A fetch waits in the phase of the bits it lacks (R185). -/
theorem fetchPayload_stopsIn {flag : Nat} (hseq : s.seq = .busy (payloadPhase flag)) :
    StopsIn (Stands p) (fetchPayload p flag s) := by
  refine ((readBits_stopsIn _ s).mono fun t ⟨hlen, ht, hcnt, hsrc⟩ => ?_).andThen fun _ _ _ => trivial
  refine ⟨payloadPhase flag, ht.trans hseq, ?_⟩
  unfold payloadPhase payloadWidth at *
  split
  · rename_i hflag
    rw [if_pos hflag] at hcnt
    exact ⟨hsrc, hcnt⟩
  · rename_i hflag
    rw [if_neg hflag] at hcnt hlen
    exact ⟨hsrc, hlen, hcnt⟩

theorem fetchToken_stopsIn (htoken : s.atToken = true) : StopsIn (Stands p) (fetchToken p s) := by
  obtain hseq | hseq | hseq := atToken_iff.mp htoken <;> rw [fetchToken]
  · rw [if_neg (by simp [hseq]), if_neg (by simp [hseq])]
    refine StopsIn.andThen (Q := Stands p) ((readBits_stopsIn 1 s).mono ?_) fun flag u _ => ?_
    · exact fun t ⟨_, ht, hcnt, hsrc⟩ => ⟨.dFlag, ht.trans hseq, hsrc, hcnt⟩
    · cases flag with
      | none => trivial
      | some v => exact fetchPayload_stopsIn rfl
  · rw [if_pos hseq]
    exact fetchPayload_stopsIn (flag := 1) hseq
  · rw [if_neg (by simp [hseq]), if_pos hseq]
    exact fetchPayload_stopsIn (flag := 0) hseq

/-! ## LIT and MATCH -/

/-- PUT waits before it stores its byte (R161). -/
theorem putByte_stopsIn (b : Byte) (s : State) : StopsIn (fun t => t = s ∧ SinkSilent s.snk) (putByte p b s) :=
  StopsIn.andThen (emitSink_stopsWhere.stops b s) fun _ _ _ => onAccess_stopsIn fun _ _ => trivial

theorem litOp_stopsIn (b : Byte) (s : State) : StopsIn (Stands p) (litOp p b s) := by
  have hput := putByte_stopsIn (p := p) b s
  rw [litOp]
  generalize putByte p b s = r at hput ⊢
  cases r with
  | waits u =>
    obtain ⟨rfl, hsilent⟩ := hput
    exact ⟨.dPut b, rfl, hsilent, trivial⟩
  | ended u => exact hput
  | _ => trivial

theorem copyLoop_stopsIn (offset len left k : Nat) (s : State) (hleft : left = len - k) :
    StopsIn (Stands p) (copyLoop p offset len left k s) := by
  induction left generalizing k s with
  | zero => trivial
  | succ left ih =>
    rw [copyLoop]
    refine onAccess_stopsIn fun c hc => ?_
    have hput := putByte_stopsIn (p := p) c s
    generalize putByte p c s = r at hput ⊢
    cases r with
    | ok a u => exact ih (k + 1) u (by omega)
    | waits u =>
      obtain ⟨rfl, hsilent⟩ := hput
      exact ⟨.dCopy offset len k, rfl, hsilent, by omega, c, hc⟩
    | ended u => exact hput
    | _ => trivial

theorem decodeTokenOp_stopsIn (htoken : s.atToken = true) : StopsIn (Stands p) (decodeTokenOp p s) := by
  refine (fetchToken_stopsIn htoken).andThen fun i u _ => ?_
  rcases i with _ | i
  · trivial
  · cases i with
    | lit b => exact litOp_stopsIn b u
    | matchTok offset len => exact copyLoop_stopsIn offset len len 0 u rfl
    | _ => trivial

/-! ## Every phase -/

theorem fillOp_stopsIn (hseq : s.seq = .busy phase) (hfill : phase = .cFill ∨ phase = .cRefill) :
    StopsIn (Stands p) (fillOp p s) := by
  rw [fillOp]
  split
  · rename_i hroom
    cases hread : srcRead s with
    | waits =>
      have hsrc := srcRead_waits.mp hread
      obtain rfl | rfl := hfill <;> exact ⟨_, hseq, hsrc, hroom⟩
    | got a u =>
      cases a with
      | byte b => exact onAccess_stopsIn fun _ _ => trivial
      | endOfData => trivial
      | err e => rfl
  · trivial

theorem finishOp_silent (hfin : s.snk.fin = none) : finishOp s = .waits s := by
  simp [finishOp, snkFinish, hfin]

theorem finishOp_err {e : ErrW} (hfin : s.snk.fin = some (.err e)) :
    finishOp s =
      .ended
        (endCommand (.writeError e)
          { s with
            snk := { writes := [], accepting := false, fin := none }
            history := .snkFinish (.err e) :: s.history }) := by
  simp [finishOp, snkFinish, hfin]

theorem finishOp_stopsIn (s : State) : StopsIn (fun t => t = s ∧ s.snk.fin = none) (finishOp s) := by
  rcases hfin : s.snk.fin with _ | ⟨o⟩ | ⟨e⟩
  · rw [finishOp_silent hfin]
    exact ⟨rfl, rfl⟩
  · rw [finishOp_ok hfin]
    rfl
  · rw [finishOp_err hfin]
    rfl

/-- An operation that waits leaves the command asking in vain; one that ends the command leaves none running. -/
theorem phaseOp_stopsIn (hseq : s.seq = .busy phase) : StopsIn (Stands p) (phaseOp p phase s) := by
  cases phase with
  | vCheck c =>
    show (validateOp c s).isBusy = false
    unfold validateOp
    split <;> rfl
  | cInit =>
    rw [phaseOp, compressInit]
    split
    · rfl
    · trivial
  | cFill => exact fillOp_stopsIn hseq (.inl rfl)
  | cRefill => exact fillOp_stopsIn hseq (.inr rfl)
  | cSearch =>
    rw [phaseOp, compressSearch]
    split
    · exact onAccess_stopsIn fun _ _ => trivial
    · trivial
  | cEmit =>
    rw [phaseOp, compressEmit]
    split
    · exact onAccess_stopsIn fun _ _ => trivial
    · trivial
  | cWrite fs =>
    refine ((writeFields_stopsIn (fieldsPhase := .cWrite) emitSink_stopsWhere hseq).mono ?_).andThen
      fun written u _ => ?_
    · exact fun t ⟨⟨rest, ht⟩, hcnt, hsilent⟩ => ⟨.cWrite rest, ht, hsilent, hcnt⟩
    · cases written <;> trivial
  | cCompact =>
    rw [phaseOp, compactOp]
    split <;> trivial
  | cFlush =>
    refine ((flushBits_stopsIn emitSink_stopsWhere s).mono ?_).andThen fun _ _ _ => trivial
    rintro t ⟨rfl, hcnt, hsilent⟩
    exact ⟨.cFlush, hseq, hsilent, hcnt⟩
  | cFinish =>
    refine (finishOp_stopsIn s).mono ?_
    rintro t ⟨rfl, hfin⟩
    exact ⟨.cFinish, hseq, hfin, trivial⟩
  | dInit =>
    rw [phaseOp, decompressInit]
    split
    · rfl
    · trivial
  | dFlag | dLit | dMatch => exact decodeTokenOp_stopsIn (atToken_iff.mpr (by simp [hseq]))
  | dPut b => exact litOp_stopsIn b s
  | dCopy offset len k => exact copyLoop_stopsIn offset len (len - k) k s rfl
  | dFinish =>
    refine (finishOp_stopsIn s).mono ?_
    rintro t ⟨rfl, hfin⟩
    exact ⟨.dFinish, hseq, hfin, trivial⟩
  | ipCheck =>
    rw [phaseOp, inPlaceCheck]
    split
    · rfl
    · split
      · rfl
      · trivial
  | ipSeed k =>
    rw [phaseOp, inPlaceSeed]
    split
    · exact onAccess_stopsIn fun _ _ => trivial
    · trivial
  | ipSearch =>
    rw [phaseOp, inPlaceSearch]
    split
    · exact onAccess_stopsIn fun _ _ => trivial
    · trivial
  | ipEmit =>
    rw [phaseOp, inPlaceEmit]
    split
    · exact onAccess_stopsIn fun _ _ => trivial
    · trivial
  | ipWrite fs =>
    refine ((writeFields_stopsIn (fieldsPhase := .ipWrite) emitIo_stopsWhere hseq).mono ?_).andThen
      fun written u _ => ?_
    · exact fun _ ⟨_, _, hquiet⟩ => hquiet.elim
    · cases written <;> trivial
  | ipGate =>
    rw [phaseOp, inPlaceGate]
    split <;> trivial
  | ipFlush gated =>
    exact ((flushBits_stopsIn emitIo_stopsWhere s).mono fun _ ⟨_, _, hquiet⟩ => hquiet.elim).andThen
      fun _ _ _ => rfl

/-! ## Asking in vain, again -/

theorem drainBits_silent (hcnt : 8 ≤ s.bw.cnt) (hsilent : SinkSilent s.snk) :
    drainBits emitSink s.bw.cnt s = .waits s := by
  obtain ⟨fuel, hfuel⟩ := Nat.exists_eq_add_of_le' (Nat.one_le_of_lt hcnt)
  obtain ⟨hwrites, hacc⟩ := hsilent
  rw [hfuel, drainBits_of_le hcnt (emitSink_silent _ hwrites hacc)]
  rfl

theorem readBits_silent {len : Nat} (hlen : 1 ≤ len ∧ len ≤ 24) (hcnt : s.br.cnt < len) (hsrc : s.src = []) :
    readBits len s = .waits s := by
  obtain ⟨fuel, hfuel⟩ := Nat.exists_eq_add_of_le' hlen.1
  have hfill : fillBits len len s = .waits s := by
    conv => lhs; arg 2; rw [hfuel]
    rw [fillBits, if_pos hcnt, srcRead_waits.mpr hsrc]
  rw [readBits, if_pos (show 1 ≤ len ∧ len ≤ Config.maxField from hlen), hfill]
  rfl

theorem fetchPayload_silent {flag : Nat} (hlen : 1 ≤ payloadWidth p flag ∧ payloadWidth p flag ≤ 24)
    (hcnt : s.br.cnt < payloadWidth p flag) (hsrc : s.src = []) : fetchPayload p flag s = .waits s := by
  rw [fetchPayload, readBits_silent hlen hcnt hsrc]
  rfl

theorem putByte_silent (b : Byte) (hsilent : SinkSilent s.snk) : putByte p b s = .waits s := by
  obtain ⟨hwrites, hacc⟩ := hsilent
  rw [putByte, emitSink_silent b hwrites hacc]
  rfl

theorem fillOp_silent (hroom : s.cp.be < 2 * p.n) (hsrc : s.src = []) : fillOp p s = .waits s := by
  rw [fillOp, if_pos hroom, srcRead_waits.mpr hsrc]

/-- A command that asks in vain waits, and changes nothing. -/
theorem phaseOp_silent (hseq : s.seq = .busy phase) (hsilent : Silent s phase) (hasks : Asks p s phase) :
    phaseOp p phase s = .waits s := by
  have hsame : ∀ {u : State}, u = { s with seq := .busy phase } → u = s := fun hu => by rw [hu, ← hseq]
  cases phase with
  | cFill | cRefill => exact fillOp_silent hasks hsilent
  | cWrite fs =>
    rw [phaseOp, compressWrite, writeFields, drainBits_silent hasks hsilent]
    rfl
  | cFlush =>
    obtain ⟨hwrites, hacc⟩ := hsilent
    have hpending : 0 < s.bw.cnt := hasks
    rw [phaseOp, compressFlush, flushBits_of_pos hpending (emitSink_silent _ hwrites hacc)]
    rfl
  | cFinish | dFinish => exact finishOp_silent hsilent
  | dFlag =>
    rw [phaseOp, decodeTokenOp, fetchToken, if_neg (by simp [hseq]), if_neg (by simp [hseq]),
      readBits_silent (by decide) hasks hsilent]
    rfl
  | dLit =>
    rw [phaseOp, decodeTokenOp, fetchToken, if_pos hseq,
      fetchPayload_silent (flag := 1) ⟨(by decide : 1 ≤ 8), (by decide : 8 ≤ 24)⟩ hasks hsilent]
    rfl
  | dMatch =>
    obtain ⟨hlen, hcnt⟩ := hasks
    rw [phaseOp, decodeTokenOp, fetchToken, if_neg (by simp [hseq]), if_pos hseq,
      fetchPayload_silent (flag := 0) hlen hcnt hsilent]
    rfl
  | dPut b =>
    rw [phaseOp, litOp, putByte_silent b hsilent]
    exact congrArg Res.waits (hsame rfl)
  | dCopy offset len k =>
    obtain ⟨hk, c, hc⟩ := hasks
    obtain ⟨left, hleft⟩ : ∃ left, len - k = left + 1 := ⟨len - k - 1, by omega⟩
    rw [phaseOp, hleft, copyLoop, hc, onAccess_ok, putByte_silent c hsilent]
    exact congrArg Res.waits (hsame rfl)
  | _ => exact hsilent.elim

/-! ## The statement -/

/-- What `phaseOp_stopsIn` says of a phase's operation holds of the core's, PS being there after a wait. -/
theorem coreOp_stopsIn (hseq : s.seq = .busy phase) :
    StopsIn (fun t => ∃ p, t.ps = some p ∧ Stands p t) (coreOp phase s) := by
  by_cases hv : ∃ c, phase = .vCheck c
  · obtain ⟨c, rfl⟩ := hv
    exact phaseOp_stopsIn (p := tableParams) hseq
  · have hv : ∀ c, phase ≠ .vCheck c := fun c hc => hv ⟨c, hc⟩
    cases hps : s.ps with
    | none =>
      rw [coreOp_none hps hv]
      trivial
    | some p =>
      have hcarried := carried_coreOp s hv
      have hstops := phaseOp_stopsIn (p := p) hseq
      rw [coreOp_some hps] at hcarried ⊢
      generalize phaseOp p phase s = r at hcarried hstops ⊢
      cases r with
      | waits t => exact ⟨p, hcarried.ps.trans hps, hstops⟩
      | ended t => exact hstops
      | _ => trivial

/-- Settles O21: the command stands where its channel is asked in vain, and asked again there it waits. -/
theorem waitingKeepsEveryState : Obligations.WaitingKeepsEveryState := by
  intro s t phase hseq hop
  obtain ⟨p, hps, phase', hseq', hsilent, hasks⟩ := (coreOp_stopsIn hseq).of_eq hop
  have hagain : coreOp phase' t = .waits t := (coreOp_some hps).trans (phaseOp_silent hseq' hsilent hasks)
  refine ⟨phase', hseq', hagain, fun hscript => ?_⟩
  rw [step, hscript]
  exact (runCore_busy t.quantum hseq').trans (by rw [hagain])

end Sys2Proof.Proofs

/-! The work a running command has left: every operation lessens it, or waits and changes nothing (R281, R283). -/

namespace Sys2Proof.Proofs

open Sys2Proof Sys2Proof.Machine

variable {p : ParamSet} {s t u : State} {phase : Phase} {emit : Byte → State → Res Unit}

/-! ## The measure -/

/-- The source's answer is a byte. -/
def isByte : SrcAnswer → Bool
  | .byte _ => true
  | _ => false

/-- The bytes the source still has ready. -/
def bytesLeft (s : State) : Nat := s.src.countP isByte

/-- The bits buffered in the reader or still at the source. -/
def bitsLeft (s : State) : Nat := s.br.cnt + 8 * bytesLeft s

/-- COMPRESS: a token takes at least a byte of the window or the source, which outweighs the phases of the next token;
a byte read moves from the source to the window. -/
def compressWork (s : State) (more : Nat) : Nat :=
  100 * (s.cp.be - s.cp.r + bytesLeft s) + bytesLeft s + more

/-- DECOMPRESS: a token takes at least 8 bits, which outweigh the bytes it puts; a byte read moves from the source to
the reader. -/
def decompressWork (s : State) (more : Nat) : Nat := 4096 * bitsLeft s + bytesLeft s + more

/-- COMPRESS_IN_PLACE: a token takes at least a byte of IO. -/
def inPlaceWork (s : State) (more : Nat) : Nat := 100 * (s.ip.len - s.ip.r) + more

/-- The work left in a phase. A field to come outweighs the bits it adds to those pending. -/
def phaseWork (s : State) : Phase → Nat
  | .vCheck _ => 1
  | .cInit => 101 * bytesLeft s + 87
  | .cFill | .cRefill => compressWork s 85
  | .cSearch => compressWork s 84
  | .cEmit => compressWork s 83
  | .cWrite fs => compressWork s (32 * fs.length + s.bw.cnt + 3)
  | .cCompact => compressWork s 86
  | .cFlush => s.bw.cnt + 2
  | .cFinish => 1
  | .dInit => 4096 * (8 * bytesLeft s) + bytesLeft s + 3
  | .dFlag | .dLit | .dMatch => decompressWork s 2
  | .dPut _ => decompressWork s 3
  | .dCopy _ len k => decompressWork s (len - k + 3)
  | .dFinish => 1
  | .ipCheck => 100 * s.ip.len + 87
  | .ipSeed k => 100 * (s.ip.len - s.ip.off) + (s.ip.off - k) + 86
  | .ipSearch => inPlaceWork s 84
  | .ipEmit => inPlaceWork s 83
  | .ipWrite fs => inPlaceWork s (32 * fs.length + s.bw.cnt + 3)
  | .ipGate => inPlaceWork s 85
  | .ipFlush _ => 1

/-- The work a command has left; none if no command runs. -/
def work (s : State) : Nat :=
  match s.seq with
  | .busy phase => phaseWork s phase
  | _ => 0

theorem work_of_busy (h : s.seq = .busy phase) : work s = phaseWork s phase := by rw [work, h]

theorem work_pos (h : s.seq = .busy phase) : 0 < work s := by
  rw [work_of_busy h]
  cases phase <;> simp [phaseWork, compressWork, decompressWork, inPlaceWork]

@[simp] theorem work_endCommand (e : Ending) (s : State) : work (endCommand e s) = 0 := by
  cases e <;> rfl

/-- The work depends on the pointers, the bit counts and the bytes at the source. -/
theorem work_congr (hseq : t.seq = s.seq) (hcp : t.cp = s.cp) (hbw : t.bw = s.bw) (hbr : t.br = s.br)
    (hip : t.ip = s.ip) (hbytes : bytesLeft t = bytesLeft s) : work t = work s := by
  have hphase : phaseWork t = phaseWork s := by
    funext phase
    cases phase <;>
      simp only [phaseWork, compressWork, decompressWork, inPlaceWork, bitsLeft, hcp, hbw, hbr, hip, hbytes]
  rw [work, work, hseq, hphase]

/-- The operation lessens the work, or waits and changes nothing. -/
abbrev Progress (s : State) (r : Res Unit) : Prop :=
  Meets (fun _ t => work t < work s) (fun t => t = s ∨ work t < work s) True r

theorem work_lt (hs : s.seq = .busy phase) {phase' : Phase} (ht : t.seq = .busy phase')
    (h : phaseWork t phase' < phaseWork s phase) : work t < work s := by
  rwa [work_of_busy hs, work_of_busy ht]

theorem work_endCommand_lt (hs : s.seq = .busy phase) (e : Ending) (t : State) : work (endCommand e t) < work s := by
  rw [work_endCommand]
  exact work_pos hs

theorem bytesLeft_of_srcRead {a : SrcAnswer} (h : srcRead s = .got a t) :
    bytesLeft s = bytesLeft t + (isByte a).toNat := by
  obtain hs | ⟨rfl, -, ht⟩ := (srcRead_got h).2
  · rw [bytesLeft, hs, List.countP_cons]
    cases a <;> rfl
  · rw [bytesLeft, bytesLeft, ht]
    rfl

/-! ## The writer -/

/-- What a write leaves of the input and the search: all of it. -/
structure SameInput (s t : State) : Prop where
  cp : t.cp = s.cp
  sr : t.sr = s.sr
  src : t.src = s.src
  len : t.ip.len = s.ip.len
  r : t.ip.r = s.ip.r

/-- `s` after EMIT has taken some of the pending bits, if any. -/
structure Emitted (s t : State) : Prop where
  seq : t.seq = s.seq
  input : SameInput s t
  bits : t = s ∨ t.bw.cnt < s.bw.cnt

theorem Emitted.refl (s : State) : Emitted s s := ⟨rfl, ⟨rfl, rfl, rfl, rfl, rfl⟩, .inl rfl⟩

theorem Emitted.cnt_le (h : Emitted s t) : t.bw.cnt ≤ s.bw.cnt := by
  obtain rfl | h := h.bits
  · exact le_rfl
  · exact h.le

/-- EMIT leaves the input, and waits with nothing changed. -/
abbrev EmitsOnly (emit : Byte → State → Res Unit) : Prop :=
  ∀ b s, Meets (fun _ t => t.seq = s.seq ∧ t.bw = s.bw ∧ SameInput s t) (fun t => t = s ∨ work t = 0) True (emit b s)

theorem emitSink_emitsOnly : EmitsOnly emitSink := fun b s =>
  emitSink_meets b s (fun _ _ => ⟨rfl, rfl, rfl, rfl, rfl, rfl, rfl⟩) (.inl rfl) fun _ _ _ => .inr (work_endCommand _ _)

theorem emitIo_emitsOnly : EmitsOnly emitIo := fun b s =>
  emitIo_meets b s (fun _ => ⟨rfl, rfl, rfl, rfl, rfl, rfl, rfl⟩) fun _ => trivial

theorem drainBits_emitted (hemit : EmitsOnly emit) (fuel : Nat) (s : State) (hfuel : s.bw.cnt ≤ fuel) :
    Meets (fun _ => Emitted s) (fun t => Emitted s t ∨ work t = 0) True (drainBits emit fuel s) := by
  refine (drainBits_meets (I := Emitted s) (fun b u hu hcnt => ?_) (fun _ => .inl) fuel s (.refl s) hfuel).mono
    (fun _ _ ht => ht.1) fun _ ht => ht
  have hle := hu.cnt_le
  have hless : Emitted s { u with bw := { u.bw with cnt := u.bw.cnt - 8 } } :=
    ⟨hu.seq, ⟨hu.input.cp, hu.input.sr, hu.input.src, hu.input.len, hu.input.r⟩, .inr (by dsimp only; omega)⟩
  refine (hemit b _).mono (fun _ t ⟨hseq, hbw, hinput⟩ => ⟨⟨hseq.trans hu.seq, ?_, .inr ?_⟩, by rw [hbw]⟩) ?_
  · exact ⟨hinput.cp.trans hu.input.cp, hinput.sr.trans hu.input.sr, hinput.src.trans hu.input.src,
      hinput.len.trans hu.input.len, hinput.r.trans hu.input.r⟩
  · rw [hbw]
    dsimp only
    omega
  · rintro t (rfl | ht)
    · exact .inl hless
    · exact .inr ht

/-- A turn at a token's fields writes a field, or leaves only the token's advance; `base` is the work its phase weighs
the input with. -/
theorem writeFields_progress {fieldsPhase : List Field → Phase} {base : State → Nat} {fs : List Field}
    (hemit : EmitsOnly emit)
    (hbase : ∀ u gs, phaseWork u (fieldsPhase gs) = base u + (32 * gs.length + u.bw.cnt + 3))
    (hinput : ∀ u v, SameInput u v → base v = base u) (hseq : s.seq = .busy (fieldsPhase fs)) :
    Meets (fun written t => if written then SameInput s t else work t < work s)
      (fun t => t = s ∨ work t < work s) True (writeFields emit fieldsPhase fs s) := by
  have hpos := work_pos hseq
  have hwork : ∀ {u : State} {gs : List Field}, u.seq = .busy (fieldsPhase gs) → SameInput s u →
      32 * gs.length + u.bw.cnt < 32 * fs.length + s.bw.cnt → work u < work s := by
    intro u gs hu hsame hlt
    refine work_lt hseq hu ?_
    rw [hbase, hbase, hinput s u hsame]
    omega
  have hdrained := (drainBits_emitted hemit s.bw.cnt s le_rfl).mono (stop' := fun t => t = s ∨ work t < work s)
    (fun _ _ ht => ht) (by
      rintro t (ht | ht)
      · exact ht.bits.imp_right fun hlt => hwork (ht.seq.trans hseq) ht.input (by omega)
      · exact .inr (by omega))
  refine hdrained.andThen fun _ u hu => ?_
  cases fs with
  | nil => exact hu.input
  | cons f rest =>
    have hle := hu.cnt_le
    have hwrite : Meets (fun _ t => work t < work s) (fun t => t = s ∨ work t < work s) True
        (writeBits emit f { u with seq := .busy (fieldsPhase rest) }) := by
      rw [writeBits]
      split
      · rename_i hf
        have hwidth := width_le_of_ok hf
        have hafter : ∀ {t : State},
            Emitted { u with seq := .busy (fieldsPhase rest), bw := pushBits f u.bw } t → work t < work s := by
          intro t ht
          have hcnt : t.bw.cnt ≤ u.bw.cnt + f.width := ht.cnt_le
          refine hwork ht.seq ?_ (by rw [List.length_cons]; omega)
          exact ⟨ht.input.cp.trans hu.input.cp, ht.input.sr.trans hu.input.sr, ht.input.src.trans hu.input.src,
            ht.input.len.trans hu.input.len, ht.input.r.trans hu.input.r⟩
        refine (drainBits_emitted hemit _ _ le_rfl).mono (fun _ t ht => hafter ht) ?_
        rintro t (ht | ht)
        · exact .inr (hafter ht)
        · exact .inr (by omega)
      · trivial
    exact hwrite.andThen fun _ _ ht => ht

/-! ## COMPRESS (R222) -/

theorem work_fill (hfill : phase = .cFill ∨ phase = .cRefill) (hseq : t.seq = .busy phase) :
    work t = compressWork t 85 := by
  rw [work_of_busy hseq]
  obtain rfl | rfl := hfill <;> rfl

theorem fillOp_progress (hfill : phase = .cFill ∨ phase = .cRefill) (h : Running p phase s) :
    Progress s (fillOp p s) := by
  obtain ⟨hseq, -, -, hinv, -⟩ := h
  have hle : s.cp.r ≤ s.cp.be := by
    obtain rfl | rfl := hfill <;> obtain ⟨⟨-, -, hrbe, -⟩, -⟩ := hinv <;> exact hrbe
  have hwork := work_fill hfill hseq
  have hsearch : ∀ {u : State}, u.cp = s.cp → bytesLeft u = bytesLeft s →
      work { u with seq := .busy .cSearch } < work s := by
    intro u hcp hbytes
    rw [hwork]
    show compressWork u 84 < _
    rw [compressWork, compressWork, hcp, hbytes]
    omega
  rw [fillOp]
  split
  · cases hread : srcRead s with
    | waits => exact .inl rfl
    | got a u =>
      have hbytes := bytesLeft_of_srcRead hread
      have hu := (srcRead_got hread).1
      have hcp : u.cp = s.cp := by rw [hu]
      have huseq : u.seq = .busy phase := by rw [hu]; exact hseq
      cases a with
      | byte b =>
        have hbyte : bytesLeft s = bytesLeft u + 1 := hbytes
        have hstored : ∀ win, work { u with win := win, cp := { u.cp with be := u.cp.be + 1 } } < work s := by
          intro win
          refine Eq.trans_lt (work_fill hfill huseq) ?_
          show 100 * (u.cp.be + 1 - u.cp.r + bytesLeft u) + bytesLeft u + 85 < _
          rw [hwork, compressWork, hcp, hbyte]
          omega
        refine onAccess_meets (fun v hv => ?_) (fun _ => .inr (work_endCommand_lt hseq _ _)) fun _ _ => trivial
        rw [(winWrite_ok.mp hv).2]
        exact hstored _
      | endOfData => exact hsearch hcp hbytes.symm
      | err e => exact .inr (work_endCommand_lt hseq _ _)
  · exact hsearch rfl rfl

theorem compressInit_progress (hseq : s.seq = .busy .cInit) : Progress s (compressInit p s) := by
  rw [compressInit]
  split
  · exact .inr (work_endCommand_lt hseq _ _)
  · refine work_lt hseq (phase' := .cFill) rfl ?_
    show 100 * (p.dict - p.dict + bytesLeft s) + bytesLeft s + 85 < 101 * bytesLeft s + 87
    omega

theorem compressSearch_progress (h : Running p .cSearch s) : Progress s (compressSearch p s) := by
  obtain ⟨hseq, -, -, ⟨-, hcnt, -⟩, -⟩ := h
  rw [compressSearch]
  split
  · refine onAccess_meets (fun q _ => ?_) (fun _ => .inr (work_endCommand_lt hseq _ _)) fun _ _ => trivial
    exact work_lt hseq (phase' := .cEmit) rfl (Nat.lt_succ_self _)
  · refine work_lt hseq (phase' := .cFlush) rfl ?_
    show s.bw.cnt + 2 < compressWork s 84
    rw [compressWork]
    omega

theorem compressEmit_progress (h : Running p .cEmit s) : Progress s (compressEmit p s) := by
  obtain ⟨hseq, -, -, ⟨-, hcnt, -⟩, -⟩ := h
  have hwrite : ∀ {i : Instr} {sr : SearchRegs}, cmdCode i = none →
      work { s with sr := sr, seq := .busy (.cWrite (encodeFields p i)) } < work s := by
    intro i sr hi
    have hlen := encodeFields_length_le (p := p) hi
    refine work_lt hseq (phase' := .cWrite (encodeFields p i)) rfl ?_
    show compressWork s (32 * (encodeFields p i).length + s.bw.cnt + 3) < compressWork s 83
    rw [compressWork, compressWork]
    omega
  rw [compressEmit]
  split
  · exact onAccess_meets (fun _ _ => hwrite rfl) (fun _ => .inr (work_endCommand_lt hseq _ _)) fun _ _ => trivial
  · exact hwrite (sr := s.sr) rfl

theorem compressWrite_progress {fs : List Field} (h : Running p (.cWrite fs) s) :
    Progress s (compressWrite p fs s) := by
  obtain ⟨hseq, -, -, ⟨-, -, -, hlo, hlen, -⟩, -⟩ := h
  refine (writeFields_progress (fieldsPhase := .cWrite) (base := fun u => compressWork u 0) emitSink_emitsOnly
    (fun u gs => ?_) (fun u v huv => ?_) hseq).andThen fun written t ht => ?_
  · rfl
  · simp only [compressWork, bytesLeft, huv.cp, huv.src]
  · cases written with
    | false => exact ht
    | true =>
      have hnext : ∀ phase', phase' = .cCompact ∨ phase' = .cSearch →
          work { t with cp := { t.cp with r := t.cp.r + t.sr.y, s := t.cp.s + t.sr.y }, seq := .busy phase' } <
            work s := by
        intro phase' hphase
        have hle : phaseWork { t with cp := { t.cp with r := t.cp.r + t.sr.y, s := t.cp.s + t.sr.y } } phase' ≤
            100 * (s.cp.be - (s.cp.r + s.sr.y) + bytesLeft s) + bytesLeft s + 86 := by
          rw [← ht.cp, ← ht.sr, show bytesLeft s = bytesLeft t by rw [bytesLeft, bytesLeft, ht.src]]
          obtain rfl | rfl := hphase
          · exact le_rfl
          · exact Nat.add_le_add_left (by decide) _
        refine work_lt hseq (phase' := phase') rfl (lt_of_le_of_lt hle ?_)
        show _ < compressWork s (32 * fs.length + s.bw.cnt + 3)
        rw [compressWork]
        omega
      refine hnext _ ?_
      split
      · exact .inl rfl
      · exact .inr rfl

theorem compactOp_progress (h : Running p .cCompact s) : Progress s (compactOp p s) := by
  obtain ⟨hseq, -, ⟨hlegal, -⟩, ⟨-, -, hfull⟩, -⟩ := h
  have hlt := ParamSet.f_lt_n hlegal
  rw [compactOp]
  split
  · trivial
  · refine work_lt hseq (phase' := .cRefill) rfl ?_
    show 100 * (s.cp.be - p.n - (s.cp.r - p.n) + bytesLeft s) + bytesLeft s + 85 < compressWork s 86
    rw [compressWork]
    omega

theorem compressFlush_progress (hseq : s.seq = .busy .cFlush) : Progress s (compressFlush s) := by
  have hwork := work_of_busy hseq
  refine Meets.andThen (done := fun _ t => True) (flushBits_meets (fun _ => trivial) (.inl rfl) fun b hcnt => ?_)
    fun _ t _ => ?_
  · refine (emitSink_emitsOnly b _).mono (fun _ _ _ => trivial) ?_
    rintro t (rfl | ht)
    · refine .inr (work_lt hseq (phase' := .cFlush) hseq ?_)
      show 0 + 2 < s.bw.cnt + 2
      omega
    · exact .inr (ht ▸ work_pos hseq)
  · refine work_lt hseq (phase' := .cFinish) rfl ?_
    show 1 < s.bw.cnt + 2
    omega

theorem finishOp_progress (hseq : s.seq = .busy phase) : Progress s (finishOp s) := by
  rw [finishOp]
  cases snkFinish s with
  | waits => exact .inl rfl
  | got a t => cases a <;> exact .inr (work_endCommand_lt hseq _ _)

/-! ## DECOMPRESS (R223) -/

/-- `s` after SrcRead has moved some bytes of the source to the reader. -/
structure Read (s t : State) : Prop where
  seq : t.seq = s.seq
  bits : bitsLeft t = bitsLeft s
  bytes : bytesLeft t ≤ bytesLeft s

theorem Read.refl (s : State) : Read s s := ⟨rfl, rfl, le_rfl⟩

/-- A read that waits has read a byte, or nothing has changed. -/
def ReadStops (s t : State) : Prop := t = s ∨ (Read s t ∧ bytesLeft t < bytesLeft s) ∨ work t = 0

theorem fillBits_read (len fuel : Nat) (s : State) (hfuel : len ≤ s.br.cnt + fuel) :
    Meets (fun enough t => Read s t ∧ (enough = true → len ≤ t.br.cnt)) (ReadStops s) True (fillBits len fuel s) := by
  induction fuel generalizing s with
  | zero => exact ⟨.refl s, fun _ => hfuel⟩
  | succ fuel ih =>
    rw [fillBits]
    split
    · cases hread : srcRead s with
      | waits => exact .inl rfl
      | got a u =>
        have hbytes := bytesLeft_of_srcRead hread
        have hu := (srcRead_got hread).1
        have hseq : u.seq = s.seq := by rw [hu]
        have hbr : u.br = s.br := by rw [hu]
        cases a with
        | byte b =>
          have hbyte : bytesLeft s = bytesLeft u + 1 := hbytes
          have hmoved : Read s { u with br := pushByte u.br b } := by
            refine ⟨hseq, ?_, ?_⟩
            · show u.br.cnt + 8 + 8 * bytesLeft u = bitsLeft s
              rw [bitsLeft, hbr, hbyte]
              omega
            · show bytesLeft u ≤ _
              omega
          have hless : bytesLeft { u with br := pushByte u.br b } < bytesLeft s := by
            show bytesLeft u < _
            omega
          refine (ih { u with br := pushByte u.br b } (by rw [hbr, pushByte_cnt]; omega)).mono ?_ ?_
          · exact fun enough t ⟨ht, henough⟩ =>
              ⟨⟨ht.seq.trans hmoved.seq, ht.bits.trans hmoved.bits, ht.bytes.trans hmoved.bytes⟩, henough⟩
          · rintro t (rfl | ⟨ht, hlt⟩ | ht)
            · exact .inr (.inl ⟨hmoved, hless⟩)
            · exact .inr (.inl ⟨⟨ht.seq.trans hmoved.seq, ht.bits.trans hmoved.bits, ht.bytes.trans hmoved.bytes⟩,
                hlt.trans hless⟩)
            · exact .inr (.inr ht)
        | endOfData =>
          refine ⟨⟨hseq, ?_, hbytes.ge⟩, nofun⟩
          rw [bitsLeft, bitsLeft, hbr, show bytesLeft s = bytesLeft u from hbytes]
        | err e => exact .inr (.inr (work_endCommand _ _))
    · rename_i hcnt
      exact ⟨.refl s, fun _ => by omega⟩

/-- READ_BITS takes its bits off what is left, or meets the End (R134, R135). -/
theorem readBits_read (len : Nat) (s : State) :
    Meets (fun v t => t.seq = s.seq ∧ bytesLeft t ≤ bytesLeft s ∧ (v ≠ none → bitsLeft t + len = bitsLeft s))
      (ReadStops s) True (readBits len s) := by
  rw [readBits]
  split
  · refine (fillBits_read len len s (by omega)).andThen fun enough t ⟨ht, henough⟩ => ?_
    cases enough with
    | true =>
      refine ⟨ht.seq, ht.bytes, fun _ => ?_⟩
      have hcnt := henough rfl
      rw [← ht.bits]
      show t.br.cnt - len + 8 * bytesLeft t + len = t.br.cnt + 8 * bytesLeft t
      omega
    | false => exact ⟨ht.seq, ht.bytes, fun hne => absurd rfl hne⟩
  · trivial

/-- A match is no longer than F, whatever its length code (R95). -/
theorem len_le_f_of_decodeFields {flag v offset len : Nat} (h : decodeFields p flag v = .matchTok offset len) :
    len ≤ p.f := by
  have hcode : v &&& (2 ^ p.ej - 1) < 2 ^ p.ej := Nat.and_lt_two_pow _ (Nat.sub_lt (Nat.two_pow_pos _) Nat.one_pos)
  unfold decodeFields at h
  split at h
  · cases h
  · cases h
    rw [ParamSet.f]
    omega

/-- A fetched token has taken at least 8 bits. -/
def TookToken (p : ParamSet) (s : State) (i : Option Instr) (t : State) : Prop :=
  i ≠ none → bitsLeft t + 8 ≤ bitsLeft s ∧ bytesLeft t ≤ bytesLeft s ∧
    ∀ offset len, i = some (.matchTok offset len) → len ≤ p.f

theorem work_payload {flag : Nat} (hseq : t.seq = .busy (payloadPhase flag)) : work t = decompressWork t 2 := by
  rw [work_of_busy hseq, payloadPhase]
  split <;> rfl

theorem fetchPayload_progress {idxW flag : Nat} (hlegal : p.Legal idxW) (hseq : s.seq = .busy (payloadPhase flag)) :
    Meets (TookToken p s) (fun t => t = s ∨ work t < work s) True (fetchPayload p flag s) := by
  obtain ⟨hwidth, -⟩ := payloadWidth_range hlegal flag
  refine ((readBits_read (payloadWidth p flag) s).mono (fun _ _ ht => ht) ?_).andThen fun v t ⟨_, hbytes, hbits⟩ => ?_
  · rintro t (rfl | ⟨ht, hlt⟩ | ht)
    · exact .inl rfl
    · refine .inr ?_
      rw [work_payload hseq, work_payload (ht.seq.trans hseq), decompressWork, decompressWork, ht.bits]
      omega
    · exact .inr (ht ▸ work_pos hseq)
  · intro hne
    cases v with
    | none => exact absurd rfl hne
    | some v =>
      have hbits := hbits nofun
      exact ⟨by omega, hbytes, fun offset len hi => len_le_f_of_decodeFields (Option.some.inj hi)⟩

theorem fetchToken_progress {idxW : Nat} (hlegal : p.Legal idxW) (htoken : s.atToken = true) :
    Meets (TookToken p s) (fun t => t = s ∨ work t < work s) True (fetchToken p s) := by
  obtain hseq | hseq | hseq := atToken_iff.mp htoken <;> rw [fetchToken]
  · rw [if_neg (by simp [hseq]), if_neg (by simp [hseq])]
    have hwork : work s = decompressWork s 2 := work_of_busy hseq
    refine ((readBits_read 1 s).mono (fun _ _ ht => ht) ?_).andThen fun v t ⟨_, hbytes, hbits⟩ => ?_
    · rintro t (rfl | ⟨ht, hlt⟩ | ht)
      · exact .inl rfl
      · refine .inr (work_lt hseq (ht.seq.trans hseq) ?_)
        show decompressWork t 2 < decompressWork s 2
        rw [decompressWork, decompressWork, ht.bits]
        omega
      · exact .inr (ht ▸ work_pos hseq)
    · cases v with
      | none => exact fun hne => absurd rfl hne
      | some flag =>
        have hbits : bitsLeft t + 1 = bitsLeft s := hbits nofun
        have hless : work { t with seq := .busy (payloadPhase flag) } < work s := by
          rw [work_payload rfl, hwork]
          show decompressWork t 2 < decompressWork s 2
          rw [decompressWork, decompressWork]
          omega
        refine (fetchPayload_progress (flag := flag) hlegal rfl).mono (fun i u hu hne => ?_) ?_
        · obtain ⟨hb, hy, hlen⟩ := hu hne
          replace hb : bitsLeft u + 8 ≤ bitsLeft t := hb
          exact ⟨by omega, hy.trans hbytes, hlen⟩
        · rintro u (rfl | hu)
          · exact .inr hless
          · exact .inr (hu.trans hless)
  · rw [if_pos hseq]
    exact fetchPayload_progress (flag := 1) hlegal hseq
  · rw [if_neg (by simp [hseq]), if_pos hseq]
    exact fetchPayload_progress (flag := 0) hlegal hseq

/-- PUT moves neither the reader nor the source, waits with nothing changed, ends the command, or finds the cursor
outside WIN. -/
theorem putByte_keepsReader (p : ParamSet) (b : Byte) (s : State) :
    (∃ t, putByte p b s = .ok () t ∧ t.br = s.br ∧ t.src = s.src) ∨ putByte p b s = .waits s ∨
      (∃ e t, putByte p b s = .ended (endCommand e t)) ∨ ∃ f, putByte p b s = .faulted f := by
  rw [putByte]
  obtain ⟨t, hr, hw⟩ | ⟨hr, -⟩ | ⟨e, t, hr, -⟩ := emitSink_cases b s <;> rw [hr]
  · have ht := (snkWrite_got hw).1
    have hkept : t.br = s.br ∧ t.src = s.src := by rw [ht]; exact ⟨rfl, rfl⟩
    rw [Res.andThen_ok, winWrite]
    split
    · exact .inl ⟨_, rfl, hkept⟩
    · exact .inr (.inr (.inr ⟨_, rfl⟩))
  · exact .inr (.inl rfl)
  · exact .inr (.inr (.inl ⟨_, t, rfl⟩))

theorem decompressWork_congr (hbr : t.br = s.br) (hsrc : t.src = s.src) (more : Nat) :
    decompressWork t more = decompressWork s more := by
  rw [decompressWork, decompressWork, bitsLeft, bitsLeft, bytesLeft, bytesLeft, hbr, hsrc]

theorem decompressWork_pos (s : State) (k : Nat) : 0 < decompressWork s (k + 1) := Nat.succ_pos _

/-- LIT does its byte, or waits with the byte in the phase (R186). -/
theorem litOp_work (b : Byte) (s : State) :
    Meets (fun _ t => work t < decompressWork s 3)
      (fun t => t = { s with seq := .busy (.dPut b) } ∨ work t < decompressWork s 3) True (litOp p b s) := by
  obtain ⟨t, hput, hbr, hsrc⟩ | hput | ⟨e, t, hput⟩ | ⟨f, hput⟩ := putByte_keepsReader p b s <;> rw [litOp, hput]
  · show decompressWork t 2 < _
    rw [decompressWork_congr hbr hsrc]
    exact Nat.lt_succ_self _
  · exact .inl rfl
  · refine .inr ?_
    rw [work_endCommand]
    exact decompressWork_pos s 2
  · trivial

/-- A match does its bytes, or waits at one of them with that step in the phase (R187). -/
theorem copyLoop_work (offset len left k : Nat) (s : State) (hleft : left = len - k) :
    Meets (fun _ t => work t < decompressWork s (len - k + 3))
      (fun t => t = { s with seq := .busy (.dCopy offset len k) } ∨ work t < decompressWork s (len - k + 3)) True
      (copyLoop p offset len left k s) := by
  have hpos := decompressWork_pos s (len - k + 2)
  induction left generalizing k s with
  | zero =>
    show decompressWork s 2 < decompressWork s (len - k + 3)
    rw [decompressWork, decompressWork]
    omega
  | succ left ih =>
    rw [copyLoop]
    refine onAccess_meets (fun c _ => ?_) (fun _ => .inr ?_) fun _ _ => trivial
    · obtain ⟨t, hput, hbr, hsrc⟩ | hput | ⟨e, t, hput⟩ | ⟨f, hput⟩ := putByte_keepsReader p c s <;> rw [hput]
      · have hless : decompressWork t (len - (k + 1) + 3) < decompressWork s (len - k + 3) := by
          rw [decompressWork_congr hbr hsrc, decompressWork, decompressWork]
          omega
        refine (ih (k + 1) t (by omega) (decompressWork_pos t _)).mono (fun _ _ hu => hu.trans hless) ?_
        rintro u (rfl | hu)
        · exact .inr hless
        · exact .inr (hu.trans hless)
      · exact .inl rfl
      · exact .inr (by rw [work_endCommand]; exact hpos)
      · trivial
    · rw [work_endCommand]
      exact hpos

theorem decodeTokenOp_progress {idxW : Nat} (hlegal : p.Legal idxW) (htoken : s.atToken = true) :
    Progress s (decodeTokenOp p s) := by
  have hwork : work s = decompressWork s 2 := by
    obtain hseq | hseq | hseq := atToken_iff.mp htoken <;> exact work_of_busy hseq
  refine (fetchToken_progress hlegal htoken).andThen fun i t ht => ?_
  rcases i with _ | i
  · show 1 < _
    rw [hwork]
    exact Nat.lt_of_lt_of_le Nat.one_lt_two (Nat.le_add_left _ _)
  · obtain ⟨hbits, hbytes, hlen⟩ := ht nofun
    have hless : ∀ k, k ≤ p.f + 3 → decompressWork t k < work s := by
      intro k hk
      have hf := (f_range hlegal).2
      rw [hwork, decompressWork, decompressWork]
      omega
    cases i with
    | lit b =>
      have hlit := hless 3 (Nat.le_add_left _ _)
      refine (litOp_work b t).mono (fun _ _ hu => hu.trans hlit) ?_
      rintro u (rfl | hu)
      · exact .inr hlit
      · exact .inr (hu.trans hlit)
    | matchTok offset len =>
      have hmatch := hless (len - 0 + 3) (Nat.add_le_add_right (hlen offset len rfl) 3)
      refine (copyLoop_work offset len len 0 t rfl).mono (fun _ _ hu => hu.trans hmatch) ?_
      rintro u (rfl | hu)
      · exact .inr hmatch
      · exact .inr (hu.trans hmatch)
    | _ => trivial

theorem decompressInit_progress (hseq : s.seq = .busy .dInit) : Progress s (decompressInit p s) := by
  rw [decompressInit]
  split
  · exact .inr (work_endCommand_lt hseq _ _)
  · refine work_lt hseq (phase' := .dFlag) rfl ?_
    show 4096 * (0 + 8 * bytesLeft s) + bytesLeft s + 2 < 4096 * (8 * bytesLeft s) + bytesLeft s + 3
    omega

/-! ## COMPRESS_IN_PLACE (R224) -/

theorem inPlaceCheck_progress (hseq : s.seq = .busy .ipCheck) : Progress s (inPlaceCheck p s) := by
  rw [inPlaceCheck]
  split
  · exact .inr (work_endCommand_lt hseq _ _)
  · split
    · exact .inr (work_endCommand_lt hseq _ _)
    · refine work_lt hseq (phase' := .ipSeed 0) rfl ?_
      show 100 * (s.ip.len - s.ip.off) + (s.ip.off - 0) + 86 < 100 * s.ip.len + 87
      omega

theorem inPlaceSeed_progress {k : Nat} (h : Running p (.ipSeed k) s) : Progress s (inPlaceSeed p k s) := by
  obtain ⟨hseq, -, -, ⟨hmin, -, -⟩, -⟩ := h
  have hgap : p.minOffset = p.dict + p.gap := rfl
  rw [inPlaceSeed]
  split
  · refine onAccess_meets (fun t ht => ?_) (fun _ => .inr (work_endCommand_lt hseq _ _)) fun _ _ => trivial
    rw [(ioWrite_ok.mp ht).2]
    refine work_lt hseq (phase' := .ipSeed (k + 1)) rfl ?_
    show 100 * (s.ip.len - s.ip.off) + (s.ip.off - (k + 1)) + 86 < 100 * (s.ip.len - s.ip.off) + (s.ip.off - k) + 86
    omega
  · refine work_lt hseq (phase' := .ipSearch) rfl ?_
    show 100 * (s.ip.len - s.ip.off) + 84 < 100 * (s.ip.len - s.ip.off) + (s.ip.off - k) + 86
    omega

theorem inPlaceSearch_progress (hseq : s.seq = .busy .ipSearch) : Progress s (inPlaceSearch p s) := by
  rw [inPlaceSearch]
  split
  · refine onAccess_meets (fun q _ => ?_) (fun _ => .inr (work_endCommand_lt hseq _ _)) fun _ _ => trivial
    exact work_lt hseq (phase' := .ipEmit) rfl (Nat.lt_succ_self _)
  · refine work_lt hseq (phase' := .ipFlush false) rfl ?_
    show 1 < 100 * (s.ip.len - s.ip.r) + 84
    omega

theorem inPlaceEmit_progress (h : Running p .ipEmit s) : Progress s (inPlaceEmit p s) := by
  obtain ⟨hseq, -, -, ⟨-, hcnt, -⟩, -⟩ := h
  have hwrite : ∀ {i : Instr} {sr : SearchRegs}, cmdCode i = none →
      work { s with sr := sr, seq := .busy (.ipWrite (encodeFields p i)) } < work s := by
    intro i sr hi
    have hlen := encodeFields_length_le (p := p) hi
    refine work_lt hseq (phase' := .ipWrite (encodeFields p i)) rfl ?_
    show inPlaceWork s (32 * (encodeFields p i).length + s.bw.cnt + 3) < inPlaceWork s 83
    rw [inPlaceWork, inPlaceWork]
    omega
  rw [inPlaceEmit]
  split
  · exact onAccess_meets (fun _ _ => hwrite rfl) (fun _ => .inr (work_endCommand_lt hseq _ _)) fun _ _ => trivial
  · exact hwrite (sr := s.sr) rfl

theorem inPlaceWrite_progress {fs : List Field} (h : Running p (.ipWrite fs) s) : Progress s (inPlaceWrite fs s) := by
  obtain ⟨hseq, -, -, ⟨-, -, -, hlo, hlen, -⟩, -⟩ := h
  refine (writeFields_progress (fieldsPhase := .ipWrite) (base := fun u => inPlaceWork u 0) emitIo_emitsOnly
    (fun u gs => ?_) (fun u v huv => ?_) hseq).andThen fun written t ht => ?_
  · rfl
  · simp only [inPlaceWork, huv.len, huv.r]
  · cases written with
    | false => exact ht
    | true =>
      refine work_lt hseq (phase' := .ipGate) rfl ?_
      show 100 * (t.ip.len - (t.ip.r + t.sr.y)) + 85 < inPlaceWork s (32 * fs.length + s.bw.cnt + 3)
      rw [inPlaceWork, ht.len, ht.r, ht.sr]
      omega

theorem inPlaceGate_progress (hseq : s.seq = .busy .ipGate) : Progress s (inPlaceGate p s) := by
  rw [inPlaceGate]
  split
  · refine work_lt hseq (phase' := .ipFlush true) rfl ?_
    show 1 < 100 * (s.ip.len - s.ip.r) + 85
    omega
  · exact work_lt hseq (phase' := .ipSearch) rfl (Nat.lt_succ_self _)

theorem inPlaceFlush_progress {gated : Bool} (hseq : s.seq = .busy (.ipFlush gated)) :
    Progress s (inPlaceFlush gated s) :=
  Meets.andThen (done := fun _ _ => True)
    (flushBits_meets (fun _ => trivial) (.inl rfl) fun b _ => emitIo_meets b _ (fun _ => trivial) fun _ => trivial)
    fun _ _ _ => .inr (work_endCommand_lt hseq _ _)

/-! ## Every phase -/

theorem phaseOp_progress (h : Running p phase s) (hv : ∀ c, phase ≠ .vCheck c) : Progress s (phaseOp p phase s) := by
  have hseq := h.1
  have hlegal := h.2.2.1.1
  cases phase with
  | vCheck c => exact absurd rfl (hv c)
  | cInit => exact compressInit_progress hseq
  | cFill => exact fillOp_progress (.inl rfl) h
  | cSearch => exact compressSearch_progress h
  | cEmit => exact compressEmit_progress h
  | cWrite fs => exact compressWrite_progress h
  | cCompact => exact compactOp_progress h
  | cRefill => exact fillOp_progress (.inr rfl) h
  | cFlush => exact compressFlush_progress hseq
  | cFinish | dFinish => exact finishOp_progress hseq
  | dInit => exact decompressInit_progress hseq
  | dFlag | dLit | dMatch => exact decodeTokenOp_progress hlegal (atToken_iff.mpr (by simp [hseq]))
  | dPut b =>
    rw [Progress, work_of_busy hseq]
    refine (litOp_work b s).mono (fun _ _ ht => ht) fun t ht => ht.imp_left fun ht => ?_
    rw [ht, ← hseq]
  | dCopy offset len k =>
    rw [Progress, work_of_busy hseq]
    refine (copyLoop_work offset len (len - k) k s rfl).mono (fun _ _ ht => ht) fun t ht => ht.imp_left fun ht => ?_
    rw [ht, ← hseq]
  | ipCheck => exact inPlaceCheck_progress hseq
  | ipSeed k => exact inPlaceSeed_progress h
  | ipSearch => exact inPlaceSearch_progress hseq
  | ipEmit => exact inPlaceEmit_progress h
  | ipWrite fs => exact inPlaceWrite_progress h
  | ipGate => exact inPlaceGate_progress hseq
  | ipFlush gated => exact inPlaceFlush_progress hseq

theorem coreOp_progress (h : Inv s) (hseq : s.seq = .busy phase) : Progress s (coreOp phase s) := by
  by_cases hv : ∃ c, phase = .vCheck c
  · obtain ⟨c, rfl⟩ := hv
    refine .inr ?_
    unfold validateOp
    split <;> exact work_endCommand_lt hseq _ _
  · have hv : ∀ c, phase ≠ .vCheck c := fun c hc => hv ⟨c, hc⟩
    obtain ⟨p, hps, hrun⟩ := running_of_inv h hseq hv
    exact coreOp_some hps ▸ phaseOp_progress hrun hv

end Sys2Proof.Proofs

/-! A weakly fair run ends its command: the work it has left cannot stay where it is for ever (R272, R283). -/

namespace Sys2Proof.Proofs

open Sys2Proof Sys2Proof.Machine

variable {s t : State} {phase : Phase} {run : Nat → State} {act : Nat → Act}

/-! ## A turn of the core -/

/-- A turn does not add work. -/
theorem work_le_of_runCore {n : Nat} (h : Inv s) (hrun : runCore n s = .next t) : work t ≤ work s := by
  refine (runCore_keeps (P := fun u => work u ≤ work s ∧ Inv u) (fun u phase hseq ⟨hle, hu⟩ => ?_) n s t ⟨le_rfl, h⟩
    hrun).1
  have hnever := meets_never_iff.mp (coreOp_inv hu hseq)
  have hwork : Meets (fun _ v => work v ≤ work s) (fun v => work v ≤ work s) True (coreOp phase u) := by
    refine (coreOp_progress hu hseq).mono (fun _ v hv => (hv.le).trans hle) ?_
    rintro v (rfl | hv)
    · exact hle
    · exact hv.le.trans hle
  exact meets_iff_all.mp (hwork.and_all hnever.1)

/-- A turn lessens the work, or the command waits for a silent channel and nothing changes. -/
theorem coreTurn_progress (h : Inv s) (hseq : s.seq = .busy phase) (hrun : coreTurn s = .next t) :
    work t < work s ∨ t = s ∧ Silent s phase := by
  have hop := coreOp_progress h hseq
  have hinv := coreOp_inv h hseq
  rw [coreTurn, runCore_busy s.quantum hseq] at hrun
  cases hc : coreOp phase s with
  | ok a u =>
    rw [hc] at hop hinv hrun
    exact .inl ((work_le_of_runCore hinv hrun).trans_lt hop)
  | waits u =>
    rw [hc] at hop hrun
    cases hrun
    obtain rfl | hlt := hop
    · obtain ⟨-, -, phase', hseq', hsilent, -⟩ := (coreOp_stopsIn hseq).of_eq hc
      obtain rfl : phase = phase' := by simpa using hseq.symm.trans hseq'
      exact .inr ⟨rfl, hsilent⟩
    · exact .inl hlt
  | ended u =>
    rw [hc] at hop hrun
    cases hrun
    have hfree := (coreOp_stopsIn hseq).ended hc
    obtain rfl | hlt := hop
    · rw [isBusy_busy _ _ hseq] at hfree
      cases hfree
    · exact .inl hlt
  | faulted f => rw [hc] at hrun; cases hrun
  | refused r => rw [hc] at hrun; cases hrun

/-! ## A move of the host or a channel -/

/-- What a move leaves of the channels, a new connection apart: their answers stay, and more may come. -/
structure ChannelsGrow (a : Act) (s t : State) : Prop where
  src : ∃ more, t.src = s.src ++ more ∧ (givesByte a = false → more.countP isByte = 0)
  writes : ∃ more, t.snk.writes = s.snk.writes ++ more
  accepting : s.snk.accepting = true → t.snk.accepting = true
  fin : s.snk.fin ≠ none → t.snk.fin ≠ none

theorem ChannelsGrow.of_eq {a : Act} (hsrc : t.src = s.src) (hsnk : t.snk = s.snk) : ChannelsGrow a s t where
  src := ⟨[], by rw [hsrc, List.append_nil], fun _ => rfl⟩
  writes := ⟨[], by rw [hsnk, List.append_nil]⟩
  accepting h := hsnk ▸ h
  fin h := hsnk ▸ h

theorem hostMove_channelsGrow {a : Act} (hpass : a ≠ .pass) (hsrc : ∀ answers, a ≠ .connectSrc answers)
    (hsnk : ∀ sink, a ≠ .connectSnk sink) (h : hostMove a s = .next t) : ChannelsGrow a s t := by
  cases a with
  | pass => exact absurd rfl hpass
  | connectSrc answers => exact absurd rfl (hsrc answers)
  | connectSnk sink => exact absurd rfl (hsnk sink)
  | srcGives answers =>
    cases h
    refine ⟨⟨answers, rfl, fun hno => ?_⟩, ⟨[], (List.append_nil _).symm⟩, id, id⟩
    rw [List.countP_eq_zero]
    exact List.any_eq_false.mp hno
  | snkGives answers =>
    cases h
    exact ⟨⟨[], (List.append_nil _).symm, fun _ => rfl⟩, ⟨answers, rfl⟩, id, id⟩
  | snkAccepts =>
    cases h
    exact ⟨⟨[], (List.append_nil _).symm, fun _ => rfl⟩, ⟨[], (List.append_nil _).symm⟩, fun _ => rfl, id⟩
  | snkFinishes answer =>
    cases h
    exact ⟨⟨[], (List.append_nil _).symm, fun _ => rfl⟩, ⟨[], (List.append_nil _).symm⟩, id, fun _ => nofun⟩
  | writeConfig w =>
    cases h
    exact .of_eq (hostWriteConfig_src w s) (hostWriteConfig_snk w s)
  | read reg =>
    simp only [hostMove, hostRead] at h
    repeat' split at h
    all_goals cases h
    all_goals exact .of_eq rfl rfl
  | _ =>
    simp only [hostMove] at h
    try split at h
    all_goals cases h
    all_goals exact .of_eq rfl rfl

/-- A channel that is silent after the move was silent before it. -/
theorem ChannelsGrow.silent {a : Act} (h : ChannelsGrow a s t) (hsilent : Silent t phase) : Silent s phase := by
  obtain ⟨more, hsrc, -⟩ := h.src
  obtain ⟨moreW, hwrites⟩ := h.writes
  have hsource : t.src = [] → s.src = [] := fun ht => (List.append_eq_nil_iff.mp (hsrc.symm.trans ht)).1
  have hsink : SinkSilent t.snk → SinkSilent s.snk := fun ⟨hw, hacc⟩ =>
    ⟨(List.append_eq_nil_iff.mp (hwrites.symm.trans hw)).1,
      Bool.eq_false_iff.mpr fun hs => by simp [h.accepting hs] at hacc⟩
  have hfin : t.snk.fin = none → s.snk.fin = none := fun ht => by_contra fun hne => h.fin hne ht
  cases phase with
  | cFill | cRefill | dFlag | dLit | dMatch => exact hsource hsilent
  | cWrite _ | cFlush | dPut _ | dCopy _ _ _ => exact hsink hsilent
  | cFinish | dFinish => exact hfin hsilent
  | _ => exact hsilent

/-! ## A run whose command does not end -/

/-- The command never ends, and from move `M` on the source gives no byte. -/
structure Hangs (run : Nat → State) (act : Nat → Act) (M : Nat) : Prop where
  fair : FairRun run act
  inv : ∀ n, Inv (run n)
  busy : ∀ n, (run n).isBusy = true
  noByte : ∀ n, M ≤ n → givesByte (act n) = false

variable {M : Nat}

/-- A command that runs is not issued: the host has no duty of IoLength (R272). -/
theorem ioLengthIssued_of_busy (h : s.isBusy = true) : ioLengthIssued s := by
  obtain ⟨phase, hseq⟩ := (isBusy_iff s).mp h
  rintro - (hready | hready | hready) <;> cases hseq.symm.trans hready

theorem inv_of_fairRun (hfair : FairRun run act) (hinv : Inv (run 0)) (hbusy : ∀ n, (run n).isBusy = true) (n : Nat) :
    Inv (run n) := by
  induction n with
  | zero => exact hinv
  | succ n ih =>
    have hkept := step_kept (s := { run n with script := [act n] }) ih
      (ioLengthIssued_of_busy (s := { run n with script := [act n] }) (hbusy n))
    rwa [hfair.steps n] at hkept

/-- What a move that does not lessen the work leaves: the phase, a channel no more silent than it was, and at a turn of
the core that channel was silent. -/
structure Idles (run : Nat → State) (act : Nat → Act) (n : Nat) : Prop where
  seq : (run (n + 1)).seq = (run n).seq
  silent : ∀ phase, Silent (run (n + 1)) phase → Silent (run n) phase
  waits : act n = .pass → ∀ phase, (run n).seq = .busy phase → Silent (run n) phase

theorem Hangs.turn (h : Hangs run act M) {n : Nat} (hpass : act n = .pass) :
    work (run (n + 1)) < work (run n) ∨ work (run (n + 1)) = work (run n) ∧ Idles run act n := by
  obtain ⟨phase, hseq⟩ := (isBusy_iff _).mp (h.busy n)
  obtain hlt | ⟨heq, hsilent⟩ :=
    coreTurn_progress (s := { run n with script := [] }) (h.inv n) hseq (h.fair.turn hpass)
  · exact .inl hlt
  · refine .inr ⟨by rw [heq]; rfl, by rw [heq], fun _ hs => ?_, fun _ phase' hseq' => ?_⟩
    · rw [heq] at hs
      exact hs
    · obtain rfl : phase = phase' := by simpa using hseq.symm.trans hseq'
      exact hsilent

/-- A reset would end the command (R270). -/
theorem Hangs.no_reset (h : Hangs run act M) (n : Nat) : act n ≠ .reset := by
  intro hreset
  have hstep := h.fair.steps n
  rw [hreset] at hstep
  have hnext := h.busy (n + 1)
  rw [← Host.Outcome.next.inj hstep] at hnext
  cases hnext

theorem Hangs.move (h : Hangs run act M) {n : Nat} (hn : M ≤ n) (hpass : act n ≠ .pass) :
    work (run (n + 1)) = work (run n) ∧ Idles run act n := by
  have hmove := h.fair.move hpass (h.no_reset n) (h.busy n)
  have hframe := (hostMove_frame hpass (h.no_reset n) hmove).1
  have hgrow := hostMove_channelsGrow hpass (h.fair.connected n).1 (h.fair.connected n).2 hmove
  obtain ⟨more, hsrc, hno⟩ := hgrow.src
  have hbytes : bytesLeft (run (n + 1)) = bytesLeft (run n) := by
    rw [bytesLeft, hsrc, List.countP_append, hno (h.noByte n hn)]
    rfl
  have hseq : (run (n + 1)).seq = (run n).seq := by rw [hframe]
  exact ⟨work_congr hseq (by rw [hframe]) (by rw [hframe]) (by rw [hframe]) (by rw [hframe]) hbytes, hseq,
    fun _ => hgrow.silent, fun hp => absurd hp hpass⟩

theorem Hangs.step (h : Hangs run act M) {n : Nat} (hn : M ≤ n) :
    work (run (n + 1)) < work (run n) ∨ work (run (n + 1)) = work (run n) ∧ Idles run act n := by
  by_cases hpass : act n = .pass
  · exact h.turn hpass
  · exact .inr (h.move hn hpass)

/-- From some move on the work stays as it is. -/
theorem Hangs.idles (h : Hangs run act M) : ∃ N, ∀ n, N ≤ n → Idles run act n := by
  obtain ⟨N, hN, hmin⟩ := (measure fun n => work (run n)).wf.has_min (Set.Ici M) ⟨M, Set.mem_Ici.mpr le_rfl⟩
  have hle : ∀ n, N ≤ n → work (run n) ≤ work (run N) := by
    intro n hn
    induction n, hn using Nat.le_induction with
    | base => exact le_rfl
    | succ n hn ih =>
      obtain hlt | ⟨heq, -⟩ := h.step (le_trans hN hn)
      · exact hlt.le.trans ih
      · exact heq.le.trans ih
  refine ⟨N, fun n hn => ?_⟩
  obtain hlt | ⟨-, hidles⟩ := h.step (le_trans hN hn)
  · exact absurd (hlt.trans_le (hle n hn)) (hmin (n + 1) (le_trans hN (Nat.le_succ_of_le hn)))
  · exact hidles

/-! ## The channels answer -/

/-- SrcAnswers and SnkAnswers (R272): the channel of any phase is ready sooner or later. -/
theorem exists_not_silent (hsrc : srcAnswers run) (hsnk : snkAnswers run) (hbusy : ∀ n, (run n).isBusy = true)
    (phase : Phase) (n : Nat) : ∃ m, n ≤ m ∧ ¬ Silent (run m) phase := by
  obtain ⟨m, hm, hsource⟩ := hsrc n (hbusy n)
  obtain ⟨⟨k, hk, hwrite⟩, l, hl, hfin⟩ := hsnk n (hbusy n)
  cases phase with
  | cFill | cRefill | dFlag | dLit | dMatch => exact ⟨m, hm, hsource (hbusy m)⟩
  | cWrite _ | cFlush | dPut _ | dCopy _ _ _ =>
    refine ⟨k, hk, fun ⟨hwrites, hacc⟩ => ?_⟩
    obtain hw | hw := hwrite (hbusy k)
    · exact hw hwrites
    · simp [hacc] at hw
  | cFinish | dFinish => exact ⟨l, hl, hfin (hbusy l)⟩
  | _ => exact ⟨n, le_rfl, id⟩

/-- A channel that is ready stays so while the work stays as it is, until the next turn finds it silent. -/
theorem not_hangs (h : Hangs run act M) (hsrc : srcAnswers run) (hsnk : snkAnswers run) : False := by
  obtain ⟨N, hidles⟩ := h.idles
  obtain ⟨phase, hseq⟩ := (isBusy_iff _).mp (h.busy N)
  obtain ⟨m, hNm, hready⟩ := exists_not_silent hsrc hsnk h.busy phase N
  obtain ⟨k, hmk, hpass⟩ := h.fair.turns m
  have hphase : ∀ n, N ≤ n → (run n).seq = .busy phase := by
    intro n hn
    induction n, hn using Nat.le_induction with
    | base => exact hseq
    | succ n hn ih => exact (hidles n hn).seq.trans ih
  have hstays : ∀ n, m ≤ n → ¬ Silent (run n) phase := by
    intro n hn
    induction n, hn using Nat.le_induction with
    | base => exact hready
    | succ n hn ih => exact fun hs => ih ((hidles n (le_trans hNm hn)).silent phase hs)
  have hNk := le_trans hNm hmk
  exact hstays k hmk ((hidles k hNk).waits hpass phase (hphase k hNk))

/-- Settles O52: a run that does not end would hang, and no fair run does. -/
theorem fairRunsEnd : Obligations.FairRunsEnd := by
  intro run act hfair hinv ⟨M, hfinite⟩ hsrc hsnk
  by_contra hends
  have hbusy : ∀ n, (run n).isBusy = true := fun n => (Bool.eq_false_or_eq_true _).resolve_right fun hf => hends ⟨n, hf⟩
  exact not_hangs ⟨hfair, inv_of_fairRun hfair hinv hbusy, hbusy, hfinite⟩ hsrc hsnk

end Sys2Proof.Proofs

/-! The order of a command's transactions: SnkFinish and a failed one come last, and end the command (R64, R242 to
R245). -/

namespace Sys2Proof.Proofs

open Sys2Proof Sys2Proof.Machine

variable {α : Type} {p : ParamSet} {s t u : State} {phase : Phase} {emit : Byte → State → Res Unit}

/-! ## Transactions that go on, and a last one -/

/-- A transaction after which a command goes on: neither a SnkFinish nor one answered Err. -/
def GoesOn : Event → Prop
  | .snkFinish _ | .snkWrite _ (.err _) | .srcRead (.err _) => False
  | _ => True

/-- From `s` to `t` there are only transactions after which a command goes on. -/
def Continues (s t : State) : Prop := ∃ es, t.history = es ++ s.history ∧ ∀ e ∈ es, GoesOn e

/-- From `s` to `t` all transactions but the newest are such, and in a command still running the newest is too. -/
def Orderly (s t : State) : Prop :=
  (∃ es, t.history = es ++ s.history ∧ ∀ e ∈ es.tail, GoesOn e) ∧ (t.isBusy = true → Continues s t)

theorem Continues.of_eq (h : t.history = s.history) : Continues s t := ⟨[], h, nofun⟩

theorem Continues.of_cons {e : Event} (h : t.history = e :: s.history) (he : GoesOn e) : Continues s t :=
  ⟨[e], h, by simpa using he⟩

theorem Continues.trans (h : Continues s t) (h' : Continues t u) : Continues s u := by
  obtain ⟨es, hes, hgo⟩ := h
  obtain ⟨fs, hfs, hgo'⟩ := h'
  exact ⟨fs ++ es, by rw [hfs, hes, List.append_assoc], List.forall_mem_append.mpr ⟨hgo', hgo⟩⟩

theorem Continues.orderly (h : Continues s t) : Orderly s t := by
  obtain ⟨es, hes, hgo⟩ := id h
  exact ⟨⟨es, hes, fun e he => hgo e (List.mem_of_mem_tail he)⟩, fun _ => h⟩

/-- A transaction that ends the command. -/
theorem orderly_of_cons {e : Event} (h : t.history = e :: s.history) (hfree : t.isBusy = false) : Orderly s t :=
  ⟨⟨[e], h, nofun⟩, fun hbusy => by simp [hfree] at hbusy⟩

theorem Continues.trans_orderly (h : Continues s t) (h' : Orderly t u) : Orderly s u := by
  obtain ⟨⟨fs, hfs, hgo'⟩, hbusy⟩ := h'
  refine ⟨?_, fun hu => h.trans (hbusy hu)⟩
  obtain ⟨es, hes, hgo⟩ := h
  refine ⟨fs ++ es, by rw [hfs, hes, List.append_assoc], ?_⟩
  cases fs with
  | nil => exact fun e he => hgo e (List.mem_of_mem_tail he)
  | cons f fs => exact List.forall_mem_append.mpr ⟨hgo', hgo⟩

/-- The operation's transactions are in order. -/
abbrev InOrder (s : State) (r : Res α) : Prop := Meets (fun _ => Continues s) (Orderly s) True r

theorem InOrder.after {r : Res α} (h : Continues s t) (hr : InOrder t r) : InOrder s r :=
  hr.mono (fun _ _ => h.trans) fun _ => h.trans_orderly

theorem orderly_endCommand (e : Ending) (h : Continues s t) : Orderly s (endCommand e t) :=
  Continues.orderly (t := endCommand e t) h

theorem isBusy_endCommand (e : Ending) (s : State) : (endCommand e s).isBusy = false := by cases e <;> rfl

/-- A memory access makes no transaction. -/
theorem onAccess_inOrder {β : Type} {access : Except MemStop β} {next : β → Res α} (h : Continues s t)
    (hnext : ∀ a, access = .ok a → InOrder s (next a)) : InOrder s (onAccess access t next) :=
  onAccess_meets hnext (fun _ => orderly_endCommand _ h) fun _ _ => trivial

/-! ## EMIT and the writer -/

/-- EMIT keeps the order, and the pending bits. -/
abbrev EmitsInOrder (emit : Byte → State → Res Unit) : Prop :=
  ∀ b s, Meets (fun _ t => Continues s t ∧ t.bw = s.bw) (Orderly s) True (emit b s)

theorem emitSink_inOrder : EmitsInOrder emitSink := by
  intro b s
  obtain ⟨t, hr, hw⟩ | ⟨hr, -⟩ | ⟨e, t, hr, hw⟩ := emitSink_cases b s <;> rw [hr]
  · have ht := (snkWrite_got hw).1
    exact ⟨.of_cons (e := .snkWrite b .ok) (by rw [ht]) trivial, by rw [ht]⟩
  · exact Continues.orderly (.of_eq rfl)
  · have ht := (snkWrite_got hw).1
    exact orderly_of_cons (e := .snkWrite b (.err e)) (by rw [endCommand_history, ht]) (isBusy_endCommand _ t)

theorem emitIo_inOrder : EmitsInOrder emitIo := fun b s =>
  emitIo_meets b s (fun _ => ⟨.of_cons (e := .ioWrite s.ip.out b) rfl trivial, rfl⟩) fun _ => trivial

theorem EmitsInOrder.keeps (hemit : EmitsInOrder emit) (s : State) :
    EmitKeeps emit (Continues s) (Orderly s) True := fun b u hu _ =>
  (hemit b { u with bw := { u.bw with cnt := u.bw.cnt - 8 } }).mono
    (fun _ t ⟨ht, hbw⟩ => ⟨Continues.trans hu ht, by rw [hbw]⟩) fun t ht => Continues.trans_orderly hu ht

theorem writeFields_inOrder {fieldsPhase : List Field → Phase} (hemit : EmitsInOrder emit) (fs : List Field)
    (s : State) : InOrder s (writeFields emit fieldsPhase fs s) := by
  refine (writeFields_meets (I := fun _ => Continues s) (fun _ => hemit.keeps s) (fun _ _ hu => hu.orderly)
    (fun _ _ _ _ => .inr trivial) (fun _ _ _ hu _ _ => hu) fs s (.of_eq rfl)).mono (fun written t ht => ?_)
    fun _ ht => ht
  cases written with
  | true => exact ht.1
  | false => exact ht.choose_spec

theorem flushBits_inOrder (hemit : EmitsInOrder emit) (s : State) : InOrder s (flushBits emit s) :=
  flushBits_meets (fun _ => .of_eq rfl) (Continues.orderly (.of_eq rfl)) fun b _ =>
    (hemit b { s with bw := { s.bw with cnt := 0 } }).mono (fun _ _ ht => ht.1) fun _ ht => ht

/-! ## SrcRead and the reader -/

/-- What a SrcRead adds to the trace. -/
theorem srcRead_history {a : SrcAnswer} (h : srcRead s = .got a t) : t.history = .srcRead a :: s.history := by
  rw [(srcRead_got h).1]

theorem fillBits_inOrder (len fuel : Nat) (s : State) : InOrder s (fillBits len fuel s) := by
  induction fuel generalizing s with
  | zero => exact .of_eq rfl
  | succ fuel ih =>
    rw [fillBits]
    split
    · cases hread : srcRead s with
      | waits => exact Continues.orderly (.of_eq rfl)
      | got a t =>
        have hhistory := srcRead_history hread
        cases a with
        | byte b => exact InOrder.after (.of_cons hhistory trivial) (ih _)
        | endOfData => exact .of_cons hhistory trivial
        | err e => exact orderly_of_cons hhistory (isBusy_endCommand _ t)
    · exact .of_eq rfl

theorem readBits_inOrder (len : Nat) (s : State) : InOrder s (readBits len s) := by
  rw [readBits]
  split
  · refine (fillBits_inOrder len len s).andThen fun enough t ht => ?_
    cases enough <;> exact ht
  · trivial

theorem fetchPayload_inOrder (flag : Nat) (s : State) : InOrder s (fetchPayload p flag s) :=
  (readBits_inOrder _ s).andThen fun _ _ ht => ht

theorem fetchToken_inOrder (s : State) : InOrder s (fetchToken p s) := by
  rw [fetchToken]
  split
  · exact fetchPayload_inOrder 1 s
  · split
    · exact fetchPayload_inOrder 0 s
    · refine (readBits_inOrder 1 s).andThen fun flag t ht => ?_
      cases flag with
      | none => exact ht
      | some v => exact InOrder.after ht (fetchPayload_inOrder v { t with seq := _ })

/-! ## LIT and MATCH -/

theorem putByte_inOrder (b : Byte) (s : State) : InOrder s (putByte p b s) := by
  refine (emitSink_inOrder b s).andThen fun _ t ⟨ht, _⟩ => onAccess_inOrder ht fun u hu => ?_
  rw [(winWrite_ok.mp hu).2]
  exact ht

theorem litOp_inOrder (b : Byte) (s : State) : InOrder s (litOp p b s) := by
  have hput := putByte_inOrder (p := p) b s
  have hstops := putByte_stopsIn (p := p) b s
  rw [litOp]
  generalize putByte p b s = r at hput hstops ⊢
  cases r with
  | waits t =>
    obtain ⟨rfl, -⟩ := hstops
    exact Continues.orderly (.of_eq rfl)
  | _ => exact hput

theorem copyLoop_inOrder (offset len left k : Nat) (s : State) : InOrder s (copyLoop p offset len left k s) := by
  induction left generalizing k s with
  | zero => exact .of_eq rfl
  | succ left ih =>
    rw [copyLoop]
    refine onAccess_inOrder (.of_eq rfl) fun c _ => ?_
    have hput := putByte_inOrder (p := p) c s
    have hstops := putByte_stopsIn (p := p) c s
    generalize putByte p c s = r at hput hstops ⊢
    cases r with
    | ok a t => exact InOrder.after hput (ih (k + 1) t)
    | waits t =>
      obtain ⟨rfl, -⟩ := hstops
      exact Continues.orderly (.of_eq rfl)
    | _ => exact hput

theorem decodeTokenOp_inOrder (s : State) : InOrder s (decodeTokenOp p s) := by
  refine (fetchToken_inOrder s).andThen fun i t ht => ?_
  rcases i with _ | i
  · exact ht
  · cases i with
    | lit b => exact InOrder.after ht (litOp_inOrder b t)
    | matchTok offset len => exact InOrder.after ht (copyLoop_inOrder offset len len 0 t)
    | _ => trivial

/-! ## Every phase -/

theorem fillOp_inOrder (s : State) : InOrder s (fillOp p s) := by
  rw [fillOp]
  split
  · cases hread : srcRead s with
    | waits => exact Continues.orderly (.of_eq rfl)
    | got a t =>
      have hhistory := srcRead_history hread
      cases a with
      | byte b =>
        have ht : Continues s t := .of_cons hhistory trivial
        refine onAccess_inOrder ht fun u hu => ?_
        rw [(winWrite_ok.mp hu).2]
        exact ht
      | endOfData => exact .of_cons hhistory trivial
      | err e => exact orderly_of_cons hhistory (isBusy_endCommand _ t)
  · exact .of_eq rfl

theorem finishOp_inOrder (s : State) : InOrder s (finishOp s) := by
  rcases hfin : s.snk.fin with _ | ⟨o⟩ | ⟨e⟩
  · rw [finishOp_silent hfin]
    exact Continues.orderly (.of_eq rfl)
  · rw [finishOp_ok hfin]
    exact orderly_of_cons rfl (isBusy_endCommand _ _)
  · rw [finishOp_err hfin]
    exact orderly_of_cons rfl (isBusy_endCommand _ _)

theorem phaseOp_inOrder (phase : Phase) (s : State) : InOrder s (phaseOp p phase s) := by
  have hsame : Continues s s := .of_eq rfl
  cases phase with
  | vCheck c => exact Continues.orderly (.of_eq (validateOp_history c s))
  | cInit =>
    rw [phaseOp, compressInit]
    split
    · exact orderly_endCommand _ hsame
    · exact hsame
  | cFill | cRefill => exact fillOp_inOrder s
  | cSearch =>
    rw [phaseOp, compressSearch]
    split
    · exact onAccess_inOrder hsame fun _ _ => hsame
    · exact hsame
  | cEmit =>
    rw [phaseOp, compressEmit]
    split
    · exact onAccess_inOrder hsame fun _ _ => hsame
    · exact hsame
  | cWrite fs =>
    refine (writeFields_inOrder emitSink_inOrder fs s).andThen fun written t ht => ?_
    cases written <;> exact ht
  | cCompact =>
    rw [phaseOp, compactOp]
    split
    · trivial
    · exact hsame
  | cFlush => exact (flushBits_inOrder emitSink_inOrder s).andThen fun _ _ ht => ht
  | cFinish | dFinish => exact finishOp_inOrder s
  | dInit =>
    rw [phaseOp, decompressInit]
    split
    · exact orderly_endCommand _ hsame
    · exact hsame
  | dFlag | dLit | dMatch => exact decodeTokenOp_inOrder s
  | dPut b => exact litOp_inOrder b s
  | dCopy offset len k => exact copyLoop_inOrder offset len (len - k) k s
  | ipCheck =>
    rw [phaseOp, inPlaceCheck]
    split
    · exact orderly_endCommand _ hsame
    · split
      · exact orderly_endCommand _ hsame
      · exact hsame
  | ipSeed k =>
    rw [phaseOp, inPlaceSeed]
    split
    · refine onAccess_inOrder hsame fun t ht => ?_
      rw [(ioWrite_ok.mp ht).2]
      exact .of_cons (e := .ioWrite _ p.c) rfl trivial
    · exact hsame
  | ipSearch =>
    rw [phaseOp, inPlaceSearch]
    split
    · exact onAccess_inOrder hsame fun _ _ => hsame
    · exact hsame
  | ipEmit =>
    rw [phaseOp, inPlaceEmit]
    split
    · exact onAccess_inOrder hsame fun _ _ => hsame
    · exact hsame
  | ipWrite fs =>
    refine (writeFields_inOrder emitIo_inOrder fs s).andThen fun written t ht => ?_
    cases written <;> exact ht
  | ipGate =>
    rw [phaseOp, inPlaceGate]
    split <;> exact hsame
  | ipFlush gated =>
    exact (flushBits_inOrder emitIo_inOrder s).andThen fun _ _ ht => orderly_endCommand _ ht

theorem coreOp_inOrder (phase : Phase) (s : State) : InOrder s (coreOp phase s) := by
  cases hps : s.ps with
  | some p => exact coreOp_some hps ▸ phaseOp_inOrder phase s
  | none =>
    by_cases hv : ∃ c, phase = .vCheck c
    · obtain ⟨c, rfl⟩ := hv
      exact phaseOp_inOrder (p := tableParams) (.vCheck c) s
    · rw [coreOp_none hps fun c hc => hv ⟨c, hc⟩]
      trivial

/-! ## A turn -/

/-- In a turn the transactions are in order: while the command runs on, none was its last. -/
theorem runCore_orderly {n : Nat} (hrun : runCore n s = .next t) : Orderly s t := by
  refine runCore_keeps (P := Orderly s) (fun u phase hseq hu => ?_) n s t (Continues.orderly (.of_eq rfl)) hrun
  have hgoes := hu.2 (isBusy_busy u phase hseq)
  exact meets_iff_all.mp ((coreOp_inOrder phase u).mono (fun _ _ ht => (hgoes.trans ht).orderly) fun _ ht =>
    hgoes.trans_orderly ht)

/-- The events of a command that goes on hold no SnkFinish and no Err. -/
theorem none_of_goesOn {es : List Event} (h : ∀ e ∈ es, GoesOn e) :
    (∀ x, .snkFinish x ∉ es) ∧ (∀ b e, .snkWrite b (.err e) ∉ es) ∧ ∀ e, .srcRead (.err e) ∉ es :=
  ⟨fun _ hmem => h _ hmem, fun _ _ hmem => h _ hmem, fun _ hmem => h _ hmem⟩

/-- What R245 says of the trace, oldest transaction first. -/
theorem Orderly.trace (h : Orderly s t) :
    ∃ es, t.trace = s.trace ++ es ∧
      (∀ before a after, es = before ++ .snkFinish a :: after →
        after = [] ∧ (∀ b e, .snkWrite b (.err e) ∉ before) ∧ (∀ e, .srcRead (.err e) ∉ before) ∧
          ∀ x, .snkFinish x ∉ before) ∧
      (t.isBusy = true →
        (∀ x, .snkFinish x ∉ es) ∧ (∀ b e, .snkWrite b (.err e) ∉ es) ∧ ∀ e, .srcRead (.err e) ∉ es) := by
  obtain ⟨⟨es, hes, htail⟩, hbusy⟩ := h
  refine ⟨es.reverse, by rw [State.trace, State.trace, hes, List.reverse_append], ?_, fun hb => ?_⟩
  · intro before a after hsplit
    have hes' : es = after.reverse ++ .snkFinish a :: before.reverse := by
      rw [← List.reverse_reverse es, hsplit]
      simp
    rw [hes'] at htail
    rcases hafter : after.reverse with _ | ⟨x, xs⟩
    · rw [hafter] at htail
      obtain ⟨hfinish, hwrite, hread⟩ := none_of_goesOn (es := before) fun e he => htail e (List.mem_reverse.mpr he)
      exact ⟨List.reverse_eq_nil_iff.mp hafter, hwrite, hread, hfinish⟩
    · rw [hafter] at htail
      exact (htail (.snkFinish a) (List.mem_append_right xs List.mem_cons_self)).elim
  · obtain ⟨fs, hfs, hgo⟩ := hbusy hb
    obtain rfl : fs = es := List.append_cancel_right (hfs.symm.trans hes)
    exact none_of_goesOn fun e he => hgo e (List.mem_reverse.mp he)

/-- Settles O45: the turn of the CMD write and a turn that resumes are in order, and the three answers of SnkFinish.
IoLength is not needed. -/
theorem finishComesLastAndOnlyAfterSuccess : Obligations.FinishComesLastAndOnlyAfterSuccess := by
  refine ⟨fun s t i hi hready hexec => ?_, fun s t _ _ _ hscript hstep => ?_,
    fun s => ⟨fun o => finishOp_ok, fun e => finishOp_err, finishOp_silent⟩⟩
  · obtain rfl | rfl := hi
    · obtain ⟨p, hps⟩ := exec_next_ps hready (i := .compress) rfl nofun hexec
      exact (runCore_orderly (s := accepted 0b01#2 .cInit s.quantum s)
        ((exec_compress_eq_runCore s.quantum hready (by simp [hps])).symm.trans hexec)).trace
    · obtain ⟨p, hps⟩ := exec_next_ps hready (i := .decompress) rfl nofun hexec
      exact (runCore_orderly (s := accepted 0b10#2 .dInit s.quantum s)
        ((exec_decompress_eq_runCore s.quantum hready (by simp [hps])).symm.trans hexec)).trace
  · rw [step, hscript] at hstep
    exact (runCore_orderly hstep).trace

end Sys2Proof.Proofs

/-! Commands that fail: a source error, a window RAM that is too small, and the quiet of FAULT (R242, R244, R246,
R254). -/

namespace Sys2Proof.Proofs

open Sys2Proof Sys2Proof.Machine

variable {p : ParamSet} {s t : State}

/-! ## A source error (R242) -/

theorem readBits_of_ended {len : Nat} (hlen : 1 ≤ len ∧ len ≤ 24) (h : fillBits len len s = .ended t) :
    readBits len s = .ended t := by
  rw [readBits, if_pos (show 1 ≤ len ∧ len ≤ Config.maxField from hlen), h]
  rfl

/-- The loop of READ_BITS ends the command where the source answers Err. -/
theorem fillBits_of_err {len fuel : Nat} {e : ErrR} {rest : List SrcAnswer} (hcnt : s.br.cnt < len) (hfuel : fuel ≠ 0)
    (hsrc : s.src = .err e :: rest) :
    fillBits len fuel s =
      .ended (endCommand (.readError e) { s with src := rest, history := .srcRead (.err e) :: s.history }) := by
  obtain ⟨fuel, rfl⟩ := Nat.exists_eq_succ_of_ne_zero hfuel
  rw [fillBits, if_pos hcnt, srcRead_err hsrc]

/-- Settles O19: in READ_BITS the bytes before the Err, and then the Err. -/
theorem sourceErrorEndsTheCommand : Obligations.SourceErrorEndsTheCommand := by
  refine ⟨fun _ _ _ _ => fillOp_err, fun s len bs e rest hpos hle hsrc hshort => ?_⟩
  refine ⟨bs.foldl pushByte s.br, readBits_of_ended ⟨hpos, hle⟩ ?_⟩
  refine (fillBits_of_bytes hsrc (by omega) (by omega)).trans (fillBits_of_err ?_ (by omega) rfl)
  dsimp only
  rw [foldl_pushByte_cnt]
  exact hshort

/-! ## A window RAM that is too small (R246) -/

theorem coreOp_cInit_small (hps : s.ps = some p) (hsmall : s.build.wbufBytes < 2 * p.n) :
    coreOp .cInit s = .ended (endCommand .bufferTooSmall s) := by
  rw [coreOp_some hps, phaseOp, compressInit, if_pos hsmall]

theorem coreOp_dInit_small (hps : s.ps = some p) (hsmall : s.build.wbufBytes < p.n) :
    coreOp .dInit s = .ended (endCommand .bufferTooSmall s) := by
  rw [coreOp_some hps, phaseOp, decompressInit, if_pos hsmall]

/-- Settles O34: the first operation of either command ends it. -/
theorem smallWindowFaults : Obligations.SmallWindowFaults := by
  intro s p hready hps hquantum
  have hne : s.ps ≠ none := by simp [hps]
  refine ⟨fun hsmall => ?_, fun hsmall => ?_⟩
  · have hend := coreOp_cInit_small (s := accepted 0b01#2 .cInit s.quantum s) hps hsmall
    exact ⟨_, (exec_compress_eq_runCore s.quantum hready hne).trans ((Runs.refl _).ends rfl hend hquantum),
      rfl, rfl, rfl, rfl⟩
  · have hend := coreOp_dInit_small (s := accepted 0b10#2 .dInit s.quantum s) hps hsmall
    exact ⟨_, (exec_decompress_eq_runCore s.quantum hready hne).trans ((Runs.refl _).ends rfl hend hquantum),
      rfl, rfl, rfl, rfl⟩

/-! ## FAULT (R246, R254) -/

/-- In FAULT a turn of the core does nothing. -/
theorem coreTurn_fault (h : s.seq = .fault) : coreTurn s = .next s := runCore_free _ (by simp [h])

/-- In FAULT a CMD write is ignored (R220). -/
theorem exec_decodeCmd_fault (code : BitVec 2) (h : s.seq = .fault) : exec (decodeCmd code) s = .next s :=
  (issueTurnsCommandsAway s _ code (cmdCode_decodeCmd code)).2.1 h

/-- Settles O53: a CMD write is ignored, a turn does nothing, and no other move but a reset reaches the core. -/
theorem faultIsQuiescent : Obligations.FaultIsQuiescent := by
  intro s t hfault hstep hreset
  obtain ⟨code, rest, -, h⟩ | ⟨a, rest, hscript, -, h⟩ | ⟨-, h⟩ := step_cases s <;> rw [h] at hstep
  · cases (exec_decodeCmd_fault (s := { s with script := rest }) code hfault).symm.trans hstep
    exact ⟨hfault, rfl, rfl, rfl, rfl, rfl⟩
  · by_cases hpass : a = .pass
    · subst hpass
      cases (coreTurn_fault (s := { s with script := rest }) hfault).symm.trans hstep
      exact ⟨hfault, rfl, rfl, rfl, rfl, rfl⟩
    · obtain ⟨hframe, hcmd, -⟩ := hostMove_frame hpass (fun ha => hreset rest (ha ▸ hscript)) hstep
      rw [hframe]
      exact ⟨hfault, rfl, rfl, rfl, rfl, hcmd⟩
  · cases (coreTurn_fault hfault).symm.trans hstep
    exact ⟨hfault, rfl, rfl, rfl, rfl, rfl⟩

end Sys2Proof.Proofs

/-! The size of a compressed stream (R284): no token takes more than 9 bits a byte it stands for. -/

namespace Sys2Proof.Proofs

open Sys2Proof Sys2Proof.Machine

variable {p : ParamSet} {data : List Byte} {r : Nat} {i : Instr}

/-- A literal takes 9 bits for one byte; a match takes `1 + EI + EJ` bits for more than `(1 + EI + EJ) / 9` bytes,
which is why P is the length up to which a literal is chosen (R121, R182). -/
theorem IsChosen.encode_length_le (h : IsChosen p data r i) (hp : 1 ≤ p.p) :
    (encode p i).length ≤ 9 * tokenSpan i := by
  have hwf := (h.wf hp).2
  obtain rfl | ⟨x, len, rfl, hlong, -⟩ := h.lit_or_match hp
  · rw [encode_lit, List.length_cons, byteBits_length]
    exact le_rfl
  · obtain ⟨-, -, hcode⟩ := matchTok_bounds hwf
    rw [encode_matchTok _ hcode, List.length_cons, List.length_append, bitsOf_length, bitsOf_length,
      tokenSpan_matchTok]
    rw [ParamSet.p] at hlong
    omega

/-- The bits of the reference tokens, at most 9 for each input byte. -/
theorem compressTokens_bits_le (hp : 1 ≤ p.p) :
    ((compressTokens p data).flatMap (encode p)).length ≤ 9 * data.length := by
  suffices h : ((compressTokens p data).flatMap (encode p)).length + 9 * p.dict ≤ 9 * (p.dict + data.length) by omega
  refine compressTokens_induction (P := fun r ts => (ts.flatMap (encode p)).length + 9 * r ≤ 9 * (p.dict + data.length))
    hp (by simp) fun r i ts _ _ hi ih => ?_
  have htoken := hi.encode_length_le hp
  rw [List.flatMap_cons, List.length_append]
  omega

/-- Settles O43: at most 9 bits an input byte, and the padding of the last byte adds at most 7. -/
theorem compressedSizeBound : Obligations.CompressedSizeBound := by
  intro idxW p data hlegal
  have hbits := compressTokens_bits_le (data := data) (ParamSet.p_range hlegal).1
  obtain ⟨k, hk, -, hlen⟩ := packBytes_bits ((compressTokens p data).flatMap (encode p))
  rw [encodeStream, hlen]
  omega

end Sys2Proof.Proofs
